-- ==== Sys2Proof/Word.lean ====
section
/-! DEFINITION. The word types: bytes of the two serial lines and the 16-bit check of R174. Quantities (lengths, speeds,
times, counts) are natural numbers, as the manual computes them exactly; only what is sent on a line is a word. -/

namespace Sys2Proof

/-- A byte on the host line or the section line. -/
abbrev Byte := BitVec 8

/-- The 16-bit check of both lines (R174). -/
abbrev Check := BitVec 16

end Sys2Proof
end

