-- ==== Sys2Proof/Syntax.lean ====
section
/-! DEFINITION. The commands: one constructor for each row of spec/opcode_table.json, and the operand types they carry. -/

namespace Sys2Proof

/-- The five unwind stands. -/
inductive Stand where
  | s1 | s2 | s3 | s4 | s5
deriving DecidableEq, Repr

/-- The two slitter-scorer stations. -/
inductive Station where
  | a | b
deriving DecidableEq, Repr

/-- The actions that may fall due at one advance of the odometer (R3). Each belongs to the block named; where several fall due
at the same advance the manual gives no order among blocks. -/
inductive AdvancePhase where
  | clearing          -- line supervisor, R22
  | cut               -- cut controller, R147, R148
  | orderEnding       -- cut controller, R42
  | orderRunning      -- cut controller, R41
  | gateDecisions     -- sheet router, R152
  | markSweep         -- planner, R62: marks of board in no zone
  | glue              -- conditioning unit, R125
  | swap              -- cut controller, R139
  | swapLastCall      -- cut controller, R29
  | approach          -- line supervisor, R26
  | commit            -- boundary planner, R65
  | queueEnd          -- boundary planner, R76
  | spliceArm         -- splice planner, R108
  | spliceDue (s : Stand)   -- splice planner, R109
  | spliceReady       -- splice planner, R107
  | reelOut           -- reel stand monitor, R94
deriving DecidableEq, Repr

/-- The actions of one gate period end, after the measured speed is set (R6). -/
inductive GatePhase where
  | encoderLoss       -- web measurement unit, R9
  | ramp              -- line supervisor, R27 and the standstill count of R19
  | approach          -- line supervisor, R26
  | swapLastCall      -- cut controller, R29
  | queueEnd          -- boundary planner, R76
  | spliceArm         -- splice planner, R108
  | spliceReady       -- splice planner, R107
  | setpoints         -- conditioning unit, R126
deriving DecidableEq, Repr

/-- What a frame on the section line carries beside its kind (section frame envelope): address, transaction number, payload
and check. The start mark and the length are implied. -/
structure Answer where
  address : Byte
  txn     : Byte
  payload : List Byte
  check   : Check
deriving DecidableEq, Repr

/-- The commands of the part, one constructor for each row of the table. A request command is the host line interface taking
the oldest frame of the holding area; its operands are in that frame (R176). -/
inductive Instr where
  | powerOn (resetLow : Bool)
  | resetPin
  | encoderPulse (knifeReady : Bool) (order : List AdvancePhase)
  | gatePeriodEnd (order : List GatePhase)
  | hostFrameReceived (bytes : List Byte)
  | hostByteGapTimeout (b : Byte)
  | replySent
  | unknownKind
  | identify
  | status (knifeReady service : Bool)
  | readEvents
  | start
  | hold
  | resume
  | emergencyStop
  | clearTrip
  | releaseLockout
  | setSpeed
  | addOrder
  | amendOrder
  | cancelOrder
  | queryOrder
  | listOrders
  | queryWebMap
  | defineGrade
  | defineTable
  | queryGrade
  | queryTable
  | assignReel
  | clearReel
  | spliceNow
  | queryStand
  | sectionOffline
  | sectionOnline
  | ackFaults
  | readProfile
  | writeProfileItem
  | saveProfile
  | freezeGeometry
  | unfreezeGeometry (service : Bool)
  | restartPart
  | storeWriteDone (readBackGood : Bool)
  | tripRecordWriteDone
  | linkSilent
  | airRechargeEnd
  | spliceResultTimeout
  | setTimeout (x : Station)
  | engageTimeout (x : Station)
  | stackChangeTimeout
  | temperatureStale
  | sectionTransactionStart
  | answerDeadline
  | sectionFrameIgnored (kind : Byte) (a : Answer)
  | initReply (a : Answer)
  | pollAnswer (a : Answer)
  | fireAcknowledged (a : Answer)
  | setAnswer (a : Answer)
  | engageAnswer (a : Answer)
  | changeStackAnswer (a : Answer)
  | setpointsAnswer (a : Answer)
  | resetRelease
  | hostByteReceived (b : Byte)
deriving DecidableEq, Repr

end Sys2Proof
end

