-- ==== Sys2Proof/Decode.lean ====
section
/-! DEFINITION. The command a word of the opcode table spells. No row of spec/opcode_table.json gives bits (every row's fields
are empty), so no word spells a command. What the host line's bytes spell is R175 and R176, in Machine/HostLine.lean. -/

namespace Sys2Proof

/-- The command that the table's bits spell: the table gives no row any bits. -/
def decodeTableWord (_nbits _w : Nat) : Option Instr := none

end Sys2Proof
end

