-- ==== Sys2Proof/Config.lean ====
section
/-! DEFINITION. What the part fixes for good (the sizes of its collections) and the free values: what the manual leaves
without a value. A free value is an opaque constant: nothing in Lean can evaluate it. -/

namespace Sys2Proof.Config

/-- The value W takes when an advance falls with W at 2^48 - 1 (R2 gives the 48 bits and no value beyond them). FREE. -/
opaque odometerPastRange : Nat → Nat

/-- The value the non-order rejects take when one more is counted at 4,294,967,295 (the range of chapter 9). FREE. -/
opaque nonOrderPastRange : Nat → Nat

/-- Largest value of the 48-bit odometer (R2). -/
def odometerMax : Nat := 281474976710655

/-- Largest value of the non-order rejects count (chapter 9). -/
def nonOrderMax : Nat := 4294967295

/-- Orders the queue holds at most (R36). -/
def orderCapacity : Nat := 24

/-- Completion records kept (R53). -/
def recentCapacity : Nat := 8

/-- Zones the web map holds at most (R58). -/
def zoneCapacity : Nat := 48

/-- Marks at which the arbiter withholds the supply (R110, R117). -/
def grantMarks : Nat := 12

/-- Routes the list holds at most (R167). -/
def routeCapacity : Nat := 64

/-- Frames the holding area holds at most (R175). -/
def holdingCapacity : Nat := 4

/-- Event records the queue holds at most (R179). -/
def eventCapacity : Nat := 128

/-- Milliseconds in a gate period (R6 chapter text). -/
def gateMs : Nat := 100

/-- Milliseconds allowed for a splice result (R113, R114). -/
def resultMs : Nat := 2000

/-- Age in milliseconds beyond which the plate temperature is stale (R127). -/
def staleMs : Nat := 10000

/-- Milliseconds allowed for an answer on the section line (R164). -/
def answerMs : Nat := 25

/-- Milliseconds allowed between two bytes of a host frame (R175). -/
def byteGapMs : Nat := 5

end Sys2Proof.Config
end

