-- ==== Sys2Proof/Machine/State.lean ====
section
/-! DEFINITION. The machine's state: every piece of state the spec gives the part, grouped by the block that owns it, as plain
data; the queue of waiting commands; and the state after reset. INVENTORY.md lists each item with its rule. -/

namespace Sys2Proof.Machine

/-! ### Families indexed by stand, station and arm -/

/-- One value for each unwind stand. -/
structure PerStand (α : Type) where
  s1 : α
  s2 : α
  s3 : α
  s4 : α
  s5 : α
deriving DecidableEq, Repr

/-- The value of stand `i`. -/
def PerStand.get {α : Type} (p : PerStand α) : Stand → α
  | .s1 => p.s1
  | .s2 => p.s2
  | .s3 => p.s3
  | .s4 => p.s4
  | .s5 => p.s5

/-- `p` with stand `i`'s value replaced. -/
def PerStand.set {α : Type} (p : PerStand α) (i : Stand) (x : α) : PerStand α :=
  match i with
  | .s1 => { p with s1 := x }
  | .s2 => { p with s2 := x }
  | .s3 => { p with s3 := x }
  | .s4 => { p with s4 := x }
  | .s5 => { p with s5 := x }

/-- The same value for every stand. -/
def PerStand.same {α : Type} (x : α) : PerStand α := ⟨x, x, x, x, x⟩

/-- The values in stand order. -/
def PerStand.toList {α : Type} (p : PerStand α) : List α := [p.s1, p.s2, p.s3, p.s4, p.s5]

/-- A family given stand by stand. -/
def PerStand.of {α : Type} (f : Stand → α) : PerStand α := ⟨f .s1, f .s2, f .s3, f .s4, f .s5⟩

/-- Some stand's value is true. -/
def PerStand.any (p : PerStand Bool) : Bool := p.s1 || p.s2 || p.s3 || p.s4 || p.s5

/-- The stands in ascending number. -/
def stands : List Stand := [.s1, .s2, .s3, .s4, .s5]

/-- One value for each slitter-scorer station. -/
structure PerStation (α : Type) where
  a : α
  b : α
deriving DecidableEq, Repr

/-- The value of station `i`. -/
def PerStation.get {α : Type} (p : PerStation α) : Station → α
  | .a => p.a
  | .b => p.b

/-- `p` with station `i`'s value replaced. -/
def PerStation.set {α : Type} (p : PerStation α) (i : Station) (x : α) : PerStation α :=
  match i with
  | .a => { p with a := x }
  | .b => { p with b := x }

/-- Some station's value is true. -/
def PerStation.any (p : PerStation Bool) : Bool := p.a || p.b

/-- The two arms of a stand. -/
inductive Arm where
  | a | b
deriving DecidableEq, Repr

/-- One value for each arm. -/
structure PerArm (α : Type) where
  a : α
  b : α
deriving DecidableEq, Repr

/-- The value of arm `i`. -/
def PerArm.get {α : Type} (p : PerArm α) : Arm → α
  | .a => p.a
  | .b => p.b

/-- `p` with arm `i`'s value replaced. -/
def PerArm.set {α : Type} (p : PerArm α) (i : Arm) (x : α) : PerArm α :=
  match i with
  | .a => { p with a := x }
  | .b => { p with b := x }

/-- The other arm of the stand. -/
def Arm.other : Arm → Arm
  | .a => .b
  | .b => .a

/-! ### Web measurement (chapter 1) -/

/-- The web measurement unit's items (R10). -/
structure Web where
  w         : Nat
  r         : Nat
  snapshot  : Nat
  v         : Nat
  loss      : Nat
  pulseSeen : Bool
deriving DecidableEq, Repr

/-! ### Line supervisor (chapter 2) -/

/-- The seven line states (R12 to R23). -/
inductive LineState where
  | startUp | standby | run | hold | safeStop | tripped | lockout
deriving DecidableEq, Repr

/-- The hold reasons (R15). -/
inductive HoldReason where
  | host | setWait | spliceWait | deferral | queueEnd | order | sectionLine | heat
deriving DecidableEq, Repr

/-- The hold reason set: each reason present or not (R15). -/
structure Holds where
  host       : Bool
  setWait    : Bool
  spliceWait : Bool
  deferral   : Bool
  queueEnd   : Bool
  order      : Bool
  section_   : Bool
  heat       : Bool
deriving DecidableEq, Repr

/-- Safe stop causes (R17), `noCause` for none. -/
inductive Cause where
  | noCause | encoder | reelOut | spliceFail | knife | sectionLine | emergency
deriving DecidableEq, Repr

/-- The ceiling list: one optional entry per source (R25). -/
structure Ceilings where
  knife  : Option Nat
  order  : Option Nat
  splice : Option Nat
  heat   : Option Nat
  silent : Option Nat
deriving DecidableEq, Repr

/-- The line supervisor's items (R32). `reference` is the word on the drive port. `linkTimer` is none while stopped. -/
structure Supervisor where
  line       : LineState
  holds      : Holds
  setWait    : PerStation Bool
  spliceWait : PerStand Bool
  ceilings   : Ceilings
  reference  : Nat
  hostSpeed  : Nat
  cause      : Cause
  standstill : Nat
  trips      : Nat
  lockFlag   : Bool
  clearing   : Nat
  silent     : Bool
  linkTimer  : Option Nat
deriving DecidableEq, Repr

/-! ### Order queue (chapter 3) -/

/-- A slit/score set: slit and score positions in 0.1 mm from the centreline (R34). -/
structure ToolSet where
  slits  : List Int
  scores : List Int
deriving DecidableEq, Repr

/-- Order states (R39 to R43). -/
inductive OrderState where
  | queued | scheduled | fixed | running | ending
deriving DecidableEq, Repr

/-- An order record: the fields of the line computer, then the items kept by the part (table of chapter 3). `deferred` counts
the cuts added by deferral steps, which R46 keeps. -/
structure Order where
  number     : Nat
  grade      : Nat
  ups        : Nat
  pattern    : List Nat
  tools      : ToolSet
  quantity   : Nat
  overrun    : Nat
  height     : Nat
  cap        : Option Nat
  holdAfter  : Bool
  state      : OrderState
  cancelled  : Bool
  zoneStart  : Option Nat
  zoneEnd    : Option Nat
  needed     : Nat
  spoiled    : Nat
  planned    : Nat
  plannedEnd : Option Nat
  cuts       : Nat
  good       : Nat
  rejected   : Nat
  lost       : Nat
  stackTotal     : Nat
  tempMin    : Option Nat
  tempMax    : Option Nat
  derates    : Nat
  deferred   : Nat
deriving DecidableEq, Repr

/-- Completion status (R52). -/
inductive Completion where
  | normal | cancelled | interrupted
deriving DecidableEq, Repr

/-- A completion record (R52). -/
structure CompletionRecord where
  number     : Nat
  status     : Completion
  needed     : Nat
  good       : Nat
  difference : Int
  rejected   : Nat
  lost       : Nat
  stackTotal     : Nat
  zoneStart  : Option Nat
  zoneEnd    : Option Nat
  tempMin    : Option Nat
  tempMax    : Option Nat
  derates    : Nat
deriving DecidableEq, Repr

/-- The order queue's items (R57). -/
structure Orders where
  list   : List Order
  recent : List CompletionRecord
deriving DecidableEq, Repr

/-! ### Web map (chapter 4) -/

/-- Zone kinds (chapter 4). -/
inductive ZoneKind where
  | thread | order | transition | runout
deriving DecidableEq, Repr

/-- A zone record; `stop` is none for the open-ended last zone. The two marks say that the zone's approach has passed for the
KNIFE entry and for the ORDER entry (R26). -/
structure Zone where
  kind       : ZoneKind
  start      : Nat
  stop       : Option Nat
  order      : Option Nat
  setChange  : Bool
  stands     : PerStand Bool
  nearKnife  : Bool
  nearOrder  : Bool
deriving DecidableEq, Repr

/-- Kinds a defect mark records (chapter 4). -/
inductive MarkKind where
  | planned | grade | manual | late
deriving DecidableEq, Repr

/-- A defect mark. -/
structure Mark where
  start : Nat
  stop  : Nat
  stand : Stand
  kind  : MarkKind
  reel  : Option Nat
deriving DecidableEq, Repr

/-- The planner's items (R81). -/
structure WebMap where
  zones        : List Zone
  marks        : List Mark
  openOrder    : Option Nat
  deferrals    : Nat
  terminal     : Option Nat
  queueEndCall : Bool
deriving DecidableEq, Repr

/-! ### Reel stands (chapter 5) -/

/-- Arm states (R83). -/
inductive ArmState where
  | empty | loaded | prepared | running | spent
deriving DecidableEq, Repr

/-- Conditions a stand node reports for an arm. -/
inductive NodeCondition where
  | empty | loaded | prepared | running
deriving DecidableEq, Repr

/-- Reel data (R84). -/
structure ReelData where
  reel    : Nat
  code    : Nat
  caliper : Nat
  core    : Nat
deriving DecidableEq, Repr

/-- An arm record. -/
structure ArmRecord where
  state     : ArmState
  data      : Option ReelData
  condition : Option NodeCondition
  diameter  : Nat
deriving DecidableEq, Repr

/-- Basis of the remaining length (R89): `length` at odometer `at_`. -/
structure Basis where
  length : Nat
  at_    : Nat
deriving DecidableEq, Repr

/-- The monitor's items for one stand (R97). -/
structure StandRecord where
  arms        : PerArm ArmRecord
  basis       : Option Basis
  implausible : Nat
  estimate    : Bool
  lowCount    : Nat
  lowReported : Bool
  outReported : Bool
deriving DecidableEq, Repr

/-- The reel stand monitor's items. -/
structure Reels where
  stand : PerStand StandRecord
  grade : Option Nat
deriving DecidableEq, Repr

/-! ### Splice planner (chapter 6) -/

/-- Plan states (chapter 6). -/
inductive PlanState where
  | idle | planned | blocked | armed | due | firing
deriving DecidableEq, Repr

/-- Plan kinds (chapter 6). -/
inductive PlanKind where
  | planned | latest | grade | manual
deriving DecidableEq, Repr

/-- A grade target: odometer of firing and start of the transition it belongs to (R105). -/
structure GradeTarget where
  target     : Nat
  transition : Nat
deriving DecidableEq, Repr

/-- A stand's splice plan record. `lastCall` says that the last call of the present target has passed (R29). -/
structure Plan where
  state       : PlanState
  kind        : Option PlanKind
  earliest    : Option Nat
  latest      : Option Nat
  target      : Option Nat
  targetZone  : Option Nat
  limit       : Option Nat
  late        : Option Bool
  held        : Option GradeTarget
  resultTimer : Option Nat
  lastCall    : Bool
deriving DecidableEq, Repr

/-- The splice planner's items (R120). -/
structure Splicer where
  plan        : PerStand Plan
  recharging  : Bool
  remaining   : Nat
  lastAck     : Option Nat
deriving DecidableEq, Repr

/-! ### Conditioning unit (chapter 7) -/

/-- A grade definition. -/
structure Grade where
  codes   : PerStand Nat
  factors : PerStand Nat
  table   : Nat
  limit   : Nat
deriving DecidableEq, Repr

/-- A grade slot (R121). -/
inductive GradeSlot where
  | free
  | defined (g : Grade)
  | inUse (g : Grade)
deriving DecidableEq, Repr

/-- A breakpoint of a setpoint table (R123). -/
structure Breakpoint where
  speed : Nat
  wrap  : Nat
  gap   : Nat
  temp  : Nat
deriving DecidableEq, Repr

/-- Setpoints as last placed, with the speed they were computed at (R126). -/
structure Setpoints where
  wrap  : Nat
  gap   : Nat
  temp  : Nat
  speed : Nat
deriving DecidableEq, Repr

/-- The conditioning unit's items (R134). A table is none while Empty. -/
structure Conditioning where
  grades      : List GradeSlot
  tables      : List (Option (List Breakpoint))
  glueGrade   : Option Nat
  inForce     : Option (List Breakpoint)
  lastSent    : Option Setpoints
  lastTemp    : Option Nat
  age         : Nat
  heatCeiling : Option Nat
deriving DecidableEq, Repr

/-! ### Cut controller (chapter 8) -/

/-- Station states (R135 to R141). -/
inductive StationState where
  | parked | setting | set | engaged | swapping | faulted
deriving DecidableEq, Repr

/-- A station record; `outgoing` is the outgoing station named in the entry of the swap a Swapping station is making (R140). -/
structure StationRecord where
  state    : StationState
  retained : Option ToolSet
  timer    : Option Nat
  outgoing : Option Station
deriving DecidableEq, Repr

/-- A swap list entry (R136); `lastCall` says its last call has passed (R29). -/
structure SwapEntry where
  point    : Nat
  incoming : Station
  tools    : ToolSet
  outgoing : Option Station
  zone     : Nat
  lastCall : Bool
deriving DecidableEq, Repr

/-- The piece plan of a divided zone (R144): `count` pieces of `base`, the first `longer` of them 1 mm longer; `begun` of them
have been begun. -/
structure PiecePlan where
  count  : Nat
  base   : Nat
  longer : Nat
  begun  : Nat
deriving DecidableEq, Repr

/-- The active knife schedule: the piece from `pieceStart` to `nextCut` in the zone that starts at `zone` (R143). -/
structure KnifeSchedule where
  pieceStart : Nat
  nextCut    : Nat
  zone       : Nat
  index      : Nat
  plan       : Option PiecePlan
deriving DecidableEq, Repr

/-- The cut controller's items (R149); the schedule is none while idle. -/
structure CutControl where
  station  : PerStation StationRecord
  swaps    : List SwapEntry
  schedule : Option KnifeSchedule
  ratio    : Nat
deriving DecidableEq, Repr

/-! ### Sheet router (chapter 9) -/

/-- A sheet record (R147). -/
structure Sheet where
  start  : Nat
  stop   : Nat
  kind   : ZoneKind
  order  : Option Nat
  defect : Bool
deriving DecidableEq, Repr

/-- Stacker states (R157). -/
inductive StackerState where
  | stacking | changing | faulted | offline
deriving DecidableEq, Repr

/-- The open stack (R154). -/
structure Stack where
  order  : Nat
  number : Nat
  count  : Nat
deriving DecidableEq, Repr

/-- What a credited run records (R158): its order's stack height and the number its next stack takes. -/
structure Credit where
  height    : Nat
  nextStack : Nat
deriving DecidableEq, Repr

/-- A run of buffered sheets of one order (R155), credited once its order has completed (R158). -/
structure BufferRun where
  order  : Nat
  count  : Nat
  credit : Option Credit
deriving DecidableEq, Repr

/-- Why a stack change is commanded (R154, R158). -/
inductive ChangeReason where
  | height | orderEnd
deriving DecidableEq, Repr

/-- The sheet router's items (R160). `limit` is t_stack as it stood when the change timer last started (R156). -/
structure Router where
  sheets   : List Sheet
  stacker  : StackerState
  stack    : Option Stack
  buffer   : List BufferRun
  reason   : Option ChangeReason
  timer    : Option Nat
  limit    : Nat
  nonOrder : Nat
deriving DecidableEq, Repr

/-! ### Section line (chapter 10) -/

/-- The nine node addresses by role (R162). -/
inductive Node where
  | stand (s : Stand)
  | conditioning
  | station (x : Station)
  | stacker
deriving DecidableEq, Repr

/-- Service states of a node (R162). -/
inductive Service where
  | absent | offline | initialising | online | faulted
deriving DecidableEq, Repr

/-- Fault latches (R169). -/
inductive Latch where
  | noAnswer | nodeFault | gauge | spliceFail | setFail | stackFault
deriving DecidableEq, Repr

/-- The latches of a node, each set or clear (R169). -/
structure Latches where
  noAnswer   : Bool
  nodeFault  : Bool
  gauge      : Bool
  spliceFail : Bool
  setFail    : Bool
  stackFault : Bool
deriving DecidableEq, Repr

/-- A node record; `awaited` is the transaction number of the command whose result the owning block awaits (R166). -/
structure NodeRecord where
  service : Service
  latches : Latches
  missed  : Nat
  awaited : Option Byte
deriving DecidableEq, Repr

/-- The node records. -/
structure Nodes where
  stand        : PerStand NodeRecord
  conditioning : NodeRecord
  station      : PerStation NodeRecord
  stacker      : NodeRecord
deriving DecidableEq, Repr

/-- A route: stack or reject, with its route sequence (R167). -/
structure Route where
  toStack  : Bool
  sequence : Nat
deriving DecidableEq, Repr

/-- What a request on the section line asks (section frame envelope, R165, R166). -/
inductive Ask where
  | init
  | poll (routes : List Route)
  | fire
  | engage
  | set (tools : ToolSet)
  | setpoints (p : Setpoints)
  | changeStack (reason : ChangeReason)
deriving DecidableEq, Repr

/-- A command waiting to be sent (R165). -/
structure Command where
  node : Node
  ask  : Ask
deriving DecidableEq, Repr

/-- The transaction in flight: the request, its transaction number, the milliseconds left to its deadline and the frame sent
(R164). -/
structure InFlight where
  node     : Node
  ask      : Ask
  txn      : Byte
  deadline : Nat
  frame    : List Byte
deriving DecidableEq, Repr

/-- The section line controller's items (R173). -/
structure SectionLine where
  nodes    : Nodes
  urgent   : List Command
  normal   : List Command
  inFlight : Option InFlight
  txn      : Byte
  pointer  : Nat
  routes   : List Route
  nextSeq  : Nat
  acked    : Bool
deriving DecidableEq, Repr

/-! ### Events (chapter 11) -/

/-- Reset causes (R185). -/
inductive ResetCause where
  | power | pin | request
deriving DecidableEq, Repr

/-- Operations that write the store (R182, R183). -/
inductive SaveOp where
  | save | freeze | unfreeze
deriving DecidableEq, Repr

/-- Deferral reasons (R67). -/
inductive DeferReason where
  | paper | station | zoneSlots | grade | noSuccessor
deriving DecidableEq, Repr

/-- Reasons of SPLICE_FAILED (event table of chapter 11). -/
inductive FailReason where
  | noAnswer | failed | timeout | notSent
deriving DecidableEq, Repr

/-- Outcomes of SET_DONE (R138, R140). -/
inductive SetOutcome where
  | ok | failed | timeout
deriving DecidableEq, Repr

/-- Operations of SET_DONE (R138, R140). -/
inductive SetOp where
  | set | engage
deriving DecidableEq, Repr

/-- The fields of an event record, one constructor for each kind of the event table of chapter 11. In `orderState` an absent
new state is Removed. -/
inductive EventBody where
  | partStarted (cause : ResetCause) (checkPassed valid frozen : Bool)
  | lineState (now before : LineState) (holds : Holds) (cause : Cause)
  | safeStop (cause : Cause) (entered : Bool) (trips : Nat)
  | orderState (number : Nat) (before now : Option OrderState) (zoneStart zoneEnd : Option Nat)
  | orderComplete (r : CompletionRecord)
  | boundaryDeferred (openOrder : Nat) (successor : Option Nat) (reason : DeferReason) (stand : Option Stand) (count plannedEnd : Nat)
  | splicePlanned (stand : Stand) (state : PlanState) (kind : Option PlanKind) (earliest latest target targetZone : Option Nat)
  | spliceFired (stand : Stand) (kind : Option PlanKind) (target : Option Nat) (odometer markStart : Nat) (markKind : MarkKind)
  | spliceDone (stand : Stand) (newArm oldArm : Arm) (butt : Option Nat)
  | spliceFailed (stand : Stand) (reason : FailReason)
  | reelLow (stand : Stand) (arm : Arm) (reel : Option Nat) (estimate : Nat) (standby : ArmState)
  | stackDone (order number count : Nat) (reason : ChangeReason) (moved : Nat)
  | heatDerateOn (ceiling : Nat) (temp : Option Nat) (stale : Bool) (glueGrade : Option Nat)
  | heatDerateOff (temp : Option Nat)
  | setDone (station : Station) (op : SetOp) (outcome : SetOutcome) (slits scores : Option Nat)
  | sectionState (node : Node) (before now : Service)
  | sectionFault (node : Node) (latch : Latch) (after : Latches)
  | linkSilent
  | linkRestored
  | storeDone (op : SaveOp) (ok : Bool)
deriving DecidableEq, Repr

/-- An event record (R179). -/
structure Event where
  sequence : Nat
  odometer : Nat
  body     : EventBody
deriving DecidableEq, Repr

/-! ### Host line (chapter 11) -/

/-- A valid frame as it waits in the holding area (R175). -/
structure HostFrame where
  tag     : Byte
  kind    : Byte
  payload : List Byte
deriving DecidableEq, Repr

/-- The reply being sent: its tag and kind, its payload (the result and the fields), the whole frame, and whether a reset
follows it (RESTART PART taken, R185). -/
structure Reply where
  tag     : Byte
  kind    : Byte
  payload : List Byte
  frame   : List Byte
  restart : Bool
deriving DecidableEq, Repr

/-- The host line interface's items (R176, R179). `gathered` is none while Hunting and otherwise the bytes of the frame after
its start mark. -/
structure HostLine where
  gathered  : Option (List Byte)
  gap       : Nat
  holding   : List HostFrame
  answering : Option Reply
  events    : List Event
  sequence  : Nat
  overflow  : Bool
  cause     : ResetCause
deriving DecidableEq, Repr

/-! ### Profile and store (chapter 11) -/

/-- Heat actions (item 37). -/
inductive HeatAction where
  | derate | hold
deriving DecidableEq, Repr

/-- The 41 profile items (table of chapter 11), in item order. -/
structure Profile where
  mask       : PerStand Bool
  path       : PerStand Nat
  pGlue      : Nat
  pSlit      : Nat
  dGate      : Nat
  dCommit    : Nat
  dThread    : Nat
  guard      : Nat
  encoderK   : Nat
  knifeC     : Nat
  lmin       : Nat
  lmax       : Nat
  nKnife     : Nat
  nStack     : Nat
  buffer     : Nat
  tAir       : Nat
  markLength : Nat
  margin     : Nat
  tSlit      : Nat
  lWarn      : Nat
  lOpen      : Nat
  lButt      : Nat
  lowFilter  : Nat
  vMax       : Nat
  vCrawl     : Nat
  vSilent    : Nat
  sUp        : Nat
  sDown      : Nat
  sEmerg     : Nat
  tSet       : Nat
  tStack     : Nat
  tLink      : Nat
  heatAction : HeatAction
  deadband   : Nat
  tripLimit  : Nat
  dClear     : Nat
  deferLimit : Nat
deriving DecidableEq, Repr

/-- The default profile (R184, table of chapter 11). -/
def Profile.default : Profile where
  mask := .same true
  path := .same 60000
  pGlue := 40000
  pSlit := 10000
  dGate := 5000
  dCommit := 200000
  dThread := 20000
  guard := 2000
  encoderK := 10000
  knifeC := 1500
  lmin := 500
  lmax := 3000
  nKnife := 300
  nStack := 200
  buffer := 10
  tAir := 8000
  markLength := 1500
  margin := 500
  tSlit := 3000
  lWarn := 1000000
  lOpen := 400000
  lButt := 30000
  lowFilter := 3
  vMax := 3000
  vCrawl := 200
  vSilent := 1000
  sUp := 20
  sDown := 30
  sEmerg := 100
  tSet := 10000
  tStack := 5000
  tLink := 5000
  heatAction := .derate
  deadband := 50
  tripLimit := 5
  dClear := 10000
  deferLimit := 20

/-- What a profile image holds (chapter 11): the items, the grades, the tables and the frozen attribute. -/
structure Image where
  profile : Profile
  grades  : List GradeSlot
  tables  : List (Option (List Breakpoint))
  frozen  : Bool
deriving DecidableEq, Repr

/-- The trip record (R21). -/
structure TripRecord where
  trips : Nat
  flag  : Bool
deriving DecidableEq, Repr

/-- A copy in the store that passes its check, with its count. -/
structure Copy (α : Type) where
  count : Nat
  value : α
deriving DecidableEq, Repr

/-- The two copies of one thing in the store; none is a copy that fails its check (never written, or its write abandoned). -/
structure TwoCopies (α : Type) where
  first  : Option (Copy α)
  second : Option (Copy α)
deriving DecidableEq, Repr

/-- An image write (R182): its operation, the image as taken, and, once the write has begun, the trip record written with it. -/
structure SaveJob where
  op    : SaveOp
  image : Image
  begun : Option TripRecord
deriving DecidableEq, Repr

/-- The profile store's items. The store is Writing while `writing` is present; `tripWriting` is the trip-record write in
progress; `tripDeferred` says that a changed trip record waits for a write to end (R182). -/
structure Store where
  images       : TwoCopies Image
  trips        : TwoCopies TripRecord
  writing      : Option SaveJob
  tripWriting  : Option TripRecord
  tripDeferred : Bool
  valid        : Bool
  frozen       : Bool
  checkPassed  : Bool
deriving DecidableEq, Repr

/-! ### Pins and clock -/

/-- The wired ports and the clock. `resetLow`: the reset input is held low. `loaded`: the profile load of Start-up has ended.
The three counts are the model's record of pulses given. `gateMs` and `free` are the model's own: milliseconds of the present
gate period already counted, and the counter that free values are taken with. -/
structure Pins where
  resetLow      : Bool
  loaded        : Bool
  knifeReady    : Bool
  service       : Bool
  cutTriggers   : Nat
  ratioStrobes  : Nat
  driveStrobes  : Nat
  gateMs        : Nat
  free          : Nat
deriving DecidableEq, Repr

/-! ### The state -/

/-- The state of the part, and the queue of commands waiting to be taken, oldest first. -/
structure State where
  web     : Web
  sup     : Supervisor
  orders  : Orders
  map     : WebMap
  reels   : Reels
  splice  : Splicer
  cond    : Conditioning
  cut     : CutControl
  router  : Router
  line    : SectionLine
  host    : HostLine
  profile : Profile
  store   : Store
  pins    : Pins
  pending : List Instr
deriving DecidableEq, Repr

/-- Why a step would stop with a fault. Raised by no meaning: the spec gives every command of the table an effect, and what it
calls faults (latches, Safe stop causes, result codes) are state and replies. -/
inductive Fault where
  /-- Raised by nobody; kept so that the type has a value to print. Safe: it makes no run end. -/
  | notRaised
deriving DecidableEq, Repr

/-- Why a command would be refused. -/
inductive Refusal where
  /-- Raised only by an arm of `exec` whose command has no meaning yet; no arm is so at present. Safe: nothing is claimed. -/
  | notModelled (mnemonic : String)
deriving DecidableEq, Repr

/-! ### Reset values -/

/-- R10. -/
def Web.reset : Web := { w := 0, r := 0, snapshot := 0, v := 0, loss := 0, pulseSeen := false }

/-- No hold reason present. -/
def Holds.empty : Holds :=
  { host := false, setWait := false, spliceWait := false, deferral := false, queueEnd := false, order := false,
    section_ := false, heat := false }

/-- No ceiling entry present. -/
def Ceilings.empty : Ceilings := { knife := none, order := none, splice := none, heat := none, silent := none }

/-- R32; the trip counter and the lockout flag are loaded from the store afterwards (R184). -/
def Supervisor.reset : Supervisor where
  line := .startUp
  holds := .empty
  setWait := ⟨false, false⟩
  spliceWait := .same false
  ceilings := .empty
  reference := 0
  hostSpeed := 0
  cause := .noCause
  standstill := 0
  trips := 0
  lockFlag := false
  clearing := 0
  silent := false
  linkTimer := none

/-- R57. -/
def Orders.reset : Orders := { list := [], recent := [] }

/-- R81. -/
def WebMap.reset : WebMap :=
  { zones := [], marks := [], openOrder := none, deferrals := 0, terminal := none, queueEndCall := false }

/-- An arm as R97 leaves it. -/
def ArmRecord.reset : ArmRecord := { state := .empty, data := none, condition := none, diameter := 0 }

/-- A stand's records as R97 leaves them. -/
def StandRecord.reset : StandRecord where
  arms := ⟨.reset, .reset⟩
  basis := none
  implausible := 0
  estimate := false
  lowCount := 0
  lowReported := false
  outReported := false

/-- R97. -/
def Reels.reset : Reels := { stand := .same .reset, grade := none }

/-- A stand's plan as R120 leaves it. -/
def Plan.reset : Plan where
  state := .idle
  kind := none
  earliest := none
  latest := none
  target := none
  targetZone := none
  limit := none
  late := none
  held := none
  resultTimer := none
  lastCall := false

/-- R120. -/
def Splicer.reset : Splicer := { plan := .same .reset, recharging := false, remaining := 0, lastAck := none }

/-- R134; the grades and tables are loaded from the store afterwards (R184). -/
def Conditioning.reset : Conditioning where
  grades := List.replicate 16 .free
  tables := List.replicate 8 none
  glueGrade := none
  inForce := none
  lastSent := none
  lastTemp := none
  age := 0
  heatCeiling := none

/-- A station as R149 leaves it. -/
def StationRecord.reset : StationRecord := { state := .parked, retained := none, timer := none, outgoing := none }

/-- R149. -/
def CutControl.reset : CutControl := { station := ⟨.reset, .reset⟩, swaps := [], schedule := none, ratio := 0 }

/-- R160. -/
def Router.reset : Router :=
  { sheets := [], stacker := .offline, stack := none, buffer := [], reason := none, timer := none, limit := 0, nonOrder := 0 }

/-- No latch set. -/
def Latches.clear : Latches :=
  { noAnswer := false, nodeFault := false, gauge := false, spliceFail := false, setFail := false, stackFault := false }

/-- A configured node as R173 leaves it. -/
def NodeRecord.reset : NodeRecord := { service := .offline, latches := .clear, missed := 0, awaited := none }

/-- R173, with every stand of the default mask configured; the load sets the services by the loaded mask (R184). -/
def SectionLine.reset : SectionLine where
  nodes := { stand := .same .reset, conditioning := .reset, station := ⟨.reset, .reset⟩, stacker := .reset }
  urgent := []
  normal := []
  inFlight := none
  txn := 0
  pointer := 0
  routes := []
  nextSeq := 0
  acked := false

/-- R176, R179, after a power-on. -/
def HostLine.reset : HostLine where
  gathered := none
  gap := 0
  holding := []
  answering := none
  events := []
  sequence := 0
  overflow := false
  cause := .power

/-- A store in which no copy passes its check, Idle. -/
def Store.blank : Store where
  images := { first := none, second := none }
  trips := { first := none, second := none }
  writing := none
  tripWriting := none
  tripDeferred := false
  valid := false
  frozen := false
  checkPassed := false

/-- The ports right after a reset with the reset input high. The ratio word is presented as 0 with no strobe counted
(notes/assumptions/7). -/
def Pins.reset : Pins where
  resetLow := false
  loaded := false
  knifeReady := true
  service := false
  cutTriggers := 0
  ratioStrobes := 0
  driveStrobes := 0
  gateMs := 0
  free := 0

/-- The machine right after a power-on reset, in Start-up, before the load of the store: every block at its value after reset
(R10, R32, R57, R81, R97, R120, R134, R149, R160, R173, R176, R179). The store is blank and the values that the load will
bring stand at their defaults (notes/assumptions 4 and 5). -/
def State.reset : State where
  web := .reset
  sup := .reset
  orders := .reset
  map := .reset
  reels := .reset
  splice := .reset
  cond := .reset
  cut := .reset
  router := .reset
  line := .reset
  host := .reset
  profile := .default
  store := .blank
  pins := .reset
  pending := []

end Sys2Proof.Machine
end

