-- ==== Sys2Proof/Machine/Flags.lean ====
section
/-! DEFINITION. How named values, flags and sets of named members are coded as one byte (R177): a named value is its position
in the list where its owning chapter first lists the values, a flag is 0 or 1, a set has bit n set for the member at position n. -/

namespace Sys2Proof.Machine

/-- A flag's coding. -/
def flagCode (b : Bool) : Nat := if b then 1 else 0

/-- Estimate-only mode, listed on, off (chapter 5). -/
def modeCode (estimateOnly : Bool) : Nat := if estimateOnly then 0 else 1

/-- The queue-end call, listed passed, not passed (chapter 4). -/
def callCode (passed : Bool) : Nat := if passed then 0 else 1

/-- A set's coding, given its members' presence in position order. -/
def setCode : List Bool → Nat
  | [] => 0
  | b :: rest => flagCode b + 2 * setCode rest

/-- A set decoded: presence of the members at positions 0 to `n - 1`. -/
def setBits : Nat → Nat → List Bool
  | 0, _ => []
  | n + 1, x => (x % 2 == 1) :: setBits n (x / 2)

def standCode : Stand → Nat
  | .s1 => 0 | .s2 => 1 | .s3 => 2 | .s4 => 3 | .s5 => 4

def standOfCode : Nat → Option Stand
  | 0 => some .s1 | 1 => some .s2 | 2 => some .s3 | 3 => some .s4 | 4 => some .s5 | _ => none

def armCode : Arm → Nat
  | .a => 0 | .b => 1

def armOfCode : Nat → Option Arm
  | 0 => some .a | 1 => some .b | _ => none

def stationCode : Station → Nat
  | .a => 0 | .b => 1

def lineCode : LineState → Nat
  | .startUp => 0 | .standby => 1 | .run => 2 | .hold => 3 | .safeStop => 4 | .tripped => 5 | .lockout => 6

def causeCode : Cause → Nat
  | .noCause => 0 | .encoder => 1 | .reelOut => 2 | .spliceFail => 3 | .knife => 4 | .sectionLine => 5 | .emergency => 6

/-- The hold reason set, in the order HOST, SET_WAIT, SPLICE_WAIT, DEFERRAL, QUEUE_END, ORDER, SECTION, HEAT. -/
def holdsCode (h : Holds) : Nat :=
  setCode [h.host, h.setWait, h.spliceWait, h.deferral, h.queueEnd, h.order, h.section_, h.heat]

/-- The sources with a ceiling entry, in the order KNIFE, ORDER, SPLICE, HEAT, SILENT. -/
def ceilingsCode (c : Ceilings) : Nat :=
  setCode [c.knife.isSome, c.order.isSome, c.splice.isSome, c.heat.isSome, c.silent.isSome]

def orderStateCode : OrderState → Nat
  | .queued => 0 | .scheduled => 1 | .fixed => 2 | .running => 3 | .ending => 4

/-- An ORDER_STATE event's new state; Removed is the position after Ending (event table of chapter 11). -/
def newStateCode : Option OrderState → Nat
  | some s => orderStateCode s
  | none => 5

def completionCode : Completion → Nat
  | .normal => 0 | .cancelled => 1 | .interrupted => 2

def zoneKindCode : ZoneKind → Nat
  | .thread => 0 | .order => 1 | .transition => 2 | .runout => 3

def markKindCode : MarkKind → Nat
  | .planned => 0 | .grade => 1 | .manual => 2 | .late => 3

def standSetCode (p : PerStand Bool) : Nat := setCode p.toList

/-- A stand set from its five bits. -/
def standSetOfBits (n : Nat) : PerStand Bool :=
  .of fun i => (n / 2 ^ standCode i) % 2 == 1

def deferReasonCode : DeferReason → Nat
  | .paper => 0 | .station => 1 | .zoneSlots => 2 | .grade => 3 | .noSuccessor => 4

def armStateCode : ArmState → Nat
  | .empty => 0 | .loaded => 1 | .prepared => 2 | .running => 3 | .spent => 4

def conditionCode : NodeCondition → Nat
  | .empty => 0 | .loaded => 1 | .prepared => 2 | .running => 3

/-- An arm's node condition as QUERY STAND carries it; none is the fifth value of the list of chapter 5 (notes/assumptions/41). -/
def armConditionCode : Option NodeCondition → Nat
  | some c => conditionCode c
  | none => 4

def conditionOfCode : Nat → Option NodeCondition
  | 0 => some .empty | 1 => some .loaded | 2 => some .prepared | 3 => some .running | _ => none

def planStateCode : PlanState → Nat
  | .idle => 0 | .planned => 1 | .blocked => 2 | .armed => 3 | .due => 4 | .firing => 5

def planKindCode : PlanKind → Nat
  | .planned => 0 | .latest => 1 | .grade => 2 | .manual => 3

def failReasonCode : FailReason → Nat
  | .noAnswer => 0 | .failed => 1 | .timeout => 2 | .notSent => 3

def gradeStateCode : GradeSlot → Nat
  | .free => 0 | .defined _ => 1 | .inUse _ => 2

def heatActionCode : HeatAction → Nat
  | .derate => 0 | .hold => 1

def stationStateCode : StationState → Nat
  | .parked => 0 | .setting => 1 | .set => 2 | .engaged => 3 | .swapping => 4 | .faulted => 5

/-- Operations of SET_DONE, in the order in which R138 and R140 name them (notes/assumptions/61). -/
def setOpCode : SetOp → Nat
  | .set => 0 | .engage => 1

/-- Outcomes of SET_DONE, in the order in which R138 names them (notes/assumptions/61). -/
def setOutcomeCode : SetOutcome → Nat
  | .ok => 0 | .failed => 1 | .timeout => 2

def stackerCode : StackerState → Nat
  | .stacking => 0 | .changing => 1 | .faulted => 2 | .offline => 3

def changeReasonCode : ChangeReason → Nat
  | .height => 0 | .orderEnd => 1

def serviceCode : Service → Nat
  | .absent => 0 | .offline => 1 | .initialising => 2 | .online => 3 | .faulted => 4

def latchCode : Latch → Nat
  | .noAnswer => 0 | .nodeFault => 1 | .gauge => 2 | .spliceFail => 3 | .setFail => 4 | .stackFault => 5

/-- A node's latches, in the order NO_ANSWER, NODE_FAULT, GAUGE, SPLICE_FAIL, SET_FAIL, STACK_FAULT. -/
def latchesCode (l : Latches) : Nat :=
  setCode [l.noAnswer, l.nodeFault, l.gauge, l.spliceFail, l.setFail, l.stackFault]

def resetCauseCode : ResetCause → Nat
  | .power => 0 | .pin => 1 | .request => 2

def saveOpCode : SaveOp → Nat
  | .save => 0 | .freeze => 1 | .unfreeze => 2

/-- The nine node addresses (R162). -/
def nodeAddress : Node → Nat
  | .stand i => standCode i + 1
  | .conditioning => 8
  | .station .a => 9
  | .station .b => 10
  | .stacker => 12

/-- The node at an address (R162). -/
def nodeAt : Nat → Option Node
  | 1 => some (.stand .s1) | 2 => some (.stand .s2) | 3 => some (.stand .s3) | 4 => some (.stand .s4) | 5 => some (.stand .s5)
  | 8 => some .conditioning
  | 9 => some (.station .a) | 10 => some (.station .b)
  | 12 => some .stacker
  | _ => none

/-- The nodes in ascending address order. -/
def allNodes : List Node :=
  [.stand .s1, .stand .s2, .stand .s3, .stand .s4, .stand .s5, .conditioning, .station .a, .station .b, .stacker]

/-- Request kinds on the section line (section frame envelope). -/
def askKind : Ask → Nat
  | .init => 1 | .poll _ => 2 | .fire => 3 | .engage => 4 | .set _ => 5 | .setpoints _ => 6 | .changeStack _ => 7

/-- Event kinds (event table of chapter 11). -/
def eventKind : EventBody → Nat
  | .partStarted .. => 0x01 | .lineState .. => 0x02 | .safeStop .. => 0x03
  | .orderState .. => 0x10 | .orderComplete _ => 0x11 | .boundaryDeferred .. => 0x12
  | .splicePlanned .. => 0x20 | .spliceFired .. => 0x21 | .spliceDone .. => 0x22 | .spliceFailed .. => 0x23 | .reelLow .. => 0x24
  | .stackDone .. => 0x30
  | .heatDerateOn .. => 0x40 | .heatDerateOff _ => 0x41 | .setDone .. => 0x42
  | .sectionState .. => 0x50 | .sectionFault .. => 0x51
  | .linkSilent => 0x60 | .linkRestored => 0x61
  | .storeDone .. => 0x70

/-- Result codes of replies (result table of chapter 11). -/
inductive Result where
  | ok | accepted | unknownKind | format | range | state | locked | full | notFound | duplicate | busy | frozen | profile | grade
deriving DecidableEq, Repr

def resultCode : Result → Nat
  | .ok => 0x00 | .accepted => 0x01 | .unknownKind => 0x02 | .format => 0x03 | .range => 0x04 | .state => 0x05 | .locked => 0x06
  | .full => 0x07 | .notFound => 0x08 | .duplicate => 0x09 | .busy => 0x0A | .frozen => 0x0B | .profile => 0x0C | .grade => 0x0D

/-- Request kinds on the host line (kind table of R176). -/
def requestKinds : List Nat :=
  [0x01, 0x02, 0x03, 0x10, 0x11, 0x12, 0x13, 0x14, 0x15, 0x16, 0x20, 0x21, 0x22, 0x23, 0x24, 0x25, 0x30, 0x31, 0x32, 0x33,
   0x40, 0x41, 0x42, 0x43, 0x50, 0x51, 0x52, 0x60, 0x61, 0x62, 0x63, 0x64, 0x65]

end Sys2Proof.Machine
end

