-- ==== Sys2Proof/Machine/Operands.lean ====
section
/-! DEFINITION. What is sent on the two lines as bytes: the check of R174, the field coding of R177, the host frame, the section
frame envelope and the event record of chapter 11's layouts, and the decoding of fields from a payload. -/

namespace Sys2Proof.Machine

/-! ### The check (R174) -/

/-- One shift of the CRC-16 register with polynomial 1021h. -/
def crcShift (c : Check) : Check :=
  if c.getMsbD 0 then (c <<< 1) ^^^ 0x1021#16 else c <<< 1

/-- One byte into the register, most significant bit first. -/
def crcByte (c : Check) (b : Byte) : Check :=
  let x := c ^^^ (b.setWidth 16 <<< 8)
  crcShift (crcShift (crcShift (crcShift (crcShift (crcShift (crcShift (crcShift x)))))))

/-- The check of a run of bytes: CRC-16, initial value FFFFh, no reflection and no final inversion. -/
def crc (bs : List Byte) : Check := bs.foldl crcByte 0xFFFF#16

/-! ### Field coding (R177) -/

/-- `n` in `k` bytes, most significant first. -/
def bigEndian : Nat → Nat → List Byte
  | 0, _ => []
  | k + 1, n => BitVec.ofNat 8 (n / 256 ^ k) :: bigEndian k n

/-- The unsigned number that bytes spell, most significant first. -/
def unsigned (bs : List Byte) : Nat := bs.foldl (fun n b => 256 * n + b.toNat) 0

/-- The signed number that two bytes spell, two's complement. -/
def signed16 (bs : List Byte) : Int :=
  let n := unsigned bs
  if n < 32768 then n else (n : Int) - 65536

/-- All ones in `k` bytes: an absent value. -/
def absent (k : Nat) : List Byte := List.replicate k 0xFF#8

/-- A value in `k` bytes, or all ones when absent. -/
def optional (k : Nat) : Option Nat → List Byte
  | some n => bigEndian k n
  | none => absent k

/-- Odometer, board coordinate, board or paper length. -/
def coordinate (n : Nat) : List Byte := bigEndian 6 n

/-- Order numbers and counts of cuts, sheets and stacks, reel ids, quantities, distance counts. -/
def count (n : Nat) : List Byte := bigEndian 4 n

/-- Speeds, temperatures, times, diameters and the other two-byte fields. -/
def word (n : Nat) : List Byte := bigEndian 2 n

/-- One-byte fields. -/
def octet (n : Nat) : List Byte := bigEndian 1 n

/-- A flag. -/
def flag (b : Bool) : List Byte := octet (flagCode b)

/-- An order number, 0 when absent. -/
def orderNumber (n : Option Nat) : List Byte := count (n.getD 0)

/-- A signed two-byte field. -/
def signedWord (x : Int) : List Byte := word (x % 65536).toNat

/-- A signed four-byte field. -/
def signedCount (x : Int) : List Byte := count (x % 4294967296).toNat

/-- A list: a count byte, then the entries. -/
def listField {α : Type} (f : α → List Byte) (xs : List α) : List Byte := octet xs.length ++ xs.flatMap f

/-! ### Frames -/

/-- A host frame (layout of chapter 11). -/
def hostFrameBytes (tag kind : Byte) (payload : List Byte) : List Byte :=
  let covered := word payload.length ++ [tag, kind] ++ payload
  [0xA5#8] ++ covered ++ word (crc covered).toNat

/-- The bytes of a section frame that its check covers (section frame envelope). -/
def sectionCovered (address kind txn : Byte) (payload : List Byte) : List Byte :=
  [address, kind, txn] ++ octet payload.length ++ payload

/-- A section frame (section frame envelope). -/
def sectionFrameBytes (address kind txn : Byte) (payload : List Byte) : List Byte :=
  let covered := sectionCovered address kind txn payload
  [0x3C#8] ++ covered ++ word (crc covered).toNat

/-- The fields of a request to a node, in the order of the rules that name them (R126, R137, R154, R167): a poll carries
fields, the list of routes, only to the stacker. -/
def askPayload (n : Node) : Ask → List Byte
  | .init => []
  | .poll routes => if n = .stacker then listField (fun r => flag (!r.toStack) ++ word r.sequence) routes else []
  | .fire => []
  | .engage => []
  | .set t => listField signedWord t.slits ++ listField signedWord t.scores
  | .setpoints p => word p.wrap ++ word p.gap ++ word p.temp
  | .changeStack reason => octet (changeReasonCode reason)

/-! ### Event records -/

/-- A completion record's fields (R52). -/
def completionFields (r : CompletionRecord) : List Byte :=
  count r.number ++ octet (completionCode r.status) ++ count r.needed ++ count r.good ++ signedCount r.difference ++ count r.rejected
    ++ count r.lost ++ count r.stackTotal ++ optional 6 r.zoneStart ++ optional 6 r.zoneEnd ++ optional 2 r.tempMin ++ optional 2 r.tempMax
    ++ count r.derates

/-- An event's own fields, in the order of the rule that names them (event table of chapter 11). DESIGN CHOICE: the widths that R177
does not name, of the trip counter, the deferral count and SET_DONE's numbers of slits and scores, are those of notes/assumptions/9. -/
def eventFields : EventBody → List Byte
  | .partStarted cause check valid frozen =>
      octet (resetCauseCode cause) ++ octet (flagCode (!check)) ++ flag valid ++ flag frozen
  | .lineState now before holds cause =>
      octet (lineCode now) ++ octet (lineCode before) ++ octet (holdsCode holds) ++ octet (causeCode cause)
  | .safeStop cause entered trips => octet (causeCode cause) ++ flag entered ++ octet trips
  | .orderState number before now zs ze =>
      count number ++ optional 1 (before.map orderStateCode) ++ octet (newStateCode now) ++ optional 6 zs ++ optional 6 ze
  | .orderComplete r => completionFields r
  | .boundaryDeferred openOrder succ reason stand n plannedEnd =>
      count openOrder ++ orderNumber succ ++ octet (deferReasonCode reason) ++ optional 1 (stand.map standCode) ++ word n
        ++ coordinate plannedEnd
  | .splicePlanned stand state kind e l t z =>
      octet (standCode stand) ++ octet (planStateCode state) ++ optional 1 (kind.map planKindCode) ++ optional 6 e ++ optional 6 l
        ++ optional 6 t ++ optional 6 z
  | .spliceFired stand kind t odo start markKind =>
      octet (standCode stand) ++ optional 1 (kind.map planKindCode) ++ optional 6 t ++ coordinate odo ++ coordinate start
        ++ octet (markKindCode markKind)
  | .spliceDone stand new old butt =>
      octet (standCode stand) ++ octet (armCode new) ++ octet (armCode old) ++ optional 6 butt
  | .spliceFailed stand reason => octet (standCode stand) ++ octet (failReasonCode reason)
  | .reelLow stand arm reel est standby =>
      octet (standCode stand) ++ octet (armCode arm) ++ optional 4 reel ++ coordinate est ++ octet (armStateCode standby)
  | .stackDone order number n reason moved =>
      count order ++ count number ++ count n ++ octet (changeReasonCode reason) ++ count moved
  | .heatDerateOn ceiling temp stale grade => word ceiling ++ optional 2 temp ++ flag stale ++ optional 1 grade
  | .heatDerateOff temp => optional 2 temp
  | .setDone x op outcome slits scores =>
      octet (stationCode x) ++ octet (setOpCode op) ++ octet (setOutcomeCode outcome) ++ optional 1 slits ++ optional 1 scores
  | .sectionState n before now => octet (nodeAddress n) ++ octet (serviceCode before) ++ octet (serviceCode now)
  | .sectionFault n latch after => octet (nodeAddress n) ++ octet (latchCode latch) ++ octet (latchesCode after)
  | .linkSilent => []
  | .linkRestored => []
  | .storeDone op ok => octet (saveOpCode op) ++ octet (flagCode (!ok))

/-- An event record (layout of chapter 11). -/
def eventBytes (e : Event) : List Byte :=
  let fields := eventFields e.body
  word e.sequence ++ octet (eventKind e.body) ++ octet fields.length ++ coordinate e.odometer ++ fields

/-! ### Reading fields -/

/-- The byte at an offset of a payload, 0 beyond its end (lengths are checked first). -/
def byteAt (p : List Byte) (i : Nat) : Nat := (p.getD i 0).toNat

/-- The unsigned field of `k` bytes at an offset. -/
def fieldAt (p : List Byte) (i k : Nat) : Nat := unsigned ((p.drop i).take k)

/-- `n` two-byte unsigned fields from an offset on. -/
def wordsAt (p : List Byte) (i : Nat) : Nat → List Nat
  | 0 => []
  | n + 1 => fieldAt p i 2 :: wordsAt p (i + 2) n

/-- `n` two-byte signed fields from an offset on. -/
def signedsAt (p : List Byte) (i : Nat) : Nat → List Int
  | 0 => []
  | n + 1 => signed16 ((p.drop i).take 2) :: signedsAt p (i + 2) n

/-- A list of numbers strictly ascending. -/
def strictlyAscending : List Int → Bool
  | [] => true
  | [_] => true
  | x :: y :: rest => decide (x < y) && strictlyAscending (y :: rest)

end Sys2Proof.Machine
end

