-- ==== Sys2Proof/Machine/Ops.lean ====
section
/-! DEFINITION. The named operations the blocks share: changing one block's items, looking things up in the lists, the distances
and lengths of the manual's formulas, placing an event, queueing a section command, and the passing of time. -/

namespace Sys2Proof.Machine

/-! ### Changing one block's items -/

def State.modWeb (s : State) (f : Web → Web) : State := { s with web := f s.web }
def State.modSup (s : State) (f : Supervisor → Supervisor) : State := { s with sup := f s.sup }
def State.modOrders (s : State) (f : Orders → Orders) : State := { s with orders := f s.orders }
def State.modMap (s : State) (f : WebMap → WebMap) : State := { s with map := f s.map }
def State.modReels (s : State) (f : Reels → Reels) : State := { s with reels := f s.reels }
def State.modSplice (s : State) (f : Splicer → Splicer) : State := { s with splice := f s.splice }
def State.modCond (s : State) (f : Conditioning → Conditioning) : State := { s with cond := f s.cond }
def State.modCut (s : State) (f : CutControl → CutControl) : State := { s with cut := f s.cut }
def State.modRouter (s : State) (f : Router → Router) : State := { s with router := f s.router }
def State.modLine (s : State) (f : SectionLine → SectionLine) : State := { s with line := f s.line }
def State.modHost (s : State) (f : HostLine → HostLine) : State := { s with host := f s.host }
def State.modStore (s : State) (f : Store → Store) : State := { s with store := f s.store }
def State.modPins (s : State) (f : Pins → Pins) : State := { s with pins := f s.pins }
def State.withProfile (s : State) (p : Profile) : State := { s with profile := p }

/-- An action taken for each stand in ascending number. -/
def State.eachStand (s : State) (f : Stand → State → State) : State := stands.foldl (fun t i => f i t) s

/-- A stand's record. -/
def State.standRecord (s : State) (i : Stand) : StandRecord := s.reels.stand.get i

/-- A stand's record changed. -/
def State.modStand (s : State) (i : Stand) (f : StandRecord → StandRecord) : State :=
  s.modReels fun r => { r with stand := r.stand.set i (f (r.stand.get i)) }

/-- A stand's plan. -/
def State.plan (s : State) (i : Stand) : Plan := s.splice.plan.get i

/-- A stand's plan changed. -/
def State.modPlan (s : State) (i : Stand) (f : Plan → Plan) : State :=
  s.modSplice fun r => { r with plan := r.plan.set i (f (r.plan.get i)) }

/-- A station's record changed. -/
def State.modStation (s : State) (x : Station) (f : StationRecord → StationRecord) : State :=
  s.modCut fun c => { c with station := c.station.set x (f (c.station.get x)) }

/-- The other station. -/
def otherStation : Station → Station
  | .a => .b
  | .b => .a

/-- A node's record. -/
def Nodes.get (n : Nodes) : Node → NodeRecord
  | .stand i => n.stand.get i
  | .conditioning => n.conditioning
  | .station x => n.station.get x
  | .stacker => n.stacker

/-- The node records with one replaced. -/
def Nodes.set (n : Nodes) (at_ : Node) (r : NodeRecord) : Nodes :=
  match at_ with
  | .stand i => { n with stand := n.stand.set i r }
  | .conditioning => { n with conditioning := r }
  | .station x => { n with station := n.station.set x r }
  | .stacker => { n with stacker := r }

/-- A node's record. -/
def State.node (s : State) (n : Node) : NodeRecord := s.line.nodes.get n

/-- A node's record changed. -/
def State.modNode (s : State) (n : Node) (f : NodeRecord → NodeRecord) : State :=
  s.modLine fun l => { l with nodes := l.nodes.set n (f (l.nodes.get n)) }

/-- The node is Online. -/
def State.online (s : State) (n : Node) : Bool := (s.node n).service = .online

/-- The line is in Run or Hold. -/
def State.runOrHold (s : State) : Bool := s.sup.line = .run || s.sup.line = .hold

/-- Standstill as R87 and R172 take it: the speed reference just presented and the measured speed are both 0. -/
def State.atRest (s : State) : Bool := s.sup.reference = 0 && s.web.v = 0

/-- The board coordinate of the commit horizon, W + D_commit. -/
def State.horizon (s : State) : Nat := s.web.w + s.profile.dCommit

/-! ### Events (R179) -/

/-- An event is placed: it takes the present sequence, which rises by 1 and wraps, and the present W; with 128 records held the
oldest is discarded and the overflow flag set. -/
def State.place (s : State) (b : EventBody) : State :=
  s.modHost fun h =>
    { h with
      events := (h.events ++ [Event.mk h.sequence s.web.w b]).drop (h.events.length + 1 - Config.eventCapacity)
      sequence := (h.sequence + 1) % 65536
      overflow := h.overflow || decide (Config.eventCapacity ≤ h.events.length) }

/-! ### Lists of the schedule -/

/-- The order with a number, if it is in the queue. -/
def State.order? (s : State) (n : Nat) : Option Order := s.orders.list.find? fun o => o.number = n

/-- The order with a number changed. -/
def State.modOrder (s : State) (n : Nat) (f : Order → Order) : State :=
  s.modOrders fun q => { q with list := q.list.map fun o => if o.number = n then f o else o }

/-- The first Queued order in queue order: the successor of R66. -/
def State.firstQueued (s : State) : Option Order := s.orders.list.find? fun o => o.state = .queued

/-- The zone covers a coordinate: its start is at or below it and its end, if present, above (R59). -/
def Zone.covers (z : Zone) (c : Nat) : Bool := z.start ≤ c && (match z.stop with | some e => decide (c < e) | none => true)

/-- Which zone contains a coordinate (R59). -/
def State.zoneAt (s : State) (c : Nat) : Option Zone := s.map.zones.find? fun z => z.covers c

/-- A mark overlaps [a, b) (R59). -/
def Mark.overlaps (m : Mark) (a b : Nat) : Bool := decide (m.start < b) && decide (a < m.stop)

/-- Some mark of the list overlaps [a, b). -/
def State.marked (s : State) (a b : Nat) : Bool := s.map.marks.any fun m => m.overlaps a b

/-- The ORDER zone that follows the zone starting at a coordinate. -/
def State.orderZoneAfter (s : State) (start : Nat) : Option Zone :=
  s.map.zones.find? fun z => z.kind = .order && decide (start < z.start)

/-- The grade of the order an ORDER zone names. -/
def State.gradeOfZone (s : State) (z : Zone) : Option Nat := (z.order.bind s.order?).map (·.grade)

/-- The order whose ORDER zone contains W + P_glue (R127, R129). -/
def State.orderAtGlue (s : State) : Option Nat :=
  match s.zoneAt (s.web.w + s.profile.pGlue) with
  | some z => if z.kind = .order then z.order else none
  | none => none

/-! ### Grades -/

/-- The definition in a slot that is Defined or In use. -/
def GradeSlot.grade? : GradeSlot → Option Grade
  | .free => none
  | .defined g => some g
  | .inUse g => some g

/-- A grade slot. -/
def State.slot (s : State) (i : Nat) : GradeSlot := s.cond.grades.getD i .free

/-- The definition of a grade, absent while its slot is Free. -/
def State.grade? (s : State) (i : Nat) : Option Grade := (s.slot i).grade?

/-- The paper code a grade gives a stand; a Free slot gives none (R121). -/
def State.codeOf (s : State) (i : Nat) (x : Stand) : Option Nat := (s.grade? i).map fun g => g.codes.get x

/-- The slot becomes In use if it was Defined (R39, R121). -/
def State.useGrade (s : State) (i : Nat) : State :=
  s.modCond fun c => { c with grades := c.grades.modify i fun x => match x with | .defined g => .inUse g | y => y }

/-- An order in state Scheduled, Fixed, Running or Ending names the grade (R121). -/
def State.gradeReferenced (s : State) (i : Nat) : Bool :=
  s.orders.list.any fun o => o.grade = i && o.state ≠ .queued

/-- Each In use slot that no order with a zone names returns to Defined (R43, R56). -/
def State.releaseGrades (s : State) : State :=
  s.modCond fun c =>
    { c with grades := c.grades.mapIdx fun i x => match x with
        | .inUse g => if s.gradeReferenced i then .inUse g else .defined g
        | y => y }

/-! ### Lengths along a cut pattern (R37) -/

/-- Planned length of `p` cuts of a pattern used cyclically. -/
def plannedLength (pattern : List Nat) (p : Nat) : Nat :=
  (p / pattern.length) * pattern.sum + (pattern.take (p % pattern.length)).sum

/-- Length of cut `i`, counting from 0. -/
def cutLength (pattern : List Nat) (i : Nat) : Nat := pattern.getD (i % pattern.length) 0

/-- Among the first cuts of a pattern, how many it takes to reach a length; the pattern's number of cuts when they do not. -/
def cutsToReach : List Nat → Nat → Nat
  | _, 0 => 0
  | [], _ + 1 => 0
  | l :: rest, x + 1 => 1 + cutsToReach rest (x + 1 - l)

/-- The number of cuts, at least 1, to the first cut boundary at or beyond `x`, for a zone that starts at `start`. -/
def cutsToBoundary (start : Nat) (pattern : List Nat) (x : Nat) : Nat :=
  let d := x - start
  max 1 ((d / pattern.sum) * pattern.length + cutsToReach pattern (d % pattern.sum))

/-- Cuts needed: ceil(quantity / ups). -/
def cutsNeeded (quantity ups : Nat) : Nat := (quantity + ups - 1) / ups

/-- Spoiled cuts counted one cut at a time (R38): `wanted` clean cuts are still to be laid, cut `j` begins at `pos`, and no mark
reaches beyond `last`. `fuel` bounds the cuts that can begin below `last`. -/
def spoiledFrom (pattern : List Nat) (marks : List Mark) (last : Nat) : Nat → Nat → Nat → Nat → Nat
  | 0, _, _, _ => 0
  | fuel + 1, wanted, j, pos =>
    if wanted = 0 ∨ last ≤ pos then 0
    else
      let stop := pos + cutLength pattern j
      if marks.any fun m => m.overlaps pos stop then 1 + spoiledFrom pattern marks last fuel wanted (j + 1) stop
      else spoiledFrom pattern marks last fuel (wanted - 1) (j + 1) stop

/-- Spoiled cuts of an order whose zone starts at `start` and that wants `wanted` clean cuts (R38). -/
def spoiledCuts (pattern : List Nat) (marks : List Mark) (start wanted : Nat) : Nat :=
  let last := marks.foldl (fun n m => max n m.stop) 0
  spoiledFrom pattern marks last (last - start) wanted 0 start

/-! ### Speeds and distances (R28, R103, R107) -/

/-- ceil(a / b). -/
def ceilDiv (a b : Nat) : Nat := (a + b - 1) / b

/-- d_stop(v). -/
def State.dStop (s : State) : Nat := ceilDiv (s.web.v * s.web.v) (12 * s.profile.sDown)

/-- d_app(v, u), 0 when u is at or above v. -/
def State.dApp (s : State) (u : Nat) : Nat := ceilDiv (s.web.v * s.web.v - u * u) (12 * s.profile.sDown)

/-- The last call of an action due at `x` passes (R29). -/
def State.lastCallPasses (s : State) (x : Nat) : Bool := x ≤ s.web.w + s.dStop + s.profile.guard

/-- The approach of a zone or target at `x` for speed `u` passes (R26, R108). -/
def State.approachPasses (s : State) (x u : Nat) : Bool := x ≤ s.web.w + s.dApp u + s.profile.guard

/-- The effective ceiling (R25). -/
def State.effectiveCeiling (s : State) : Nat :=
  [s.sup.ceilings.knife, s.sup.ceilings.order, s.sup.ceilings.splice, s.sup.ceilings.heat, s.sup.ceilings.silent].foldl
    (fun m e => min m (e.getD m)) s.profile.vMax

/-! ### Section command queue (R165) -/

/-- A command that a result follows (R166). -/
def Ask.resulting : Ask → Bool
  | .fire | .engage | .set _ | .changeStack _ => true
  | .init | .poll _ | .setpoints _ => false

/-- A command is placed in its class: FIRE and ENGAGE are urgent. From then on the owning block awaits the result of this command
and no longer that of an earlier one (R166). -/
def State.queueCommand (s : State) (n : Node) (a : Ask) : State :=
  (if a.resulting then s.modNode n fun r => { r with awaited := none } else s).modLine fun l =>
    match a with
    | .fire | .engage => { l with urgent := l.urgent ++ [⟨n, a⟩] }
    | _ => { l with normal := l.normal ++ [⟨n, a⟩] }

/-- A command asks for setpoints. -/
def Command.isSetpoints (c : Command) : Bool := match c.ask with | .setpoints _ => true | _ => false

/-- SETPOINTS is placed; one still queued is replaced in place (R165). -/
def State.queueSetpoints (s : State) (p : Setpoints) : State :=
  s.modLine fun l =>
    if l.normal.any Command.isSetpoints then
      { l with normal := l.normal.map fun c => if c.isSetpoints then ⟨.conditioning, .setpoints p⟩ else c }
    else { l with normal := l.normal ++ [⟨.conditioning, .setpoints p⟩] }

/-- Every command queued for a node leaves the queue. -/
def State.purgeCommands (s : State) (n : Node) : State :=
  s.modLine fun l =>
    { l with urgent := l.urgent.filter fun c => c.node ≠ n, normal := l.normal.filter fun c => c.node ≠ n }

/-- An INIT still queued for a node leaves the queue unsent. -/
def State.withdrawInit (s : State) (n : Node) : State :=
  s.modLine fun l => { l with normal := l.normal.filter fun c => c ≠ ⟨n, .init⟩ }

/-- A FIRE for the stand is still queued. -/
def State.fireQueued (s : State) (i : Stand) : Bool := s.line.urgent.any fun c => c.node = .stand i && c.ask = .fire

/-! ### Time

The millisecond counters count by ticks; the moment a counter reaches its end is a command of the table, so counting alone
stops one short of it (notes/assumptions/3). -/

/-- A running timer after `n` ms, short of its limit. -/
def timerAfter (n limit : Nat) (t : Option Nat) : Option Nat := t.map fun x => max x (min (x + n) (limit - 1))

/-- A count-down after `n` ms, short of 0. -/
def countdownAfter (n t : Nat) : Nat := if t ≤ 1 then t else max 1 (t - n)

/-- The temperature age after `n` ms, short of stale, or as it is once stale (R127). -/
def ageAfter (n t : Nat) : Nat := max t (min (t + n) Config.staleMs)

/-- A station's timer after `n` ms. -/
def StationRecord.elapse (n limit : Nat) (r : StationRecord) : StationRecord := { r with timer := timerAfter n limit r.timer }

/-- A plan's result timer after `n` ms. -/
def Plan.elapse (n : Nat) (p : Plan) : Plan := { p with resultTimer := timerAfter n Config.resultMs p.resultTimer }

/-- `n` milliseconds pass: every running counter of the part counts. -/
def State.elapse (s : State) (n : Nat) : State :=
  { s with
    sup := { s.sup with linkTimer := timerAfter n s.profile.tLink s.sup.linkTimer }
    splice := { s.splice with
      plan := .of fun i => (s.splice.plan.get i).elapse n
      remaining := if s.splice.recharging then countdownAfter n s.splice.remaining else s.splice.remaining }
    cond := { s.cond with age := ageAfter n s.cond.age }
    cut := { s.cut with
      station := ⟨s.cut.station.a.elapse n s.profile.tSet, s.cut.station.b.elapse n s.profile.tSet⟩ }
    router := { s.router with timer := timerAfter n s.router.limit s.router.timer }
    line := { s.line with inFlight := s.line.inFlight.map fun f => { f with deadline := countdownAfter n f.deadline } }
    host := { s.host with gap := if s.host.gathered.isSome then min (s.host.gap + n) Config.byteGapMs else 0 } }

/-- The idle tick: with no command waiting, 1 ms of the present gate period passes, up to its last millisecond; the end of the
period is GATE_PERIOD_END. Nothing is timed before the profile load ends or while the reset input is low (R10). -/
def State.tick (s : State) : State :=
  if s.pins.loaded ∧ s.pins.gateMs + 1 < Config.gateMs then
    (s.elapse 1).modPins fun p => { p with gateMs := p.gateMs + 1 }
  else s

end Sys2Proof.Machine
end

