-- ==== Sys2Proof/Machine/StoreOps.lean ====
section
/-! DEFINITION. The profile store's operations: the two copies of an image and of the trip record, and how a write of each
begins and ends (R21, R182, R184). -/

namespace Sys2Proof.Machine

/-- The newest copy that passes its check (R184). -/
def TwoCopies.newest {α : Type} (t : TwoCopies α) : Option (Copy α) :=
  match t.first, t.second with
  | some a, some b => if a.count < b.count then some b else some a
  | some a, none => some a
  | none, b => b

/-- A write begins on the copy that does not hold the newest: that copy no longer passes its check. -/
def TwoCopies.beginWrite {α : Type} (t : TwoCopies α) : TwoCopies α :=
  match t.first, t.second with
  | some a, some b => if a.count < b.count then { t with first := none } else { t with second := none }
  | _, _ => t

/-- The write ends well: the copy that did not pass its check holds the value with the next count. -/
def TwoCopies.endWrite {α : Type} (t : TwoCopies α) (x : α) : TwoCopies α :=
  let next : Copy α := { count := (t.newest.map (·.count)).getD 0 + 1, value := x }
  match t.first with
  | none => { t with first := some next }
  | some _ => { t with second := some next }

/-- The trip record as it stands. -/
def State.tripRecord (s : State) : TripRecord := { trips := s.sup.trips, flag := s.sup.lockFlag }

/-- The trip record is written to the older copy (R21), or waits while a write is in progress (R182). -/
def State.writeTripRecord (s : State) : State :=
  if s.store.writing.isSome || s.store.tripWriting.isSome then s.modStore fun t => { t with tripDeferred := true }
  else s.modStore fun t => { t with trips := t.trips.beginWrite, tripWriting := some s.tripRecord }

/-- A grade slot as an image holds it: no order names it (R134). -/
def GradeSlot.stored : GradeSlot → GradeSlot
  | .inUse g => .defined g
  | x => x

/-- The image of the working profile, grades, tables and frozen attribute (R182). -/
def State.workingImage (s : State) : Image where
  profile := s.profile
  grades := s.cond.grades.map GradeSlot.stored
  tables := s.cond.tables
  frozen := s.store.frozen

/-- The image write begins, with the trip record as it then stands (R182). -/
def State.beginImageWrite (s : State) (job : SaveJob) : State :=
  s.modStore fun t =>
    { t with
      images := t.images.beginWrite
      trips := t.trips.beginWrite
      writing := some { job with begun := some s.tripRecord }
      tripDeferred := false }

/-- A save is taken: the store is Writing from now, and the image write begins at once or when a trip-record write in progress
ends (R182). -/
def State.startSave (s : State) (op : SaveOp) : State :=
  let job : SaveJob := { op := op, image := s.workingImage, begun := none }
  if s.store.tripWriting.isSome then s.modStore fun t => { t with writing := some job } else s.beginImageWrite job

/-- A trip record that waited is written (R182). -/
def State.writeDeferredTrip (s : State) : State :=
  if s.store.tripDeferred then (s.modStore fun t => { t with tripDeferred := false }).writeTripRecord else s

/-- The image write ends and is read back (R182). -/
def State.endImageWrite (s : State) (good : Bool) : State :=
  match s.store.writing with
  | some { op := op, image := image, begun := some record } =>
    let s1 := s.modStore fun t =>
      { t with
        images := if good then t.images.endWrite image else t.images
        trips := t.trips.endWrite record
        valid := t.valid || good
        writing := none }
    (s1.place (.storeDone op good)).writeDeferredTrip
  | _ => s

/-- A trip-record write ends; a waiting image write or a waiting record then begins (R182). -/
def State.endTripWrite (s : State) : State :=
  match s.store.tripWriting with
  | some record =>
    let s1 := s.modStore fun t => { t with trips := t.trips.endWrite record, tripWriting := none }
    match s1.store.writing with
    | some job => s1.beginImageWrite job
    | none => s1.writeDeferredTrip
  | none => s

/-- What a reset leaves of the store: the copies; a write in progress is abandoned (R182). -/
def Store.afterReset (t : Store) : Store :=
  { Store.blank with images := t.images, trips := t.trips }

/-- The load of R184 into the working profile, grades, tables, attributes and trip record, or the defaults. -/
def State.loadStore (s : State) : State :=
  match s.store.images.newest, s.store.trips.newest with
  | some image, some record =>
    { s with
      profile := image.value.profile
      cond := { s.cond with grades := image.value.grades, tables := image.value.tables }
      store := { s.store with frozen := image.value.frozen, valid := true, checkPassed := true }
      sup := { s.sup with trips := record.value.trips, lockFlag := record.value.flag } }
  | _, _ =>
    { s with
      profile := .default
      cond := { s.cond with grades := Conditioning.reset.grades, tables := Conditioning.reset.tables }
      store := { s.store with frozen := false, valid := false, checkPassed := false }
      sup := { s.sup with trips := 0, lockFlag := false } }

end Sys2Proof.Machine
end

