-- ==== Sys2Proof/Machine/Supervisor.lean ====
section
/-! DEFINITION. The line supervisor's operations: hold reasons, wait holders, ceilings, causes and Safe stop, the link (chapter 2),
with the disarming of splice plans that a Safe stop entry tells the splice planner to do (R115). -/

namespace Sys2Proof.Machine

/-! ### Hold reasons (R14, R15) -/

/-- Whether a reason is present. -/
def Holds.get (h : Holds) : HoldReason → Bool
  | .host => h.host
  | .setWait => h.setWait
  | .spliceWait => h.spliceWait
  | .deferral => h.deferral
  | .queueEnd => h.queueEnd
  | .order => h.order
  | .sectionLine => h.section_
  | .heat => h.heat

/-- The set with one reason present or absent. -/
def Holds.set (h : Holds) (r : HoldReason) (b : Bool) : Holds :=
  match r with
  | .host => { h with host := b }
  | .setWait => { h with setWait := b }
  | .spliceWait => { h with spliceWait := b }
  | .deferral => { h with deferral := b }
  | .queueEnd => { h with queueEnd := b }
  | .order => { h with order := b }
  | .sectionLine => { h with section_ := b }
  | .heat => { h with heat := b }

/-- Some reason is present. -/
def Holds.any (h : Holds) : Bool :=
  h.host || h.setWait || h.spliceWait || h.deferral || h.queueEnd || h.order || h.section_ || h.heat

/-- The line state that goes with a hold reason set: Run and Hold follow the set, the other states do not (R14). -/
def lineFor (l : LineState) (h : Holds) : LineState :=
  match l with
  | .run | .hold => if h.any then .hold else .run
  | l => l

/-- A LINE_STATE event with the state as it is now (R33). -/
def State.placeLineState (s : State) (before : LineState) : State :=
  s.place (.lineState s.sup.line before s.sup.holds s.sup.cause)

/-- The line goes to a state, reported by LINE_STATE (R33). -/
def State.goTo (s : State) (l : LineState) : State :=
  (s.modSup fun p => { p with line := l }).placeLineState s.sup.line

/-- The hold reason set becomes `h`; a change moves the line between Run and Hold and is reported (R14, R15). -/
def State.setHolds (s : State) (h : Holds) : State :=
  if h = s.sup.holds then s
  else (s.modSup fun p => { p with holds := h, line := lineFor p.line h }).placeLineState s.sup.line

/-- A reason is raised; it is recorded only in Run and Hold (R15). -/
def State.raiseHold (s : State) (r : HoldReason) : State :=
  if s.runOrHold then s.setHolds (s.sup.holds.set r true) else s

/-- A reason is cleared (R15). -/
def State.clearHold (s : State) (r : HoldReason) : State := s.setHolds (s.sup.holds.set r false)

/-- A reason is raised or cleared. -/
def State.putHold (s : State) (r : HoldReason) (b : Bool) : State := if b then s.raiseHold r else s.clearHold r

/-- The stations that hold SET_WAIT; the reason is present exactly while there is one (R29). Kept in Run and Hold only, as the
reason is. -/
def State.setSetWait (s : State) (h : PerStation Bool) : State :=
  if s.runOrHold then (s.modSup fun p => { p with setWait := h }).putHold .setWait h.any else s

/-- The stands that hold SPLICE_WAIT; the reason is present exactly while there is one (R29). -/
def State.setSpliceWait (s : State) (h : PerStand Bool) : State :=
  if s.runOrHold then (s.modSup fun p => { p with spliceWait := h }).putHold .spliceWait h.any else s

/-! ### Disarming (R115) -/

/-- A plan as it returns to Idle: kind, target, target zone, limit, late flag and timer go; the window and a held grade target
stay. -/
def Plan.toIdle (p : Plan) : Plan :=
  { p with state := .idle, kind := none, target := none, targetZone := none, limit := none, late := none, resultTimer := none
           lastCall := false }

/-- SPLICE_PLANNED for a stand, with the plan as it stands (R104). -/
def State.placePlanned (s : State) (i : Stand) : State :=
  let p := s.plan i
  s.place (.splicePlanned i p.state p.kind p.earliest p.latest p.target p.targetZone)

/-- A plan that is neither Idle nor Firing returns to Idle, reported if it was Planned or Blocked (R115). -/
def State.disarmPlan (i : Stand) (s : State) : State :=
  match (s.plan i).state with
  | .planned | .blocked => (s.modPlan i Plan.toIdle).placePlanned i
  | .armed | .due => s.modPlan i Plan.toIdle
  | .idle | .firing => s

/-- Every held grade target is discarded (R106, R115). -/
def State.dropHeldTargets (s : State) : State :=
  s.modSplice fun r => { r with plan := .of fun i => { r.plan.get i with held := none } }

/-- The SPLICE entry: the least splice limit among Armed and Due plans, absent with none (R25, R108). -/
def Plan.ceiling (p : Plan) : Option Nat := if p.state = .armed ∨ p.state = .due then p.limit else none

/-- The lesser of two optional limits. -/
def leastOf : Option Nat → Option Nat → Option Nat
  | some a, some b => some (min a b)
  | some a, none => some a
  | none, b => b

/-- The SPLICE entry is brought up to date. -/
def State.syncSpliceCeiling (s : State) : State :=
  s.modSup fun p =>
    { p with ceilings := { p.ceilings with splice := (s.splice.plan.toList.map Plan.ceiling).foldl leastOf none } }

/-- Every plan but a Firing one returns to Idle (R115). -/
def State.disarmAll (s : State) : State := (s.eachStand State.disarmPlan).syncSpliceCeiling

/-! ### Causes and Safe stop (R17, R18) -/

/-- Entry to Safe stop from Run or Hold (R18). The KNIFE entry is removed (R145) and the link timer stops (R30). The plans' reports
follow SAFE_STOP and LINE_STATE, which the spec leaves open (notes/assumptions/47). -/
def State.enterSafeStop (s : State) (c : Cause) : State :=
  let trips := s.sup.trips + 1
  let s1 := s.modSup fun p =>
    { p with
      line := .safeStop
      holds := .empty
      setWait := ⟨false, false⟩
      spliceWait := .same false
      ceilings := { p.ceilings with knife := none }
      hostSpeed := 0
      cause := c
      standstill := 0
      trips := trips
      lockFlag := p.lockFlag || decide (s.profile.tripLimit < trips)
      clearing := 0
      linkTimer := none }
  let s2 := (s1.writeTripRecord.place (.safeStop c true trips)).placeLineState s.sup.line
  s2.disarmAll.dropHeldTargets

/-- A cause is reported to the supervisor: it enters Safe stop from Run or Hold and is reported as not entered elsewhere (R17). -/
def State.reportCause (s : State) (c : Cause) : State :=
  if s.runOrHold then s.enterSafeStop c else s.place (.safeStop c false s.sup.trips)

/-- Some plan is Firing. -/
def State.anyFiring (s : State) : Bool := s.splice.plan.toList.any fun p => p.state = .firing

/-- Safe stop is left at a standstill count of 5 with no plan Firing (R19). -/
def State.leaveSafeStop (s : State) : State :=
  if s.sup.line = .safeStop ∧ s.sup.standstill = 5 ∧ ¬ s.anyFiring then
    s.goTo (if s.sup.lockFlag then .lockout else .tripped)
  else s

/-! ### Ramp and standstill (R19, R27) -/

/-- The target of the present line state (R27). -/
def State.speedTarget (s : State) : Nat := if s.sup.line = .run then min s.sup.hostSpeed s.effectiveCeiling else 0

/-- One step of the reference toward a target: up by at most `up`, down by at most `down` (R27). -/
def rampStep (ref target up down : Nat) : Nat :=
  if ref < target then min target (ref + up) else max target (ref - down)

/-- The reference steps and is presented on the drive port (R27). -/
def State.stepReference (s : State) : State :=
  let down := if s.sup.line = .safeStop then s.profile.sEmerg else s.profile.sDown
  (s.modSup fun p => { p with reference := rampStep p.reference s.speedTarget s.profile.sUp down }).modPins
    fun p => { p with driveStrobes := p.driveStrobes + 1 }

/-- The standstill count at a gate period end in Safe stop (R19). -/
def State.countStandstill (s : State) : State :=
  if s.sup.line = .safeStop then
    (s.modSup fun p => { p with standstill := if s.atRest then min 5 (p.standstill + 1) else 0 }).leaveSafeStop
  else s

/-! ### Clearing distance (R22) and lockout (R21) -/

/-- One advance in Run counts toward a trip-counter decrement (R22). -/
def State.clearTravel (s : State) : State :=
  if s.sup.line = .run then
    if s.profile.dClear * 1000 ≤ s.sup.clearing + 1 then
      let s1 := s.modSup fun p => { p with clearing := 0, trips := p.trips - 1 }
      if 0 < s.sup.trips then s1.writeTripRecord else s1
    else s.modSup fun p => { p with clearing := p.clearing + 1 }
  else s

/-- The trip limit as written is tested against the counter; the flag set in Standby or Tripped enters Lockout (R21, R23). -/
def State.lockOnLimit (s : State) : State :=
  if s.profile.tripLimit < s.sup.trips ∧ ¬ s.sup.lockFlag then
    let s1 := (s.modSup fun p => { p with lockFlag := true }).writeTripRecord
    if s.sup.line = .standby ∨ s.sup.line = .tripped then s1.goTo .lockout else s1
  else s

/-! ### Link supervision (R30) -/

/-- A valid host frame: the link timer restarts in Run and Hold; a set silence flag clears with its entry (R30). -/
def State.linkAlive (s : State) : State :=
  let s1 := if s.runOrHold then s.modSup fun p => { p with linkTimer := some 0 } else s
  if s.sup.silent then
    (s1.modSup fun p => { p with silent := false, ceilings := { p.ceilings with silent := none } }).place .linkRestored
  else s1

/-- t_link passes with no valid frame (R30); the timer then stays at t_link. -/
def State.linkLost (s : State) : State :=
  (s.modSup fun p =>
    { p with
      silent := true
      linkTimer := some s.profile.tLink
      ceilings := { p.ceilings with silent := some s.profile.vSilent } }).place .linkSilent

end Sys2Proof.Machine
end

