-- ==== Sys2Proof/Machine/Reels.lean ====
section
/-! DEFINITION. The reel stand monitor's operations: which arm runs, remaining length and its estimate, the estimate grade, the arm
swap of a splice (chapter 5). Reports and requests are in StandReports.lean and Requests files. -/

namespace Sys2Proof.Machine

/-- The Running arm of a stand. -/
def StandRecord.runningArm (r : StandRecord) : Option Arm :=
  if r.arms.a.state = .running then some .a else if r.arms.b.state = .running then some .b else none

/-- The standby arm: the arm that is not Running, when one is Running (R83). -/
def StandRecord.standbyArm (r : StandRecord) : Option Arm := r.runningArm.map Arm.other

/-- The record of the Running arm. -/
def StandRecord.running (r : StandRecord) : Option ArmRecord := r.runningArm.map r.arms.get

/-- The record of the standby arm. -/
def StandRecord.standby (r : StandRecord) : Option ArmRecord := r.standbyArm.map r.arms.get

/-- The standby arm is Prepared. -/
def StandRecord.standbyPrepared (r : StandRecord) : Bool :=
  match r.standby with
  | some a => a.state = .prepared
  | none => false

/-- The paper code of the standby arm's reel data. -/
def StandRecord.standbyCode (r : StandRecord) : Option Nat := (r.standby.bind (·.data)).map (·.code)

/-- An arm's record changed. -/
def StandRecord.modArm (r : StandRecord) (i : Arm) (f : ArmRecord → ArmRecord) : StandRecord :=
  { r with arms := r.arms.set i (f (r.arms.get i)) }

/-- Running paper code (R96): 0 with no Running arm, absent when the Running arm has no reel data. -/
def StandRecord.runningCode (r : StandRecord) : Option Nat :=
  match r.running with
  | some a => a.data.map (·.code)
  | none => some 0

/-- The state that follows from node condition and reel data (R83). -/
def derivedState (c : Option NodeCondition) (data : Option ReelData) : ArmState :=
  match c with
  | none | some .empty => .empty
  | some .loaded => .loaded
  | some .prepared => if data.isSome then .prepared else .loaded
  | some .running => .running

/-- An arm neither Running nor Spent follows the derivation (R83). -/
def ArmRecord.derive (a : ArmRecord) : ArmRecord :=
  match a.state with
  | .running | .spent => a
  | _ => { a with state := derivedState a.condition a.data }

/-- Remaining length at an accepted diameter (R89). -/
def remainingLength (diameter core caliper : Nat) : Nat :=
  if diameter ≤ core then 0 else 785398 * (diameter * diameter - core * core) / (1000 * caliper)

/-- The basis an arm gives at odometer `w`, if it has reel data (R89). -/
def ArmRecord.basisAt (a : ArmRecord) (w : Nat) : Option Basis :=
  a.data.map fun d => { length := remainingLength a.diameter d.core d.caliper, at_ := w }

/-- The stand is in the stand mask. -/
def State.configured (s : State) (i : Stand) : Bool := s.profile.mask.get i

/-- The take-up factor in force for a stand (R90): 1,000 with no estimate grade, 0 where that grade does not use the stand. -/
def State.takeUp (s : State) (i : Stand) : Nat :=
  match s.reels.grade with
  | none => 1000
  | some g =>
    match s.grade? g with
    | some d => if d.codes.get i = 0 then 0 else d.factors.get i
    | none => 0

/-- L_est of a stand's Running arm, absent without a basis (R90). -/
def State.estimate (s : State) (i : Stand) : Option Nat :=
  (s.standRecord i).basis.map fun b => b.length - (s.web.w - b.at_) * s.takeUp i / 1000

/-- A Running arm with a basis is rebased at the present W (R90). -/
def State.rebase (i : Stand) (s : State) : State :=
  s.modStand i fun r => { r with basis := (s.estimate i).map fun l => { length := l, at_ := s.web.w } }

/-- The estimate grade changes; a different value rebases every Running arm first, so that the old factor applies up to here
(R90). -/
def State.setEstimateGrade (s : State) (g : Option Nat) : State :=
  if g = s.reels.grade then s else (s.eachStand State.rebase).modReels fun r => { r with grade := g }

/-- The counts and flags of a new Running arm (R87, R88). -/
def StandRecord.freshRun (r : StandRecord) : StandRecord :=
  { r with implausible := 0, estimate := false, lowCount := 0, lowReported := false, outReported := false }

/-- The butt length of a splice: the estimate of the old Running arm (R88). -/
def State.buttLength (s : State) (i : Stand) : Option Nat := s.estimate i

/-- The arms swap at a successful splice (R88): the old Running arm becomes Spent with its data kept, the standby arm becomes
Running at its loaded diameter. -/
def StandRecord.swapArms (r : StandRecord) (w : Nat) : StandRecord :=
  match r.runningArm with
  | some old =>
    let new := old.other
    let spent := { r.arms.get old with state := .spent, condition := some .loaded }
    let run := { r.arms.get new with state := .running, condition := some .running }
    { r.freshRun with arms := (r.arms.set old spent).set new run, basis := run.basisAt w }
  | none => r

/-- A stand feeds the web for the consequences of its node's fault (R170). -/
def State.feedsWeb (s : State) (i : Stand) : Bool :=
  (s.standRecord i).runningArm.isSome &&
    (match s.reels.grade with
     | none => true
     | some g => s.codeOf g i ≠ some 0)

/-- A Running arm's estimate has become 0 and this has not been reported for it: REEL_OUT is reported once (R94). -/
def State.reelOutTest (i : Stand) (s : State) : State :=
  if s.configured i && s.estimate i = some 0 && !(s.standRecord i).outReported then
    (s.modStand i fun r => { r with outReported := true }).reportCause .reelOut
  else s

/-- Reel-low evaluation after a gauge reading of a Running arm with reel data (R93). -/
def State.reelLowEvaluation (s : State) (i : Stand) : State :=
  let r := s.standRecord i
  match r.runningArm, s.estimate i with
  | some arm, some l =>
    if l < s.profile.lWarn ∧ ¬ r.standbyPrepared then
      let n := min (r.lowCount + 1) s.profile.lowFilter
      let s1 := s.modStand i fun x => { x with lowCount := n }
      if s.profile.lowFilter ≤ n ∧ ¬ r.lowReported then
        (s1.modStand i fun x => { x with lowReported := true }).place
          (.reelLow i arm ((r.arms.get arm).data.map (·.reel)) l (r.arms.get arm.other).state)
      else s1
    else s.modStand i fun x => { x with lowCount := 0 }
  | _, _ => s

end Sys2Proof.Machine
end

