-- ==== Sys2Proof/Machine/Splice.lean ====
section
/-! DEFINITION. The splice planner's operations: windows, planning passes, arming, falling due, the arbiter of the splice-air supply,
readiness, grade targets and what ends a Firing plan (chapter 6). -/

namespace Sys2Proof.Machine

/-! ### Windows (R100) -/

/-- A splice window: earliest and latest fire. -/
structure Window where
  earliest : Nat
  latest   : Nat
deriving DecidableEq, Repr

/-- The window of a configured stand, absent without an estimate or with a take-up factor of 0 (R100). -/
def State.window (s : State) (i : Stand) : Option Window :=
  match s.estimate i with
  | some l =>
    let f := s.takeUp i
    if s.configured i ∧ 0 < f then
      let butt := if (s.standRecord i).estimate then 2 * s.profile.lButt else s.profile.lButt
      let e := s.web.w + (l - s.profile.lOpen) * 1000 / f
      let lf := s.web.w + (l - butt) * 1000 / f
      some { earliest := min e lf, latest := lf }
    else none
  | none => none

/-- The window found is written into the stand's record (R100). -/
def State.writeWindow (i : Stand) (s : State) : State :=
  let w := s.window i
  s.modPlan i fun p => { p with earliest := w.map (·.earliest), latest := w.map (·.latest) }

/-! ### Standby and node (R104) -/

/-- The paper code that a GRADE plan needs: the code that the grade of the order following its transition gives the stand. Once that
order's zone has left the list it is the next ORDER zone still listed, or none (notes/assumptions/51). -/
def State.neededCode (s : State) (i : Stand) (transition : Nat) : Option Nat :=
  ((s.orderZoneAfter transition).bind s.gradeOfZone).bind fun g => s.codeOf g i

/-- The standby is usable by a plan of the given kind and target zone (R104). -/
def State.usable (s : State) (i : Stand) (kind : Option PlanKind) (zone : Option Nat) : Bool :=
  let r := s.standRecord i
  r.standbyPrepared &&
    (if kind = some .grade then
       match zone.bind (s.neededCode i) with
       | some c => r.standbyCode = some c
       | none => false
     else true)

/-- The standby is usable by the stand's present plan. -/
def State.planUsable (s : State) (i : Stand) : Bool := s.usable i (s.plan i).kind (s.plan i).targetZone

/-- Planned or Blocked, as the node and the standby stand (R104). -/
def State.judged (s : State) (i : Stand) (kind : Option PlanKind) (zone : Option Nat) : PlanState :=
  if s.online (.stand i) && s.usable i kind zone then .planned else .blocked

/-- The splice speed limit `u` of R108: that of the estimate grade, or v_crawl without one. -/
def State.spliceLimit (s : State) : Nat :=
  match s.reels.grade.bind s.grade? with
  | some g => g.limit
  | none => s.profile.vCrawl

/-! ### Arbiter (R110) -/

/-- A Due plan that the supply may be granted to. -/
def State.grantable (s : State) (i : Stand) : Bool :=
  (s.plan i).state = .due && s.planUsable i && s.online (.stand i)

/-- A plan's rank for the grant: an absent Lf first, then the smaller Lf. -/
def Plan.rank (p : Plan) : Nat := match p.latest with | none => 0 | some l => l + 1

/-- The grantable stand of least rank; ties go to the lower number (R110). -/
def State.chosen (s : State) : Option Stand :=
  (stands.filter s.grantable).foldl
    (fun best i => match best with
      | none => some i
      | some b => if (s.plan i).rank < (s.plan b).rank then some i else some b)
    none

/-- The supply is granted: the plan becomes Firing, late if W is above its target, and FIRE is queued urgent (R110). -/
def State.grant (s : State) (i : Stand) : State :=
  (s.modPlan i fun p =>
    { p with state := .firing, limit := none, late := some (decide (p.target.getD 0 < s.web.w)), lastCall := false }).queueCommand
    (.stand i) .fire

/-- The arbiter runs (R110). -/
def State.arbiter (s : State) : State :=
  if ¬ s.splice.recharging ∧ ¬ s.anyFiring ∧ s.map.marks.length < Config.grantMarks then
    match s.chosen with
    | some i => s.grant i
    | none => s
  else s

/-! ### Readiness (R107) -/

/-- The remaining recharge is covered before the target: W + v x remaining / 600 is at most F. -/
def State.covered (s : State) (target : Nat) : Bool :=
  s.web.w * 600 + s.web.v * s.splice.remaining ≤ target * 600

/-- A plan is ready (R107). -/
def State.planReady (s : State) (i : Stand) : Bool :=
  let p := s.plan i
  p.state ≠ .blocked && s.online (.stand i) && s.planUsable i
    && (!s.splice.recharging || s.covered (p.target.getD 0))

/-- A plan's last call is tested: Planned, Blocked, Armed and Due. -/
def Plan.called (p : Plan) : Bool :=
  match p.state with
  | .planned | .blocked | .armed | .due => true
  | .idle | .firing => false

/-- The last call of the stand's plan passes, and stays passed (R29, R107). -/
def State.testSpliceCall (i : Stand) (s : State) : State :=
  s.modPlan i fun p =>
    match p.target with
    | some f => if p.called then { p with lastCall := p.lastCall || s.lastCallPasses f } else p
    | none => p

/-- The stand holds SPLICE_WAIT: the last call has passed, the target has not been reached, and the plan is not ready (R107). -/
def State.spliceWaits (s : State) (i : Stand) : Bool :=
  let p := s.plan i
  p.called && p.lastCall && decide (s.web.w < p.target.getD 0) && !s.planReady i

/-- Last calls, wait holders and the SPLICE entry are brought up to date (R25, R29, R107). -/
def State.syncSplice (s : State) : State :=
  let s1 := s.eachStand State.testSpliceCall
  (s1.setSpliceWait (.of s1.spliceWaits)).syncSpliceCeiling

/-! ### Arming and falling due (R108, R109) -/

/-- A Planned plan whose approach has passed becomes Armed (R108). -/
def State.armPlan (i : Stand) (s : State) : State :=
  let p := s.plan i
  if p.state = .planned ∧ s.approachPasses (p.target.getD 0) s.spliceLimit then
    s.modPlan i fun p => { p with state := .armed, limit := some s.spliceLimit }
  else s

/-- An Armed or Blocked plan whose target W has reached becomes Due, and the arbiter runs (R109, R110). -/
def State.duePlan (i : Stand) (s : State) : State :=
  let p := s.plan i
  if p.target.getD 0 ≤ s.web.w then
    match p.state with
    | .armed => (s.modPlan i fun p => { p with state := .due }).arbiter
    | .blocked => (s.modPlan i fun p => { p with state := .due, limit := some s.spliceLimit }).arbiter
    | _ => s
  else s

/-- Everything a change of plans, standbys, nodes or supply can lead to at once: arming, falling due, the arbiter, readiness. Plans that
become Due together are taken in stand order, with the arbiter run after each (R110; notes/assumptions/60). -/
def State.settleSplice (s : State) : State :=
  (((s.eachStand State.armPlan).eachStand State.duePlan).arbiter).syncSplice

/-! ### Planning passes (R101 to R104) -/

/-- A plan that a pass may move: Idle, or Planned or Blocked of kind PLANNED or LATEST (R101). -/
def Plan.movable (p : Plan) : Bool :=
  match p.state with
  | .idle => true
  | .planned | .blocked => p.kind = some .planned || p.kind = some .latest
  | .armed | .due | .firing => false

/-- The separation distance (R103). -/
def State.separation (s : State) : Nat := ceilDiv (s.web.v * s.profile.tAir) 600

/-- Two coordinates keep separation when they differ by it or more (R103). -/
def keeps (sep : Nat) (refs : List Nat) (c : Nat) : Bool := refs.all fun r => sep ≤ (c - r) + (r - c)

/-- The fits of a stand's window in zone order, each with its transition's start (R102). -/
def State.fits (s : State) (i : Stand) (w : Window) : List (Nat × Nat) :=
  s.map.zones.filterMap fun z =>
    let at_ := z.start + s.profile.margin
    let f := at_ - s.profile.path.get i
    if z.kind = .transition ∧ s.profile.path.get i ≤ at_ ∧ w.earliest ≤ f ∧ f ≤ w.latest
        ∧ z.stop.all (fun e => at_ + s.profile.markLength ≤ e) then
      some (f, z.start)
    else none

/-- The greatest coordinate from E to Lf that keeps separation: Lf, or one separation below a reference (R103). -/
def greatestKeeping (sep : Nat) (refs : List Nat) (w : Window) : Option Nat :=
  ((w.latest :: (refs.filter (sep ≤ ·)).map (· - sep)).filter fun c =>
    w.earliest ≤ c && c ≤ w.latest && keeps sep refs c).foldl (fun m c => some (max (m.getD 0) c)) none

/-- What a pass gives a movable plan: kind, target, target zone, and whether separation blocks it. -/
structure Choice where
  kind    : PlanKind
  target  : Nat
  zone    : Option Nat
  blocked : Bool
deriving DecidableEq, Repr

/-- The choice of R103: the first eligible fit that keeps separation; else the greatest coordinate that keeps it; else Blocked
at the first candidate. -/
def State.choose (s : State) (i : Stand) (w : Window) (refs : List Nat) : Choice :=
  let sep := s.separation
  let fits := s.fits i w
  match fits.find? fun f => keeps sep refs f.1 with
  | some f => ⟨.planned, f.1, some f.2, false⟩
  | none =>
    match greatestKeeping sep refs w with
    | some c => ⟨.latest, c, none, false⟩
    | none =>
      match fits with
      | f :: _ => ⟨.planned, f.1, some f.2, true⟩
      | [] => ⟨.latest, w.latest, none, true⟩

/-- The plan with what a pass or a request decides; a new target's last call is yet to pass. -/
def Plan.aim (p : Plan) (st : PlanState) (k : PlanKind) (target : Nat) (zone : Option Nat) : Plan :=
  { p with state := st, kind := some k, target := some target, targetZone := zone, limit := none, late := none
           lastCall := p.lastCall && p.target == some target }

/-- SPLICE_PLANNED where the state, kind, target or target zone has changed (R104). -/
def State.reportPlan (s : State) (i : Stand) (before : Plan) : State :=
  let p := s.plan i
  if p.state = before.state ∧ p.kind = before.kind ∧ p.target = before.target ∧ p.targetZone = before.targetZone then s
  else s.placePlanned i

/-- A plan takes a grade target (R105). -/
def State.takeGrade (s : State) (i : Stand) (t : GradeTarget) : State :=
  (s.modPlan i fun p => p.aim (s.judged i (some .grade) (some t.transition)) .grade t.target (some t.transition)).placePlanned i

/-- A held grade target of an Idle plan is taken up against the stand's new window (R106). -/
def State.takeUpHeld (i : Stand) (s : State) : State :=
  let p := s.plan i
  match p.held with
  | some t =>
    if s.runOrHold ∧ p.state = .idle then
      let s1 := s.writeWindow i
      match s1.window i with
      | some w =>
        if t.target ≤ w.latest then (s1.modPlan i fun p => { p with held := none }).takeGrade i t else s1
      | none => (s1.modPlan i fun p => { p with held := none }).takeGrade i t
    else s
  | none => s

/-- A pass's first part for a stand: its window is written; a fixed Planned or Blocked plan is re-judged; a movable plan without
a window returns to Idle, and a held grade target is then taken up (R100, R101, R106). DESIGN CHOICE: a pass takes the stands through
this part in ascending number, with these three not kept apart (notes/assumptions/70). -/
def State.passFixed (i : Stand) (s0 : State) : State :=
  if s0.configured i then
    let before := s0.plan i
    let s := s0.writeWindow i
    match before.state with
    | .planned | .blocked =>
      if before.movable then
        if (s.window i).isSome then s else State.takeUpHeld i ((s.modPlan i Plan.toIdle).reportPlan i before)
      else (s.modPlan i fun p => { p with state := s.judged i p.kind p.targetZone }).reportPlan i before
    | _ => s
  else s0

/-- The targets that plans must keep separation from before any movable plan is placed (R101). -/
def State.fixedReferences (s : State) : List Nat :=
  (stands.filterMap fun i =>
    if s.configured i ∧ ¬ (s.plan i).movable then (s.plan i).target else none)
    ++ (if s.splice.recharging then s.splice.lastAck.toList else [])

/-- Stands in ascending order of Lf, ties by stand number. -/
def insertByLatest (s : State) (i : Stand) : List Stand → List Stand
  | [] => [i]
  | j :: rest =>
    if (s.plan j).latest.getD 0 ≤ (s.plan i).latest.getD 0 then j :: insertByLatest s i rest else i :: j :: rest

/-- The stands whose plans a pass places, in its order (R101). -/
def State.movableStands (s : State) : List Stand :=
  (stands.filter fun i => (s.plan i).movable && (s.window i).isSome).foldl (fun l i => insertByLatest s i l) []

/-- A pass's placing of the movable plans against a growing list of references (R101, R103, R104). -/
def State.placeMovable : List Stand → List Nat → State → State
  | [], _, s => s
  | i :: rest, refs, s =>
    match s.window i with
    | some w =>
      let before := s.plan i
      let c := s.choose i w refs
      let st := if c.blocked then .blocked else s.judged i (some c.kind) c.zone
      let s1 := (s.modPlan i fun p => p.aim st c.kind c.target c.zone).reportPlan i before
      State.placeMovable rest (if st = .planned then refs ++ [c.target] else refs) s1
    | none => State.placeMovable rest refs s

/-- A planning pass, in Run and Hold only (R101), with what follows from it at once. -/
def State.pass (s : State) : State :=
  if s.runOrHold then
    let s1 := s.eachStand State.passFixed
    (State.placeMovable s1.movableStands s1.fixedReferences s1).settleSplice
  else s

/-! ### Grade targets (R105, R106) -/

/-- A grade target becomes the held grade target. -/
def State.holdGrade (s : State) (i : Stand) (t : GradeTarget) : State := s.modPlan i fun p => { p with held := some t }

/-- A grade target reaches a stand (R105); outside Run and Hold it is discarded. A plan that takes it keeps an older held grade target
behind it: R105 has the plan take the new one and R106 takes up a held one when a normal plan is withdrawn, and that the new one goes
first is the model's choice (notes/assumptions/67). -/
def State.offerGrade (s : State) (i : Stand) (t : GradeTarget) : State :=
  if s.runOrHold then
    let p := s.plan i
    match p.state with
    | .idle => s.takeGrade i t
    | .planned | .blocked =>
      if p.movable then
        match p.latest with
        | some l => if t.target ≤ l then s.takeGrade i t else s.holdGrade i t
        | none => s.takeGrade i t
      else s.holdGrade i t
    | .armed | .due | .firing => s.holdGrade i t
  else s

/-- A plan leaves Firing for Idle: a held target is taken up, a pass and the arbiter run, and Safe stop may be left (R19, R106,
R113). -/
def State.leaveFiring (s : State) (i : Stand) : State :=
  (((s.modPlan i Plan.toIdle).takeUpHeld i).pass.settleSplice).leaveSafeStop

/-! ### Marks (R61, R111) -/

/-- A mark is inserted after every mark whose start is at or below its own (R61). -/
def insertMark (m : Mark) : List Mark → List Mark
  | [] => [m]
  | x :: rest => if x.start ≤ m.start then x :: insertMark m rest else m :: x :: rest

/-- The kind a plan's mark records: LATE if late, otherwise the plan's kind with LATEST as PLANNED (R111). -/
def Plan.markKind (p : Plan) : MarkKind :=
  if p.late = some true then .late
  else match p.kind with
    | some .grade => .grade
    | some .manual => .manual
    | _ => .planned

/-- The mark of a splice of the stand at the present W (R111). -/
def State.spliceMark (s : State) (i : Stand) : Mark where
  start := s.web.w + s.profile.path.get i
  stop := s.web.w + s.profile.path.get i + s.profile.markLength
  stand := i
  kind := (s.plan i).markKind
  reel := ((s.standRecord i).running.bind (·.data)).map (·.reel)

/-- The air is spent and the board spoiled at the present W (R111, R112, R116). -/
def State.spendAir (s : State) (i : Stand) : State :=
  (s.modMap fun m => { m with marks := insertMark (s.spliceMark i) m.marks }).modSplice fun r =>
    { r with recharging := true, remaining := s.profile.tAir, lastAck := some s.web.w }

end Sys2Proof.Machine
end

