-- ==== Sys2Proof/Machine/Conditioning.lean ====
section
/-! DEFINITION. The conditioning unit's operations: interpolation, the grade at the glue point, setpoints, plate temperature and the
heat ceiling (chapter 7). -/

namespace Sys2Proof.Machine

/-! ### Interpolation (R124) -/

/-- a / b rounded to the nearest integer, halves away from zero. -/
def roundDiv (a : Int) (b : Nat) : Int :=
  if 0 ≤ a then (2 * a + b) / (2 * b) else -((-(2 * a) + b) / (2 * b))

/-- The value of one quantity of a table at a speed (R124). -/
def interpolate (f : Breakpoint → Nat) (v : Nat) : List Breakpoint → Nat
  | [] => 0
  | [b] => f b
  | b :: c :: rest =>
    if v ≤ b.speed then f b
    else if v < c.speed then
      ((f b : Int) + roundDiv (((f c : Int) - f b) * ((v : Int) - b.speed)) (c.speed - b.speed)).toNat
    else interpolate f v (c :: rest)

/-- The setpoints of a table at a speed. -/
def setpointsAt (t : List Breakpoint) (v : Nat) : Setpoints where
  wrap := interpolate (·.wrap) v t
  gap := interpolate (·.gap) v t
  temp := interpolate (·.temp) v t
  speed := v

/-! ### Heat ceiling (R128) -/

/-- The temperature is stale: its age exceeds 10,000 ms, or there is none (R127). -/
def State.stale (s : State) : Bool := decide (Config.staleMs < s.cond.age) || s.cond.lastTemp.isNone

/-- The table's temperature column run backwards, for a temperature at or above the first required one; absent at or above the
last (R128). -/
def inverseSpeed (t : Nat) : List Breakpoint → Option Nat
  | [] => none
  | [_] => none
  | b :: c :: rest =>
    if c.temp ≤ t then inverseSpeed t (c :: rest)
    else some (b.speed + (t - b.temp) * (c.speed - b.speed) / (c.temp - b.temp))

/-- The heat ceiling of R128. -/
def State.computeCeiling (s : State) : Option Nat :=
  match s.cond.inForce, s.cond.lastTemp with
  | none, _ => none
  | some _, none => some s.profile.vCrawl
  | some table, some t =>
    if s.stale then some s.profile.vCrawl
    else
      match table with
      | [] => none
      | b :: _ =>
        if t < b.temp then some s.profile.vCrawl
        else (inverseSpeed t table).map fun v => max v s.profile.vCrawl

/-- The HEAT entry that a heat ceiling gives under DERATE: present below v_max (R129). -/
def State.heatEntry (s : State) : Option Nat := s.cond.heatCeiling.filter (· < s.profile.vMax)

/-- The HEAT entry of the ceiling list. -/
def State.setHeatEntry (s : State) (e : Option Nat) : State :=
  s.modSup fun p => { p with ceilings := { p.ceilings with heat := e } }

/-- The derate count of the order at the glue point rises (R129). -/
def State.countDerate (s : State) : State :=
  match s.orderAtGlue with
  | some n => s.modOrder n fun o => { o with derates := o.derates + 1 }
  | none => s

/-- R129 under DERATE, R130 under HOLD, applied to the heat ceiling as it stands. -/
def State.applyHeat (s : State) : State :=
  let before := s.sup.ceilings.heat
  match s.profile.heatAction with
  | .derate =>
    let s1 := (s.setHeatEntry s.heatEntry).clearHold .heat
    match before, s.heatEntry with
    | none, some c => (s1.place (.heatDerateOn c s.cond.lastTemp s.stale s.cond.glueGrade)).countDerate
    | some _, none => s1.place (.heatDerateOff s.cond.lastTemp)
    | _, _ => s1
  | .hold =>
    let s1 := s.setHeatEntry none
    let s2 := if before.isSome then s1.place (.heatDerateOff s.cond.lastTemp) else s1
    s2.putHold .heat (s.cond.heatCeiling.any (· < s.profile.vCrawl + 1))

/-- The heat ceiling is recomputed and applied (R128). -/
def State.recomputeHeat (s : State) : State :=
  (s.modCond fun c => { c with heatCeiling := s.computeCeiling }).applyHeat

/-! ### Setpoints (R126) -/

/-- SETPOINTS is placed for the conditioning node, if it is Online and a table is in force (R126). -/
def State.placeSetpoints (s : State) : State :=
  match s.cond.inForce with
  | some t =>
    if s.online .conditioning then
      let p := setpointsAt t s.web.v
      (s.modCond fun c => { c with lastSent := some p }).queueSetpoints p
    else s
  | none => s

/-- The deadband test at a gate period end (R126). -/
def State.deadbandSetpoints (s : State) : State :=
  match s.cond.lastSent with
  | none => s.placeSetpoints
  | some p => if s.profile.deadband ≤ (s.web.v - p.speed) + (p.speed - s.web.v) then s.placeSetpoints else s

/-! ### The grade at the glue point (R125) -/

/-- The glue grade takes a value, its table is copied into force, and setpoints and heat ceiling follow (R125). -/
def State.takeTable (s : State) (g : Nat) : State :=
  let table := ((s.grade? g).bind fun d => (s.cond.tables.getD d.table none))
  ((s.modCond fun c => { c with glueGrade := some g, inForce := table }).placeSetpoints).recomputeHeat

/-- The grade that the zone at the glue point gives, absent where it leaves the glue grade unchanged (table of R125). -/
def State.gradeAtGlue (s : State) : Option Nat :=
  match s.zoneAt (s.web.w + s.profile.pGlue) with
  | some z =>
    match z.kind, z.stop with
    | .order, _ => s.gradeOfZone z
    | .thread, _ | .runout, some _ => (s.orderZoneAfter z.start).bind s.gradeOfZone
    | .transition, _ | .runout, none => none
  | none => none

/-- The glue grade is set from the zone at the glue point (R125). -/
def State.applyGlue (s : State) : State :=
  match s.gradeAtGlue with
  | some g => if s.cond.glueGrade = some g then s else s.takeTable g
  | none => s

/-- The same at START and at RESUME from QUEUE_END, where the copy is taken afresh even when the glue grade keeps its index
(R125). -/
def State.applyGlueFresh (s : State) : State :=
  match s.gradeAtGlue with
  | some g => s.takeTable g
  | none =>
    match s.cond.glueGrade with
    | some g => s.takeTable g
    | none => s

/-! ### Temperature reports (R127) -/

/-- The lesser of a recorded minimum and a report. -/
def lowest (m : Option Nat) (t : Nat) : Option Nat := some (min (m.getD t) t)

/-- The greater of a recorded maximum and a report. -/
def highest (m : Option Nat) (t : Nat) : Option Nat := some (max (m.getD t) t)

/-- A temperature report is taken (R127). -/
def State.temperatureReport (s : State) (t : Nat) : State :=
  let s1 := s.modCond fun c => { c with lastTemp := some t, age := 0 }
  let s2 := match s1.orderAtGlue with
    | some n => s1.modOrder n fun o => { o with tempMin := lowest o.tempMin t, tempMax := highest o.tempMax t }
    | none => s1
  s2.recomputeHeat

end Sys2Proof.Machine
end

