-- ==== Sys2Proof/Machine/Stations.lean ====
section
/-! DEFINITION. The cut controller's station operations: matching a retained set, issuing SET, taking a swap, the wait holders of
SET_WAIT, and the loss of a station (chapter 8, R135 to R142); and the loss of the stacker (R157). -/

namespace Sys2Proof.Machine

/-- A station's record. -/
def State.station (s : State) (x : Station) : StationRecord := s.cut.station.get x

/-- The Engaged station. -/
def State.engagedStation (s : State) : Option Station :=
  if (s.station .a).state = .engaged then some .a else if (s.station .b).state = .engaged then some .b else none

/-- The carrying station: the incoming station of the last entry, or the Engaged station (R136). -/
def State.carrying (s : State) : Option Station :=
  match s.cut.swaps.getLast? with
  | some e => some e.incoming
  | none => s.engagedStation

/-- The station other than the carrying station (R136). With none carrying it is station A: at START and RESUME by R142, and at a commit by
the model's choice (notes/assumptions/64). -/
def State.idleStation (s : State) : Station :=
  match s.carrying with
  | some x => otherStation x
  | none => .a

/-- The incoming station of an entry is ready: Set, at the entry's set, its node Online (R139). -/
def State.swapReady (s : State) (e : SwapEntry) : Bool :=
  (s.station e.incoming).state = .set && (s.station e.incoming).retained = some e.tools && s.online (.station e.incoming)

/-- A station holds SET_WAIT: an entry that names it as incoming is past its last call and not ready (R29, R139). -/
def State.setWaits (s : State) (x : Station) : Bool :=
  s.cut.swaps.any fun e => e.incoming = x && e.lastCall && !s.swapReady e

/-- The wait holders of SET_WAIT are brought up to date (R29). -/
def State.syncSetWait (s : State) : State := s.setSetWait ⟨s.setWaits .a, s.setWaits .b⟩

/-- Last calls of the swap entries are tested (R29). -/
def State.testSwapCalls (s : State) : State :=
  (s.modCut fun c =>
    { c with swaps := c.swaps.map fun e => { e with lastCall := e.lastCall || s.lastCallPasses e.point } }).syncSetWait

/-- The first swap entry that names a station as incoming. -/
def State.firstEntry (s : State) (x : Station) : Option SwapEntry := s.cut.swaps.find? fun e => e.incoming = x

/-- A Parked station becomes Set without a command when its retained set is the one its next swap needs (R135). -/
def State.matches (s : State) (x : Station) : Bool :=
  match s.firstEntry x with
  | some e => (s.station x).state = .parked && (s.station x).retained = some e.tools
  | none => false

/-- SET is issued to a station that must take its next swap's set (R137). No SET is still queued for a Parked or Set station: one
makes it Setting, which it leaves by that command's result or timeout, or by its node's loss, which purges the queue (R165). -/
def State.issueSet (s : State) (x : Station) : State :=
  match s.firstEntry x with
  | some e =>
    let r := s.station x
    if s.online (.station x) ∧ (r.state = .parked ∨ r.state = .set) ∧ r.retained ≠ some e.tools then
      (s.modStation x fun r => { r with state := .setting, retained := some e.tools, timer := none }).queueCommand (.station x)
        (.set e.tools)
    else s
  | none => s

/-- The checks of R135 and R137 on one station. -/
def State.examine (s : State) (x : Station) : State :=
  if s.matches x then s.modStation x fun r => { r with state := .set } else s.issueSet x

/-- The swap of an entry is taken: ENGAGE is queued urgent, the station becomes Swapping and the entry leaves (R139). -/
def State.takeSwap (s : State) (e : SwapEntry) : State :=
  ((s.modStation e.incoming fun r => { r with state := .swapping, timer := none, outgoing := e.outgoing }).modCut fun c =>
    { c with swaps := c.swaps.drop 1 }).queueCommand (.station e.incoming) .engage

/-- The first entries whose swap point W has reached are taken while their stations are ready (R139); `n` bounds how many. -/
def State.takeSwaps : Nat → State → State
  | 0, s => s
  | n + 1, s =>
    match s.cut.swaps with
    | e :: _ => if e.point ≤ s.web.w ∧ s.swapReady e then State.takeSwaps n (s.takeSwap e) else s
    | [] => s

/-- The swaps that are due and ready are taken. -/
def State.dueSwaps (s : State) : State := (State.takeSwaps s.cut.swaps.length s).syncSetWait

/-- Some station becomes Set by matching, at the checks that come next: a readiness-changing event (R73, R135). -/
def State.willMatch (s : State) : Bool := s.matches .a || s.matches .b

/-- The checks of R135 and R137 on both stations, then the swaps that are due. -/
def State.settleStations (s : State) : State := ((s.examine .a).examine .b).dueSwaps

/-- A swap entry is appended; its outgoing station is the carrying station (R136). -/
def State.appendSwap (s : State) (point : Nat) (incoming : Station) (tools : ToolSet) (zone : Nat) : State :=
  let e : SwapEntry :=
    { point := point, incoming := incoming, tools := tools, outgoing := s.carrying, zone := zone, lastCall := s.lastCallPasses point }
  s.modCut fun c => { c with swaps := c.swaps ++ [e] }

/-- A station becomes Faulted: its retained set is unknown and its timer stops (R135, R138, R140, R141). -/
def State.faultStation (s : State) (x : Station) : State :=
  s.modStation x fun _ => { state := .faulted, retained := none, timer := none, outgoing := none }

/-- The station is Engaged or Swapping. -/
def State.stationWorking (s : State) (x : Station) : Bool :=
  (s.station x).state = .engaged || (s.station x).state = .swapping

/-- A station's node leaves service (R141): a Setting, Swapping or Engaged station becomes Faulted. -/
def State.stationLoses (s : State) (x : Station) : State :=
  (match (s.station x).state with
   | .setting | .swapping | .engaged => s.faultStation x
   | .parked | .set | .faulted => s).syncSetWait

/-! ### Loss of the stacker (R157) -/

/-- Stacks completed of an order rises by `n`. -/
def State.countStacks (s : State) (order n : Nat) : State := s.modOrder order fun o => { o with stackTotal := o.stackTotal + n }

/-- A run that is not credited is lost to its order (R157). -/
def State.loseRun (s : State) (r : BufferRun) : State :=
  match r.credit with
  | some _ => s
  | none => s.modOrder r.order fun o => { o with lost := o.lost + r.count }

/-- The stacker becomes Faulted or Offline (R157). From Stacking an open stack is counted closed; from Changing it was counted
when it was closed. -/
def State.loseStacker (s : State) (dest : StackerState) : State :=
  match s.router.stacker with
  | .faulted | .offline => s.modRouter fun r => { r with stacker := dest }
  | .stacking | .changing =>
    let s1 := match s.router.stacker, s.router.stack with
      | .stacking, some k => if 1 ≤ k.count then s.countStacks k.order 1 else s
      | _, _ => s
    let s2 := s.router.buffer.foldl State.loseRun s1
    s2.modRouter fun r => { r with stacker := dest, stack := none, buffer := [], reason := none, timer := none }

end Sys2Proof.Machine
end

