-- ==== Sys2Proof/Machine/Section.lean ====
section
/-! DEFINITION. The section line controller's operations: service states, fault latches and their consequences, the purge of
commands, hold reason SECTION (chapter 10, R162 to R172). Transactions are in SectionFrames.lean. -/

namespace Sys2Proof.Machine

/-! ### Latches -/

/-- Whether a latch is set. -/
def Latches.get (l : Latches) : Latch → Bool
  | .noAnswer => l.noAnswer
  | .nodeFault => l.nodeFault
  | .gauge => l.gauge
  | .spliceFail => l.spliceFail
  | .setFail => l.setFail
  | .stackFault => l.stackFault

/-- The latches with one set. -/
def Latches.with (l : Latches) : Latch → Latches
  | .noAnswer => { l with noAnswer := true }
  | .nodeFault => { l with nodeFault := true }
  | .gauge => { l with gauge := true }
  | .spliceFail => { l with spliceFail := true }
  | .setFail => { l with setFail := true }
  | .stackFault => { l with stackFault := true }

/-- A latch other than GAUGE is set (R172). -/
def Latches.faulting (l : Latches) : Bool := l.noAnswer || l.nodeFault || l.spliceFail || l.setFail || l.stackFault

/-! ### Service states (R162) -/

/-- A node's service state becomes `to`; a change is reported by SECTION_STATE. -/
def State.setService (s : State) (n : Node) (dest : Service) : State :=
  let before := (s.node n).service
  if before = dest then s
  else (s.modNode n fun r => { r with service := dest }).place (.sectionState n before dest)

/-- A node enters Initialising with INIT queued and its missed-poll count at 0 (R163, R168); a stacker is then Offline to the
router (R157). DESIGN CHOICE: INIT is queued also while an INIT of an earlier entry to Initialising is still in flight to the node; the
reply to that one withdraws it (`State.nodeOnline`, notes/assumptions/69). -/
def State.initialise (s : State) (n : Node) : State :=
  let s1 := ((s.setService n .initialising).modNode n fun r => { r with missed := 0 }).queueCommand n .init
  if n = .stacker then s1.loseStacker .offline else s1

/-- A FIRE leaves the queue unsent: its plan leaves Firing for Due in Run and Hold and for Idle elsewhere (R165). As Due it takes the
splice limit of that moment (notes/assumptions/54). -/
def State.fireNotSent (s : State) (i : Stand) : State :=
  let s1 :=
    if s.runOrHold then s.modPlan i fun p => { p with state := .due, late := none, limit := some s.spliceLimit }
    else s.modPlan i Plan.toIdle
  (s1.place (.spliceFailed i .notSent)).settleSplice.leaveSafeStop

/-- A node leaves Initialising or Online for Faulted, Offline or Absent: the commands queued for it leave unsent, and its owning
block takes the loss (R141, R157, R165, R167). A stand that was Online starts a planning pass (R101). -/
def State.leaveService (s : State) (n : Node) (dest : Service) : State :=
  let wasOnline := s.online n
  let s1 := (s.setService n dest).purgeCommands n
  match n with
  | .stand i =>
    let s2 := if s.fireQueued i ∧ (s.plan i).state = .firing then s1.fireNotSent i else s1
    if wasOnline then s2.pass.settleSplice else s2
  | .conditioning => s1
  | .station x => s1.stationLoses x
  | .stacker =>
    (s1.modLine fun l => { l with routes := [] }).loseStacker (if dest = .faulted then .faulted else .offline)

/-! ### Hold reason SECTION (R170) -/

/-- SECTION is raised, and SECTION acknowledged is cleared. -/
def State.raiseSection (s : State) : State := (s.modLine fun l => { l with acked := false }).raiseHold .sectionLine

/-- SECTION leaves the set when it is acknowledged and the stacker and the conditioning node are Online. -/
def State.releaseSection (s : State) : State :=
  if s.line.acked ∧ s.online .stacker ∧ s.online .conditioning then s.clearHold .sectionLine else s

/-- What a node's becoming Faulted means for the line, by its role before (R170). `s0` is the state at that moment. -/
def State.faultConsequence (s : State) (s0 : State) (n : Node) (l : Latch) : State :=
  match n with
  | .stand i =>
    if l = .noAnswer ∧ (s0.feedsWeb i ∨ (s0.plan i).state = .firing) then s.reportCause .sectionLine else s
  | .station x =>
    if s0.stationWorking x ∧ (l = .noAnswer ∨ s.runOrHold) then s.reportCause .sectionLine else s
  | .conditioning | .stacker => s.raiseSection

/-- A node becomes Faulted (R165, R169, R170). -/
def State.becomeFaulted (s : State) (n : Node) (l : Latch) : State :=
  (s.leaveService n .faulted).faultConsequence s n l

/-- A fault latch is set: one already set changes nothing; one that was clear is reported, and, but for GAUGE, makes an
Initialising or Online node Faulted (R169). -/
def State.latch (s : State) (n : Node) (l : Latch) : State :=
  if (s.node n).latches.get l then s
  else
    let s1 := s.modNode n fun r => { r with latches := r.latches.with l }
    let s2 := s1.place (.sectionFault n l (s1.node n).latches)
    if l ≠ .gauge ∧ ((s2.node n).service = .initialising ∨ (s2.node n).service = .online) then s2.becomeFaulted n l else s2

/-- A node goes Offline (R172): its blocks take it as no longer Online, and an Engaged or Swapping station lost in Run or Hold is
reported as cause SECTION (R141). -/
def State.goOffline (s : State) (n : Node) : State :=
  let s1 := s.leaveService n .offline
  match n with
  | .station x => if s.stationWorking x ∧ s1.runOrHold then s1.reportCause .sectionLine else s1
  | _ => s1

/-! ### Routes (R167) -/

/-- A gate decision is handed over: it becomes a route while the stacker node is Online; with 64 held, NO_ANSWER is latched and
it is not appended (R167). -/
def State.handRoute (s : State) (toStack : Bool) : State :=
  if s.online .stacker then
    if Config.routeCapacity ≤ s.line.routes.length then s.latch .stacker .noAnswer
    else s.modLine fun l =>
      { l with routes := l.routes ++ [⟨toStack, l.nextSeq⟩], nextSeq := (l.nextSeq + 1) % 65536 }
  else s

/-- Every route through the one carrying a sequence leaves the list; a sequence none carries removes nothing (R167).
65,535 is a sequence like any other (DESIGN CHOICE, notes/assumptions/68). -/
def acceptRoutes (seq : Nat) (routes : List Route) : List Route :=
  if routes.any fun r => r.sequence = seq then (routes.dropWhile fun r => r.sequence ≠ seq).drop 1 else routes

end Sys2Proof.Machine
end

