-- ==== Sys2Proof/Machine/Knife.lean ====
section
/-! DEFINITION. The cut controller's knife schedule: laying pieces, the ratio word, cut-rate ceilings, and the KNIFE and ORDER
entries of the ceiling list that are composed from the zones (R26, R143 to R149). -/

namespace Sys2Proof.Machine

/-! ### Pieces (R143, R144) -/

/-- The piece plan of a length divided into equal pieces (R144). -/
def dividedInto (len lmax : Nat) : PiecePlan :=
  let n := ceilDiv len lmax
  { count := n, base := len / n, longer := len - n * (len / n), begun := 0 }

/-- Length of piece `i` of a plan: the first pieces are 1 mm longer. -/
def PiecePlan.piece (p : PiecePlan) (i : Nat) : Nat := p.base + (if i < p.longer then 1 else 0)

/-- The cut pattern of the order a zone names. -/
def State.patternOf (s : State) (z : Zone) : List Nat := ((z.order.bind s.order?).map (·.pattern)).getD []

/-- The schedule with the first piece of a zone that begins at the last cut (R143, R144). -/
def State.layZone (s : State) (z : Zone) : KnifeSchedule :=
  match z.kind, z.stop with
  | .order, _ =>
    { pieceStart := z.start, nextCut := z.start + cutLength (s.patternOf z) 0, zone := z.start, index := 0, plan := none }
  | _, some e =>
    let p := dividedInto (e - z.start) s.profile.lmax
    { pieceStart := z.start, nextCut := z.start + p.piece 0, zone := z.start, index := 0, plan := some { p with begun := 1 } }
  | _, none =>
    { pieceStart := z.start, nextCut := z.start + s.profile.lmax, zone := z.start, index := 0, plan := none }

/-- The schedule after the cut at N within the same zone (R143, R144). -/
def State.nextPiece (s : State) (z : Zone) (k : KnifeSchedule) : KnifeSchedule :=
  let n := k.nextCut
  match z.kind, k.plan with
  | .order, _ =>
    { k with pieceStart := n, nextCut := n + cutLength (s.patternOf z) (k.index + 1), index := k.index + 1 }
  | _, some p => { k with pieceStart := n, nextCut := n + p.piece p.begun, plan := some { p with begun := p.begun + 1 } }
  | _, none => { k with pieceStart := n, nextCut := n + s.profile.lmax }

/-- The zone that begins at a coordinate. -/
def State.zoneFrom (s : State) (start : Nat) : Option Zone := s.map.zones.find? fun z => z.start = start

/-- The schedule after the cut at N: the next piece of the zone, or the first of the zone that begins at N when N is the zone's
end (R147). -/
def State.scheduleAfter (s : State) (k : KnifeSchedule) : Option KnifeSchedule :=
  match s.zoneFrom k.zone with
  | some z =>
    if z.stop = some k.nextCut then (s.zoneFrom k.nextCut).map s.layZone else some (s.nextPiece z k)
  | none => none

/-- The schedule of the runout at the knife, laid again for a new end (R144). -/
def relaid (k : KnifeSchedule) (stop lmin lmax : Nat) : KnifeSchedule :=
  if stop ≤ k.nextCut then { k with nextCut := stop, plan := some { count := 0, base := 0, longer := 0, begun := 0 } }
  else if lmin ≤ stop - k.nextCut then { k with plan := some (dividedInto (stop - k.nextCut) lmax) }
  else { k with nextCut := stop, plan := some { count := 0, base := 0, longer := 0, begun := 0 } }

/-! ### Ratio word (R146) -/

/-- The ratio of a piece length. -/
def ratioOf (len c : Nat) : Nat := (1024 * len + c / 2) / c

/-- Length of the present piece. -/
def KnifeSchedule.present (k : KnifeSchedule) : Nat := k.nextCut - k.pieceStart

/-- The ratio of the present piece is presented; an equal word and its strobe are left (R146). -/
def State.presentRatio (s : State) : State :=
  match s.cut.schedule with
  | some k =>
    let q := ratioOf k.present s.profile.knifeC
    if q = s.cut.ratio then s
    else (s.modCut fun c => { c with ratio := q }).modPins fun p => { p with ratioStrobes := p.ratioStrobes + 1 }
  | none => s

/-- The ratio is presented again when a runout closure has changed the length of the present piece from that of `before` (R146). -/
def State.presentIfChanged (s : State) (before : Option KnifeSchedule) : State :=
  if s.cut.schedule.map KnifeSchedule.present = before.map KnifeSchedule.present then s else s.presentRatio

/-! ### Cut-rate ceilings (R145) -/

/-- The shortest of the present piece and the pieces still to be cut, of a closed runout at the knife. -/
def KnifeSchedule.shortest (k : KnifeSchedule) : Nat :=
  let present := k.present
  match k.plan with
  | some p => if p.begun < p.count then min present p.base else present
  | none => present

/-- The shortest piece of a zone (R145). -/
def State.shortestPiece (s : State) (z : Zone) : Nat :=
  match z.kind, z.stop with
  | .order, _ => (s.patternOf z).foldl (fun m l => match m with | none => some l | some x => some (min x l)) none |>.getD 0
  | .runout, none => s.profile.lmax
  | .runout, some e =>
    match s.cut.schedule with
    | some k => if k.zone = z.start then k.shortest else (dividedInto (e - z.start) s.profile.lmax).base
    | none => (dividedInto (e - z.start) s.profile.lmax).base
  | _, some e => (dividedInto (e - z.start) s.profile.lmax).base
  | _, none => s.profile.lmax

/-- The cut-rate ceiling of a zone: floor(Lp x m / 100), at most 4,500 (R145). -/
def State.cutRate (s : State) (z : Zone) : Nat :=
  min 4500 (s.shortestPiece z * min s.profile.nKnife s.profile.nStack / 100)

/-! ### KNIFE and ORDER entries (R26) -/

/-- The speed cap of the order an ORDER zone names. -/
def State.capOf (s : State) (z : Zone) : Option Nat := if z.kind = .order then (z.order.bind s.order?).bind (·.cap) else none

/-- A zone with its approaches tested: those ahead of the knife may have theirs pass; a passed approach stays passed (R26). -/
def State.testZone (s : State) (z : Zone) : Zone :=
  if s.web.w < z.start then
    { z with
      nearKnife := z.nearKnife || s.approachPasses z.start (s.cutRate z)
      nearOrder := z.nearOrder || (match s.capOf z with | some u => s.approachPasses z.start u | none => false) }
  else z

/-- The approaches of every zone are tested. -/
def State.testApproaches (s : State) : State := s.modMap fun m => { m with zones := m.zones.map s.testZone }

/-- The KNIFE value: the least cut-rate ceiling of the zone at the knife and of the zones whose approach has passed; absent with
no zone at the knife and outside Run and Hold (R25, R26). -/
def State.knifeEntry (s : State) : Option Nat :=
  if s.runOrHold ∧ (s.zoneAt s.web.w).isSome then
    (s.map.zones.filterMap fun z =>
      if z.covers s.web.w || (decide (s.web.w < z.start) && z.nearKnife) then some (s.cutRate z) else none).foldl
      (fun m c => leastOf m (some c)) none
  else none

/-- The ORDER value: the least cap of the order at the knife and of the orders whose approach has passed (R26). -/
def State.orderEntry (s : State) : Option Nat :=
  (s.map.zones.filterMap fun z =>
    if z.covers s.web.w || (decide (s.web.w < z.start) && z.nearOrder) then s.capOf z else none).foldl
    (fun m c => leastOf m (some c)) none

/-- The KNIFE and ORDER entries are composed from the zones (R26). -/
def State.composeCeilings (s : State) : State :=
  s.modSup fun p => { p with ceilings := { p.ceilings with knife := s.knifeEntry, order := s.orderEntry } }

/-- Approaches tested and both entries composed: when a zone is appended, laid again or an order's cap is amended (R26, R145). -/
def State.recompose (s : State) : State := s.testApproaches.composeCeilings

/-- The approach test of an advance or a gate period end: the entries are composed again when an approach passes or the zone at
the knife changes (R26). -/
def State.approachTest (s : State) : State :=
  let s1 := s.testApproaches
  if s1.map.zones ≠ s.map.zones ∨ (s.zoneFrom s.web.w).isSome then s1.composeCeilings else s1

end Sys2Proof.Machine
end

