-- ==== Sys2Proof/Machine/Planner.lean ====
section
/-! DEFINITION. The boundary planner's operations: zones, readiness of the successor, commit, deferral, terminal boundary, fresh
plans and the runout (chapter 4, R58 to R79), with the scheduling of an order (R38 to R40). -/

namespace Sys2Proof.Machine

/-! ### Zones (R58) -/

/-- A zone as it is appended, open-ended, its approaches not passed. -/
def newZone (kind : ZoneKind) (start : Nat) (order : Option Nat) (setChange : Bool) (st : PerStand Bool) : Zone :=
  { kind := kind, start := start, stop := none, order := order, setChange := setChange, stands := st, nearKnife := false
    nearOrder := false }

/-- A zone is appended: it closes the last zone at its start (R58). -/
def appendZone (z : Zone) : List Zone → List Zone
  | [] => [z]
  | [x] => [{ x with stop := some (x.stop.getD z.start) }, z]
  | x :: rest => x :: appendZone z rest

/-- A zone is appended to the web map. -/
def State.appendZone (s : State) (z : Zone) : State := s.modMap fun m => { m with zones := Machine.appendZone z m.zones }

/-- Free zone slots. -/
def State.freeSlots (s : State) : Nat := Config.zoneCapacity - s.map.zones.length

/-! ### Scheduling and fixing (R38 to R40) -/

/-- ORDER_STATE for an order as it stands (R36 to R43, R55). -/
def State.placeOrderState (s : State) (n : Nat) (before : Option OrderState) : State :=
  match s.order? n with
  | some o => s.place (.orderState n before (some o.state) o.zoneStart o.zoneEnd)
  | none => s

/-- An order record as it becomes Scheduled with its zone at `start` (R38, R39). -/
def Order.schedule (o : Order) (start : Nat) (marks : List Mark) : Order :=
  let spoiled := spoiledCuts o.pattern marks start (o.needed + o.overrun)
  let planned := o.needed + o.overrun + spoiled
  { o with
    state := .scheduled
    zoneStart := some start
    spoiled := spoiled
    planned := planned
    plannedEnd := some (start + plannedLength o.pattern planned)
    deferred := 0 }

/-- The order is scheduled at the end of the map: its ORDER zone is appended, its grade becomes In use, it becomes the open order
(R39, R64, R68). -/
def State.schedule (s : State) (o : Order) (start : Nat) : State :=
  let s1 := s.appendZone (newZone .order start (some o.number) false (.same false))
  let s2 := s1.modOrder o.number fun x => x.schedule start s.map.marks
  let s3 := (s2.useGrade o.grade).modMap fun m => { m with openOrder := some o.number }
  s3.placeOrderState o.number (some .queued)

/-- The open order's end is fixed at its planned end (R40): Scheduled becomes Fixed, Running stays. -/
def State.fixEnd (s : State) (o : Order) : State :=
  let stop := o.plannedEnd.getD 0
  let s1 := s.modOrder o.number fun x =>
    { x with zoneEnd := some stop, state := if x.state = .scheduled then .fixed else x.state }
  let s2 := s1.modMap fun m =>
    { m with
      zones := m.zones.map fun z => if z.order = some o.number then { z with stop := some stop } else z
      openOrder := none }
  s2.placeOrderState o.number (some o.state)

/-! ### Successor and readiness (R66, R67) -/

/-- The open order's record. -/
def State.openOrder? (s : State) : Option Order := s.map.openOrder.bind s.order?

/-- A stand changes paper from the open order to the successor (R66). -/
def State.gradeChange (s : State) (o succ : Order) (i : Stand) : Bool :=
  s.configured i &&
    (match s.codeOf succ.grade i with
     | some c => c ≠ 0 && s.codeOf o.grade i ≠ some c
     | none => false)

/-- The Engaged station carries the open order, with no swap waiting, and its retained set is absent: it matches no set (R141). -/
def State.engagedUnset (s : State) : Bool :=
  s.cut.swaps.isEmpty &&
    (match s.engagedStation with
     | some x => (s.station x).retained.isNone
     | none => false)

/-- The open order's set: once it has reached the slitter-scorer, the one held by the Engaged station (R66); absent where it is to
run on a station that matches no set (R141; notes/assumptions/19). -/
def State.openSet (s : State) (o : Order) : Option ToolSet :=
  if o.zoneStart.getD 0 ≤ s.web.w + s.profile.pSlit then
    s.engagedStation.bind fun x => (s.station x).retained
  else if s.engagedUnset then none
  else some o.tools

/-- A set change exists (R66, R141). -/
def State.setChange (s : State) (o succ : Order) : Bool := s.openSet o ≠ some succ.tools

/-- The stand whose standby is not ready with the successor's paper, lowest number first (R67 (a)). -/
def State.paperFails (s : State) (o succ : Order) : Option Stand :=
  stands.find? fun i =>
    s.gradeChange o succ i &&
      !((s.standRecord i).standbyPrepared && (s.standRecord i).standbyCode = s.codeOf succ.grade i)

/-- The first condition that fails, with the stand it names; absent when the successor is ready (R67). -/
def State.deferReason (s : State) (o succ : Order) : Option (DeferReason × Option Stand) :=
  match s.paperFails o succ with
  | some i => some (.paper, some i)
  | none =>
    let x := s.idleStation
    if s.setChange o succ ∧ ¬ (s.online (.station x) ∧ (s.station x).state ≠ .faulted) then some (.station, none)
    else if s.freeSlots < 2 then some (.zoneSlots, none)
    else if (s.grade? succ.grade).isNone then some (.grade, none)
    else none

/-! ### Commit (R68 to R70) -/

/-- Length of the transition (R69). -/
def State.transitionLength (s : State) (setChange : Bool) (st : PerStand Bool) : Nat :=
  max (if setChange then s.profile.tSlit else 0) (if st.any then s.profile.markLength + 2 * s.profile.margin else 0)

/-- The boundary is committed (R68) and handed on (R70). The event of the fixed order comes first, then that of the scheduled
one; the receivers of R70 act in the order swap entry and SET, grade targets, pass, ceilings, glue grade (notes/assumptions/49). -/
def State.commit (s : State) (o succ : Order) : State :=
  let sc := s.setChange o succ
  let st : PerStand Bool := .of (s.gradeChange o succ)
  let x := s.idleStation
  let stop := o.plannedEnd.getD 0
  let len := s.transitionLength sc st
  let change := sc || st.any
  let s1 := s.fixEnd o
  let s2 := if change then s1.appendZone (newZone .transition stop none sc st) else s1
  let s3 := (s2.schedule succ (if change then stop + len else stop)).modMap fun m => { m with deferrals := 0 }
  let s4 := s3.clearHold .deferral
  let s5 := if sc then (s4.appendSwap (stop - s.profile.pSlit) x succ.tools stop).settleStations else s4
  let s6 := s5.eachStand fun i t =>
    if st.get i then t.offerGrade i { target := stop + s.profile.margin - s.profile.path.get i, transition := stop } else t
  let s7 := if change then s6.pass else s6
  s7.recompose.applyGlue

/-! ### Deferral and terminal boundary (R71 to R76) -/

/-- The last call of the terminal boundary is tested (R76). -/
def State.queueEndTest (s : State) : State :=
  match s.map.terminal with
  | some t =>
    if ¬ s.map.queueEndCall ∧ s.lastCallPasses (t + s.profile.dGate) then
      (s.modMap fun m => { m with queueEndCall := true }).raiseHold .queueEnd
    else s
  | none => s

/-- A terminal boundary is fixed at the open order's planned end (R75). -/
def State.terminalFix (s : State) (o : Order) : State :=
  let stop := o.plannedEnd.getD 0
  let s1 := (s.fixEnd o).appendZone (newZone .runout stop none false (.same false))
  let s2 := s1.modMap fun m => { m with terminal := some stop, deferrals := 0, queueEndCall := false }
  ((s2.clearHold .deferral).queueEndTest).recompose.applyGlue

/-- What follows a check that did not commit, by the deferral limit (R71, R72, R73, R75). -/
def State.limitTest (s : State) (succ : Option Order) : State :=
  if s.profile.deferLimit ≤ s.map.deferrals then
    match succ with
    | some _ => s.raiseHold .deferral
    | none =>
      match s.openOrder? with
      | some o => if 2 ≤ s.freeSlots then s.terminalFix o else s
      | none => s
  else s

/-- A deferral step: the open order's planned end is extended by one cut and the count rises (R40, R71). -/
def State.deferralStep (s : State) (o : Order) (succ : Option Order) (reason : DeferReason) (i : Option Stand) : State :=
  let stop := o.plannedEnd.getD 0 + cutLength o.pattern o.planned
  let n := min 65535 (s.map.deferrals + 1)
  let s1 := s.modOrder o.number fun x =>
    { x with planned := x.planned + 1, plannedEnd := some stop, deferred := x.deferred + 1 }
  (s1.modMap fun m => { m with deferrals := n }).place
    (.boundaryDeferred o.number (succ.map (·.number)) reason i n stop)

/-- A check that finds no ready successor: a horizon check takes a deferral step; any check then compares with the limit. -/
def State.notReady (s : State) (atHorizon : Bool) (o : Order) (succ : Option Order) (reason : DeferReason) (i : Option Stand) :
    State :=
  (if atHorizon then s.deferralStep o succ reason i else s).limitTest succ

/-- The open order's planned end lies at or below the horizon. -/
def State.overdue (s : State) : Bool :=
  match s.openOrder? with
  | some o => decide (o.plannedEnd.getD 0 ≤ s.horizon)
  | none => false

/-- The order record clamped up to the first cut boundary of its zone at or beyond `x` (R46, R49, R65). -/
def Order.clampTo (o : Order) (x : Nat) : Order :=
  let start := o.zoneStart.getD 0
  let n := cutsToBoundary start o.pattern x
  { o with planned := n, plannedEnd := some (start + plannedLength o.pattern n) }

/-- The open order's planned end is clamped to the horizon's cut boundary (R65). -/
def State.clampOpen (s : State) : State :=
  match s.map.openOrder with
  | some n => s.modOrder n fun o => o.clampTo s.horizon
  | none => s

/-- The commit check (R65, R68, R71): `atHorizon` for a check that takes a deferral step when it fails. A commit whose new open
order is already inside the horizon leads to the next check at once; `fuel` bounds the cascade by the orders waiting. -/
def State.commitCheck : Nat → Bool → State → State
  | 0, _, s => s
  | fuel + 1, atHorizon, s =>
    match s.openOrder? with
    | none => s
    | some o =>
      match s.firstQueued with
      | none => s.notReady atHorizon o none .noSuccessor none
      | some succ =>
        match s.deferReason o succ with
        | some (reason, i) => s.notReady atHorizon o (some succ) reason i
        | none =>
          let s1 := s.commit o succ
          if s1.overdue then State.commitCheck fuel true s1.clampOpen else s1

/-- Fuel for a cascade: one more than the orders in the queue. -/
def State.cascade (s : State) : Nat := s.orders.list.length + 1

/-- A check at the horizon. -/
def State.horizonCheck (s : State) : State := State.commitCheck s.cascade true s

/-- The check that falls due when the horizon reaches the planned end (R65). -/
def State.commitDue (s : State) : State := if s.overdue then s.horizonCheck else s

/-- An end already inside the horizon is clamped and checked at once (R65). -/
def State.clampAndCheck (s : State) : State := if s.overdue then s.clampOpen.horizonCheck else s

/-- A readiness-changing event: with a deferral pending, the check runs again without a deferral step (R73). -/
def State.recheck (s : State) : State :=
  if 0 < s.map.deferrals then State.commitCheck s.cascade false s else s

/-- The checks of R135 and R137 on both stations; a station that becomes Set by matching is a readiness-changing event (R73),
taken after the swap it may release (notes/assumptions/58). -/
def State.checkStations (s : State) : State :=
  let matched := s.willMatch
  let s1 := s.settleStations
  if matched then s1.recheck else s1

/-! ### Station choice and plans from a standing line (R77, R78, R142) -/

/-- The first order's set is on the carrying station, engaged, with no swap waiting (R142). -/
def State.setAtHand (s : State) (t : ToolSet) : Bool :=
  s.cut.swaps.isEmpty &&
    (match s.engagedStation with
     | some x => (s.station x).retained = some t
     | none => false)

/-- The station choice of R142: without the set at hand, a swap to the station other than the carrying one at `zone` - P_slit. -/
def State.chooseStation (s : State) (t : ToolSet) (zone : Nat) : State :=
  if s.setAtHand t then s
  else (s.appendSwap (zone - s.profile.pSlit) s.idleStation t zone).settleStations

/-- A fresh plan from the present W: a THREAD zone and the first order's zone behind it (R77), with the knife schedule (R149). -/
def State.freshPlan (s : State) (o : Order) : State :=
  let stop := s.web.w + s.profile.dThread
  let s1 := s.modMap fun m => { m with deferrals := 0, terminal := none, queueEndCall := false }
  let s2 := s1.appendZone (newZone .thread s.web.w none (!s.setAtHand o.tools) (.same false))
  let s3 := (s2.schedule o stop).setEstimateGrade (some o.grade)
  let s4 := s3.chooseStation o.tools stop
  let s5 := s4.modCut fun c => { c with schedule := (s4.zoneFrom s.web.w).map s4.layZone }
  s5.presentRatio.recompose

/-- The zones with the last one, the RUNOUT zone, closed at `stop` or removed. -/
def closeRunout (stop : Nat) (setChange : Bool) : List Zone → List Zone
  | [] => []
  | [z] => [{ z with stop := some stop, setChange := setChange }]
  | z :: rest => z :: closeRunout stop setChange rest

/-- The runout is closed or removed and the first Queued order scheduled behind it (R78); the runout at the knife is laid again
and the ratio of a piece so changed presented (R144, R146). -/
def State.scheduleBehindRunout (s : State) (o : Order) : State :=
  let closing := s.web.w + s.profile.dThread
  let terminal := s.map.terminal.getD 0
  let change := !s.setAtHand o.tools
  let s0 := s.modMap fun m => { m with terminal := none, queueEndCall := false }
  let done (t : State) (zone : Nat) : State :=
    ((((t.schedule o zone).setEstimateGrade (some o.grade)).chooseStation o.tools zone).presentIfChanged s.cut.schedule).recompose
  if terminal < closing then
    let stop := max closing (terminal + s.profile.lmin)
    let s1 := s0.modMap fun m => { m with zones := closeRunout stop change m.zones }
    let s2 := s1.modCut fun c =>
      { c with schedule := c.schedule.map fun k =>
          if k.zone = terminal then relaid k stop s.profile.lmin s.profile.lmax else k }
    done s2 stop
  else
    done (s0.modMap fun m => { m with zones := m.zones.dropLast }) terminal

/-- What START and RESUME from QUEUE_END do once the first order is scheduled: the table in force is taken afresh, the heat
ceiling recomputed, a planning pass runs, and an end inside the horizon is clamped and checked (R65, R101, R125, R128). -/
def State.afterScheduling (s : State) : State := (s.applyGlueFresh.recomputeHeat.pass).clampAndCheck

end Sys2Proof.Machine
end

