-- ==== Sys2Proof/Machine/Router.lean ====
section
/-! DEFINITION. The sheet router's operations: gate decisions, stacks and their changes, the buffer, the end of an order at the gate
(chapter 9); the completion of an order (R43, R52, R53); the removal of zones and marks that a decision lets go (R60, R62). -/

namespace Sys2Proof.Machine

/-! ### Completion of an order (R43, R52, R53) -/

/-- The completion record of an order as it stands (R52). -/
def Order.completion (o : Order) (status : Completion) : CompletionRecord where
  number := o.number
  status := status
  needed := o.needed
  good := o.good
  difference := (o.good : Int) - o.needed
  rejected := o.rejected
  lost := o.lost
  stackTotal := o.stackTotal
  zoneStart := o.zoneStart
  zoneEnd := o.zoneEnd
  tempMin := o.tempMin
  tempMax := o.tempMax
  derates := o.derates

/-- The recent completions list with a record appended; with 8 held the oldest goes (R53). -/
def appendRecent (r : CompletionRecord) (l : List CompletionRecord) : List CompletionRecord :=
  (l ++ [r]).drop (l.length + 1 - Config.recentCapacity)

/-- A completion record is built from an order: ORDER_COMPLETE is placed and the record kept (R43, R53). -/
def State.recordCompletion (s : State) (o : Order) (status : Completion) : State :=
  let r := o.completion status
  (s.place (.orderComplete r)).modOrders fun q => { q with recent := appendRecent r q.recent }

/-- An order leaves the queue. -/
def State.removeOrder (s : State) (n : Nat) : State :=
  s.modOrders fun q => { q with list := q.list.filter fun o => o.number ≠ n }

/-- An order completes at the stacker gate (R43). -/
def State.completeOrder (s : State) (n : Nat) : State :=
  match s.order? n with
  | some o => ((s.recordCompletion o (if o.cancelled then .cancelled else .normal)).removeOrder n).releaseGrades
  | none => s

/-! ### Stacks (R154) -/

/-- A stack is closed with CHANGE STACK; its order's stacks completed rises unless the stack is of a credited run (R154, R156,
R158). -/
def State.closeStack (s : State) (k : Stack) (reason : ChangeReason) (credited : Bool) : State :=
  let s1 := s.queueCommand .stacker (.changeStack reason)
  let s2 := if credited then s1 else s1.countStacks k.order 1
  s2.modRouter fun r => { r with stacker := .changing, stack := some k, reason := some reason }

/-- Stacks completed of an order. -/
def State.stacksOf (s : State) (n : Nat) : Nat := ((s.order? n).map (·.stackTotal)).getD 0

/-- Stack height of an order. -/
def State.heightOf (s : State) (n : Nat) : Nat := ((s.order? n).map (·.height)).getD 0

/-- Good stacked of an order rises. -/
def State.countGood (s : State) (order n : Nat) : State := s.modOrder order fun o => { o with good := o.good + n }

/-- A good sheet of an order goes onto the open stack, which opens if there is none and closes when it is full (R154). -/
def State.stackSheet (s : State) (n : Nat) : State :=
  let k := s.router.stack.getD { order := n, number := s.stacksOf n + 1, count := 0 }
  let k := { k with count := k.count + 1 }
  let s1 := (s.countGood n 1).modRouter fun r => { r with stack := some k }
  if s.heightOf n ≤ k.count then s1.closeStack k .height false else s1

/-! ### Buffer (R155) -/

/-- The buffer with one more sheet of an order: on the last run if it is the order's, else a new run. A credited run belongs to
an order that has completed or that a teardown settled (R153, R155; notes/assumptions/29). -/
def bufferSheet (n : Nat) : List BufferRun → List BufferRun
  | [] => [{ order := n, count := 1, credit := none }]
  | [r] => if r.order = n ∧ r.credit = none then [{ r with count := r.count + 1 }] else [r, { order := n, count := 1, credit := none }]
  | r :: rest => r :: bufferSheet n rest

/-- Buffer occupancy: the sum of the runs' counts. -/
def Router.occupancy (r : Router) : Nat := (r.buffer.map (·.count)).sum

/-! ### Change results (R156) -/

/-- Stack height that governs a run: the recorded one of a credited run, else its order's. -/
def State.runHeight (s : State) (r : BufferRun) : Nat :=
  match r.credit with
  | some c => c.height
  | none => s.heightOf r.order

/-- Sheets of a run that the next stack takes. -/
def State.runMoved (s : State) (r : BufferRun) : Nat := min r.count (s.runHeight r)

/-- The first run moves onto a stack of its own (R156, steps 3 to 5). -/
def State.moveRun (s : State) (r : BufferRun) (rest : List BufferRun) : State :=
  let moved := s.runMoved r
  let height := s.runHeight r
  let k : Stack :=
    { order := r.order
      number := match r.credit with | some c => c.nextStack | none => s.stacksOf r.order + 1
      count := moved }
  let left : BufferRun :=
    { r with count := r.count - moved, credit := r.credit.map fun c => { c with nextStack := c.nextStack + 1 } }
  let s1 := if r.credit.isSome then s else s.countGood r.order moved
  let s2 := s1.modRouter fun x => { x with stack := some k, buffer := if left.count = 0 then rest else left :: rest }
  if height ≤ moved then s2.closeStack k .height r.credit.isSome
  else if r.credit.isSome then s2.closeStack k .orderEnd true
  else s2.modRouter fun x => { x with stacker := .stacking, reason := none }

/-- A change result reporting success (R156). -/
def State.changeDone (s : State) : State :=
  if s.router.stacker = .changing then
    let moved := match s.router.buffer with | r :: _ => s.runMoved r | [] => 0
    let s1 := s.modRouter fun r => { r with timer := none }
    let s2 := match s.router.stack, s.router.reason with
      | some k, some reason => s1.place (.stackDone k.order k.number k.count reason moved)
      | _, _ => s1
    match s.router.buffer with
    | [] => s2.modRouter fun r => { r with stacker := .stacking, stack := none, reason := none }
    | r :: rest => s2.moveRun r rest
  else s

/-- A change fails (R157): STACK_FAULT is latched and the stacker becomes Faulted. -/
def State.changeFailed (s : State) : State :=
  if s.router.stacker = .changing then (s.latch .stacker .stackFault).loseStacker .faulted else s

/-! ### Order end at the gate (R158) -/

/-- Every run of an order that is not yet credited is credited. -/
def State.creditRun (s : State) (r : BufferRun) : State :=
  match r.credit, s.order? r.order with
  | none, some o =>
    let c : Credit := { height := o.height, nextStack := o.stackTotal + 1 }
    (s.modOrder o.number fun x => { x with good := x.good + r.count, stackTotal := x.stackTotal + ceilDiv r.count o.height }).modRouter
      fun x => { x with buffer := x.buffer.map fun y => if y = r then { y with credit := some c } else y }
  | _, _ => s

/-- The accounting of an order is closed at its last decision (R158). -/
def State.orderEndAtGate (s : State) (n : Nat) : State :=
  match s.router.stacker with
  | .stacking =>
    match s.router.stack with
    | some k => if k.order = n then s.closeStack k .orderEnd false else s
    | none => s
  | .changing => (s.router.buffer.filter fun r => r.order = n).foldl State.creditRun s
  | .faulted | .offline => s

/-! ### Gate decisions (R152) -/

/-- How a sheet is judged: the first row of the table of R152 that applies. -/
inductive Verdict where
  | nonOrder
  | rejected (order : Nat)
  | stacked (order : Nat)
  | buffered (order : Nat)
  | lost (order : Nat)
deriving DecidableEq, Repr

/-- The order a sheet names is cancelled. -/
def State.cancelledOrder (s : State) (n : Nat) : Bool := ((s.order? n).map (·.cancelled)).getD false

/-- The verdict on a sheet. -/
def State.judge (s : State) (sh : Sheet) : Verdict :=
  match sh.kind, sh.order with
  | .order, some n =>
    if s.cancelledOrder n then .rejected n
    else if sh.defect || s.marked sh.start sh.stop then .rejected n
    else match s.router.stacker with
      | .stacking => .stacked n
      | .changing => if s.router.occupancy < s.profile.buffer then .buffered n else .lost n
      | .faulted | .offline => .lost n
  | _, _ => .nonOrder

/-- The route of a verdict. -/
def Verdict.toStack : Verdict → Bool
  | .stacked _ | .buffered _ => true
  | .nonOrder | .rejected _ | .lost _ => false

/-- A non-order reject is counted; past the range of the count its value is free (notes/assumptions/8). -/
def State.countNonOrder (s : State) : State :=
  if s.router.nonOrder < Config.nonOrderMax then s.modRouter fun r => { r with nonOrder := r.nonOrder + 1 }
  else (s.modRouter fun r => { r with nonOrder := Config.nonOrderPastRange s.pins.free }).modPins
    fun p => { p with free := p.free + 1 }

/-- The count that a verdict raises, and the stack or buffer it goes to. -/
def State.countVerdict (s : State) : Verdict → State
  | .nonOrder => s.countNonOrder
  | .rejected n => s.modOrder n fun o => { o with rejected := o.rejected + 1 }
  | .stacked n => s.stackSheet n
  | .buffered n => s.modRouter fun r => { r with buffer := bufferSheet n r.buffer }
  | .lost n => s.modOrder n fun o => { o with lost := o.lost + 1 }

/-- An Ending order whose zone end is a sheet's end. -/
def State.endsOrder (s : State) (sh : Sheet) : Option Nat :=
  match sh.order.bind s.order? with
  | some o => if o.state = .ending ∧ o.zoneEnd = some sh.stop then some o.number else none
  | none => none

/-- The first zone ends at a coordinate. -/
def State.firstZoneEnds (s : State) (e : Nat) : Bool :=
  match s.map.zones with
  | z :: _ => z.stop = some e
  | [] => false

/-- What the planner removes after the decision of a sheet that ends at `e`: marks that end at or below `e`, and the zone that ends
there (R60, R62); a mark gone may let the arbiter grant, and then a zone gone is a readiness-changing event (R73, R110;
notes/assumptions/59). -/
def State.trimAfter (s : State) (e : Nat) : State :=
  let gone := s.firstZoneEnds e
  let s1 := s.modMap fun m =>
    { m with marks := m.marks.filter fun k => e < k.stop, zones := if gone then m.zones.drop 1 else m.zones }
  let s2 := if s.map.marks.any fun k => k.stop ≤ e then s1.arbiter.syncSpliceCeiling else s1
  if gone then s2.recheck else s2

/-- The gate decision of the oldest sheet (R152). The route is handed over before an order's accounting is closed, which matters where the
route list is full (R158, R167; notes/assumptions/55). -/
def State.decideSheet (s : State) (sh : Sheet) : State :=
  let v := s.judge sh
  let s1 := s.modRouter fun r => { r with sheets := r.sheets.drop 1 }
  let s2 := (s1.countVerdict v).handRoute v.toStack
  let s3 := match s2.endsOrder sh with
    | some n => (s2.orderEndAtGate n).completeOrder n
    | none => s2
  s3.trimAfter sh.stop

/-- Every decision that is due, oldest first; `n` bounds them by the queue. -/
def State.decideDue : Nat → State → State
  | 0, s => s
  | n + 1, s =>
    match s.router.sheets with
    | sh :: _ => if sh.stop + s.profile.dGate ≤ s.web.w then State.decideDue n (s.decideSheet sh) else s
    | [] => s

/-- The gate decisions that are due (R152). -/
def State.gateDecisions (s : State) : State := State.decideDue s.router.sheets.length s

/-- A mark of board in no zone whose end has passed the gate (R62). -/
def State.swept (s : State) (m : Mark) : Bool :=
  m.stop + s.profile.dGate ≤ s.web.w && (s.zoneAt (m.stop - 1)).isNone

/-- Marks of board that passed the knife in no zone leave at the gate (R62). -/
def State.sweepMarks (s : State) : State :=
  if s.map.marks.any s.swept then
    ((s.modMap fun m => { m with marks := m.marks.filter fun k => !s.swept k }).arbiter).syncSpliceCeiling
  else s

/-! ### Teardown (R159) -/

/-- A sheet in the queue is lost to its order. -/
def State.loseSheet (s : State) (sh : Sheet) : State :=
  match sh.order with
  | some n => s.modOrder n fun o => { o with lost := o.lost + 1 }
  | none => s

/-- The router's part of the teardown (R159). -/
def State.tearDownRouter (s : State) : State :=
  let s1 := (s.router.sheets.foldl State.loseSheet s).modRouter fun r => { r with sheets := [] }
  match s.router.stacker with
  | .changing => s.router.buffer.foldl State.creditRun s1
  | .stacking =>
    match s.router.stack with
    | some k => s1.closeStack k .orderEnd false
    | none => s1
  | .faulted | .offline => s1

end Sys2Proof.Machine
end

