-- ==== Sys2Proof/Machine/StandReports.lean ====
section
/-! DEFINITION. The reel stand monitor's reports: conditions, threading, gauge readings and INIT replies of a stand node (R86, R87,
R91, R92, R98), with the notices to the boundary planner and the splice planner (R83). -/

namespace Sys2Proof.Machine

/-- What a stand node reports for one arm. -/
structure ArmReport where
  condition : NodeCondition
  diameter  : Nat
deriving DecidableEq, Repr

/-! ### Notices (R83) -/

/-- An arm became Prepared between two records of it, or stays Prepared with other data. -/
def ArmRecord.becamePrepared (before now : ArmRecord) : Bool :=
  now.state = .prepared && (before.state ≠ .prepared || decide (before.data ≠ now.data))

/-- Some arm of a stand became Prepared. -/
def StandRecord.becamePrepared (before now : StandRecord) : Bool :=
  before.arms.a.becamePrepared now.arms.a || before.arms.b.becamePrepared now.arms.b

/-- The notices that a change of a stand's arms leads to: a planning pass when the standby arm enters or leaves Prepared, readiness
and the arbiter at any change, and the readiness re-check when an arm becomes Prepared (R73, R83, R101, R107, R110). R95 lets the
two planners act on their notices in either order: the splice planner acts first here (notes/assumptions/50). -/
def State.announce (s : State) (i : Stand) (before : StandRecord) : State :=
  let now := s.standRecord i
  if now = before then s
  else
    let s1 := if now.standbyPrepared ≠ before.standbyPrepared then s.pass else s
    let s2 := s1.settleSplice
    if before.becamePrepared now then s2.recheck else s2

/-! ### Condition reports (R86, R87) -/

/-- The line is one in which a threading report is taken: Standby or Hold, at standstill (R87). That board moved by hand in Standby
counts as the line moving is the model's reading (notes/assumptions/33). -/
def State.threadable (s : State) : Bool := (s.sup.line = .standby || s.sup.line = .hold) && s.atRest

/-- The line is one in which an EMPTY report is taken for the Running arm (R87). -/
def State.emptiable (s : State) : Bool :=
  match s.sup.line with
  | .standby | .tripped | .lockout => true
  | .hold => s.atRest
  | .startUp | .run | .safeStop => false

/-- The arm with its condition EMPTY taken: no reel and no data. -/
def ArmRecord.emptied (a : ArmRecord) : ArmRecord := { a with state := .empty, condition := some .empty, data := none }

/-- The arm with a LOADED or PREPARED condition and its loaded diameter taken. -/
def ArmRecord.mounted (a : ArmRecord) (c : NodeCondition) (d : Nat) : ArmRecord :=
  ({ a with condition := some c, diameter := d }).derive

/-- A condition reported for an arm that is not Running and is not reported RUNNING (table of R86). A Loaded arm reported LOADED and
a Prepared arm reported PREPARED have their diameter taken and nothing else. -/
def ArmRecord.reported (a : ArmRecord) (p : ArmReport) : ArmRecord :=
  match a.state, p.condition with
  | .empty, .empty => a
  | .spent, .empty | .loaded, .empty | .prepared, .empty => a.emptied
  | .spent, _ => a
  | .loaded, .loaded | .prepared, .prepared => { a with diameter := p.diameter }
  | _, c => a.mounted c p.diameter

/-- The threading change: the arm becomes Running and the other, if it was Running, Spent (R87). -/
def StandRecord.thread (r : StandRecord) (x : Arm) (d w : Nat) : StandRecord :=
  let run := { r.arms.get x with state := .running, condition := some .running, diameter := d }
  let other := r.arms.get x.other
  let left := if other.state = .running then { other with state := .spent } else other
  { r.freshRun with arms := (r.arms.set x run).set x.other left, basis := run.basisAt w }

/-- The Running arm reported EMPTY: the stand has no Running arm (R87). -/
def StandRecord.unthread (r : StandRecord) (x : Arm) : StandRecord :=
  { (r.freshRun.modArm x ArmRecord.emptied) with basis := none }

/-! ### Gauge readings (R91, R92) -/

/-- A plausible reading of the Running arm is taken. -/
def State.plausible (s : State) (i : Stand) (x : Arm) (d : Nat) : State :=
  let s1 := s.modStand i fun r =>
    let a := { r.arms.get x with diameter := d }
    let b := a.basisAt s.web.w
    { r with
      arms := r.arms.set x a
      basis := b
      implausible := 0
      estimate := false
      outReported := r.outReported && !(b.any (0 < ·.length)) }
  let s2 := s1.pass.reelLowEvaluation i
  if 0 < s2.web.v ∧ (s2.standRecord i).basis.any (·.length = 0) then s2.reelOutTest i else s2

/-- An implausible reading is counted; the third turns estimate-only mode on and latches GAUGE (R92). -/
def State.implausible (s : State) (i : Stand) : State :=
  let n := min 3 ((s.standRecord i).implausible + 1)
  let reached := (s.standRecord i).implausible < 3 ∧ n = 3
  let s1 := s.modStand i fun r => { r with implausible := n, estimate := r.estimate || decide reached }
  let s2 := if reached then s1.latch (.stand i) .gauge else s1
  s2.reelLowEvaluation i

/-- A gauge reading of the Running arm (R91). -/
def State.gaugeReading (s : State) (i : Stand) (x : Arm) (d : Nat) : State :=
  if d ≤ ((s.standRecord i).arms.get x).diameter + 2 then s.plausible i x d else s.implausible i

/-- A stand report for one arm (R86, R87); `both` says the report names RUNNING for both arms. Nothing is taken while the stand's plan
is Firing, also where arm A's gauge reading has just made it so (R88). -/
def State.armReport (s : State) (i : Stand) (x : Arm) (p : ArmReport) (both : Bool) : State :=
  let a := (s.standRecord i).arms.get x
  if (s.plan i).state = .firing then s else
  match a.state, p.condition with
  | .running, .running => s.gaugeReading i x p.diameter
  | .running, .empty => if s.emptiable then s.modStand i fun r => r.unthread x else s
  | .running, _ => s
  | .loaded, .running | .prepared, .running =>
    if s.threadable ∧ ¬ both then s.modStand i fun r => r.thread x p.diameter s.web.w else s
  | .empty, .running | .spent, .running => s
  | _, _ => s.modStand i fun r => r.modArm x fun y => y.reported p

/-- A stand report, arm A before arm B (R86; notes/assumptions/24). -/
def State.standReport (s : State) (i : Stand) (pa pb : ArmReport) : State :=
  let both := pa.condition = .running && pb.condition = .running
  ((s.armReport i .a pa both).armReport i .b pb both).announce i (s.standRecord i)

/-! ### INIT reply (R98) -/

/-- An arm as the INIT reply gives it. -/
def ArmRecord.initialised (a : ArmRecord) (p : ArmReport) : ArmRecord :=
  match p.condition with
  | .empty => a.emptied
  | .running => { a with state := .running, condition := some .running, diameter := p.diameter }
  | c =>
    if a.state = .spent then { a with condition := some c, diameter := p.diameter }
    else { a with condition := some c, diameter := p.diameter, state := derivedState (some c) a.data }

/-- What the reply says of the two arms once a double RUNNING is settled: the arm held as Running stays so and the other is taken
as LOADED, or both as LOADED. -/
def settleRunning (r : StandRecord) (p : PerArm ArmReport) : PerArm ArmReport :=
  if p.a.condition = .running ∧ p.b.condition = .running then
    match r.runningArm with
    | some x => p.set x.other { p.get x.other with condition := .loaded }
    | none => ⟨{ p.a with condition := .loaded }, { p.b with condition := .loaded }⟩
  else p

/-- A stand's records as the INIT reply gives them. -/
def StandRecord.initialised (r : StandRecord) (p : PerArm ArmReport) (w : Nat) : StandRecord :=
  let q := settleRunning r p
  let arms : PerArm ArmRecord := ⟨r.arms.a.initialised q.a, r.arms.b.initialised q.b⟩
  let now := { r with arms := arms }
  let same := now.runningArm = r.runningArm
  { now with
    basis := (now.running.bind fun a => a.basisAt w)
    implausible := 0
    lowCount := 0
    estimate := false
    lowReported := r.lowReported && same
    outReported := r.outReported && same }

/-- The arms are taken from the INIT reply, unless the plan is Firing (R88, R98). -/
def State.initArms (s : State) (i : Stand) (p : PerArm ArmReport) : State :=
  if (s.plan i).state = .firing then s
  else (s.modStand i fun r => r.initialised p s.web.w).announce i (s.standRecord i)

/-! ### Requests on reels (R84, R85) -/

/-- Reel data is assigned to an arm; a Running arm gets its basis at once (R84). -/
def StandRecord.assign (r : StandRecord) (x : Arm) (data : ReelData) (w : Nat) : StandRecord :=
  let r1 := r.modArm x fun a => ({ a with data := some data }).derive
  if (r.arms.get x).state = .running then
    { r1 with basis := (r1.arms.get x).basisAt w, outReported := false }
  else r1

/-- An arm's reel data is removed (R85). -/
def StandRecord.clear (r : StandRecord) (x : Arm) : StandRecord :=
  r.modArm x fun a => ({ a with data := none }).derive

end Sys2Proof.Machine
end

