-- ==== Sys2Proof/Machine/Advance.lean ====
section
/-! DEFINITION. ENCODER_PULSE and GATE_PERIOD_END: the odometer and every action that falls due at an advance (chapter 1, R3), the
gate period's measurements (R6, R8) and the ramp, with the order among blocks taken from the command (notes/assumptions/2). -/

namespace Sys2Proof.Machine

/-- The members of `given` in their order, each once, then the members of `all` not given. -/
def inOrder {α : Type} [DecidableEq α] (given all : List α) : List α :=
  given.foldl (fun acc x => if x ∈ acc then acc else acc ++ [x]) [] ++ all.filter fun x => x ∉ given

/-! ### Cuts (R147, R148) -/

/-- The sheet record of the present piece (R147). -/
def State.sheetOf (s : State) (k : KnifeSchedule) (z : Zone) : Sheet where
  start := k.pieceStart
  stop := k.nextCut
  kind := z.kind
  order := if z.kind = .order then z.order else none
  defect := s.marked k.pieceStart k.nextCut

/-- Cuts made of the order a sheet is of rises by 1. -/
def State.countCut (s : State) (sh : Sheet) : State :=
  match sh.order with
  | some n => s.modOrder n fun o => { o with cuts := o.cuts + 1 }
  | none => s

/-- Cause KNIFE at a cut with knife ready absent at or above the crawl speed (R148). -/
def State.testKnife (s : State) (ready : Bool) : State :=
  if ¬ ready ∧ s.profile.vCrawl ≤ s.web.v then s.reportCause .knife else s

/-- The cut at N: the trigger, the sheet record, the next piece and its ratio; then the knife-ready test (R147, R148). -/
def State.takeCut (s : State) (k : KnifeSchedule) (z : Zone) (ready : Bool) : State :=
  let sh := s.sheetOf k z
  let s1 := s.modPins fun p => { p with cutTriggers := p.cutTriggers + 1, knifeReady := ready }
  let s2 := (s1.modRouter fun r => { r with sheets := r.sheets ++ [sh] }).countCut sh
  let s3 := s2.modCut fun c => { c with schedule := s2.scheduleAfter k }
  s3.presentRatio.testKnife ready

/-- The cut that is due (R147). -/
def State.cutDue (s : State) (ready : Bool) : State :=
  match s.cut.schedule with
  | some k =>
    match s.zoneFrom k.zone with
    | some z => if k.nextCut ≤ s.web.w then s.takeCut k z ready else s
    | none => s
  | none => s

/-! ### Orders at the knife (R41, R42) -/

/-- An order reaches the knife and becomes Running; the estimate grade and the ORDER entry follow (R26, R41, R90, R101). -/
def State.runOrder (s : State) (o : Order) : State :=
  let s1 := (s.modOrder o.number fun x => { x with state := .running }).placeOrderState o.number (some o.state)
  let s2 := s1.setEstimateGrade (some o.grade)
  (if s.reels.grade = some o.grade then s2 else s2.pass).composeCeilings

/-- The order whose zone start the knife has reached (R41). -/
def State.orderRunning (s : State) : State :=
  match s.orders.list.find? fun o =>
      (o.state = .scheduled || o.state = .fixed) && o.zoneStart.any (· ≤ s.web.w) with
  | some o => s.runOrder o
  | none => s

/-- The Running order whose zone end the knife has reached becomes Ending, and raises ORDER if hold-after is set (R42). -/
def State.orderEnding (s : State) : State :=
  match s.orders.list.find? fun o => o.state = .running && o.zoneEnd.any (· ≤ s.web.w) with
  | some o =>
    let s1 := (s.modOrder o.number fun x => { x with state := .ending }).placeOrderState o.number (some .running)
    if o.holdAfter then s1.raiseHold .order else s1
  | none => s

/-! ### One advance (R3) -/

/-- One block's action at an advance. -/
def State.advancePhase (ready : Bool) (s : State) : AdvancePhase → State
  | .clearing => s.clearTravel
  | .cut => s.cutDue ready
  | .orderEnding => s.orderEnding
  | .orderRunning => s.orderRunning
  | .gateDecisions => s.gateDecisions
  | .markSweep => s.sweepMarks
  | .glue => s.applyGlue
  | .swap => s.dueSwaps
  | .swapLastCall => s.testSwapCalls
  | .approach => s.approachTest
  | .commit => s.commitDue
  | .queueEnd => s.queueEndTest
  | .spliceArm => (s.eachStand State.armPlan).syncSpliceCeiling
  | .spliceDue i => (s.duePlan i).syncSpliceCeiling
  | .spliceReady => s.syncSplice
  | .reelOut => s.eachStand State.reelOutTest

/-- Every block's action, in the order used where the command names none. -/
def allAdvancePhases : List AdvancePhase :=
  [.clearing, .cut, .orderEnding, .orderRunning, .gateDecisions, .markSweep, .glue, .swap, .swapLastCall, .approach, .commit,
   .queueEnd, .spliceArm, .spliceDue .s1, .spliceDue .s2, .spliceDue .s3, .spliceDue .s4, .spliceDue .s5, .spliceReady, .reelOut]

/-- The odometer advances by one millimetre; past 2^48 - 1 its value is free (R2, notes/assumptions/8). -/
def State.advanceOdometer (s : State) : State :=
  if s.web.w < Config.odometerMax then s.modWeb fun x => { x with w := x.w + 1 }
  else (s.modWeb fun x => { x with w := Config.odometerPastRange s.pins.free }).modPins fun p => { p with free := p.free + 1 }

/-- An advance: the odometer, then every action that falls due (R3). -/
def State.advance (s : State) (ready : Bool) (order : List AdvancePhase) : State :=
  (inOrder order allAdvancePhases).foldl (State.advancePhase ready) s.advanceOdometer

/-- The encoder is counted: the reset input is high and the profile load has ended (R1, R10). -/
def State.counting (s : State) : Bool := s.pins.loaded && !s.pins.resetLow

/-- ENCODER_PULSE (R1, R2): 1,000 more in the remainder, and an advance when it reaches K. -/
def execEncoderPulse (ready : Bool) (order : List AdvancePhase) (s : State) : Host.Outcome State Fault Refusal :=
  if s.counting then
    let r := s.web.r + 1000
    if r < s.profile.encoderK then .next (s.modWeb fun x => { x with r := r, pulseSeen := true })
    else .next ((s.modWeb fun x => { x with r := r - s.profile.encoderK, pulseSeen := true }).advance ready order)
  else .next s

/-! ### Gate period end (R6 to R9, R19, R27) -/

/-- The encoder-loss count at a gate period end, from the reference presented throughout the period (R8). -/
def State.lossAfter (s : State) : Nat :=
  if 300 ≤ s.sup.reference ∧ ¬ s.web.pulseSeen then min 3 (s.web.loss + 1) else 0

/-- The measured speed of the period that ends (R6). -/
def State.measured (s : State) : Nat := min 65535 (6 * (s.web.w - s.web.snapshot))

/-- One block's action at a gate period end; `lost` says the encoder-loss count rose from 2 to 3 (R9). -/
def State.gatePhase (lost : Bool) (s : State) : GatePhase → State
  | .encoderLoss => if lost then s.reportCause .encoder else s
  | .ramp => s.stepReference.countStandstill
  | .approach => s.approachTest
  | .swapLastCall => s.testSwapCalls
  | .queueEnd => s.queueEndTest
  | .spliceArm => (s.eachStand State.armPlan).syncSpliceCeiling
  | .spliceReady => s.syncSplice
  | .setpoints => s.deadbandSetpoints

/-- Every block's action, in the order used where the command names none. -/
def allGatePhases : List GatePhase :=
  [.encoderLoss, .ramp, .approach, .swapLastCall, .queueEnd, .spliceArm, .spliceReady, .setpoints]

/-- The web measurement unit's part of a gate period end (R6, R8). -/
def State.measureGate (s : State) : State :=
  s.modWeb fun x =>
    { x with v := s.measured, snapshot := x.w, loss := s.lossAfter, pulseSeen := false }

/-- GATE_PERIOD_END: the rest of the 100 ms passes, the speed is measured, and the blocks act. -/
def execGatePeriodEnd (order : List GatePhase) (s : State) : Host.Outcome State Fault Refusal :=
  if s.counting then
    let s1 := (s.elapse (Config.gateMs - s.pins.gateMs)).modPins fun p => { p with gateMs := 0 }
    let lost : Bool := decide (s1.web.loss = 2) && decide (s1.lossAfter = 3)
    .next ((inOrder order allGatePhases).foldl (State.gatePhase lost) s1.measureGate)
  else .next s

end Sys2Proof.Machine
end

