-- ==== Sys2Proof/Machine/HostLine.lean ====
section
/-! DEFINITION. The host line's receiver (R174, R175), the taking of a request and its reply (R176). While the reset input is held
low the part takes nothing. -/

namespace Sys2Proof.Machine

/-! ### Receiving (R175) -/

/-- The frame that gathered bytes spell once complete: length, tag, kind and payload. -/
def frameOf (g : List Byte) : HostFrame where
  tag := g.getD 2 0
  kind := g.getD 3 0
  payload := (g.drop 4).dropLast.dropLast

/-- The check over the bytes gathered matches the last two. -/
def checkGood (g : List Byte) : Bool := crc g.dropLast.dropLast = BitVec.ofNat 16 (unsigned (g.drop (g.length - 2)))

/-- A valid frame is received: it enters the holding area if that has room, and the link is alive either way (R30, R175). -/
def State.acceptFrame (s : State) (f : HostFrame) : State :=
  (s.modHost fun h =>
    { h with holding := if h.holding.length < Config.holdingCapacity then h.holding ++ [f] else h.holding }).linkAlive

/-- The receiver's gathered bytes replaced; the inter-byte gap starts again. -/
def State.gather (s : State) (g : Option (List Byte)) : State := s.modHost fun h => { h with gathered := g, gap := 0 }

/-- A byte while Hunting: only the start mark A5h begins a frame. -/
def State.hunt (s : State) (b : Byte) : State := if b = 0xA5#8 then s.gather (some []) else s.gather none

/-- One byte in frame: the length is judged at its second byte, the check at the last (table of R175). -/
def State.inFrame (s : State) (g : List Byte) (b : Byte) : State :=
  let g := g ++ [b]
  let len := fieldAt g 0 2
  if g.length < 2 then s.gather (some g)
  else if 1000 < len then s.gather none
  else if g.length < len + 6 then s.gather (some g)
  else if checkGood g then (s.gather none).acceptFrame (frameOf g)
  else s.gather none

/-- A byte arrives at the receiver. -/
def State.receiveByte (s : State) (b : Byte) : State :=
  match s.host.gathered with
  | none => s.hunt b
  | some g => s.inFrame g b

/-- HOST_BYTE_RECEIVED (R175). -/
def execHostByteReceived (b : Byte) (s : State) : Host.Outcome State Fault Refusal :=
  .next (if s.pins.resetLow then s else s.receiveByte b)

/-- HOST_FRAME_RECEIVED (R175): the bytes that bring a frame to its end, in the order received. -/
def execHostFrameReceived (bytes : List Byte) (s : State) : Host.Outcome State Fault Refusal :=
  .next (if s.pins.resetLow then s else bytes.foldl State.receiveByte s)

/-- HOST_BYTE_GAP_TIMEOUT (R175): more than 5 ms passed in a frame; the frame is discarded and the byte that ends the gap is
examined as a possible start mark. -/
def execHostByteGapTimeout (b : Byte) (s : State) : Host.Outcome State Fault Refusal :=
  .next (if s.pins.resetLow then s else if s.host.gathered.isSome then s.hunt b else s.receiveByte b)

/-! ### Taking a request (R176) -/

/-- What taking a request gives: the state, the result and the reply's fields. -/
structure Taken where
  state  : State
  result : Result
  fields : List Byte := []
deriving DecidableEq, Repr

/-- The request is answered with a result alone and changes nothing. -/
def State.refuse (s : State) (r : Result) : Taken := { state := s, result := r }

/-- The request is answered OK with fields. -/
def State.ok (s : State) (fields : List Byte := []) : Taken := { state := s, result := .ok, fields := fields }

/-- A payload of the wrong length gives FORMAT before any other check (R176). -/
def Taken.ifLength (t : Taken) (s : State) (good : Bool) : Taken := if good then t else s.refuse .format

/-- The reply to a request (R176). The kind field is one byte, so that a kind of 80h or above wraps (notes/assumptions/57). -/
def replyTo (f : HostFrame) (r : Result) (fields : List Byte) (restart : Bool) : Reply :=
  let payload := octet (resultCode r) ++ fields
  let kind := f.kind + 0x80#8
  { tag := f.tag, kind := kind, payload := payload, frame := hostFrameBytes f.tag kind payload, restart := restart }

/-- A reply begins to be sent. -/
def State.answer (s : State) (r : Reply) : State := s.modHost fun h => { h with answering := some r }

/-- The oldest frame of the holding area, if a request can be taken now: no reply is being sent. -/
def State.offered (s : State) : Option HostFrame :=
  if s.pins.resetLow ∨ s.host.answering.isSome then none else s.host.holding.head?

/-- A request is taken from the holding area and judged by `f`, and its reply begins (R176); nothing happens unless the oldest
frame waits with a kind that `p` admits (notes/assumptions/1). `restart` says that a reply OK is followed by a reset. -/
def State.takeRequest (s : State) (p : Nat → Bool) (restart : Bool) (f : List Byte → State → Taken) : State :=
  match s.offered with
  | some frame =>
    if p frame.kind.toNat then
      let t := f frame.payload (s.modHost fun h => { h with holding := h.holding.drop 1 })
      t.state.answer (replyTo frame t.result t.fields (restart && t.result = .ok))
    else s
  | none => s

/-- A request of one kind is taken. -/
def request (kind : Nat) (f : List Byte → State → Taken) (s : State) : Host.Outcome State Fault Refusal :=
  .next (s.takeRequest (· = kind) false f)

/-- UNKNOWN_KIND (R176): a frame whose kind is no request kind. -/
def execUnknownKind (s : State) : Host.Outcome State Fault Refusal :=
  .next (s.takeRequest (fun k => !requestKinds.contains k) false fun _ t => t.refuse .unknownKind)

end Sys2Proof.Machine
end

