-- ==== Sys2Proof/Machine/Reset.lean ====
section
/-! DEFINITION. Resets and Start-up (R10, R12, R32, R57, R81, R97, R120, R134, R149, R160, R173, R184, R185), and the end of a reply,
after which an accepted RESTART PART takes place. -/

namespace Sys2Proof.Machine

/-- Every block at its value after reset, with the reset's cause. What is not the part's own volatile state stays: the copies in
the store, the commands outside, the input levels and the free-value counter. -/
def State.resetPart (s : State) (cause : ResetCause) (low : Bool) : State :=
  { State.reset with
    host := { HostLine.reset with cause := cause }
    store := s.store.afterReset
    pins := { Pins.reset with
      resetLow := low, knifeReady := s.pins.knifeReady, service := s.pins.service, free := s.pins.free }
    pending := s.pending }

/-- Every node of the nine Offline if configured and Absent otherwise (R173). -/
def State.placeNodes (s : State) : State :=
  s.modLine fun l =>
    { l with nodes := { l.nodes with
        stand := .of fun i => { NodeRecord.reset with service := if s.configured i then .offline else .absent } } }

/-- A configured node becomes Initialising (R173). -/
def State.bringUp (s : State) (n : Node) : State := if (s.node n).service = .absent then s else s.initialise n

/-- Start-up (R12, R173, R184): the load, PART_STARTED, each configured node Initialising in address order, then Lockout or
Standby. The lockout flag is the loaded one, also where the loaded counter exceeds the loaded trip limit (notes/assumptions/48). -/
def State.startUp (s : State) : State :=
  let s1 := s.loadStore.placeNodes.modPins fun p => { p with loaded := true }
  let s2 := s1.place (.partStarted s1.host.cause s1.store.checkPassed s1.store.valid s1.store.frozen)
  let s3 := allNodes.foldl State.bringUp s2
  s3.goTo (if s3.sup.lockFlag then .lockout else .standby)

/-- POWER_ON (R185): a reset with cause POWER; Start-up begins unless the reset input is held low. -/
def execPowerOn (low : Bool) (s : State) : Host.Outcome State Fault Refusal :=
  let s1 := s.resetPart .power low
  .next (if low then s1 else s1.startUp)

/-- RESET_PIN (R185): the reset input goes low with the supply present; a reset with cause PIN, held until the release. -/
def execResetPin (s : State) : Host.Outcome State Fault Refusal :=
  .next (if s.pins.resetLow then s else s.resetPart .pin true)

/-- RESET_RELEASE: the reset input returns high and Start-up begins with the load (R10, R184). -/
def execResetRelease (s : State) : Host.Outcome State Fault Refusal :=
  .next (if s.pins.resetLow then (s.modPins fun p => { p with resetLow := false }).startUp else s)

/-- REPLY_SENT (R176, R185): the reply has been sent completely; the reset of an accepted RESTART PART takes place now. -/
def execReplySent (s : State) : Host.Outcome State Fault Refusal :=
  match s.host.answering with
  | some r =>
    if r.restart then .next (s.resetPart .request false).startUp
    else .next (s.modHost fun h => { h with answering := none })
  | none => .next s

end Sys2Proof.Machine
end

