-- ==== Sys2Proof/Machine/Queries.lean ====
section
/-! DEFINITION. The requests that only read: IDENTIFY, STATUS, READ EVENTS, QUERY ORDER, LIST ORDERS, QUERY WEB MAP, QUERY GRADE,
QUERY TABLE, QUERY STAND, READ PROFILE, with the layout of their replies (R11, R33, R54, R80, R99, R119, R133, R150, R161, R173,
R177, R178, R180, R181). Widths that R177 does not name are those of notes/assumptions/9. -/

namespace Sys2Proof.Machine

/-! ### IDENTIFY and STATUS (R178) -/

/-- Fields of the IDENTIFY reply. -/
def State.identityFields (s : State) : List Byte :=
  word 640 ++ octet 1 ++ octet (resetCauseCode s.host.cause) ++ octet (flagCode (!s.store.checkPassed)) ++ flag s.store.valid
    ++ flag s.store.frozen

/-- IDENTIFY (R178). -/
def execIdentify (s : State) : Host.Outcome State Fault Refusal :=
  request 0x01 (fun p t => (t.ok t.identityFields).ifLength t (p.length = 0)) s

/-- Web measurement group (R11). -/
def State.webGroup (s : State) : List Byte := coordinate s.web.w ++ word s.web.v ++ octet s.web.loss

/-- Line supervisor group (R33). -/
def State.lineGroup (s : State) : List Byte :=
  octet (lineCode s.sup.line) ++ octet (holdsCode s.sup.holds) ++ octet (causeCode s.sup.cause) ++ word s.effectiveCeiling
    ++ octet (ceilingsCode s.sup.ceilings) ++ word s.sup.reference ++ word s.sup.hostSpeed ++ octet s.sup.trips
    ++ octet s.profile.tripLimit ++ flag s.sup.lockFlag ++ flag s.sup.silent

/-- Splice group (R119). -/
def State.spliceGroup (s : State) : List Byte :=
  flag s.splice.recharging ++ word s.splice.remaining ++ octet s.map.marks.length

/-- The last sent setpoints, absent field by field. -/
def setpointFields (p : Option Setpoints) : List Byte :=
  optional 2 (p.map (·.wrap)) ++ optional 2 (p.map (·.gap)) ++ optional 2 (p.map (·.temp)) ++ optional 2 (p.map (·.speed))

/-- Conditioning group (R133). -/
def State.heatGroup (s : State) : List Byte :=
  optional 1 s.cond.glueGrade ++ optional 2 s.cond.lastTemp ++ word s.cond.age ++ flag s.stale ++ optional 2 s.cond.heatCeiling
    ++ octet (heatActionCode s.profile.heatAction) ++ setpointFields s.cond.lastSent

/-- A station's fields of the cut controller group. -/
def stationFields (r : StationRecord) : List Byte := octet (stationStateCode r.state) ++ flag r.retained.isSome

/-- Cut controller group (R150), with the knife-ready level as read. -/
def State.cutGroup (s : State) : List Byte :=
  let e := s.cut.swaps.head?
  let k := s.cut.schedule
  stationFields s.cut.station.a ++ stationFields s.cut.station.b ++ octet s.cut.swaps.length ++ optional 6 (e.map (·.point))
    ++ optional 1 (e.map fun x => stationCode x.incoming) ++ flag k.isSome ++ optional 6 (k.map (·.pieceStart))
    ++ optional 6 (k.map (·.nextCut)) ++ optional 6 (k.map (·.zone)) ++ word s.cut.ratio ++ flag s.pins.knifeReady

/-- Router group (R161). -/
def State.routerGroup (s : State) : List Byte :=
  let q := s.router.sheets
  let k := s.router.stack
  count q.length ++ optional 6 (q.head?.map (·.stop)) ++ count (q.filter (·.defect)).length ++ octet (stackerCode s.router.stacker)
    ++ orderNumber (k.map (·.order)) ++ optional 4 (k.map (·.number)) ++ optional 4 (k.map (·.count)) ++ count s.router.occupancy
    ++ octet s.router.buffer.length ++ optional 1 (s.router.reason.map changeReasonCode) ++ count s.router.nonOrder

/-- A node's fields of the section line group. -/
def nodeFields (r : NodeRecord) : List Byte :=
  octet (serviceCode r.service) ++ octet (latchesCode r.latches) ++ octet r.missed

/-- Section line group (R173). -/
def State.sectionGroup (s : State) : List Byte :=
  allNodes.flatMap (fun n => nodeFields (s.node n)) ++ octet s.line.urgent.length ++ octet s.line.normal.length
    ++ octet s.line.routes.length

/-- Host and store group (R178). -/
def State.hostGroup (s : State) : List Byte :=
  octet s.host.events.length ++ flag s.host.overflow ++ word s.host.sequence ++ flag s.store.writing.isSome
    ++ flag s.store.tripWriting.isSome ++ flag s.store.valid ++ flag s.store.frozen ++ flag s.pins.service

/-- Fields of the STATUS reply. -/
def State.statusFields (s : State) : List Byte :=
  s.webGroup ++ s.lineGroup ++ s.spliceGroup ++ s.heatGroup ++ s.cutGroup ++ s.routerGroup ++ s.sectionGroup ++ s.hostGroup

/-- The levels of the two inputs that STATUS reads. -/
def State.readLevels (s : State) (knifeReady service : Bool) : State :=
  s.modPins fun p => { p with knifeReady := knifeReady, service := service }

/-- STATUS (R178), with the input levels as they stand when it is taken. -/
def execStatus (knifeReady service : Bool) (s : State) : Host.Outcome State Fault Refusal :=
  request 0x02 (fun p t =>
    let u := t.readLevels knifeReady service
    (u.ok u.statusFields).ifLength t (p.length = 0)) s

/-! ### READ EVENTS (R180) -/

/-- The oldest `n` events carried: they leave the queue and the overflow flag clears (R180). The number carried is the count byte of the
list of events, and no second byte follows it (notes/assumptions/66). -/
def State.carryEvents (s : State) (n : Nat) : Taken :=
  let carried := s.host.events.take n
  let left := s.host.events.drop n
  { state := s.modHost fun h => { h with events := left, overflow := false }
    result := .ok
    fields := flag s.host.overflow ++ octet left.length ++ octet carried.length ++ carried.flatMap eventBytes }

/-- READ EVENTS (R180). The count is one byte (notes/assumptions/9). -/
def execReadEvents (s : State) : Host.Outcome State Fault Refusal :=
  request 0x03 (fun p t =>
    let n := byteAt p 0
    (if 1 ≤ n ∧ n ≤ 16 then t.carryEvents n else t.refuse .range).ifLength t (p.length = 1)) s

/-! ### Orders (R54) -/

/-- The order record payload without the target, then the items kept by the part (order record payload of chapter 11, R54). -/
def orderFields (o : Order) : List Byte :=
  count o.number ++ octet o.grade ++ octet o.ups ++ octet o.pattern.length ++ octet o.tools.slits.length
    ++ octet o.tools.scores.length ++ count o.quantity ++ word o.overrun ++ word o.height ++ word (o.cap.getD 0) ++ flag o.holdAfter
    ++ o.pattern.flatMap word ++ o.tools.slits.flatMap signedWord ++ o.tools.scores.flatMap signedWord
    ++ octet (orderStateCode o.state) ++ flag o.cancelled ++ optional 6 o.zoneStart ++ optional 6 o.zoneEnd
    ++ optional 6 o.plannedEnd ++ count o.needed ++ count o.spoiled ++ count o.planned ++ count o.cuts ++ count o.good
    ++ count o.rejected ++ count o.lost ++ count o.stackTotal ++ optional 2 o.tempMin ++ optional 2 o.tempMax ++ count o.derates

/-- The answer to QUERY ORDER: the order, else the last completion record with the number (R54; the mark byte is of
notes/assumptions/12). -/
def State.queryOrder (s : State) (n : Nat) : Taken :=
  match s.order? n with
  | some o => s.ok (octet 0 ++ orderFields o)
  | none =>
    match s.orders.recent.reverse.find? fun r => r.number = n with
    | some r => s.ok (octet 1 ++ completionFields r)
    | none => s.refuse .notFound

/-- QUERY ORDER (R54). -/
def execQueryOrder (s : State) : Host.Outcome State Fault Refusal :=
  request 0x23 (fun p t => (t.queryOrder (fieldAt p 0 4)).ifLength t (p.length = 4)) s

/-- An entry of LIST ORDERS (R54). -/
def orderEntry (o : Order) : List Byte :=
  count o.number ++ octet (orderStateCode o.state) ++ flag o.cancelled ++ count o.planned ++ count o.cuts

/-- LIST ORDERS (R54). -/
def execListOrders (s : State) : Host.Outcome State Fault Refusal :=
  request 0x24 (fun p t => (t.ok (listField orderEntry t.orders.list)).ifLength t (p.length = 0)) s

/-! ### QUERY WEB MAP (R80, R177) -/

/-- A zone's entry: 19 bytes. -/
def zoneFields (z : Zone) : List Byte :=
  octet (zoneKindCode z.kind) ++ coordinate z.start ++ optional 6 z.stop ++ orderNumber z.order ++ flag z.setChange
    ++ octet (standSetCode z.stands)

/-- A mark's entry: 18 bytes. -/
def markFields (m : Mark) : List Byte :=
  coordinate m.start ++ coordinate m.stop ++ octet (standCode m.stand) ++ octet (markKindCode m.kind) ++ optional 4 m.reel

/-- Bytes of entries that one reply has room for: 1,000 less the result, the four counts and the 20 bytes that follow. -/
def mapRoom : Nat := 975

/-- Fields of the QUERY WEB MAP reply from a first zone and a first mark on: as many zones as fit, then as many marks. -/
def State.mapFields (s : State) (firstZone firstMark : Nat) : List Byte :=
  let zones := (s.map.zones.drop firstZone).take (mapRoom / 19)
  let marks := (s.map.marks.drop firstMark).take ((mapRoom - 19 * zones.length) / 18)
  octet s.map.zones.length ++ listField zoneFields zones ++ octet s.map.marks.length ++ listField markFields marks
    ++ orderNumber s.map.openOrder ++ optional 6 (s.openOrder?.bind (·.plannedEnd)) ++ word s.map.deferrals
    ++ optional 6 s.map.terminal ++ octet (callCode s.map.queueEndCall) ++ octet s.freeSlots

/-- QUERY WEB MAP (R80, R177). Each of the two indices is one byte (notes/assumptions/9). -/
def execQueryWebMap (s : State) : Host.Outcome State Fault Refusal :=
  request 0x25 (fun p t => (t.ok (t.mapFields (byteAt p 0) (byteAt p 1))).ifLength t (p.length = 2)) s

/-! ### Grades and tables (R133) -/

/-- A definition's fields, in the order of R122. -/
def gradeFields (g : Grade) : List Byte :=
  g.codes.toList.flatMap word ++ g.factors.toList.flatMap word ++ octet g.table ++ word g.limit

/-- A slot's fields. -/
def slotFields (x : GradeSlot) : List Byte :=
  octet (gradeStateCode x) ++ (match x.grade? with | some g => gradeFields g | none => [])

/-- QUERY GRADE (R133). -/
def execQueryGrade (s : State) : Host.Outcome State Fault Refusal :=
  request 0x32 (fun p t =>
    let i := byteAt p 0
    (if i ≤ 15 then t.ok (slotFields (t.slot i)) else t.refuse .range).ifLength t (p.length = 1)) s

/-- An In use grade names the table (R121, R123). -/
def State.tableLocked (s : State) (i : Nat) : Bool :=
  s.cond.grades.any fun x => match x with | .inUse g => g.table = i | _ => false

/-- A breakpoint's fields. -/
def breakpointFields (b : Breakpoint) : List Byte := word b.speed ++ word b.wrap ++ word b.gap ++ word b.temp

/-- A table's fields: its state, its breakpoints if Defined, and whether an In use grade names it. -/
def State.tableFields (s : State) (i : Nat) : List Byte :=
  (match s.cond.tables.getD i none with
   | some t => octet 1 ++ listField breakpointFields t
   | none => octet 0)
    ++ flag (s.tableLocked i)

/-- QUERY TABLE (R133). -/
def execQueryTable (s : State) : Host.Outcome State Fault Refusal :=
  request 0x33 (fun p t =>
    let i := byteAt p 0
    (if i ≤ 7 then t.ok (t.tableFields i) else t.refuse .range).ifLength t (p.length = 1)) s

/-! ### QUERY STAND (R99) -/

/-- An arm's fields. -/
def armFields (a : ArmRecord) : List Byte :=
  octet (armStateCode a.state) ++ octet (armConditionCode a.condition) ++ word a.diameter
    ++ optional 4 (a.data.map (·.reel)) ++ optional 2 (a.data.map (·.code)) ++ optional 2 (a.data.map (·.caliper))
    ++ optional 2 (a.data.map (·.core))

/-- A plan record's fields (R119). -/
def planFields (p : Plan) : List Byte :=
  octet (planStateCode p.state) ++ optional 1 (p.kind.map planKindCode) ++ optional 6 p.earliest ++ optional 6 p.latest
    ++ optional 6 p.target ++ optional 6 p.targetZone ++ optional 2 p.limit ++ optional 1 (p.late.map flagCode)
    ++ optional 6 (p.held.map (·.target)) ++ optional 6 (p.held.map (·.transition))

/-- Fields of the QUERY STAND reply. -/
def State.standFields (s : State) (i : Stand) : List Byte :=
  let r := s.standRecord i
  armFields r.arms.a ++ armFields r.arms.b ++ optional 6 (r.basis.map (·.length)) ++ optional 6 (r.basis.map (·.at_))
    ++ optional 6 (s.estimate i) ++ optional 2 r.runningCode ++ word (s.takeUp i) ++ octet r.implausible ++ octet (modeCode r.estimate)
    ++ octet r.lowCount ++ flag r.lowReported ++ flag r.outReported ++ planFields (s.plan i)

/-- A stand that a request names, if it is in the stand mask. -/
def State.maskedStand (s : State) (code : Nat) : Option Stand := (standOfCode code).filter s.configured

/-- QUERY STAND (R99). -/
def execQueryStand (s : State) : Host.Outcome State Fault Refusal :=
  request 0x43 (fun p t =>
    (match t.maskedStand (byteAt p 0) with
     | some i => t.ok (t.standFields i)
     | none => t.refuse .range).ifLength t (p.length = 1)) s

/-! ### READ PROFILE (R181) -/

/-- The 41 items as numbers, in item order: the stand mask as a set, the heat action by its position. -/
def Profile.items (p : Profile) : List Nat :=
  [standSetCode p.mask, p.path.s1, p.path.s2, p.path.s3, p.path.s4, p.path.s5, p.pGlue, p.pSlit, p.dGate, p.dCommit, p.dThread,
   p.guard, p.encoderK, p.knifeC, p.lmin, p.lmax, p.nKnife, p.nStack, p.buffer, p.tAir, p.markLength, p.margin, p.tSlit, p.lWarn,
   p.lOpen, p.lButt, p.lowFilter, p.vMax, p.vCrawl, p.vSilent, p.sUp, p.sDown, p.sEmerg, p.tSet, p.tStack, p.tLink,
   heatActionCode p.heatAction, p.deadband, p.tripLimit, p.dClear, p.deferLimit]

/-- READ PROFILE (R181). -/
def execReadProfile (s : State) : Host.Outcome State Fault Refusal :=
  request 0x60 (fun p t =>
    (t.ok (t.profile.items.flatMap count ++ flag t.store.valid ++ flag t.store.frozen)).ifLength t (p.length = 0)) s

end Sys2Proof.Machine
end

