-- ==== Sys2Proof/Machine/LineRequests.lean ====
section
/-! DEFINITION. The requests on the line state: START, HOLD, RESUME, EMERGENCY STOP, CLEAR TRIP, RELEASE LOCKOUT, SET SPEED (chapter
2), and the teardown (R20, R55, R56, R79, R115, R149, R159). -/

namespace Sys2Proof.Machine

/-! ### START and RESUME (R13, R16) -/

/-- Every configured node is Online. -/
def State.allOnline (s : State) : Bool := allNodes.all fun n => (s.node n).service = .absent || s.online n

/-- Every configured stand's running paper code is the one that a grade gives it (R96). -/
def State.papersMatch (s : State) (g : Nat) : Bool :=
  stands.all fun i => !s.configured i || ((s.codeOf g i).isSome && decide ((s.standRecord i).runningCode = s.codeOf g i))

/-- Conditions 1 and 2 of R13: the first that fails. -/
def State.notStartable (s : State) : Option Result :=
  if ¬ s.store.valid then some .profile else if ¬ s.allOnline then some .state else none

/-- The reel-out reported flags clear when START is taken (R94). -/
def State.clearReelOut (s : State) : State :=
  s.eachStand fun i t => t.modStand i fun r => { r with outReported := false }

/-- The supervisor's part of START (R13, R30). -/
def State.enterRun (s : State) : State :=
  (s.modSup fun p =>
    { p with
      holds := .empty
      setWait := ⟨false, false⟩
      spliceWait := .same false
      cause := .noCause
      linkTimer := some 0 }).goTo .run

/-- START, taken with the first Queued order. -/
def State.startWith (s : State) (o : Order) : State := ((s.enterRun.clearReelOut).freshPlan o).afterScheduling

/-- START (R13). -/
def State.start (s : State) : Taken :=
  if s.sup.line ≠ .standby then s.refuse .state
  else match s.notStartable with
    | some r => s.refuse r
    | none =>
      match s.firstQueued with
      | none => s.refuse .state
      | some o => if s.papersMatch o.grade then (s.startWith o).ok else s.refuse .grade

/-- START (R13). -/
def execStart (s : State) : Host.Outcome State Fault Refusal :=
  request 0x10 (fun p t => t.start.ifLength t (p.length = 0)) s

/-- HOLD (R16). -/
def execHold (s : State) : Host.Outcome State Fault Refusal :=
  request 0x11 (fun p t =>
    (if t.runOrHold then (t.raiseHold .host).ok else t.refuse .state).ifLength t (p.length = 0)) s

/-- HOST and ORDER leave the hold reason set together (R16). -/
def State.clearResumed (s : State) : State := s.setHolds { s.sup.holds with host := false, order := false }

/-- RESUME from QUEUE_END with the first Queued order (R16, R78). -/
def State.resumeWith (s : State) (o : Order) : State :=
  (((s.clearResumed).scheduleBehindRunout o).clearHold .queueEnd).afterScheduling

/-- RESUME (R16). One that only clears HOST and ORDER runs no planning pass (R101; notes/assumptions/52). -/
def State.resume (s : State) : Taken :=
  if ¬ s.runOrHold then s.refuse .state
  else if ¬ s.sup.holds.queueEnd then s.clearResumed.ok
  else match s.firstQueued with
    | none => s.clearResumed.ok
    | some o =>
      match s.notStartable with
      | some r => s.refuse r
      | none => if s.papersMatch o.grade then (s.resumeWith o).ok else s.refuse .grade

/-- RESUME (R16). -/
def execResume (s : State) : Host.Outcome State Fault Refusal :=
  request 0x12 (fun p t => t.resume.ifLength t (p.length = 0)) s

/-- EMERGENCY STOP (R31). -/
def execEmergencyStop (s : State) : Host.Outcome State Fault Refusal :=
  request 0x13 (fun p t => ((t.reportCause .emergency).ok).ifLength t (p.length = 0)) s

/-! ### Teardown (R20) -/

/-- An order as it returns to Queued (R55, R56). -/
def Order.returned (o : Order) (quantity : Nat) : Order :=
  let needed := cutsNeeded quantity o.ups
  { o with
    quantity := quantity, state := .queued, zoneStart := none, zoneEnd := none, needed := needed, spoiled := 0
    planned := needed + o.overrun, plannedEnd := none, cuts := 0, good := 0, rejected := 0, lost := 0, stackTotal := 0
    tempMin := none, tempMax := none, derates := 0, deferred := 0 }

/-- An order returns to Queued, reported (R55, R56). -/
def State.returnOrder (s : State) (o : Order) (quantity : Nat) : State :=
  (s.modOrder o.number fun x => x.returned quantity).placeOrderState o.number (some o.state)

/-- One order is settled (R55, R56). -/
def State.settleOrder (s : State) (o : Order) : State :=
  match o.state with
  | .queued => s
  | .scheduled | .fixed =>
    if o.cancelled then (s.recordCompletion o .cancelled).removeOrder o.number else s.returnOrder o o.quantity
  | .running | .ending =>
    if o.cancelled then (s.recordCompletion o .cancelled).removeOrder o.number
    else if o.quantity ≤ o.good * o.ups then (s.recordCompletion o .normal).removeOrder o.number
    else (s.recordCompletion o .interrupted).returnOrder o (o.quantity - o.good * o.ups)

/-- Every order is settled in queue order, and every grade returns to Defined (R55, R56). -/
def State.settleOrders (s : State) : State := (s.orders.list.foldl State.settleOrder s).releaseGrades

/-- The planner's part of the teardown (R79). -/
def State.tearDownMap (s : State) : State := s.modMap fun _ => WebMap.reset

/-- The cut controller's part of the teardown (R149). -/
def State.tearDownCut (s : State) : State := (s.modCut fun c => { c with schedule := none, swaps := [] }).syncSetWait

/-- The teardown of CLEAR TRIP and RELEASE LOCKOUT, ending in Standby (R20). -/
def State.tearDown (s : State) : State :=
  let s1 := (s.tearDownRouter.tearDownMap).settleOrders.disarmAll.tearDownCut
  let s2 := s1.setEstimateGrade none
  s2.modSup fun p =>
    { p with
      ceilings := { p.ceilings with knife := none, order := none, splice := none }
      cause := .noCause
      standstill := 0 }

/-- CLEAR TRIP (R20). -/
def execClearTrip (s : State) : Host.Outcome State Fault Refusal :=
  request 0x14 (fun p t =>
    (if t.sup.line = .tripped then (t.tearDown.goTo .standby).ok else t.refuse .state).ifLength t (p.length = 0)) s

/-- RELEASE LOCKOUT (R23). -/
def State.releaseLockout (s : State) : State :=
  (((s.tearDown).modSup fun p => { p with trips := 0, lockFlag := false }).writeTripRecord).goTo .standby

/-- RELEASE LOCKOUT (R23). -/
def execReleaseLockout (s : State) : Host.Outcome State Fault Refusal :=
  request 0x15 (fun p t =>
    (if t.sup.line = .lockout then t.releaseLockout.ok else t.refuse .state).ifLength t (p.length = 0)) s

/-- SET SPEED (R24). -/
def execSetSpeed (s : State) : Host.Outcome State Fault Refusal :=
  request 0x16 (fun p t =>
    (if t.sup.line = .standby ∨ t.runOrHold then
      let v := min (fieldAt p 0 2) t.profile.vMax
      (t.modSup fun x => { x with hostSpeed := v }).ok (word v)
     else t.refuse .state).ifLength t (p.length = 2)) s

end Sys2Proof.Machine
end

