-- ==== Sys2Proof/Machine/OrderRequests.lean ====
section
/-! DEFINITION. ADD ORDER, AMEND ORDER and CANCEL ORDER (chapter 3, R35, R36, R44 to R50; order record payload of chapter 11). -/

namespace Sys2Proof.Machine

/-! ### Ranges (order record table of chapter 3) -/

/-- A cut pattern of 1 to 8 lengths within the limits. -/
def patternGood (p : Profile) (l : List Nat) : Bool :=
  1 ≤ l.length && l.length ≤ 8 && l.all fun x => p.lmin ≤ x && x ≤ p.lmax

/-- Slit or score positions: at most `n`, strictly ascending, each within 15,000 of the centreline. -/
def positionsGood (n : Nat) (l : List Int) : Bool :=
  l.length ≤ n && strictlyAscending l && l.all fun x => decide (-15000 ≤ x) && decide (x ≤ 15000)

/-- A slit/score set within its limits. -/
def toolsGood (t : ToolSet) : Bool := positionsGood 9 t.slits && positionsGood 16 t.scores

/-- A number within a range. -/
def within (lo hi x : Nat) : Bool := lo ≤ x && x ≤ hi

/-- A speed cap field: 0 for none, or 50 to 4,500. -/
def capGood (x : Nat) : Bool := x = 0 || within 50 4500 x

/-- The speed cap a field gives: 0 is absent. -/
def capOfField (x : Nat) : Option Nat := if x = 0 then none else some x

/-! ### ADD ORDER -/

/-- The payload's length matches the counts it declares. -/
def orderWellFormed (p : List Byte) : Bool :=
  24 ≤ p.length && p.length = 24 + 2 * (byteAt p 10 + byteAt p 11 + byteAt p 12)

/-- The order a well-formed payload carries, as a Queued order (R36, R37). -/
def orderOf (p : List Byte) : Order :=
  let k := byteAt p 10
  let a := byteAt p 11
  let b := byteAt p 12
  let ups := byteAt p 9
  let quantity := fieldAt p 13 4
  let overrun := fieldAt p 17 2
  let needed := cutsNeeded quantity ups
  { number := fieldAt p 0 4
    grade := byteAt p 8
    ups := ups
    pattern := wordsAt p 24 k
    tools := { slits := signedsAt p (24 + 2 * k) a, scores := signedsAt p (24 + 2 * k + 2 * a) b }
    quantity := quantity
    overrun := overrun
    height := fieldAt p 19 2
    cap := capOfField (fieldAt p 21 2)
    holdAfter := byteAt p 23 = 1
    state := .queued
    cancelled := false
    zoneStart := none
    zoneEnd := none
    needed := needed
    spoiled := 0
    planned := needed + overrun
    plannedEnd := none
    cuts := 0
    good := 0
    rejected := 0
    lost := 0
    stackTotal := 0
    tempMin := none
    tempMax := none
    derates := 0
    deferred := 0 }

/-- Every field of a new order is within its range (check 2 of R35). -/
def orderInRange (profile : Profile) (p : List Byte) (o : Order) : Bool :=
  decide (1 ≤ o.number) && decide (o.grade ≤ 15) && within 1 8 o.ups && patternGood profile o.pattern && toolsGood o.tools
    && within 1 9999999 o.quantity && decide (o.overrun ≤ 999) && within 1 999 o.height && capGood (fieldAt p 21 2)
    && decide (byteAt p 23 ≤ 1)

/-- The queue with an order appended, or inserted before the target (R36). -/
def insertOrder (o : Order) (target : Nat) (l : List Order) : List Order :=
  if target = 0 then l ++ [o]
  else l.takeWhile (fun x => x.number ≠ target) ++ o :: l.dropWhile fun x => x.number ≠ target

/-- The new order is placed, reported, and re-examined as successor if it is the first Queued order (R36). -/
def State.placeOrder (s : State) (o : Order) (target : Nat) : State :=
  let s1 := (s.modOrders fun q => { q with list := insertOrder o target q.list }).placeOrderState o.number none
  if s1.firstQueued.map (·.number) = some o.number then s1.recheck else s1

/-- The checks of R35 after FORMAT. -/
def State.addOrder (s : State) (p : List Byte) : Taken :=
  let o := orderOf p
  let target := fieldAt p 4 4
  if s.sup.line = .startUp then s.refuse .state
  else if ¬ orderInRange s.profile p o then s.refuse .range
  else if (s.grade? o.grade).isNone then s.refuse .grade
  else if (s.order? o.number).isSome then s.refuse .duplicate
  else if target ≠ 0 ∧ (s.order? target).isNone then s.refuse .notFound
  else if target ≠ 0 ∧ (s.order? target).any (·.state ≠ .queued) then s.refuse .state
  else if Config.orderCapacity ≤ s.orders.list.length then s.refuse .full
  else (s.placeOrder o target).ok

/-- ADD ORDER (R35, R36). -/
def execAddOrder (s : State) : Host.Outcome State Fault Refusal :=
  request 0x20 (fun p t => (t.addOrder p).ifLength t (orderWellFormed p)) s

/-! ### AMEND ORDER -/

/-- The fields an amendment gives (R44). A cap of 0 removes the cap. -/
structure Amendment where
  grade    : Option Nat
  ups      : Option Nat
  pattern  : Option (List Nat)
  tools    : Option ToolSet
  quantity : Option Nat
  overrun  : Option Nat
  height   : Option Nat
  cap      : Option Nat
  hold     : Option Nat
deriving DecidableEq, Repr

/-- A field of `k` bytes if given, with the bytes that follow; none when they run out. -/
def takeField (given : Bool) (k : Nat) (p : List Byte) : Option (Option Nat × List Byte) :=
  if ¬ given then some (none, p)
  else if p.length < k then none
  else some (some (unsigned (p.take k)), p.drop k)

/-- The amendment that the bytes after the order number spell: the set of fields given, then the fields in the order of the order
record table, the lengths and positions last (notes/assumptions/13). -/
def amendmentOf (p : List Byte) : Option Amendment := do
  let (set, p) ← takeField true 2 p
  let set := set.getD 0
  let given (i : Nat) : Bool := (set / 2 ^ i) % 2 == 1
  if 512 ≤ set then none
  let (grade, p) ← takeField (given 0) 1 p
  let (ups, p) ← takeField (given 1) 1 p
  let (k, p) ← takeField (given 2) 1 p
  let (a, p) ← takeField (given 3) 1 p
  let (b, p) ← takeField (given 3) 1 p
  let (quantity, p) ← takeField (given 4) 4 p
  let (overrun, p) ← takeField (given 5) 2 p
  let (height, p) ← takeField (given 6) 2 p
  let (cap, p) ← takeField (given 7) 2 p
  let (hold, p) ← takeField (given 8) 1 p
  let nk := k.getD 0
  let na := a.getD 0
  let nb := b.getD 0
  if p.length ≠ 2 * (nk + na + nb) then none
  some
    { grade := grade
      ups := ups
      pattern := k.map fun _ => wordsAt p 0 nk
      tools := a.map fun _ => { slits := signedsAt p (2 * nk) na, scores := signedsAt p (2 * nk + 2 * na) nb }
      quantity := quantity
      overrun := overrun
      height := height
      cap := cap
      hold := hold }

/-- Every field an amendment gives is amendable in the order's state (table of R44). -/
def Amendment.allowed (m : Amendment) (o : Order) : Bool :=
  let queued := o.state = .queued
  let length := match o.state with
    | .queued | .scheduled => true
    | .running => o.zoneEnd.isNone
    | .fixed | .ending => false
  let late := o.state ≠ .ending
  (m.grade.isNone && m.ups.isNone && m.pattern.isNone && m.tools.isNone || queued)
    && (m.quantity.isNone && m.overrun.isNone || length)
    && (m.cap.isNone && m.hold.isNone || late)

/-- Every value given is within its range (check 4 of R44). -/
def Amendment.inRange (m : Amendment) (profile : Profile) : Bool :=
  m.grade.all (· ≤ 15) && m.ups.all (within 1 8) && m.pattern.all (patternGood profile) && m.tools.all toolsGood
    && m.quantity.all (within 1 9999999) && m.overrun.all (· ≤ 999) && m.height.all (within 1 999) && m.cap.all capGood
    && m.hold.all (· ≤ 1)

/-- The order with the given fields replaced. -/
def Amendment.apply (m : Amendment) (o : Order) : Order :=
  { o with
    grade := m.grade.getD o.grade
    ups := m.ups.getD o.ups
    pattern := m.pattern.getD o.pattern
    tools := m.tools.getD o.tools
    quantity := m.quantity.getD o.quantity
    overrun := m.overrun.getD o.overrun
    height := m.height.getD o.height
    cap := match m.cap with | some x => capOfField x | none => o.cap
    holdAfter := match m.hold with | some x => x = 1 | none => o.holdAfter }

/-- Cuts and planned end recomputed: provisional for a Queued order (R37), with the spoiled and deferral cuts kept for the open
order (R46). -/
def Order.recount (o : Order) : Order :=
  let needed := cutsNeeded o.quantity o.ups
  match o.zoneStart with
  | none => { o with needed := needed, planned := needed + o.overrun }
  | some start =>
    let planned := needed + o.overrun + o.spoiled + o.deferred
    { o with needed := needed, planned := planned, plannedEnd := some (start + plannedLength o.pattern planned) }

/-- The amendment gives quantity or overrun allowance. -/
def Amendment.resizes (m : Amendment) : Bool := m.quantity.isSome || m.overrun.isSome

/-- An amendment of a Queued order is taken (R45). -/
def State.amendQueued (s : State) (o : Order) (m : Amendment) : Taken :=
  let s1 := s.modOrder o.number fun x => (m.apply x).recount
  let changed := (m.apply o).grade ≠ o.grade ∨ (m.apply o).tools ≠ o.tools
  (if changed ∧ s.firstQueued.map (·.number) = some o.number then s1.recheck else s1).ok

/-- The open order's planned end is clamped if it lies inside the horizon (R46). -/
def State.clampIfOverdue (s : State) : State := if s.overdue then s.clampOpen else s

/-- An amendment of an order with a zone is taken (R46, R47). A resized end inside the horizon is clamped and checked at once; the
reply carries planned cuts and planned end as the amendment leaves them. -/
def State.amendPlaced (s : State) (o : Order) (m : Amendment) : Taken :=
  let s1 := s.modOrder o.number fun x => if m.resizes then (m.apply x).recount else m.apply x
  let s2 := if m.cap.isSome then s1.recompose else s1
  if m.resizes then
    let s3 := s2.clampIfOverdue
    let now := (s3.order? o.number).getD o
    (if s2.overdue then s3.horizonCheck else s3).ok (count now.planned ++ optional 6 now.plannedEnd)
  else s2.ok

/-- The checks of R44 after FORMAT. -/
def State.amendOrder (s : State) (n : Nat) (m : Amendment) : Taken :=
  if s.sup.line = .startUp then s.refuse .state
  else match s.order? n with
    | none => s.refuse .notFound
    | some o =>
      if o.cancelled ∨ ¬ m.allowed o then s.refuse .locked
      else if ¬ m.inRange s.profile then s.refuse .range
      else if m.grade.any fun g => (s.grade? g).isNone then s.refuse .grade
      else if o.state = .queued then s.amendQueued o m
      else s.amendPlaced o m

/-- AMEND ORDER (R44 to R47). -/
def execAmendOrder (s : State) : Host.Outcome State Fault Refusal :=
  request 0x21 (fun p t =>
    if p.length < 4 then t.refuse .format
    else match amendmentOf (p.drop 4) with
      | some m => t.amendOrder (fieldAt p 0 4) m
      | none => t.refuse .format) s

/-! ### CANCEL ORDER -/

/-- A Queued order is removed (R48). -/
def State.cancelQueued (s : State) (n : Nat) : State :=
  let first := s.firstQueued.map (·.number) = some n
  let s1 := (s.removeOrder n).place (.orderState n (some .queued) none none none)
  if first then s1.recheck else s1

/-- A Scheduled order is cut short: its end comes to the horizon and the commit check runs at once (R49). -/
def State.cutShort (s : State) (n : Nat) : State :=
  (s.modOrder n fun o => { o with cancelled := true }.clampTo s.horizon).horizonCheck

/-- The checks of R48 to R50 after FORMAT. -/
def State.cancelOrder (s : State) (n : Nat) : Taken :=
  if s.sup.line = .startUp then s.refuse .state
  else match s.order? n with
    | none => s.refuse .notFound
    | some o =>
      if o.cancelled then s.refuse .locked
      else match o.state with
        | .queued => (s.cancelQueued n).ok
        | .scheduled => (s.cutShort n).ok
        | .fixed | .running | .ending => s.refuse .locked

/-- CANCEL ORDER (R48 to R50). -/
def execCancelOrder (s : State) : Host.Outcome State Fault Refusal :=
  request 0x22 (fun p t => (t.cancelOrder (fieldAt p 0 4)).ifLength t (p.length = 4)) s

end Sys2Proof.Machine
end

