-- ==== Sys2Proof/Machine/GradeRequests.lean ====
section
/-! DEFINITION. DEFINE GRADE and DEFINE TABLE (chapter 7, R122, R123). -/

namespace Sys2Proof.Machine

/-- The store is Writing (R182). -/
def State.storeBusy (s : State) : Bool := s.store.writing.isSome

/-! ### DEFINE GRADE (R122) -/

/-- The definition that a payload of 24 bytes carries. -/
def gradeOf (p : List Byte) : Grade where
  codes := ⟨fieldAt p 1 2, fieldAt p 3 2, fieldAt p 5 2, fieldAt p 7 2, fieldAt p 9 2⟩
  factors := ⟨fieldAt p 11 2, fieldAt p 13 2, fieldAt p 15 2, fieldAt p 17 2, fieldAt p 19 2⟩
  table := byteAt p 21
  limit := fieldAt p 22 2

/-- Every field of a definition is in its range and some paper code is not 0 (check 2 of R122). -/
def gradeGood (g : Grade) : Bool :=
  g.codes.toList.all (· ≤ 65534) && g.codes.toList.any (· ≠ 0) && g.factors.toList.all (within 1000 1600)
    && decide (g.table ≤ 7) && within 50 4500 g.limit

/-- The slot is In use or is the estimate grade (check 4 of R122). -/
def State.gradeLocked (s : State) (i : Nat) : Bool :=
  (match s.slot i with | .inUse _ => true | _ => false) || decide (s.reels.grade = some i)

/-- A grade slot's value replaced. -/
def State.setSlot (s : State) (i : Nat) (x : GradeSlot) : State := s.modCond fun c => { c with grades := c.grades.set i x }

/-- The checks of R122 on a definition, after FORMAT; a slot becoming Defined is a readiness-changing event (R73). -/
def State.defineGrade (s : State) (i : Nat) (g : Grade) : Taken :=
  if s.sup.line = .startUp then s.refuse .state
  else if 15 < i ∨ ¬ gradeGood g then s.refuse .range
  else if (s.cond.tables.getD g.table none).isNone then s.refuse .notFound
  else if s.gradeLocked i then s.refuse .locked
  else if s.storeBusy then s.refuse .busy
  else (s.setSlot i (.defined g)).recheck.ok

/-- The checks of R122 on the freeing of a slot, after FORMAT. -/
def State.freeGrade (s : State) (i : Nat) : Taken :=
  if s.sup.line = .startUp then s.refuse .state
  else if 15 < i then s.refuse .range
  else if s.gradeLocked i then s.refuse .locked
  else if s.storeBusy then s.refuse .busy
  else (s.setSlot i .free).ok

/-- DEFINE GRADE (R122): the slot number alone frees the slot; with 23 bytes more it is a definition (R177). -/
def execDefineGrade (s : State) : Host.Outcome State Fault Refusal :=
  request 0x30 (fun p t =>
    if p.length = 1 then t.freeGrade (byteAt p 0)
    else (t.defineGrade (byteAt p 0) (gradeOf p)).ifLength t (p.length = 24)) s

/-! ### DEFINE TABLE (R123) -/

/-- `n` breakpoints from an offset on. -/
def breakpointsAt (p : List Byte) (i : Nat) : Nat → List Breakpoint
  | 0 => []
  | n + 1 =>
    { speed := fieldAt p i 2, wrap := fieldAt p (i + 2) 2, gap := fieldAt p (i + 4) 2, temp := fieldAt p (i + 6) 2 }
      :: breakpointsAt p (i + 8) n

/-- Speeds strictly ascending and required temperatures not falling. -/
def breakpointsRise : List Breakpoint → Bool
  | [] => true
  | [_] => true
  | b :: c :: rest => decide (b.speed < c.speed) && decide (b.temp ≤ c.temp) && breakpointsRise (c :: rest)

/-- A table of 2 to 8 breakpoints, each field in its range (check 2 of R123). -/
def tableGood (t : List Breakpoint) : Bool :=
  2 ≤ t.length && t.length ≤ 8
    && t.all (fun b => b.speed ≤ 4500 && b.wrap ≤ 1000 && within 50 800 b.gap && b.temp ≤ 2500) && breakpointsRise t

/-- The checks of R123 after FORMAT. -/
def State.defineTable (s : State) (i : Nat) (t : List Breakpoint) : Taken :=
  if s.sup.line = .startUp then s.refuse .state
  else if 7 < i ∨ ¬ tableGood t then s.refuse .range
  else if s.tableLocked i then s.refuse .locked
  else if s.storeBusy then s.refuse .busy
  else (s.modCond fun c => { c with tables := c.tables.set i (some t) }).ok

/-- DEFINE TABLE (R123). -/
def execDefineTable (s : State) : Host.Outcome State Fault Refusal :=
  request 0x31 (fun p t =>
    (t.defineTable (byteAt p 0) (breakpointsAt p 2 (byteAt p 1))).ifLength t
      (decide (2 ≤ p.length) && decide (p.length = 2 + 8 * byteAt p 1))) s

end Sys2Proof.Machine
end

