-- ==== Sys2Proof/Machine/StandRequests.lean ====
section
/-! DEFINITION. ASSIGN REEL, CLEAR REEL and SPLICE NOW (R84, R85, R118). -/

namespace Sys2Proof.Machine

/-- The stand's splice plan is Firing. -/
def State.firing (s : State) (i : Stand) : Bool := (s.plan i).state = .firing

/-! ### ASSIGN REEL (R84) -/

/-- The reel data of a payload of 12 bytes. -/
def reelOf (p : List Byte) : ReelData where
  reel := fieldAt p 2 4
  code := fieldAt p 6 2
  caliper := fieldAt p 8 2
  core := fieldAt p 10 2

/-- Reel data within its ranges. -/
def reelGood (d : ReelData) : Bool :=
  decide (d.reel ≤ 4294967294) && within 1 65534 d.code && within 100 1000 d.caliper && within 60 200 d.core

/-- An arm that takes no assignment: Spent, or Running with reel data already (check 3 of R84). -/
def ArmRecord.unassignable (a : ArmRecord) : Bool :=
  match a.state with
  | .spent => true
  | .running => a.data.isSome
  | .empty | .loaded | .prepared => false

/-- A change of a stand's records by a request, with its notices (R83). -/
def State.changeReel (s : State) (i : Stand) (f : StandRecord → StandRecord) : State :=
  (s.modStand i f).announce i (s.standRecord i)

/-- The checks of R84 after FORMAT. -/
def State.assignReel (s : State) (stand arm : Nat) (d : ReelData) : Taken :=
  if s.sup.line = .startUp then s.refuse .state
  else match s.maskedStand stand, armOfCode arm with
    | some i, some x =>
      if ¬ reelGood d then s.refuse .range
      else if ((s.standRecord i).arms.get x).unassignable then s.refuse .state
      else if s.firing i then s.refuse .busy
      else (s.changeReel i fun r => r.assign x d s.web.w).ok
    | _, _ => s.refuse .range

/-- ASSIGN REEL (R84). -/
def execAssignReel (s : State) : Host.Outcome State Fault Refusal :=
  request 0x40 (fun p t => (t.assignReel (byteAt p 0) (byteAt p 1) (reelOf p)).ifLength t (p.length = 12)) s

/-! ### CLEAR REEL (R85) -/

/-- The checks of R85 after FORMAT, in the order in which R85 names them: STATE of a Running arm before BUSY (notes/assumptions/65). -/
def State.clearReel (s : State) (stand arm : Nat) : Taken :=
  if s.sup.line = .startUp then s.refuse .state
  else match s.maskedStand stand, armOfCode arm with
    | some i, some x =>
      if ((s.standRecord i).arms.get x).state = .running then s.refuse .state
      else if s.firing i then s.refuse .busy
      else (s.changeReel i fun r => r.clear x).ok
    | _, _ => s.refuse .range

/-- CLEAR REEL (R85). -/
def execClearReel (s : State) : Host.Outcome State Fault Refusal :=
  request 0x41 (fun p t => (t.clearReel (byteAt p 0) (byteAt p 1)).ifLength t (p.length = 2)) s

/-! ### SPLICE NOW (R118) -/

/-- The target of a manual splice: the approach point passed, or the present W in Standby. -/
def State.manualTarget (s : State) : Nat :=
  if s.sup.line = .standby then s.web.w else s.web.w + s.dApp s.spliceLimit + s.profile.guard

/-- The MANUAL plan as it is made: Planned, with its window. -/
def State.aimManual (s : State) (i : Stand) (target : Nat) : State :=
  (State.writeWindow i s).modPlan i fun p => p.aim .planned .manual target none

/-- A taken SPLICE NOW: SPLICE_PLANNED reports the plan, which then arms, falls Due and fires as its target asks, and a withdrawn
plan is a trigger for a planning pass (R101, R118). -/
def State.spliceNow (s : State) (i : Stand) : Taken :=
  let target := s.manualTarget
  let withdrawn := (s.plan i).state ≠ .idle
  let s1 := (s.aimManual i target).placePlanned i
  let s2 := s1.settleSplice
  (if withdrawn then s2.pass else s2).ok (coordinate target)

/-- The checks of R118 after FORMAT. -/
def State.spliceNowChecked (s : State) (stand : Nat) : Taken :=
  if s.sup.line = .startUp then s.refuse .state
  else match s.maskedStand stand with
    | none => s.refuse .range
    | some i =>
      let p := s.plan i
      if ¬ (s.runOrHold ∨ s.sup.line = .standby) then s.refuse .state
      else if p.state = .armed ∨ p.state = .due ∨ p.state = .firing then s.refuse .busy
      else if p.kind = some .grade then s.refuse .locked
      else if (s.standRecord i).runningArm.isNone ∨ ¬ (s.standRecord i).standbyPrepared ∨ ¬ s.online (.stand i) then
        s.refuse .state
      else s.spliceNow i

/-- SPLICE NOW (R118). -/
def execSpliceNow (s : State) : Host.Outcome State Fault Refusal :=
  request 0x42 (fun p t => (t.spliceNowChecked (byteAt p 0)).ifLength t (p.length = 1)) s

end Sys2Proof.Machine
end

