-- ==== Sys2Proof/Machine/SectionRequests.lean ====
section
/-! DEFINITION. SECTION OFFLINE, SECTION ONLINE and ACK FAULTS (R171, R172). -/

namespace Sys2Proof.Machine

/-- The node a request names, if it is one of the nine and not Absent. -/
def State.namedNode (s : State) (address : Nat) : Option Node :=
  (nodeAt address).filter fun n => (s.node n).service ≠ .absent

/-- SECTION OFFLINE is refused with STATE: Run, Hold while moving, Safe stop (R172). -/
def State.offlineBarred (s : State) : Bool :=
  match s.sup.line with
  | .run | .safeStop => true
  | .hold => !s.atRest
  | .startUp | .standby | .tripped | .lockout => false

/-- The node is a stand whose splice plan is Firing. -/
def State.nodeFiring (s : State) : Node → Bool
  | .stand i => s.firing i
  | .conditioning | .station _ | .stacker => false

/-- The checks of R172 on SECTION OFFLINE, after FORMAT: Start-up first (notes/assumptions/20), then RANGE, STATE and BUSY in this order
(notes/assumptions/62). -/
def State.sectionOffline (s : State) (address : Nat) : Taken :=
  if s.sup.line = .startUp then s.refuse .state
  else match s.namedNode address with
    | none => s.refuse .range
    | some n =>
      if s.offlineBarred then s.refuse .state
      else if s.nodeFiring n then s.refuse .busy
      else if (s.node n).service = .offline then s.ok
      else (s.goOffline n).ok

/-- SECTION OFFLINE (R172). -/
def execSectionOffline (s : State) : Host.Outcome State Fault Refusal :=
  request 0x50 (fun p t => (t.sectionOffline (byteAt p 0)).ifLength t (p.length = 1)) s

/-- An Offline node is brought back: Initialising, or Faulted while a latch other than GAUGE is set (R172). -/
def State.bringBack (s : State) (n : Node) : State :=
  let l := (s.node n).latches
  if l.faulting then s.becomeFaulted n (if l.noAnswer then .noAnswer else .nodeFault) else s.initialise n

/-- The checks of R172 on SECTION ONLINE, after FORMAT. -/
def State.sectionOnline (s : State) (address : Nat) : Taken :=
  if s.sup.line = .startUp then s.refuse .state
  else match s.namedNode address with
    | none => s.refuse .range
    | some n =>
      match (s.node n).service with
      | .offline => (s.bringBack n).ok
      | .initialising | .online => s.ok
      | .faulted | .absent => s.refuse .state

/-- SECTION ONLINE (R172). -/
def execSectionOnline (s : State) : Host.Outcome State Fault Refusal :=
  request 0x51 (fun p t => (t.sectionOnline (byteAt p 0)).ifLength t (p.length = 1)) s

/-- A Faulted station whose fault is acknowledged becomes Parked with its retained set absent, a readiness-changing event (R73,
R141). -/
def State.parkFaulted (s : State) (x : Station) : State :=
  if (s.station x).state = .faulted then
    (s.modStation x fun _ => StationRecord.reset).checkStations.recheck
  else s

/-- One node's faults are acknowledged: its latches clear, and a Faulted node becomes Initialising (R171). -/
def State.ackNode (s : State) (n : Node) : State :=
  let s1 := s.modNode n fun r => { r with latches := .clear }
  if (s.node n).service = .faulted then
    let s2 := s1.initialise n
    match n with
    | .station x => s2.parkFaulted x
    | .stand _ | .conditioning | .stacker => s2
  else s1

/-- A taken ACK FAULTS of some nodes (R170, R171). Where it names all, they are taken in ascending address (notes/assumptions/56). -/
def State.ackNodes (s : State) (l : List Node) : State :=
  ((l.foldl State.ackNode s).modLine fun x => { x with acked := true }).releaseSection

/-- The configured nodes. -/
def State.configuredNodes (s : State) : List Node := allNodes.filter fun n => (s.node n).service ≠ .absent

/-- The checks of R171 after FORMAT; address 0 names all nodes. -/
def State.ackFaults (s : State) (address : Nat) : Taken :=
  if s.sup.line = .startUp then s.refuse .state
  else if address = 0 then (s.ackNodes s.configuredNodes).ok
  else match s.namedNode address with
    | some n => (s.ackNodes [n]).ok
    | none => s.refuse .range

/-- ACK FAULTS (R171). -/
def execAckFaults (s : State) : Host.Outcome State Fault Refusal :=
  request 0x52 (fun p t => (t.ackFaults (byteAt p 0)).ifLength t (p.length = 1)) s

end Sys2Proof.Machine
end

