-- ==== Sys2Proof/Machine/ProfileRequests.lean ====
section
/-! DEFINITION. WRITE PROFILE ITEM, SAVE PROFILE, FREEZE GEOMETRY, UNFREEZE GEOMETRY and RESTART PART (R181 to R183, R185), with the
ranges and the cross-item conditions of the profile. -/

namespace Sys2Proof.Machine

/-! ### Items -/

/-- The range of each item, in item order (profile items table). -/
def itemRanges : List (Nat × Nat) :=
  [(1, 31), (5000, 150000), (5000, 150000), (5000, 150000), (5000, 150000), (5000, 150000), (2000, 120000), (2000, 30000),
   (1000, 20000), (0, 400000), (0, 100000), (500, 20000), (1000, 50000), (1000, 2500), (400, 8000), (400, 8000), (50, 500),
   (50, 500), (0, 60), (2000, 20000), (300, 3000), (100, 2000), (500, 5000), (100000, 5000000), (50000, 2000000), (5000, 200000),
   (1, 16), (500, 4500), (50, 400), (50, 4500), (1, 60), (1, 60), (10, 200), (1000, 30000), (500, 20000), (500, 60000), (0, 1),
   (10, 200), (1, 15), (100, 100000), (1, 255)]

/-- The item number is 1 to 41 and the value within its range (check 2 of R181). -/
def itemInRange (n x : Nat) : Bool :=
  decide (1 ≤ n) && (match itemRanges[n - 1]? with | some r => within r.1 r.2 x | none => false)

/-- The items that freezing protects: 2 to 11, 13 and 14. -/
def geometryItem (n : Nat) : Bool := within 2 11 n || n = 13 || n = 14

/-- The profile with one item written. -/
def Profile.write (p : Profile) (n x : Nat) : Profile :=
  match n with
  | 1 => { p with mask := standSetOfBits x }
  | 2 => { p with path := p.path.set .s1 x }
  | 3 => { p with path := p.path.set .s2 x }
  | 4 => { p with path := p.path.set .s3 x }
  | 5 => { p with path := p.path.set .s4 x }
  | 6 => { p with path := p.path.set .s5 x }
  | 7 => { p with pGlue := x }
  | 8 => { p with pSlit := x }
  | 9 => { p with dGate := x }
  | 10 => { p with dCommit := x }
  | 11 => { p with dThread := x }
  | 12 => { p with guard := x }
  | 13 => { p with encoderK := x }
  | 14 => { p with knifeC := x }
  | 15 => { p with lmin := x }
  | 16 => { p with lmax := x }
  | 17 => { p with nKnife := x }
  | 18 => { p with nStack := x }
  | 19 => { p with buffer := x }
  | 20 => { p with tAir := x }
  | 21 => { p with markLength := x }
  | 22 => { p with margin := x }
  | 23 => { p with tSlit := x }
  | 24 => { p with lWarn := x }
  | 25 => { p with lOpen := x }
  | 26 => { p with lButt := x }
  | 27 => { p with lowFilter := x }
  | 28 => { p with vMax := x }
  | 29 => { p with vCrawl := x }
  | 30 => { p with vSilent := x }
  | 31 => { p with sUp := x }
  | 32 => { p with sDown := x }
  | 33 => { p with sEmerg := x }
  | 34 => { p with tSet := x }
  | 35 => { p with tStack := x }
  | 36 => { p with tLink := x }
  | 37 => { p with heatAction := if x = 0 then .derate else .hold }
  | 38 => { p with deadband := x }
  | 39 => { p with tripLimit := x }
  | 40 => { p with dClear := x }
  | 41 => { p with deferLimit := x }
  | _ => p

/-- Pshort: no piece the knife schedule lays is shorter (R151). -/
def Profile.shortestPiece (p : Profile) : Nat := min p.lmin (min 500 ((p.lmax + 1) / 2))

/-- The cross-item conditions of R181. -/
def Profile.consistent (p : Profile) (orders : List Order) : Bool :=
  (stands.all fun i => !p.mask.get i || decide (p.path.get i + 1000 ≤ p.dCommit)) && decide (p.pGlue < p.dCommit)
    && decide (p.pSlit + 1000 ≤ p.dThread)
    && decide (p.lmin < p.lmax) && (orders.all fun o => o.pattern.all (within p.lmin p.lmax))
    && decide (p.lButt < p.lOpen) && decide (p.lOpen < p.lWarn)
    && decide (p.dGate < 64 * p.shortestPiece)

/-! ### What a write brings about at once -/

/-- A stand leaves the mask: its records return to those of reset and its node becomes Absent (R82, R162). -/
def State.removeStand (s : State) (i : Stand) : State :=
  let s1 := (s.modStand i fun _ => StandRecord.reset).leaveService (.stand i) .absent
  s1.modNode (.stand i) fun r => { r with latches := .clear, missed := 0, awaited := none }

/-- A stand's part in a change of the mask (R82, R162). -/
def State.remaskStand (before : PerStand Bool) (i : Stand) (s : State) : State :=
  if before.get i = s.configured i then s
  else if s.configured i then (s.modStand i fun _ => StandRecord.reset).initialise (.stand i)
  else s.removeStand i

/-- What acts at once when an item has been written: the mask (R82, R162; stand by stand in ascending number, notes/assumptions/63), the
gate distance (R152), the glue point (R125), the horizon (R65), K (R4), the heat items (R131), the trip limit (R21). -/
def State.afterWrite (s : State) (before : Profile) (n : Nat) : State :=
  match n with
  | 1 => s.eachStand (State.remaskStand before.mask)
  | 7 => s.applyGlue
  | 9 => s.gateDecisions.sweepMarks
  | 10 => s.clampAndCheck
  | 13 => s.modWeb fun x => { x with r := 0 }
  | 28 | 29 | 37 => s.recomputeHeat
  | 39 => s.lockOnLimit
  | _ => s

/-- A write of the mask removes a stand whose plan is not Idle (check 4 of R181). -/
def State.removesBusyStand (s : State) (n : Nat) (p : Profile) : Bool :=
  n = 1 && stands.any fun i => s.configured i && !p.mask.get i && decide ((s.plan i).state ≠ .idle)

/-- The checks of R181 after FORMAT. -/
def State.writeItem (s : State) (n x : Nat) : Taken :=
  let p := s.profile.write n x
  if ¬ itemInRange n x then s.refuse .range
  else if ¬ (s.sup.line = .standby ∨ s.sup.line = .tripped ∨ s.sup.line = .lockout) then s.refuse .state
  else if s.storeBusy ∨ s.removesBusyStand n p then s.refuse .busy
  else if geometryItem n ∧ s.store.frozen then s.refuse .frozen
  else if ¬ p.consistent s.orders.list then s.refuse .range
  else ((s.withProfile p).afterWrite s.profile n).ok

/-- WRITE PROFILE ITEM (R181). The item number is one byte (notes/assumptions/9). -/
def execWriteProfileItem (s : State) : Host.Outcome State Fault Refusal :=
  request 0x61 (fun p t => (t.writeItem (byteAt p 0) (fieldAt p 1 4)).ifLength t (p.length = 5)) s

/-! ### The store (R182, R183) -/

/-- A save that begins is answered ACCEPTED. -/
def State.accepted (s : State) : Taken := { state := s, result := .accepted }

/-- The checks of SAVE PROFILE, after FORMAT. -/
def State.saveProfile (s : State) : Taken :=
  if s.sup.line = .startUp then s.refuse .state
  else if s.storeBusy then s.refuse .busy
  else (s.startSave .save).accepted

/-- SAVE PROFILE (R182). -/
def execSaveProfile (s : State) : Host.Outcome State Fault Refusal :=
  request 0x62 (fun p t => t.saveProfile.ifLength t (p.length = 0)) s

/-- The frozen attribute as worked with. -/
def State.setFrozen (s : State) (b : Bool) : State := s.modStore fun t => { t with frozen := b }

/-- The checks of FREEZE GEOMETRY, after FORMAT. -/
def State.freezeGeometry (s : State) : Taken :=
  if s.sup.line = .startUp then s.refuse .state
  else if s.storeBusy then s.refuse .busy
  else if ¬ s.store.valid then s.refuse .profile
  else if s.store.frozen then s.ok
  else ((s.setFrozen true).startSave .freeze).accepted

/-- FREEZE GEOMETRY (R183). -/
def execFreezeGeometry (s : State) : Host.Outcome State Fault Refusal :=
  request 0x63 (fun p t => t.freezeGeometry.ifLength t (p.length = 0)) s

/-- The checks of UNFREEZE GEOMETRY, after FORMAT, with the service input as it stands. -/
def State.unfreezeGeometry (s : State) (service : Bool) : Taken :=
  if s.sup.line ≠ .standby then s.refuse .state
  else
    let s1 := s.modPins fun p => { p with service := service }
    if ¬ service then s1.refuse .frozen
    else if s.storeBusy then s1.refuse .busy
    else if ¬ s.store.frozen then s1.ok
    else ((s1.setFrozen false).startSave .unfreeze).accepted

/-- UNFREEZE GEOMETRY (R183), with the level of the service input as it stands when it is taken. -/
def execUnfreezeGeometry (service : Bool) (s : State) : Host.Outcome State Fault Refusal :=
  request 0x64 (fun p t => (t.unfreezeGeometry service).ifLength t (p.length = 0)) s

/-- The checks of RESTART PART, after FORMAT; the reset follows when the reply has been sent (R185). -/
def State.restartPart (s : State) : Taken :=
  if ¬ (s.sup.line = .standby ∨ s.sup.line = .tripped ∨ s.sup.line = .lockout) then s.refuse .state
  else if s.storeBusy ∨ s.store.tripWriting.isSome then s.refuse .busy
  else s.ok

/-- RESTART PART (R185). -/
def execRestartPart (s : State) : Host.Outcome State Fault Refusal :=
  .next (s.takeRequest (· = 0x65) true fun p t => t.restartPart.ifLength t (p.length = 0))

end Sys2Proof.Machine
end

