-- ==== Sys2Proof/Machine/SectionFrames.lean ====
section
/-! DEFINITION. Transactions on the section line: the start of one, the answers and what they are handed on as, missed answers
(R111 to R114, R138, R140, R141, R156, R157, R163 to R168). The layout of answer payloads is that of notes/assumptions/10. -/

namespace Sys2Proof.Machine

/-! ### Starting a transaction (R164, R166) -/

/-- The next Online node in ascending address order after the poll pointer, wrapping to the lowest (R166). -/
def State.pollNext (s : State) : Option Node :=
  let up := allNodes.filter s.online
  (up.find? fun n => s.line.pointer < nodeAddress n).or up.head?

/-- A request is sent: it takes the present transaction number, which rises by 1, and its deadline starts; a command whose result
will be awaited is remembered by that number (R164, R166). -/
def State.send (s : State) (n : Node) (a : Ask) : State :=
  let t := s.line.txn
  let frame := sectionFrameBytes (BitVec.ofNat 8 (nodeAddress n)) (BitVec.ofNat 8 (askKind a)) t (askPayload n a)
  let s1 := s.modLine fun l =>
    { l with
      txn := t + 1
      inFlight := some { node := n, ask := a, txn := t, deadline := Config.answerMs, frame := frame } }
  if a.resulting then s1.modNode n fun r => { r with awaited := some t } else s1

/-- What a poll of a node asks: the stacker's carries the oldest routes, up to 16 (R167). -/
def State.pollAsk (s : State) (n : Node) : Ask := .poll (if n = .stacker then s.line.routes.take 16 else [])

/-- A poll is sent, and the pointer takes its address (R166). -/
def State.sendPoll (s : State) (n : Node) : State :=
  (s.send n (s.pollAsk n)).modLine fun l => { l with pointer := nodeAddress n }

/-- The next transaction: the oldest urgent command, else the oldest normal one, else a poll, else none (R164). -/
def State.nextTransaction (s : State) : State :=
  match s.line.urgent, s.line.normal with
  | c :: rest, _ => (s.modLine fun l => { l with urgent := rest }).send c.node c.ask
  | [], c :: rest => (s.modLine fun l => { l with normal := rest }).send c.node c.ask
  | [], [] =>
    match s.pollNext with
    | some n => s.sendPoll n
    | none => s

/-- SECTION_TRANSACTION_START (R164): with no transaction in flight the next one begins. -/
def execSectionTransactionStart (s : State) : Host.Outcome State Fault Refusal :=
  .next (if s.line.inFlight.isNone then s.nextTransaction else s)

/-! ### Contents of answers -/

/-- A result that a node reports, with the transaction number of its command. -/
structure NodeResult where
  ok  : Bool
  txn : Byte
deriving DecidableEq, Repr

/-- A station's condition. -/
inductive StationCondition where
  | parked | set | engaged
deriving DecidableEq, Repr

/-- What an INIT reply reports, by the kind it names (R163). -/
inductive InitBody where
  | stand (arms : PerArm ArmReport)
  | conditioning
  | station (c : StationCondition)
  | stacker
deriving DecidableEq, Repr

/-- What a poll answer carries, by the node polled (R166). -/
inductive PollBody where
  | stand (arms : PerArm ArmReport) (result : Option NodeResult)
  | conditioning (temp : Nat)
  | station (c : StationCondition) (result : Option NodeResult)
  | stacker (seq : Nat) (result : Option NodeResult)
deriving DecidableEq, Repr

/-- The content of an answer. -/
inductive Body where
  | init (b : InitBody)
  | poll (b : PollBody)
  | command
deriving DecidableEq, Repr

/-- An answer's fault indication and content. -/
structure Content where
  fault : Bool
  body  : Body
deriving DecidableEq, Repr

/-- A flag byte. -/
def flagOfCode : Nat → Option Bool
  | 0 => some false | 1 => some true | _ => none

def stationConditionOf : Nat → Option StationCondition
  | 0 => some .parked | 1 => some .set | 2 => some .engaged | _ => none

/-- An arm's report at an offset: a condition the kind has and a diameter up to 2,000 (R164). -/
def armReportAt (p : List Byte) (i : Nat) : Option ArmReport :=
  match conditionOfCode (byteAt p i) with
  | some c => if fieldAt p (i + 1) 2 ≤ 2000 then some { condition := c, diameter := fieldAt p (i + 1) 2 } else none
  | none => none

/-- Both arms' reports at an offset. -/
def armReportsAt (p : List Byte) (i : Nat) : Option (PerArm ArmReport) :=
  match armReportAt p i, armReportAt p (i + 3) with
  | some a, some b => some ⟨a, b⟩
  | _, _ => none

/-- A result at an offset: OK, FAILED, or FFh for none yet; absent when malformed. -/
def resultAt (p : List Byte) (i : Nat) : Option (Option NodeResult) :=
  match byteAt p i with
  | 0 => some (some { ok := true, txn := p.getD (i + 1) 0 })
  | 1 => some (some { ok := false, txn := p.getD (i + 1) 0 })
  | 255 => some none
  | _ => none

/-- The body of an INIT reply, read by the kind it names. -/
def initBodyOf (p : List Byte) : Option InitBody :=
  match byteAt p 1 with
  | 0 => if p.length = 8 then (armReportsAt p 2).map .stand else none
  | 1 => if p.length = 2 then some .conditioning else none
  | 2 => if p.length = 3 then (stationConditionOf (byteAt p 2)).map .station else none
  | 3 => if p.length = 2 then some .stacker else none
  | _ => none

/-- The body of a node's poll answer. DESIGN CHOICE: FFFFh as the stacker's route sequence is the sequence 65,535, which R167 lets a
route carry, and never the absent sequence of R177 (notes/assumptions/68). -/
def pollBodyOf (n : Node) (p : List Byte) : Option PollBody :=
  match n with
  | .stand _ =>
    if p.length = 9 then
      match armReportsAt p 1, resultAt p 7 with
      | some arms, some r => some (.stand arms r)
      | _, _ => none
    else none
  | .conditioning => if p.length = 3 ∧ fieldAt p 1 2 ≤ 4000 then some (.conditioning (fieldAt p 1 2)) else none
  | .station _ =>
    if p.length = 4 then
      match stationConditionOf (byteAt p 1), resultAt p 2 with
      | some c, some r => some (.station c r)
      | _, _ => none
    else none
  | .stacker => if p.length = 5 then (resultAt p 3).map fun r => .stacker (fieldAt p 1 2) r else none

/-- The body of an answer to a request. -/
def bodyOf (n : Node) (a : Ask) (p : List Byte) : Option Body :=
  match a with
  | .init => (initBodyOf p).map .init
  | .poll _ => (pollBodyOf n p).map .poll
  | .fire | .engage | .set _ | .setpoints _ | .changeStack _ => if p.length = 1 then some .command else none

/-- The content of an answer to a request, absent when malformed (R164). -/
def contentOf (n : Node) (a : Ask) (p : List Byte) : Option Content :=
  match flagOfCode (byteAt p 0), bodyOf n a p with
  | some f, some b => some { fault := f, body := b }
  | _, _ => none

/-! ### Splice acknowledgement and result (R111 to R114) -/

/-- FIRE is acknowledged (R111). -/
def State.fireAck (s : State) (i : Stand) : State :=
  if s.firing i then
    let p := s.plan i
    let m := s.spliceMark i
    let s1 := (s.spendAir i).modPlan i fun x => { x with resultTimer := some 0 }
    (s1.place (.spliceFired i p.kind p.target s.web.w m.start m.kind)).syncSplice
  else s

/-- FIRE goes unanswered: the air is taken as spent and the board as spoiled (R112). -/
def State.fireUnanswered (s : State) (i : Stand) : State :=
  if s.firing i then ((s.spendAir i).place (.spliceFailed i .noAnswer)).leaveFiring i else s

/-- A splice result reports success (R113). -/
def State.spliceDone (s : State) (i : Stand) : State :=
  if s.firing i then
    let butt := s.buttLength i
    let old := ((s.standRecord i).runningArm).getD .a
    let s1 := s.modStand i fun r => r.swapArms s.web.w
    (s1.place (.spliceDone i old.other old butt)).leaveFiring i
  else s

/-- A splice fails, by its result or its timeout (R114). -/
def State.spliceFails (s : State) (i : Stand) (why : FailReason) : State :=
  if s.firing i then
    let s1 := (s.latch (.stand i) .spliceFail).reportCause .spliceFail
    (s1.place (.spliceFailed i why)).leaveFiring i
  else s

/-! ### Set and engage (R138, R140, R141) -/

/-- The station becomes Set (R138). A swap that waits for it is taken before the boundary planner looks again
(notes/assumptions/58). -/
def State.setDone (s : State) (x : Station) : State :=
  if (s.station x).state = .setting then
    let t := (s.station x).retained
    let s1 := s.modStation x fun r => { r with state := .set, timer := none }
    let s2 := s1.place (.setDone x .set .ok (t.map (·.slits.length)) (t.map (·.scores.length)))
    (s2.settleStations).recheck
  else s

/-- A set fails, by its result or its timeout (R138). -/
def State.setFails (s : State) (x : Station) (why : SetOutcome) : State :=
  if (s.station x).state = .setting then
    (((s.faultStation x).latch (.station x) .setFail).place (.setDone x .set why none none)).syncSetWait
  else s

/-- The outgoing station of station `x`'s swap, if still Engaged, becomes Parked and keeps its set (R140). Where the entry named no
outgoing station, the other station leaves Engaged, so that at most one is Engaged (notes/assumptions/53). -/
def State.parkOutgoing (s : State) (x : Station) : State :=
  let y := (s.station x).outgoing.getD (otherStation x)
  if (s.station y).state = .engaged then s.modStation y fun r => { r with state := .parked, timer := none } else s

/-- A swap completes (R140). -/
def State.engageDone (s : State) (x : Station) : State :=
  if (s.station x).state = .swapping then
    let s1 := s.parkOutgoing x
    let s2 := s1.modStation x fun r => { r with state := .engaged, timer := none, outgoing := none }
    (s2.place (.setDone x .engage .ok none none)).checkStations
  else s

/-- A swap fails, by its result or its timeout (R140). -/
def State.engageFails (s : State) (x : Station) (why : SetOutcome) : State :=
  if (s.station x).state = .swapping then
    let s1 := (s.faultStation x).latch (.station x) .setFail
    ((s1.place (.setDone x .engage why none none)).syncSetWait).reportCause .sectionLine
  else s

/-- A station as its INIT reply gives it (table of R141). -/
def State.stationFromInit (s : State) (x : Station) (c : StationCondition) : State :=
  let engaged := c = .engaged ∧ (s.station (otherStation x)).state ≠ .engaged
  s.modStation x fun _ => { StationRecord.reset with state := if engaged then .engaged else .parked }

/-! ### A node becomes Online (R163) -/

/-- The node becomes Online, and the blocks take it as such: setpoints (R126), stations (R137), a planning pass and readiness
(R101, R107), SECTION (R170), and last the boundary planner (R73). R163 gives them no order (notes/assumptions/59). INIT is queued only
for an Initialising node (R165), so one that is still queued for it leaves the queue unsent (DESIGN CHOICE, notes/assumptions/69). -/
def State.nodeOnline (s : State) (n : Node) : State :=
  let s1 := ((s.setService n .online).modNode n fun r => { r with missed := 0 }).withdrawInit n
  let s2 := match n with
    | .stand _ => s1.pass.settleSplice
    | .conditioning => s1.placeSetpoints.releaseSection
    | .station _ => s1.checkStations
    | .stacker => s1.releaseSection
  s2.recheck

/-- The router's stacker at its node's INIT reply (R157). The node has emptied its own buffer (R163): what the router still holds is
given up as at a loss of the stacker, an open stack closed in the count and every run that is not credited lost to its order (R153). -/
def State.stackerFromInit (s : State) : State :=
  (s.loseStacker .offline).modRouter fun r => { r with stacker := .stacking, stack := none, buffer := [], reason := none, timer := none }

/-- An INIT reply names the kind of its node (R163). -/
def InitBody.suits : InitBody → Node → Bool
  | .stand _, .stand _ | .conditioning, .conditioning | .station _, .station _ | .stacker, .stacker => true
  | _, _ => false

/-- An INIT reply is handed to the owning block and the node becomes Online; one of another kind latches NODE_FAULT (R163). -/
def State.takeInit (s : State) (n : Node) (b : InitBody) : State :=
  match n, b with
  | .stand i, .stand arms => (s.initArms i arms).nodeOnline n
  | .conditioning, .conditioning => s.nodeOnline n
  | .station x, .station c => (s.stationFromInit x c).nodeOnline n
  | .stacker, .stacker => s.stackerFromInit.nodeOnline n
  | _, _ => s.latch n .nodeFault

/-! ### Poll answers (R166, R167) -/

/-- A result is handed on when it is of the command whose result is awaited, and only once (R166). -/
def State.handResult (s : State) (n : Node) (r : Option NodeResult) (f : Bool → State → State) : State :=
  match r with
  | some x =>
    if (s.node n).awaited = some x.txn then f x.ok (s.modNode n fun y => { y with awaited := none }) else s
  | none => s

/-- A station's result: of the SET or ENGAGE it is making. -/
def State.stationResult (x : Station) (ok : Bool) (s : State) : State :=
  match (s.station x).state with
  | .setting => if ok then s.setDone x else s.setFails x .failed
  | .swapping => if ok then s.engageDone x else s.engageFails x .failed
  | .parked | .set | .engaged | .faulted => s

/-- A poll answer's content is handed on (table of R166). -/
def State.takePoll (s : State) (n : Node) (b : PollBody) : State :=
  match n, b with
  | .stand i, .stand arms r =>
    (s.standReport i arms.a arms.b).handResult n r fun ok t => if ok then t.spliceDone i else t.spliceFails i .failed
  | .conditioning, .conditioning t => s.temperatureReport t
  | .station x, .station _ r => s.handResult n r (State.stationResult x)
  | .stacker, .stacker seq r =>
    (s.modLine fun l => { l with routes := acceptRoutes seq l.routes }).handResult n r fun ok t =>
      if ok then t.changeDone else t.changeFailed
  | _, _ => s

/-! ### Command answers -/

/-- The direct answer to a command (R111, R138, R140, R156). -/
def State.takeCommandAnswer (s : State) (n : Node) (a : Ask) : State :=
  match n, a with
  | .stand i, .fire => s.fireAck i
  | .station x, .set _ =>
    if (s.station x).state = .setting then s.modStation x fun r => { r with timer := some 0 } else s
  | .station x, .engage =>
    if (s.station x).state = .swapping then s.modStation x fun r => { r with timer := some 0 } else s
  | .stacker, .changeStack _ =>
    if s.router.stacker = .changing then s.modRouter fun r => { r with timer := some 0, limit := s.profile.tStack } else s
  | _, _ => s

/-! ### The end of a transaction (R164, R168) -/

/-- The node is in Initialising or Online: its answers are handed on (R168). -/
def State.inService (s : State) (n : Node) : Bool :=
  (s.node n).service = .initialising || (s.node n).service = .online

/-- The node's misses count: it has not been taken out of service by SECTION OFFLINE or out of the stand mask (R168). A node made
Faulted while the transaction was in flight stays so and collects the latch (R169). -/
def State.misses (s : State) (n : Node) : Bool := s.inService n || (s.node n).service = .faulted

/-- The transaction ends. -/
def State.endTransaction (s : State) : State := s.modLine fun l => { l with inFlight := none }

/-- A missed poll counts; the third in a row latches NO_ANSWER (R168). -/
def State.missPoll (s : State) (n : Node) : State :=
  let k := min 3 ((s.node n).missed + 1)
  let s1 := s.modNode n fun r => { r with missed := k }
  if k = 3 then s1.latch n .noAnswer else s1

/-- A transaction ends as a missed answer (R112, R168). -/
def State.missed (s : State) (f : InFlight) : State :=
  let s1 := s.endTransaction
  match f.ask with
  | .poll _ => if s1.misses f.node then s1.missPoll f.node else s1
  | _ =>
    let s2 := if s1.misses f.node then s1.latch f.node .noAnswer else s1
    match f.node, f.ask with
    | .stand i, .fire => s2.fireUnanswered i
    | _, _ => s2

/-- An answer's content is handed on. A fault indication latches NODE_FAULT: in the place of the content of an INIT reply or a poll
answer, and after the acknowledgement of a command (R166, R169; notes/assumptions/11). Reports are taken from an Online node only
(R163). -/
def State.handOn (s : State) (f : InFlight) (c : Content) : State :=
  match c.body with
  | .init b => if c.fault then s.latch f.node .nodeFault else s.takeInit f.node b
  | .poll b => if c.fault then s.latch f.node .nodeFault else if s.online f.node then s.takePoll f.node b else s
  | .command =>
    let s1 := s.takeCommandAnswer f.node f.ask
    if c.fault then s1.latch f.node .nodeFault else s1

/-- The content sets NODE_FAULT: it indicates a fault, or it is an INIT reply of the wrong kind (R169). -/
def Content.indicts (c : Content) (n : Node) : Bool :=
  c.fault || (match c.body with | .init b => !b.suits n | .poll _ | .command => false)

/-- An answer is taken: the transaction ends, the missed-poll count returns to 0 and the content is handed on (R164, R168). Of a node no
longer in Initialising or Online nothing is handed on; content that sets NODE_FAULT latches it all the same, and an Absent node has no
latch (R168, R169). -/
def State.taken (s : State) (f : InFlight) (c : Content) : State :=
  let s1 := s.endTransaction.modNode f.node fun r => { r with missed := 0 }
  if s1.inService f.node then s1.handOn f c
  else if c.indicts f.node ∧ (s1.node f.node).service ≠ .absent then s1.latch f.node .nodeFault
  else s1

/-- A frame matches the request in flight: its check passes, and its address and transaction number are the request's (R164). -/
def InFlight.answeredBy (f : InFlight) (kind : Byte) (a : Answer) : Bool :=
  a.check = crc (sectionCovered a.address kind a.txn a.payload) && a.address = BitVec.ofNat 8 (nodeAddress f.node)
    && a.txn = f.txn

/-- A frame of a kind arrives: ignored, missed for malformed content, or taken (R164). DESIGN CHOICE: the reply to an INIT is taken
also when its node has left Initialising and entered it again since that INIT was sent (notes/assumptions/69). -/
def State.frameArrives (s : State) (kind : Byte) (a : Answer) : State :=
  match s.line.inFlight with
  | none => s
  | some f =>
    if ¬ f.answeredBy kind a then s
    else if kind ≠ BitVec.ofNat 8 (askKind f.ask + 0x80) then s.missed f
    else match contentOf f.node f.ask a.payload with
      | some c => s.taken f c
      | none => s.missed f

/-! ### The commands -/

/-- ANSWER_DEADLINE (R164): the transaction in flight ends as a missed answer. -/
def execAnswerDeadline (s : State) : Host.Outcome State Fault Refusal :=
  match s.line.inFlight with
  | some f => .next (s.missed f)
  | none => .next s

/-- SECTION_FRAME_IGNORED (R164): a frame of any kind; one that does not match the request in flight changes nothing. -/
def execSectionFrameIgnored (kind : Byte) (a : Answer) (s : State) : Host.Outcome State Fault Refusal :=
  .next (s.frameArrives kind a)

/-- INIT_REPLY (R163). -/
def execInitReply (a : Answer) (s : State) : Host.Outcome State Fault Refusal := .next (s.frameArrives 0x81#8 a)

/-- POLL_ANSWER (R166). -/
def execPollAnswer (a : Answer) (s : State) : Host.Outcome State Fault Refusal := .next (s.frameArrives 0x82#8 a)

/-- FIRE_ACKNOWLEDGED (R111). -/
def execFireAcknowledged (a : Answer) (s : State) : Host.Outcome State Fault Refusal := .next (s.frameArrives 0x83#8 a)

/-- ENGAGE_ANSWER (R140). -/
def execEngageAnswer (a : Answer) (s : State) : Host.Outcome State Fault Refusal := .next (s.frameArrives 0x84#8 a)

/-- SET_ANSWER (R138). -/
def execSetAnswer (a : Answer) (s : State) : Host.Outcome State Fault Refusal := .next (s.frameArrives 0x85#8 a)

/-- SETPOINTS_ANSWER (R126): it carries no values the unit keeps. -/
def execSetpointsAnswer (a : Answer) (s : State) : Host.Outcome State Fault Refusal := .next (s.frameArrives 0x86#8 a)

/-- CHANGE_STACK_ANSWER (R156). -/
def execChangeStackAnswer (a : Answer) (s : State) : Host.Outcome State Fault Refusal := .next (s.frameArrives 0x87#8 a)

end Sys2Proof.Machine
end

