-- ==== Sys2Proof/Machine/Timers.lean ====
section
/-! DEFINITION. What happens when a timer of the part reaches its end, and when a store write ends. Each is a command of the table;
it acts while its timer runs and changes nothing otherwise (notes/assumptions/3). -/

namespace Sys2Proof.Machine

/-- LINK_SILENT (R30): t_link has passed with no valid frame. A timer that stands at t_link with the flag set has expired. -/
def execLinkSilent (s : State) : Host.Outcome State Fault Refusal :=
  .next (if s.sup.linkTimer.isSome ∧ ¬ s.sup.silent then s.linkLost else s)

/-- AIR_RECHARGE_END (R116): the supply becomes Ready, the last acknowledgement absent, and the arbiter runs. -/
def execAirRechargeEnd (s : State) : Host.Outcome State Fault Refusal :=
  .next (if s.splice.recharging then
    (s.modSplice fun r => { r with recharging := false, remaining := 0, lastAck := none }).settleSplice
  else s)

/-- The stand whose plan is Firing with its result timer running. -/
def State.resultAwaited (s : State) : Option Stand :=
  stands.find? fun i => s.firing i && (s.plan i).resultTimer.isSome

/-- SPLICE_RESULT_TIMEOUT (R114). -/
def execSpliceResultTimeout (s : State) : Host.Outcome State Fault Refusal :=
  match s.resultAwaited with
  | some i => .next (s.spliceFails i .timeout)
  | none => .next s

/-- SET_TIMEOUT (R138). -/
def execSetTimeout (x : Station) (s : State) : Host.Outcome State Fault Refusal :=
  .next (if (s.station x).timer.isSome then s.setFails x .timeout else s)

/-- ENGAGE_TIMEOUT (R140). -/
def execEngageTimeout (x : Station) (s : State) : Host.Outcome State Fault Refusal :=
  .next (if (s.station x).timer.isSome then s.engageFails x .timeout else s)

/-- STACK_CHANGE_TIMEOUT (R157). -/
def execStackChangeTimeout (s : State) : Host.Outcome State Fault Refusal :=
  .next (if s.router.timer.isSome then s.changeFailed else s)

/-- TEMPERATURE_STALE (R127): the age passes 10,000 ms and stops at 10,001, and the heat ceiling is recomputed. -/
def execTemperatureStale (s : State) : Host.Outcome State Fault Refusal :=
  .next (if s.counting ∧ s.cond.age ≤ Config.staleMs then
    (s.modCond fun c => { c with age := Config.staleMs + 1 }).recomputeHeat
  else s)

/-- STORE_WRITE_DONE (R182): the image write ends and is read back. -/
def execStoreWriteDone (good : Bool) (s : State) : Host.Outcome State Fault Refusal := .next (s.endImageWrite good)

/-- TRIP_RECORD_WRITE_DONE (R182). -/
def execTripRecordWriteDone (s : State) : Host.Outcome State Fault Refusal := .next s.endTripWrite

end Sys2Proof.Machine
end

