-- ==== Sys2Proof/Machine/Dispatch.lean ====
section
/-! DEFINITION. One arm for each command: its meaning, named in full. -/

namespace Sys2Proof.Machine

/-- The effect of a command on everything but the queue of waiting commands. -/
def exec (i : Instr) (s : State) : Host.Outcome State Fault Refusal :=
  match i with
  | .powerOn x => Sys2Proof.Machine.execPowerOn x s
  | .resetPin => Sys2Proof.Machine.execResetPin s
  | .encoderPulse x y => Sys2Proof.Machine.execEncoderPulse x y s
  | .gatePeriodEnd x => Sys2Proof.Machine.execGatePeriodEnd x s
  | .hostFrameReceived x => Sys2Proof.Machine.execHostFrameReceived x s
  | .hostByteGapTimeout x => Sys2Proof.Machine.execHostByteGapTimeout x s
  | .replySent => Sys2Proof.Machine.execReplySent s
  | .unknownKind => Sys2Proof.Machine.execUnknownKind s
  | .identify => Sys2Proof.Machine.execIdentify s
  | .status x y => Sys2Proof.Machine.execStatus x y s
  | .readEvents => Sys2Proof.Machine.execReadEvents s
  | .start => Sys2Proof.Machine.execStart s
  | .hold => Sys2Proof.Machine.execHold s
  | .resume => Sys2Proof.Machine.execResume s
  | .emergencyStop => Sys2Proof.Machine.execEmergencyStop s
  | .clearTrip => Sys2Proof.Machine.execClearTrip s
  | .releaseLockout => Sys2Proof.Machine.execReleaseLockout s
  | .setSpeed => Sys2Proof.Machine.execSetSpeed s
  | .addOrder => Sys2Proof.Machine.execAddOrder s
  | .amendOrder => Sys2Proof.Machine.execAmendOrder s
  | .cancelOrder => Sys2Proof.Machine.execCancelOrder s
  | .queryOrder => Sys2Proof.Machine.execQueryOrder s
  | .listOrders => Sys2Proof.Machine.execListOrders s
  | .queryWebMap => Sys2Proof.Machine.execQueryWebMap s
  | .defineGrade => Sys2Proof.Machine.execDefineGrade s
  | .defineTable => Sys2Proof.Machine.execDefineTable s
  | .queryGrade => Sys2Proof.Machine.execQueryGrade s
  | .queryTable => Sys2Proof.Machine.execQueryTable s
  | .assignReel => Sys2Proof.Machine.execAssignReel s
  | .clearReel => Sys2Proof.Machine.execClearReel s
  | .spliceNow => Sys2Proof.Machine.execSpliceNow s
  | .queryStand => Sys2Proof.Machine.execQueryStand s
  | .sectionOffline => Sys2Proof.Machine.execSectionOffline s
  | .sectionOnline => Sys2Proof.Machine.execSectionOnline s
  | .ackFaults => Sys2Proof.Machine.execAckFaults s
  | .readProfile => Sys2Proof.Machine.execReadProfile s
  | .writeProfileItem => Sys2Proof.Machine.execWriteProfileItem s
  | .saveProfile => Sys2Proof.Machine.execSaveProfile s
  | .freezeGeometry => Sys2Proof.Machine.execFreezeGeometry s
  | .unfreezeGeometry x => Sys2Proof.Machine.execUnfreezeGeometry x s
  | .restartPart => Sys2Proof.Machine.execRestartPart s
  | .storeWriteDone x => Sys2Proof.Machine.execStoreWriteDone x s
  | .tripRecordWriteDone => Sys2Proof.Machine.execTripRecordWriteDone s
  | .linkSilent => Sys2Proof.Machine.execLinkSilent s
  | .airRechargeEnd => Sys2Proof.Machine.execAirRechargeEnd s
  | .spliceResultTimeout => Sys2Proof.Machine.execSpliceResultTimeout s
  | .setTimeout x => Sys2Proof.Machine.execSetTimeout x s
  | .engageTimeout x => Sys2Proof.Machine.execEngageTimeout x s
  | .stackChangeTimeout => Sys2Proof.Machine.execStackChangeTimeout s
  | .temperatureStale => Sys2Proof.Machine.execTemperatureStale s
  | .sectionTransactionStart => Sys2Proof.Machine.execSectionTransactionStart s
  | .answerDeadline => Sys2Proof.Machine.execAnswerDeadline s
  | .sectionFrameIgnored x y => Sys2Proof.Machine.execSectionFrameIgnored x y s
  | .initReply x => Sys2Proof.Machine.execInitReply x s
  | .pollAnswer x => Sys2Proof.Machine.execPollAnswer x s
  | .fireAcknowledged x => Sys2Proof.Machine.execFireAcknowledged x s
  | .setAnswer x => Sys2Proof.Machine.execSetAnswer x s
  | .engageAnswer x => Sys2Proof.Machine.execEngageAnswer x s
  | .changeStackAnswer x => Sys2Proof.Machine.execChangeStackAnswer x s
  | .setpointsAnswer x => Sys2Proof.Machine.execSetpointsAnswer x s
  | .resetRelease => Sys2Proof.Machine.execResetRelease s
  | .hostByteReceived x => Sys2Proof.Machine.execHostByteReceived x s

end Sys2Proof.Machine
end

