-- ==== Sys2Proof/Safety.lean ====
section
/-! DEFINITION. What counts as a safe state: the whole-part laws the manual states in prose, each a property of one state that every
step keeps. None rests on how a state was reached. -/

namespace Sys2Proof.Machine

/-- Every collection stays within the size the manual gives it: the event queue (R179), the holding area (R175), the order list and
the recent completions list (R36, R53), the route list (R167). -/
structure State.Bounded (s : State) : Prop where
  events  : s.host.events.length ≤ 128
  holding : s.host.holding.length ≤ 4
  orders  : s.orders.list.length ≤ 24
  recent  : s.orders.recent.length ≤ 8
  routes  : s.line.routes.length ≤ 64

/-- While the reset input is low the part stands in Start-up (R12, R185). -/
def State.HeldInStartUp (s : State) : Prop := s.pins.resetLow = true → s.sup.line = .startUp

/-- The line state agrees with the hold reason set (R14, R15), the wait holders with their reasons (R29), and the SILENT entry with
the link silence flag (R25). -/
structure State.HoldsAgree (s : State) : Prop where
  held       : s.HeldInStartUp
  run        : s.sup.line = .run → s.sup.holds = .empty
  hold       : s.sup.line = .hold → s.sup.holds.any = true
  other      : s.sup.line ≠ .run → s.sup.line ≠ .hold → s.sup.holds = .empty
  setWait    : s.sup.holds.setWait = s.sup.setWait.any
  spliceWait : s.sup.holds.spliceWait = s.sup.spliceWait.any
  silent     : s.sup.ceilings.silent.isSome = s.sup.silent

/-- At most one stand's splice plan is Firing (R110). -/
def State.OneFiring (s : State) : Prop :=
  ∀ i j : Stand, (s.plan i).state = .firing → (s.plan j).state = .firing → i = j

/-- A line state in which the line computer may not move the line and the part does not. -/
def LineState.atRest (l : LineState) : Bool :=
  match l with
  | .startUp | .standby | .tripped | .lockout => true
  | .run | .hold | .safeStop => false

/-- The speed reference never exceeds v_max; it is 0 in Start-up, Standby, Tripped and Lockout, and while standstill is being
counted in Safe stop (R19, R27). -/
structure State.ReferenceSafe (s : State) : Prop where
  held     : s.HeldInStartUp
  limit    : s.sup.reference ≤ s.profile.vMax
  rest     : s.sup.line.atRest = true → s.sup.reference = 0
  stopping : s.sup.line = .safeStop → s.sup.standstill ≠ 0 → s.sup.reference = 0

/-- The zone list holds at most 48 zones and keeps a slot free for RESUME while a terminal boundary stands; no order is open then;
and the map is empty in Start-up and Standby (R58, R64, R75). -/
structure State.ZonesSized (s : State) : Prop where
  held     : s.HeldInStartUp
  zones    : s.map.zones.length ≤ 48
  standing : s.sup.line = .startUp ∨ s.sup.line = .standby → s.map.zones = [] ∧ s.map.openOrder = none
  terminal : s.map.terminal.isSome = true → s.map.zones.length ≤ 47 ∧ s.map.openOrder = none

/-- QUEUE_END is in the hold reason set only in Run and Hold, and only while a terminal boundary stands (R75, R76). -/
def State.QueueEndStands (s : State) : Prop :=
  s.sup.holds.queueEnd = true → s.map.terminal.isSome = true ∧ s.runOrHold = true

/-- Every profile image the part holds, stored or about to be, has an encoder constant within its range from below. -/
structure State.ImagesGood (s : State) : Prop where
  first   : ∀ c, s.store.images.first = some c → 1000 ≤ c.value.profile.encoderK
  second  : ∀ c, s.store.images.second = some c → 1000 ≤ c.value.profile.encoderK
  writing : ∀ j, s.store.writing = some j → 1000 ≤ j.image.profile.encoderK

/-- The remainder stays below the encoder constant, so that one pulse advances the odometer by at most one millimetre (R2). -/
structure State.RemainderGood (s : State) : Prop where
  held   : s.pins.resetLow = true → s.web.r = 0
  images : s.ImagesGood
  k      : 1000 ≤ s.profile.encoderK
  below  : s.web.r < s.profile.encoderK

/-! ### What a command leaves unchanged, and its reply -/

/-- What no operation of a block touches: the odometer and its companions, the working profile, the queue of commands, the reset
input, the receiver and the requests, the profile images. -/
structure Core where
  web         : Web
  profile     : Profile
  pending     : List Instr
  resetLow    : Bool
  loaded      : Bool
  gateMs      : Nat
  gathered    : Option (List Byte)
  gap         : Nat
  holding     : List HostFrame
  answering   : Option Reply
  cause       : ResetCause
  images      : TwoCopies Image
  writing     : Option SaveJob
  valid       : Bool
  frozen      : Bool
  checkPassed : Bool

/-- The core of a state. -/
def State.core (s : State) : Core where
  web := s.web
  profile := s.profile
  pending := s.pending
  resetLow := s.pins.resetLow
  loaded := s.pins.loaded
  gateMs := s.pins.gateMs
  gathered := s.host.gathered
  gap := s.host.gap
  holding := s.host.holding
  answering := s.host.answering
  cause := s.host.cause
  images := s.store.images
  writing := s.store.writing
  valid := s.store.valid
  frozen := s.store.frozen
  checkPassed := s.store.checkPassed

/-- The blocks of the state. -/
inductive Block where
  | web | sup | orders | map | reels | splice | cond | cut | router | line | host | profile | store | pins
deriving DecidableEq, Repr

/-- A block is the same in two states. -/
def Block.Same (s t : State) : Block → Prop
  | .web => t.web = s.web
  | .sup => t.sup = s.sup
  | .orders => t.orders = s.orders
  | .map => t.map = s.map
  | .reels => t.reels = s.reels
  | .splice => t.splice = s.splice
  | .cond => t.cond = s.cond
  | .cut => t.cut = s.cut
  | .router => t.router = s.router
  | .line => t.line = s.line
  | .host => t.host = s.host
  | .profile => t.profile = s.profile
  | .store => t.store = s.store
  | .pins => t.pins = s.pins

/-- Every block but those listed is unchanged, and so is the queue of waiting commands. -/
def OnlyChanges (l : List Block) (s t : State) : Prop := t.pending = s.pending ∧ ∀ b, b ∉ l → b.Same s t

/-- A request can be taken and is of this kind: the oldest frame of the holding area, with no reply being sent and the reset input
high (R176). -/
def State.Asks (s : State) (kind : Nat) (f : HostFrame) : Prop := s.offered = some f ∧ f.kind.toNat = kind

/-- The oldest frame leaves the holding area and its reply begins (R176). -/
def State.reply (s : State) (f : HostFrame) (r : Result) (fields : List Byte) : State :=
  { s with host := { s.host with holding := s.host.holding.drop 1, answering := some (replyTo f r fields false) } }

/-- A request has been taken and is being answered, and what no block touches is as it was. -/
def Replied (s t : State) (f : HostFrame) (r : Result) (fields : List Byte) : Prop :=
  t.core = { s.core with holding := s.host.holding.drop 1, answering := some (replyTo f r fields false) }

/-- A command answers a next state of which `p` holds. -/
def Completes (c : Instr) (s : State) (p : State → Prop) : Prop := ∃ t, exec c s = .next t ∧ p t

/-- A millisecond timer has at most counted: stopped it stays stopped; running it has not gone back and is short of its limit, or
reads as it did. -/
def Counted (limit : Nat) : Option Nat → Option Nat → Prop
  | none, none => True
  | some m, some n => m ≤ n ∧ (n < limit ∨ n = m)
  | _, _ => False

/-- An event of this body stands in the event queue, placed at odometer `w`. -/
def State.HasEvent (t : State) (w : Nat) (b : EventBody) : Prop := ∃ e ∈ t.host.events, e.odometer = w ∧ e.body = b

/-- The fields that the line computer gives an order (order record table of chapter 3). -/
structure GivenFields where
  grade     : Nat
  ups       : Nat
  pattern   : List Nat
  tools     : ToolSet
  quantity  : Nat
  overrun   : Nat
  height    : Nat
  cap       : Option Nat
  holdAfter : Bool

/-- The given fields of an order. -/
def Order.given (o : Order) : GivenFields where
  grade := o.grade
  ups := o.ups
  pattern := o.pattern
  tools := o.tools
  quantity := o.quantity
  overrun := o.overrun
  height := o.height
  cap := o.cap
  holdAfter := o.holdAfter

/-- Several events are placed, in order (R179). -/
def State.placeAll (s : State) (l : List EventBody) : State := l.foldl State.place s

/-- Two states hold the same events. -/
def SameEvents (s t : State) : Prop :=
  t.host.events = s.host.events ∧ t.host.sequence = s.host.sequence ∧ t.host.overflow = s.host.overflow

/-! ### What a swap list asks of the stations -/

/-- The set that the first entry of a swap list naming a station as incoming must find on it (R135, R137). -/
def setNeeded (swaps : List SwapEntry) (x : Station) : Option ToolSet := (swaps.find? fun e => e.incoming = x).map (·.tools)

/-- The station must take SET of `u` (R137): its first entry needs `u`, its node is Online, it is Parked or Set, and it does not hold
`u`. -/
def State.MustSet (s : State) (swaps : List SwapEntry) (x : Station) (u : ToolSet) : Prop :=
  setNeeded swaps x = some u ∧ s.online (.station x) = true ∧ ((s.station x).state = .parked ∨ (s.station x).state = .set) ∧
    (s.station x).retained ≠ some u

/-- The station is Parked and holds the set its first entry needs (R135). -/
def State.HoldsNeeded (s : State) (swaps : List SwapEntry) (x : Station) : Prop :=
  (s.station x).state = .parked ∧ (s.station x).retained.isSome = true ∧ setNeeded swaps x = (s.station x).retained

/-- The swap of an entry can be taken (R139): W has reached its point, and its incoming station is Set at its set with its node
Online. -/
def State.Takeable (s : State) (e : SwapEntry) : Prop :=
  e.point ≤ s.web.w ∧ (s.station e.incoming).state = .set ∧ (s.station e.incoming).retained = some e.tools ∧
    s.online (.station e.incoming) = true

/-- The set of the first order is at hand (R142): the carrying station is Engaged with it, and no swap waits. -/
def State.AtHand (s : State) (u : ToolSet) : Prop :=
  s.cut.swaps = [] ∧ ∃ x, s.carrying = some x ∧ (s.station x).state = .engaged ∧ (s.station x).retained = some u

/-- The swap entry that a set change of a zone gives (R136): P_slit ahead of the zone, to the station other than the carrying one, which
it swaps out; its last call passes with the entry if the point is already within reach (R29). -/
def State.swapTo (s : State) (zone : Nat) (u : ToolSet) : SwapEntry where
  point := zone - s.profile.pSlit
  incoming := s.idleStation
  tools := u
  outgoing := s.carrying
  zone := zone
  lastCall := decide (zone - s.profile.pSlit ≤ s.web.w + s.dStop + s.profile.guard)

/-- The SETs queued are the same. -/
def SameSets (s t : State) : Prop := ∀ x u, ⟨.station x, .set u⟩ ∈ t.line.normal ↔ ⟨.station x, .set u⟩ ∈ s.line.normal

/-- What `t` holds once the swap list has become `swaps` in `s`: a station that must take SET is Setting with it queued, and no other SET
is queued (R137); one that holds the set it needs becomes Set without a command (R135); the entries that have left were due, and their
stations are Swapping with ENGAGE queued urgent; the first of the rest is not to be taken yet (R139); and the stations that hold SET_WAIT
are those of entries past their last call that are not ready (R29). -/
structure StationsSettled (s t : State) (swaps : List SwapEntry) : Prop where
  taken    : ∃ l, swaps = l ++ t.cut.swaps ∧ ∀ e ∈ l, e.point ≤ s.web.w ∧ (t.station e.incoming).state = .swapping ∧
    ⟨.station e.incoming, .engage⟩ ∈ t.line.urgent
  waiting  : ∀ e l, t.cut.swaps = e :: l → ¬ t.Takeable e
  setting  : ∀ x u, s.MustSet swaps x u →
    t.station x = { s.station x with state := .setting, retained := some u, timer := none }
  commands : ∀ x u, ⟨.station x, .set u⟩ ∈ t.line.normal ↔ ⟨.station x, .set u⟩ ∈ s.line.normal ∨ s.MustSet swaps x u
  matched  : t.cut.swaps = swaps → ∀ x, s.HoldsNeeded swaps x → t.station x = { s.station x with state := .set }
  others   : t.cut.swaps = swaps → ∀ x, ¬ s.HoldsNeeded swaps x → (∀ u, ¬ s.MustSet swaps x u) → t.station x = s.station x
  setWait  : t.sup.line = .run ∨ t.sup.line = .hold → ∀ x, t.sup.setWait.get x = true ↔
    ∃ e ∈ t.cut.swaps, e.incoming = x ∧ e.lastCall = true ∧
      ¬ ((t.station x).state = .set ∧ (t.station x).retained = some e.tools ∧ t.online (.station x) = true)

/-! ### What a grade target that reaches a stand brings about -/

/-- A normal plan: Planned or Blocked, of kind PLANNED or LATEST (R105). -/
def Plan.Normal (p : Plan) : Prop :=
  (p.state = .planned ∨ p.state = .blocked) ∧ (p.kind = some .planned ∨ p.kind = some .latest)

/-- The plan takes a grade target (R105): it is Idle, or normal with Lf absent or at or above the target. -/
def Plan.Takes (p : Plan) (g : GradeTarget) : Prop := p.state = .idle ∨ (p.Normal ∧ ∀ l, p.latest = some l → g.target ≤ l)

/-- The plan aims at a target. -/
def Plan.AimsAt (p : Plan) (k : Option PlanKind) (target zone : Option Nat) : Prop :=
  p.state ≠ .idle ∧ p.kind = k ∧ p.target = target ∧ p.targetZone = zone

/-- What a stand's plan is in `t` once a grade target has reached it in `s`, in Run or Hold, and a pass has run. A plan that takes it is
of kind GRADE and, not yet Armed, is judged by R104; an older held target stays behind it (the model's choice, notes/assumptions/67). A
plan of another kind and one past Planned and Blocked is kept, and the target is held. A normal plan that does not take it is re-planned,
with the target held, unless the stand has no window: it is then withdrawn, and the target taken (R105, R106). -/
structure GradeOffered (s t : State) (i : Stand) (g : GradeTarget) : Prop where
  taken     : (s.plan i).Takes g →
    (t.plan i).AimsAt (some .grade) (some g.target) (some g.transition) ∧ (t.plan i).held = (s.plan i).held
  judged    : (s.plan i).Takes g → s.web.w + s.dApp s.spliceLimit + s.profile.guard < g.target →
    (t.plan i).state = if t.online (.stand i) && t.usable i (some .grade) (some g.transition) then .planned else .blocked
  kept      : ¬ (s.plan i).Takes g → ¬ (s.plan i).Normal →
    (t.plan i).AimsAt (s.plan i).kind (s.plan i).target (s.plan i).targetZone ∧ (t.plan i).held = some g
  behind    : ¬ (s.plan i).Takes g → (s.plan i).Normal → (s.window i).isSome = true →
    ((t.plan i).kind = some .planned ∨ (t.plan i).kind = some .latest) ∧ (t.plan i).held = some g
  withdrawn : ¬ (s.plan i).Takes g → (s.plan i).Normal → s.window i = none →
    (t.plan i).AimsAt (some .grade) (some g.target) (some g.transition) ∧ (t.plan i).held = none

/-! ### What a recomputation of the heat ceiling brings about -/

/-- The line state that goes with a hold reason set (R14). -/
def lineWith (l : LineState) (h : Holds) : LineState :=
  match l with
  | .run | .hold => if h = .empty then .run else .hold
  | l => l

/-- The order whose ORDER zone contains W + P_glue (R127, R129). -/
def State.orderHere (s : State) : Option Nat :=
  match s.zoneAt (s.web.w + s.profile.pGlue) with
  | some z => if z.kind = .order then z.order else none
  | none => none

/-- What recomputing the heat ceiling in `u` leaves (R128 to R130). Under DERATE the HEAT entry is present exactly while the ceiling is
present and below v_max, its appearing and its leaving are reported, an appearing counts for the order at the glue point, and HEAT is
cleared. Under HOLD there is no entry, and HEAT is raised, in Run and Hold, where the ceiling is v_crawl, and cleared otherwise. No run
places LINE_STATE and a HEAT_DERATE event together, and nothing is said of their order. -/
structure HeatRecomputed (u t : State) : Prop where
  cond   : t.cond = { u.cond with heatCeiling := u.computeCeiling }
  sup    :
    let entry := if u.profile.heatAction = .derate then u.computeCeiling.filter (· < u.profile.vMax) else none
    let slow := u.profile.heatAction = .hold ∧ u.computeCeiling.any (· ≤ u.profile.vCrawl) = true
    let heat := if slow then u.sup.holds.heat || u.runOrHold else false
    let h : Holds := { u.sup.holds with heat := heat }
    t.sup = { u.sup with
      holds := h, line := if heat = u.sup.holds.heat then u.sup.line else lineWith u.sup.line h
      ceilings := { u.sup.ceilings with heat := entry } }
  orders :
    let appears := u.sup.ceilings.heat = none ∧ t.sup.ceilings.heat.isSome = true
    t.orders = { u.orders with list := u.orders.list.map fun o =>
      if appears ∧ u.orderHere = some o.number then { o with derates := o.derates + 1 } else o }
  events :
    let line := if t.sup.holds = u.sup.holds then [] else [EventBody.lineState t.sup.line u.sup.line t.sup.holds u.sup.cause]
    let heat := match u.sup.ceilings.heat, t.sup.ceilings.heat with
      | none, some v => [EventBody.heatDerateOn v u.cond.lastTemp u.stale u.cond.glueGrade]
      | some _, none => [EventBody.heatDerateOff u.cond.lastTemp]
      | _, _ => []
    line = [] ∨ heat = [] → SameEvents (u.placeAll (line ++ heat)) t

/-- The kind of the request that a request command takes (kind table of R176). -/
def Instr.requestKind : Instr → Option Nat
  | .identify => some 0x01 | .status .. => some 0x02 | .readEvents => some 0x03
  | .start => some 0x10 | .hold => some 0x11 | .resume => some 0x12 | .emergencyStop => some 0x13 | .clearTrip => some 0x14
  | .releaseLockout => some 0x15 | .setSpeed => some 0x16
  | .addOrder => some 0x20 | .amendOrder => some 0x21 | .cancelOrder => some 0x22 | .queryOrder => some 0x23
  | .listOrders => some 0x24 | .queryWebMap => some 0x25
  | .defineGrade => some 0x30 | .defineTable => some 0x31 | .queryGrade => some 0x32 | .queryTable => some 0x33
  | .assignReel => some 0x40 | .clearReel => some 0x41 | .spliceNow => some 0x42 | .queryStand => some 0x43
  | .sectionOffline => some 0x50 | .sectionOnline => some 0x51 | .ackFaults => some 0x52
  | .readProfile => some 0x60 | .writeProfileItem => some 0x61 | .saveProfile => some 0x62 | .freezeGeometry => some 0x63
  | .unfreezeGeometry _ => some 0x64 | .restartPart => some 0x65
  | .powerOn _ | .resetPin | .encoderPulse .. | .gatePeriodEnd _ | .hostFrameReceived _ | .hostByteGapTimeout _ | .replySent
  | .unknownKind | .storeWriteDone _ | .tripRecordWriteDone | .linkSilent | .airRechargeEnd | .spliceResultTimeout | .setTimeout _
  | .engageTimeout _ | .stackChangeTimeout | .temperatureStale | .sectionTransactionStart | .answerDeadline
  | .sectionFrameIgnored .. | .initReply _ | .pollAnswer _ | .fireAcknowledged _ | .setAnswer _ | .engageAnswer _
  | .changeStackAnswer _ | .setpointsAnswer _ | .resetRelease | .hostByteReceived _ => none

/-- The payload length of a request kind whose requests have one length (request payloads of chapter 11). -/
def payloadLength : Nat → Option Nat
  | 0x01 | 0x02 | 0x10 | 0x11 | 0x12 | 0x13 | 0x14 | 0x15 | 0x24 | 0x60 | 0x62 | 0x63 | 0x64 | 0x65 => some 0
  | 0x03 | 0x32 | 0x33 | 0x42 | 0x43 | 0x50 | 0x51 | 0x52 => some 1
  | 0x16 | 0x25 | 0x41 => some 2
  | 0x22 | 0x23 => some 4
  | 0x61 => some 5
  | 0x40 => some 12
  | _ => none

/-- A frame on the section line that matches the request in flight, of the request's kind plus 80h, with content (R164). -/
def InFlight.TakenWith (f : InFlight) (a : Answer) (c : Content) : Prop :=
  f.answeredBy (BitVec.ofNat 8 (askKind f.ask + 0x80)) a = true ∧ contentOf f.node f.ask a.payload = some c

/-- Wait holders and plans as a Safe stop entry leaves a plan (R18, R115). -/
def Plan.disarmed (p : Plan) : Plan :=
  match p.state with
  | .planned | .blocked | .armed | .due => { p.toIdle with held := none }
  | .idle | .firing => { p with held := none }

/-- One bit into the check's register (R174). -/
def crcBit (c : Check) (b : Bool) : Check := if (c.getMsbD 0).xor b then (c <<< 1) ^^^ 0x1021#16 else c <<< 1

/-- The bits of a byte, most significant first. -/
def bitsOf (b : Byte) : List Bool := (List.range 8).map b.getMsbD

/-- Every block but the profile and the store is at its value after reset; of the supervisor, the line state, the trip counter and the
lockout flag, of the conditioning unit the grades and the tables are as the load leaves them, and of the section line the service states
and the normal class as Start-up leaves them (R10, R32, R57, R81, R97, R120, R134, R149, R160, R173, R176). -/
structure Cleared (t : State) : Prop where
  web    : t.web = .reset
  sup    : t.sup = { Supervisor.reset with line := t.sup.line, trips := t.sup.trips, lockFlag := t.sup.lockFlag }
  orders : t.orders = .reset
  map    : t.map = .reset
  reels  : t.reels = .reset
  splice : t.splice = .reset
  cut    : t.cut = .reset
  router : t.router = .reset
  cond   : t.cond = { Conditioning.reset with grades := t.cond.grades, tables := t.cond.tables }
  line   : t.line = { SectionLine.reset with nodes := t.line.nodes, normal := t.line.normal }
  nodes  : ∀ n, (t.node n).latches = .clear ∧ (t.node n).missed = 0 ∧ (t.node n).awaited = none
  host   : t.host.gathered = none ∧ t.host.holding = [] ∧ t.host.answering = none

/-- The load of R184: the newest images that pass their checks, or the defaults. -/
def Loaded (s t : State) : Prop :=
  match s.store.images.newest, s.store.trips.newest with
  | some i, some r =>
    t.profile = i.value.profile ∧ t.cond.grades = i.value.grades ∧ t.cond.tables = i.value.tables ∧ t.store.frozen = i.value.frozen
      ∧ t.store.valid = true ∧ t.sup.trips = r.value.trips ∧ t.sup.lockFlag = r.value.flag
  | _, _ =>
    t.profile = .default ∧ t.cond.grades = Conditioning.reset.grades ∧ t.cond.tables = Conditioning.reset.tables
      ∧ t.store.frozen = false ∧ t.store.valid = false ∧ t.sup.trips = 0 ∧ t.sup.lockFlag = false

/-- What the teardown leaves (R20, R55, R56, R79, R115, R149, R159): an empty map, no sheet in the queue, no swap and no schedule,
every order Queued, no grade In use, no estimate grade, no plan but Idle and Firing ones; arms and stations keep their records. -/
structure TornDown (s t : State) : Prop where
  sup     : t.sup = { s.sup with
    line := .standby, cause := .noCause, standstill := 0, trips := t.sup.trips, lockFlag := t.sup.lockFlag
    ceilings := { s.sup.ceilings with knife := none, order := none, splice := none } }
  map     : t.map = .reset
  sheets  : t.router.sheets = []
  swaps   : t.cut.swaps = [] ∧ t.cut.schedule = none ∧ t.cut.station = s.cut.station
  orders  : ∀ o ∈ t.orders.list, o.state = .queued
  grades  : ∀ x ∈ t.cond.grades, ∀ g, x ≠ .inUse g
  reels   : t.reels.grade = none ∧ ∀ i, (t.standRecord i).arms = (s.standRecord i).arms
  plans   : ∀ i, (t.plan i).state = .idle ∨ (t.plan i).state = .firing

end Sys2Proof.Machine
end

