-- ==== Sys2Proof/Certificates/Slice0/Obligations.lean ====
section
/-! DEFINITION. The statements for the provers. A request command's statement takes the frame `f` that is its request: `s.Asks k f`
says that it is the oldest of the holding area, of kind `k`, with no reply being sent and the reset input high. `s.reply f r fields`
is `s` with that frame gone and its reply begun, so an equation with it says that nothing else changed. Where a statement rests on a
choice of the model, its docstring names the entry of notes/assumptions. -/

open Sys2Proof Sys2Proof.Machine

/-! ### The queue of commands and the clock -/

/-- A step takes the command at the front of the queue and is its meaning on the state with the queue's rest. -/
def Obligations.StepTakesFront : Prop :=
  ∀ (s : State) (c : Instr) (rest : List Instr), step (s.withPending (c :: rest)) = exec c (s.withPending rest)

/-- With no command waiting a step always answers a next state in which at most the timers have counted: nothing is presented or placed,
the transaction in flight stays, no timer goes back and none that was short of its end reaches it (the model's choice,
notes/assumptions/3). At an advance and at a gate period end every block acts exactly once, in the order that the command names and then
in the model's own (R3; notes/assumptions/2): the two commands run the blocks' actions one after the other on the advanced odometer and on
the measured speed. -/
def Obligations.TicksAndAdvances : Prop :=
  (∀ s : State, s.pending = [] → ∃ t, step s = .next t ∧
    OnlyChanges [.sup, .splice, .cond, .cut, .router, .line, .host, .pins] s t ∧
    t.sup = { s.sup with linkTimer := t.sup.linkTimer } ∧ Counted s.profile.tLink s.sup.linkTimer t.sup.linkTimer ∧
    t.splice = { s.splice with plan := t.splice.plan, remaining := t.splice.remaining } ∧
    t.splice.remaining ≤ s.splice.remaining ∧ (0 < s.splice.remaining → 0 < t.splice.remaining) ∧
    (∀ i, t.plan i = { s.plan i with resultTimer := (t.plan i).resultTimer } ∧
      Counted 2000 (s.plan i).resultTimer (t.plan i).resultTimer) ∧
    t.cond = { s.cond with age := t.cond.age } ∧ s.cond.age ≤ t.cond.age ∧ (s.cond.age ≤ 10000 → t.cond.age ≤ 10000) ∧
    (10000 < s.cond.age → t.cond.age = s.cond.age) ∧
    t.cut = { s.cut with station := t.cut.station } ∧
    (∀ x, t.station x = { s.station x with timer := (t.station x).timer } ∧
      Counted s.profile.tSet (s.station x).timer (t.station x).timer) ∧
    t.router = { s.router with timer := t.router.timer } ∧ Counted s.router.limit s.router.timer t.router.timer ∧
    t.line = { s.line with inFlight := t.line.inFlight } ∧
    (s.line.inFlight = none → t.line.inFlight = none) ∧
    (∀ f, s.line.inFlight = some f → ∃ d, t.line.inFlight = some { f with deadline := d } ∧ d ≤ f.deadline ∧
      (0 < f.deadline → 0 < d)) ∧
    t.host = { s.host with gap := t.host.gap } ∧ (t.host.gap ≤ 5 ∨ t.host.gap = s.host.gap) ∧
    t.pins = { s.pins with gateMs := t.pins.gateMs } ∧ s.pins.gateMs ≤ t.pins.gateMs ∧
    (t.pins.gateMs < 100 ∨ t.pins.gateMs = s.pins.gateMs)) ∧
  ((∀ p : AdvancePhase, p ∈ allAdvancePhases) ∧ allAdvancePhases.Nodup ∧ (∀ p : GatePhase, p ∈ allGatePhases) ∧ allGatePhases.Nodup ∧
    (∀ order : List AdvancePhase, (inOrder order allAdvancePhases).Perm allAdvancePhases) ∧
    (∀ order : List GatePhase, (inOrder order allGatePhases).Perm allGatePhases) ∧
    (∀ order : List AdvancePhase, order.Nodup → order <+: inOrder order allAdvancePhases) ∧
    (∀ order : List GatePhase, order.Nodup → order <+: inOrder order allGatePhases)) ∧
  (∀ s : State, s.pins.loaded = true → s.pins.resetLow = false →
    (∀ (ready : Bool) (order : List AdvancePhase), s.profile.encoderK ≤ s.web.r + 1000 →
      let u : State := { s with web := { s.web with r := s.web.r + 1000 - s.profile.encoderK, pulseSeen := true } }
      exec (.encoderPulse ready order) s =
        .next ((inOrder order allAdvancePhases).foldl (State.advancePhase ready) u.advanceOdometer)) ∧
    (∀ order : List GatePhase,
      let u : State := s.elapse (100 - s.pins.gateMs)
      let lost := decide (s.web.loss = 2 ∧ 300 ≤ s.sup.reference ∧ s.web.pulseSeen = false)
      exec (.gatePeriodEnd order) s = .next ((inOrder order allGatePhases).foldl (State.gatePhase lost)
        (State.measureGate { u with pins := { u.pins with gateMs := 0 } }))))

/-! ### Laws that every step keeps -/

/-- Five lists stay within their sizes: the event queue, the holding area, the orders, the recent completions and the held routes (R36,
R53, R167, R175, R179). -/
def Obligations.StepKeepsBounded : Prop := ∀ s t : State, step s = .next t → s.Bounded → t.Bounded

/-- The line state goes on agreeing with the hold reason set, the wait holders and the silence flag (R14, R15, R25, R29). -/
def Obligations.StepKeepsHoldsAgree : Prop := ∀ s t : State, step s = .next t → s.HoldsAgree → t.HoldsAgree

/-- At most one splice fires at a time (R110). -/
def Obligations.StepKeepsOneFiring : Prop := ∀ s t : State, step s = .next t → s.OneFiring → t.OneFiring

/-- The speed reference never exceeds v_max and is 0 wherever the line is at rest (R19, R27). -/
def Obligations.StepKeepsReferenceSafe : Prop := ∀ s t : State, step s = .next t → s.ReferenceSafe → t.ReferenceSafe

/-- The zone list keeps its size, a slot free behind a terminal boundary, and QUEUE_END stands only with one (R58, R64, R75, R76). -/
def Obligations.StepKeepsZonesAndQueueEnd : Prop :=
  ∀ s t : State, step s = .next t → s.ZonesSized → s.QueueEndStands → t.ZonesSized ∧ t.QueueEndStands

/-- The remainder stays below the encoder constant, and every stored profile's constant within its range from below (R2, R4). -/
def Obligations.StepKeepsRemainder : Prop := ∀ s t : State, step s = .next t → s.RemainderGood → t.RemainderGood

/-- The state after reset meets every law, and every block's items are those of the reset tables: web measurement, supervisor, order
queue, map, reels, splice planner, conditioning unit, cut controller, router, section line and host line (R10, R32, R57, R81, R97, R116,
R120, R134, R149, R160, R173, R176, R179). Its blank store, its cause and the values that stand until the load, grades and tables among
them, are the model's choice (notes/assumptions/4, 5), and so is that presenting the ratio word as 0 counts no strobe
(notes/assumptions/7). -/
def Obligations.ResetMeetsLaws : Prop :=
  (State.reset.Bounded ∧ State.reset.HoldsAgree ∧ State.reset.OneFiring ∧ State.reset.ReferenceSafe ∧ State.reset.ZonesSized
    ∧ State.reset.QueueEndStands ∧ State.reset.RemainderGood) ∧
  State.reset.web = { w := 0, r := 0, snapshot := 0, v := 0, loss := 0, pulseSeen := false } ∧
  (State.reset.sup.line = .startUp ∧ State.reset.sup.holds = .empty ∧ State.reset.sup.ceilings = .empty
    ∧ State.reset.sup.reference = 0 ∧ State.reset.sup.hostSpeed = 0 ∧ State.reset.sup.cause = .noCause
    ∧ State.reset.sup.standstill = 0 ∧ State.reset.sup.clearing = 0 ∧ State.reset.sup.silent = false
    ∧ State.reset.sup.linkTimer = none) ∧
  (State.reset.map.zones = [] ∧ State.reset.map.marks = [] ∧ State.reset.map.openOrder = none ∧ State.reset.map.deferrals = 0
    ∧ State.reset.map.terminal = none ∧ State.reset.map.queueEndCall = false) ∧
  (State.reset.sup.setWait = ⟨false, false⟩ ∧ State.reset.sup.spliceWait = .same false) ∧
  ((∀ i, (State.reset.plan i).state = .idle) ∧ State.reset.splice.recharging = false ∧ State.reset.splice.remaining = 0
    ∧ State.reset.splice.lastAck = none) ∧
  (∀ i, State.reset.plan i = {
    state := .idle, kind := none, earliest := none, latest := none, target := none, targetZone := none, limit := none, late := none
    held := none, resultTimer := none, lastCall := false }) ∧
  (State.reset.router.sheets = [] ∧ State.reset.router.stacker = .offline ∧ State.reset.router.nonOrder = 0
    ∧ State.reset.router.stack = none ∧ State.reset.router.buffer = [] ∧ State.reset.router.reason = none
    ∧ State.reset.router.timer = none) ∧
  (State.reset.orders.list = [] ∧ State.reset.orders.recent = []) ∧
  (State.reset.reels.grade = none ∧ ∀ i, State.reset.standRecord i = {
    arms := ⟨⟨.empty, none, none, 0⟩, ⟨.empty, none, none, 0⟩⟩, basis := none, implausible := 0, estimate := false, lowCount := 0
    lowReported := false, outReported := false }) ∧
  (State.reset.cond.grades = List.replicate 16 .free ∧ State.reset.cond.tables = List.replicate 8 none ∧ State.reset.cond.glueGrade = none
    ∧ State.reset.cond.inForce = none ∧ State.reset.cond.lastSent = none ∧ State.reset.cond.lastTemp = none
    ∧ State.reset.cond.age = 0 ∧ State.reset.cond.heatCeiling = none) ∧
  ((∀ x, State.reset.station x = { state := .parked, retained := none, timer := none, outgoing := none })
    ∧ State.reset.cut.swaps = [] ∧ State.reset.cut.schedule = none ∧ State.reset.cut.ratio = 0
    ∧ State.reset.pins.cutTriggers = 0 ∧ State.reset.pins.ratioStrobes = 0) ∧
  ((∀ n, (State.reset.node n).service = .offline ∧ (State.reset.node n).latches = .clear ∧ (State.reset.node n).missed = 0)
    ∧ State.reset.line.urgent = [] ∧ State.reset.line.normal = [] ∧ State.reset.line.inFlight = none
    ∧ State.reset.line.txn = 0 ∧ State.reset.line.pointer = 0 ∧ State.reset.line.routes = [] ∧ State.reset.line.nextSeq = 0
    ∧ State.reset.line.acked = false) ∧
  (State.reset.host.gathered = none ∧ State.reset.host.holding = [] ∧ State.reset.host.answering = none
    ∧ State.reset.host.events = [] ∧ State.reset.host.sequence = 0 ∧ State.reset.host.overflow = false) ∧
  State.reset.pending = []

/-! ### The host line's receiver -/

/-- The bytes of a host frame, received by a Hunting receiver, put exactly that frame into the holding area if it has room, whatever the
tag, the kind and the payload; the link is alive either way (R30, R174, R175). The check of both lines is the CRC-16 of R174 taken bit by
bit: polynomial 1021h, initial value FFFFh, each byte most significant bit first, no reflection and no final inversion; a number of k
bytes, the check among them, is built most significant byte first and read back by the same reading. -/
def Obligations.FramesAndCheck : Prop :=
  (∀ (s : State) (tag kind : Byte) (payload : List Byte), s.pins.resetLow = false → s.host.gathered = none → payload.length ≤ 1000 →
      let f : HostFrame := { tag := tag, kind := kind, payload := payload }
      let s1 : State := { s with
        host := { s.host with
          gathered := none, gap := 0, holding := if s.host.holding.length < 4 then s.host.holding ++ [f] else s.host.holding }
        sup := { s.sup with linkTimer := if s.runOrHold then some 0 else s.sup.linkTimer } }
      exec (.hostFrameReceived (hostFrameBytes tag kind payload)) s = .next
        (if s.sup.silent then
          State.place { s1 with sup := { s1.sup with silent := false, ceilings := { s1.sup.ceilings with silent := none } } } .linkRestored
         else s1)) ∧
  ((∀ bytes : List Byte, crc bytes = (bytes.flatMap bitsOf).foldl crcBit 0xFFFF#16) ∧
    (∀ k n : Nat, n < 256 ^ k → unsigned (bigEndian k n) = n ∧ (bigEndian k n).length = k) ∧
    (∀ tag kind payload, ∃ body, hostFrameBytes tag kind payload = [0xA5#8] ++ body ++ bigEndian 2 (crc body).toNat) ∧
    (∀ address kind txn payload, sectionFrameBytes address kind txn payload =
      [0x3C#8] ++ sectionCovered address kind txn payload ++ bigEndian 2 (crc (sectionCovered address kind txn payload)).toNat))

/-- One byte at the receiver (table of R175): what a Hunting receiver does, a length above 1,000, a frame not yet complete, a failed
check, a gap in a frame; and that nothing is received while the reset input is low. -/
def Obligations.HostBytes : Prop :=
  ∀ (s : State) (b : Byte),
    let gather (g : Option (List Byte)) : State := { s with host := { s.host with gathered := g, gap := 0 } }
    (s.pins.resetLow = false → s.host.gathered = none →
      exec (.hostByteReceived b) s = .next (gather (if b = 0xA5#8 then some [] else none)) ∧
      exec (.hostByteGapTimeout b) s = .next (gather (if b = 0xA5#8 then some [] else none))) ∧
    (∀ g, s.pins.resetLow = false → s.host.gathered = some g →
      (g.length = 0 → exec (.hostByteReceived b) s = .next (gather (some [b]))) ∧
      (1 ≤ g.length → 1000 < fieldAt (g ++ [b]) 0 2 → exec (.hostByteReceived b) s = .next (gather none)) ∧
      (1 ≤ g.length → fieldAt (g ++ [b]) 0 2 ≤ 1000 → g.length + 1 < fieldAt (g ++ [b]) 0 2 + 6 →
        exec (.hostByteReceived b) s = .next (gather (some (g ++ [b])))) ∧
      (1 ≤ g.length → fieldAt (g ++ [b]) 0 2 ≤ 1000 → fieldAt (g ++ [b]) 0 2 + 6 ≤ g.length + 1 → checkGood (g ++ [b]) = false →
        exec (.hostByteReceived b) s = .next (gather none)) ∧
      exec (.hostByteGapTimeout b) s = .next (gather (if b = 0xA5#8 then some [] else none))) ∧
    (s.pins.resetLow = true → ∀ bytes, exec (.hostByteReceived b) s = .next s ∧ exec (.hostByteGapTimeout b) s = .next s
      ∧ exec (.hostFrameReceived bytes) s = .next s)

/-! ### Web measurement -/

/-- One pulse adds 1,000 to the remainder and sets the pulse-seen flag, whatever the line state. Below K it does nothing else; reaching K
it advances the odometer by exactly one, whatever else falls due at the advance and in whatever order the blocks act, with the snapshot, v
and the count of losses kept; past 2^48 - 1 its value is free (notes/assumptions/8). Before the profile load has ended and while the reset
input is low it does nothing (R1, R2, R3, R10). -/
def Obligations.EncoderPulse : Prop :=
  ∀ (s : State) (ready : Bool) (order : List AdvancePhase),
    (s.pins.loaded = true → s.pins.resetLow = false → s.web.r + 1000 < s.profile.encoderK →
      exec (.encoderPulse ready order) s = .next { s with web := { s.web with r := s.web.r + 1000, pulseSeen := true } }) ∧
    (s.pins.loaded = true → s.pins.resetLow = false → s.profile.encoderK ≤ s.web.r + 1000 → s.web.w < 281474976710655 →
      Completes (.encoderPulse ready order) s fun t =>
        t.core = { s.core with
          web := { s.web with w := s.web.w + 1, r := s.web.r + 1000 - s.profile.encoderK, pulseSeen := true } }) ∧
    (s.pins.loaded = true → s.pins.resetLow = false → s.profile.encoderK ≤ s.web.r + 1000 → 281474976710655 ≤ s.web.w →
      Completes (.encoderPulse ready order) s fun t =>
        t.core = { s.core with
          web := { s.web with
            w := Config.odometerPastRange s.pins.free, r := s.web.r + 1000 - s.profile.encoderK, pulseSeen := true } }) ∧
    (s.pins.loaded = false ∨ s.pins.resetLow = true → exec (.encoderPulse ready order) s = .next s)

/-- The end of a gate period measures the speed from the odometer, takes the snapshot, counts or clears encoder loss by the reference that
stood, and clears the pulse-seen flag, whatever the blocks then do (R6, R8). The count's rise from 2 to 3 reports cause ENCODER, which
enters Safe stop from Run and Hold and is reported as not entered elsewhere; a count that stays at 3 reports nothing (R9, R17). -/
def Obligations.GatePeriodEndMeasures : Prop :=
  (∀ (s : State) (order : List GatePhase),
    (s.pins.loaded = true → s.pins.resetLow = false →
      Completes (.gatePeriodEnd order) s fun t =>
        t.core = { s.core with
          gateMs := 0
          gap := t.host.gap
          web := { s.web with
            v := min 65535 (6 * (s.web.w - s.web.snapshot))
            snapshot := s.web.w
            loss := if 300 ≤ s.sup.reference ∧ s.web.pulseSeen = false then min 3 (s.web.loss + 1) else 0
            pulseSeen := false } }) ∧
    (s.pins.loaded = false ∨ s.pins.resetLow = true → exec (.gatePeriodEnd order) s = .next s)) ∧
  (∀ (s : State) (lost : Bool),
    let t := s.gatePhase lost .encoderLoss
    (lost = false → t = s) ∧
    (lost = true → s.sup.line = .run ∨ s.sup.line = .hold →
      t.sup.line = .safeStop ∧ t.sup.cause = .encoder ∧ t.sup.trips = s.sup.trips + 1 ∧ t.web = s.web ∧
      t.HasEvent s.web.w (.safeStop .encoder true (s.sup.trips + 1))) ∧
    (lost = true → s.sup.line ≠ .run → s.sup.line ≠ .hold → t = s.place (.safeStop .encoder false s.sup.trips))) ∧
  (∀ (s : State) (order : List GatePhase), s.pins.loaded = true → s.pins.resetLow = false →
    let rises := decide (s.web.loss = 2 ∧ 300 ≤ s.sup.reference ∧ s.web.pulseSeen = false)
    let elapsed : State := s.elapse (100 - s.pins.gateMs)
    let measured : State := State.measureGate { elapsed with pins := { elapsed.pins with gateMs := 0 } }
    exec (.gatePeriodEnd order) s = .next ((inOrder order allGatePhases).foldl (State.gatePhase rises) measured))

/-- The ramp of one gate period end (R27): toward min(host speed, effective ceiling) in Run and toward 0 elsewhere, up by at most s_up,
down by at most s_emerg in Safe stop and s_down elsewhere, arriving exactly and never passing; the word is presented. -/
def Obligations.GateRamp : Prop :=
  ∀ s : State,
    let t := s.stepReference
    let target := if s.sup.line = .run then min s.sup.hostSpeed s.effectiveCeiling else 0
    let down := if s.sup.line = .safeStop then s.profile.sEmerg else s.profile.sDown
    OnlyChanges [.sup, .pins] s t ∧ t.sup = { s.sup with reference := t.sup.reference } ∧
    t.pins = { s.pins with driveStrobes := s.pins.driveStrobes + 1 } ∧
    (s.sup.reference < target → t.sup.reference = s.sup.reference + min s.profile.sUp (target - s.sup.reference)) ∧
    (target < s.sup.reference → t.sup.reference = s.sup.reference - min down (s.sup.reference - target)) ∧
    (s.sup.reference = target → t.sup.reference = target) ∧
    (s.effectiveCeiling < s.sup.reference → t.sup.reference ≤ s.sup.reference) ∧
    (∀ lost, s.gatePhase lost .ramp = t.countStandstill)

/-! ### Requests in general -/

/-- The requests that only read change nothing but the holding area and the reply, and for STATUS the input levels that it reads and the
model keeps (notes/assumptions/6). The reply carries OK and the fields of their rules (R54, R80, R99, R133, R178, R181; the widths that
R177 does not name, the mark byte of QUERY ORDER and the fill order of QUERY WEB MAP are the model's choice, notes/assumptions/9 and 12);
what they name out of range is refused. The reply to QUERY WEB MAP always fits a frame, whatever the map holds and whatever entries are
asked for, and by the model's fill order carries the asked zones in full, when the map is within its size, as many of the asked marks as
the room left holds, and the open order with its end, the deferral count, the terminal boundary, the queue-end call and the free slots
(R58, R80; the order by notes/assumptions/12, the widths by 9). -/
def Obligations.QueriesAnswer : Prop :=
  (∀ (s : State) (f : HostFrame),
      (s.Asks 0x01 f → f.payload = [] → exec .identify s = .next (s.reply f .ok
        (word 640 ++ octet 1 ++ octet (resetCauseCode s.host.cause) ++ octet (flagCode (!s.store.checkPassed)) ++ flag s.store.valid
          ++ flag s.store.frozen))) ∧
      (∀ k v, s.Asks 0x02 f → f.payload = [] →
        exec (.status k v) s = .next (State.reply { s with pins := { s.pins with knifeReady := k, service := v } } f .ok
          (s.webGroup ++ s.lineGroup ++ s.spliceGroup ++ s.heatGroup ++ (s.readLevels k v).cutGroup ++ s.routerGroup ++ s.sectionGroup
            ++ (s.readLevels k v).hostGroup))) ∧
      (s.Asks 0x23 f → f.payload.length = 4 →
        exec .queryOrder s = .next (match s.order? (fieldAt f.payload 0 4) with
          | some o => s.reply f .ok (octet 0 ++ orderFields o)
          | none => match s.orders.recent.reverse.find? fun r => r.number = fieldAt f.payload 0 4 with
            | some r => s.reply f .ok (octet 1 ++ completionFields r)
            | none => s.reply f .notFound [])) ∧
      (s.Asks 0x24 f → f.payload = [] → exec .listOrders s = .next (s.reply f .ok (octet s.orders.list.length
        ++ s.orders.list.flatMap fun o =>
          count o.number ++ octet (orderStateCode o.state) ++ flag o.cancelled ++ count o.planned ++ count o.cuts))) ∧
      (s.Asks 0x25 f → f.payload.length = 2 →
        exec .queryWebMap s = .next (s.reply f .ok (s.mapFields (byteAt f.payload 0) (byteAt f.payload 1)))) ∧
      (s.Asks 0x32 f → f.payload.length = 1 → exec .queryGrade s = .next (if byteAt f.payload 0 ≤ 15 then
          s.reply f .ok (slotFields (s.slot (byteAt f.payload 0))) else s.reply f .range [])) ∧
      (s.Asks 0x33 f → f.payload.length = 1 → exec .queryTable s = .next (if byteAt f.payload 0 ≤ 7 then
          s.reply f .ok (s.tableFields (byteAt f.payload 0)) else s.reply f .range [])) ∧
      (s.Asks 0x43 f → f.payload.length = 1 → exec .queryStand s = .next (match s.maskedStand (byteAt f.payload 0) with
        | some i => s.reply f .ok (s.standFields i)
        | none => s.reply f .range [])) ∧
      (s.Asks 0x60 f → f.payload = [] →
        exec .readProfile s = .next (s.reply f .ok (s.profile.items.flatMap count ++ flag s.store.valid ++ flag s.store.frozen)))) ∧
  (∀ (s : State) (z m : Nat),
      (octet 0 ++ s.mapFields z m).length ≤ 1000 ∧
      (s.map.zones.length ≤ 48 →
        let room := 975 - 19 * (s.map.zones.drop z).length
        s.mapFields z m =
          octet s.map.zones.length ++ listField zoneFields (s.map.zones.drop z) ++ octet s.map.marks.length
            ++ listField markFields ((s.map.marks.drop m).take (room / 18)) ++ orderNumber s.map.openOrder
            ++ optional 6 (s.openOrder?.bind (·.plannedEnd)) ++ word s.map.deferrals ++ optional 6 s.map.terminal
            ++ octet (if s.map.queueEndCall then 0 else 1) ++ octet (48 - s.map.zones.length)))

/-- How a request is judged before its own checks (R176). A payload of a length that does not suit its kind, or, in ADD ORDER, AMEND ORDER
and DEFINE TABLE, of a structure that its own counts or its set of fields contradict, is answered with FORMAT before any other check; a
frame of no request kind with UNKNOWN_KIND. A request command without a request to take changes nothing: no frame held, a reply still
being sent, the reset input low, or an oldest frame of another kind (the model's choice, notes/assumptions/1). That a set of fields of
AMEND ORDER with one of bits 9 to 15 is malformed, and where the lengths and positions stand, is its choice too (notes/assumptions/13).
The lengths of READ EVENTS, QUERY WEB MAP and WRITE PROFILE ITEM rest on their one-byte count, indices and item number
(notes/assumptions/9). The reply kind of a request kind of 80h and more wraps (notes/assumptions/57). -/
def Obligations.RequestsJudged : Prop :=
  (∀ (s : State) (f : HostFrame),
    (∀ c k n, Instr.requestKind c = some k → payloadLength k = some n → s.Asks k f → f.payload.length ≠ n →
      exec c s = .next (s.reply f .format [])) ∧
    (s.Asks 0x20 f → orderWellFormed f.payload = false → exec .addOrder s = .next (s.reply f .format [])) ∧
    (s.Asks 0x21 f → f.payload.length < 4 ∨ amendmentOf (f.payload.drop 4) = none →
      exec .amendOrder s = .next (s.reply f .format [])) ∧
    (s.Asks 0x30 f → f.payload.length ≠ 1 → f.payload.length ≠ 24 → exec .defineGrade s = .next (s.reply f .format [])) ∧
    (s.Asks 0x31 f → f.payload.length < 2 ∨ f.payload.length ≠ 2 + 8 * byteAt f.payload 1 →
      exec .defineTable s = .next (s.reply f .format []))) ∧
  (∀ (s : State) (c : Instr) (k : Nat), Instr.requestKind c = some k →
    s.host.holding = [] ∨ s.host.answering.isSome = true ∨ s.pins.resetLow = true ∨ (∃ f, s.offered = some f ∧ f.kind.toNat ≠ k) →
    exec c s = .next s) ∧
  (∀ (s : State) (f : HostFrame), s.offered = some f → f.kind.toNat ∉ requestKinds →
    exec .unknownKind s = .next (s.reply f .unknownKind [])) ∧
  (∀ (s : State) (f : HostFrame), s.offered = some f → f.kind.toNat ∈ requestKinds → exec .unknownKind s = .next s) ∧
  (∀ s : State, s.offered = none → exec .unknownKind s = .next s)

/-- READ EVENTS (R180): taken in every line state; it carries the overflow flag, what will remain, how many it carries and the oldest
events up to the requested count, which leave the queue; the flag clears, and the next event discarded sets it again. The two numbers and
the requested count are one byte each by the model's choice (notes/assumptions/9), and that the number carried is the list's own count
byte is too (notes/assumptions/66). -/
def Obligations.ReadEvents : Prop :=
  (∀ (s : State) (f : HostFrame), s.Asks 0x03 f → f.payload.length = 1 →
    let n := byteAt f.payload 0
    (1 ≤ n → n ≤ 16 → exec .readEvents s = .next (State.reply
      { s with host := { s.host with events := s.host.events.drop n, overflow := false } } f .ok
      (flag s.host.overflow ++ octet (s.host.events.length - n) ++ octet (min n s.host.events.length)
        ++ (s.host.events.take n).flatMap eventBytes))) ∧
    (n = 0 ∨ 16 < n → exec .readEvents s = .next (s.reply f .range []))) ∧
  (∀ (s : State) (b : EventBody), s.host.events.length = 128 →
    (s.place b).host.overflow = true ∧
      (s.place b).host.events = s.host.events.drop 1 ++ [{ sequence := s.host.sequence, odometer := s.web.w, body := b }])

/-- Before the requests on the line state do anything the line must be in a state that takes them (R13, R16, R20, R23, R24): else the
result is STATE and nothing changes. START's other conditions follow in their order (R13). -/
def Obligations.LineRequestsRefused : Prop :=
  ∀ (s : State) (f : HostFrame),
    (s.Asks 0x11 f → f.payload = [] → s.sup.line ≠ .run → s.sup.line ≠ .hold → exec .hold s = .next (s.reply f .state [])) ∧
    (s.Asks 0x12 f → f.payload = [] → s.sup.line ≠ .run → s.sup.line ≠ .hold → exec .resume s = .next (s.reply f .state [])) ∧
    (s.Asks 0x14 f → f.payload = [] → s.sup.line ≠ .tripped → exec .clearTrip s = .next (s.reply f .state [])) ∧
    (s.Asks 0x15 f → f.payload = [] → s.sup.line ≠ .lockout → exec .releaseLockout s = .next (s.reply f .state [])) ∧
    (s.Asks 0x16 f → f.payload.length = 2 → s.sup.line ≠ .standby → s.sup.line ≠ .run → s.sup.line ≠ .hold →
      exec .setSpeed s = .next (s.reply f .state [])) ∧
    (s.Asks 0x10 f → f.payload = [] →
      (s.sup.line ≠ .standby → exec .start s = .next (s.reply f .state [])) ∧
      (s.sup.line = .standby → s.store.valid = false → exec .start s = .next (s.reply f .profile [])) ∧
      (s.sup.line = .standby → s.store.valid = true → s.allOnline = false → exec .start s = .next (s.reply f .state [])) ∧
      (s.sup.line = .standby → s.store.valid = true → s.allOnline = true → s.firstQueued = none →
        exec .start s = .next (s.reply f .state [])) ∧
      (∀ o, s.sup.line = .standby → s.store.valid = true → s.allOnline = true → s.firstQueued = some o → s.papersMatch o.grade = false →
        exec .start s = .next (s.reply f .grade [])))

/-! ### Line state -/

/-- A START whose conditions hold is answered OK and leaves Standby for Run, or for Hold where an owning block raises a hold reason at
once; the cause is none, the link timer starts, the estimate grade is the first order's, the THREAD zone runs D_thread from W, the order
has left Queued, and reel data, references, counters and everything outside the plan stay (R13, R64, R77, R90, R94). An order whose end
lies beyond the horizon is the open order, Scheduled in an open ORDER zone behind the THREAD zone, with the spoiled cuts of the marks
there counted in. On an empty map the schedule begins at W with the first equal piece of the THREAD zone, and its ratio is presented
(R144, R146, R149). The THREAD zone's set-change flag is clear exactly with the set at hand: the carrying station Engaged with it and no
swap waiting (R77, R142); then no swap is appended and no station acts. Otherwise a swap to the station other than the carrying one, A
with none carrying, is appended P_slit ahead of the thread end, the one carrying being its outgoing station (R136, R142), and the stations
stand as the list then asks: a station that must take its set is Setting with SET queued (R137), one that has it becomes Set (R135), and
one past its last call that is not ready holds SET_WAIT (R29). -/
def Obligations.StartRuns : Prop :=
  ∀ (s : State) (f : HostFrame) (o : Order), s.Asks 0x10 f → f.payload = [] → s.sup.line = .standby → s.store.valid = true →
    s.allOnline = true → s.firstQueued = some o → s.papersMatch o.grade = true →
    Completes .start s fun t =>
      Replied s t f .ok [] ∧
      (t.sup.line = .run ∨ t.sup.line = .hold) ∧ t.sup.cause = .noCause ∧ t.sup.linkTimer = some 0 ∧
      t.sup.reference = s.sup.reference ∧ t.sup.hostSpeed = s.sup.hostSpeed ∧ t.sup.trips = s.sup.trips ∧
      t.sup.lockFlag = s.sup.lockFlag ∧ t.sup.silent = s.sup.silent ∧ t.sup.clearing = s.sup.clearing ∧
      t.reels.grade = some o.grade ∧ (∀ i, (t.standRecord i).outReported = false ∧ (t.standRecord i).arms = (s.standRecord i).arms) ∧
      (∃ x ∈ t.orders.list, x.number = o.number) ∧ (∀ x ∈ t.orders.list, x.number = o.number → x.state ≠ .queued) ∧
      (∃ z ∈ t.map.zones, z.kind = .thread ∧ z.start = s.web.w ∧ z.stop = some (s.web.w + s.profile.dThread) ∧
        (z.setChange = false ↔ s.AtHand o.tools)) ∧
      (let entry := s.swapTo (s.web.w + s.profile.dThread) o.tools
       let swaps := s.cut.swaps ++ [entry]
       ¬ s.AtHand o.tools → (s.web.w < entry.point → entry ∈ t.cut.swaps) ∧
         ∀ x u, s.MustSet swaps x u → ⟨.station x, .set u⟩ ∈ t.line.normal ∧
           t.station x = { s.station x with state := .setting, retained := some u, timer := none }) ∧
      t.map.marks = s.map.marks ∧ t.router.sheets = s.router.sheets ∧ t.orders.recent = s.orders.recent ∧
      (let start := s.web.w + s.profile.dThread
       let spoiled := spoiledCuts o.pattern s.map.marks start (o.needed + o.overrun)
       let planned := o.needed + o.overrun + spoiled
       s.order? o.number = some o → s.horizon < start + plannedLength o.pattern planned →
       t.map.openOrder = some o.number ∧ t.map.terminal = none ∧ t.map.deferrals = 0 ∧ t.map.queueEndCall = false ∧
       (s.AtHand o.tools → t.cut.swaps = [] ∧ t.cut.station = s.cut.station ∧ SameSets s t) ∧
       (¬ s.AtHand o.tools → StationsSettled s t (s.cut.swaps ++ [s.swapTo start o.tools])) ∧
       (∃ z, t.map.zones.getLast? = some z ∧ z.kind = .order ∧ z.start = start ∧ z.order = some o.number ∧ z.stop = none) ∧
       ∃ x, t.order? o.number = some x ∧ x.state = .scheduled ∧ x.zoneStart = some start ∧ x.spoiled = spoiled ∧
         x.planned = planned ∧ x.plannedEnd = some (start + plannedLength o.pattern planned)) ∧
      (s.map.zones = [] →
       let n := ceilDiv s.profile.dThread s.profile.lmax
       let base := s.profile.dThread / n
       let longer := s.profile.dThread - n * base
       let len := base + if 0 < longer then 1 else 0
       let q := (1024 * len + s.profile.knifeC / 2) / s.profile.knifeC
       t.cut.schedule = some {
         pieceStart := s.web.w, nextCut := s.web.w + len, zone := s.web.w, index := 0
         plan := some { count := n, base := base, longer := longer, begun := 1 } } ∧
       t.cut.ratio = q ∧ t.pins.ratioStrobes = s.pins.ratioStrobes + if q = s.cut.ratio then 0 else 1)

/-- HOLD raises HOST, and RESUME without QUEUE_END, or with no order Queued, clears HOST and ORDER together and nothing else; the line
moves between Run and Hold with the set, and a LINE_STATE event tells of a changed set and of nothing else (R14, R15, R16, R33). That the
two reasons leave as one change with one event is the model's deduction (notes/assumptions/15), and so is that such a RESUME runs no
planning pass (notes/assumptions/52). -/
def Obligations.HoldAndResume : Prop :=
  (∀ (s : State) (f : HostFrame), s.Asks 0x11 f → f.payload = [] → s.sup.line = .run ∨ s.sup.line = .hold →
    let h : Holds := { s.sup.holds with host := true }
    (s.sup.holds.host = true → exec .hold s = .next (s.reply f .ok [])) ∧
    (s.sup.holds.host = false → exec .hold s = .next
      ((State.place { s with sup := { s.sup with holds := h, line := .hold } } (.lineState .hold s.sup.line h s.sup.cause)).reply f .ok
        []))) ∧
  (∀ (s : State) (f : HostFrame), s.Asks 0x12 f → f.payload = [] → s.sup.line = .run ∨ s.sup.line = .hold →
    s.sup.holds.queueEnd = false ∨ s.firstQueued = none →
    let h : Holds := { s.sup.holds with host := false, order := false }
    let line := if h = .empty then LineState.run else LineState.hold
    (s.sup.holds.host = false → s.sup.holds.order = false → exec .resume s = .next (s.reply f .ok [])) ∧
    (s.sup.holds.host = true ∨ s.sup.holds.order = true → exec .resume s = .next
      ((State.place { s with sup := { s.sup with holds := h, line := line } } (.lineState line s.sup.line h s.sup.cause)).reply f .ok
        [])))

/-- RESUME with QUEUE_END and an order Queued: refused with PROFILE, STATE or GRADE by the conditions of START, with nothing cleared;
otherwise HOST and ORDER are cleared, the first Queued order is scheduled behind the runout, and the reply is OK (R16, R78). A runout that
the knife has reached closes at least D_thread ahead of W and Lmin behind its start, and the schedule at the knife is laid again for that
end, with its ratio presented again if the present piece changes its length, and no word or strobe otherwise (R144, R146); one still ahead
of that point goes, and the order's zone starts at the terminal boundary. QUEUE_END leaves the set and the terminal boundary goes, unless
another one is fixed at once because the new order ends inside the horizon with none behind it (R65, R75). The closed runout's set-change
flag is clear exactly with the set at hand; without it a swap is appended P_slit ahead of the order's zone, which is the end of the closed
runout, and the stations stand as the list then asks, as at START (R78, R136, R142). -/
def Obligations.ResumeBehindRunout : Prop :=
  ∀ (s : State) (f : HostFrame) (o : Order), s.Asks 0x12 f → f.payload = [] → s.sup.line = .run ∨ s.sup.line = .hold →
    s.sup.holds.queueEnd = true → s.firstQueued = some o →
    let e := s.map.terminal.getD 0
    let closing := s.web.w + s.profile.dThread
    let start := if e < closing then max closing (e + s.profile.lmin) else e
    let kept := if e < closing then s.map.zones else s.map.zones.dropLast
    let key (z : Zone) : ZoneKind × Nat × Option Nat := (z.kind, z.start, z.order)
    let spoiled := spoiledCuts o.pattern s.map.marks start (o.needed + o.overrun)
    (s.store.valid = false → exec .resume s = .next (s.reply f .profile [])) ∧
    (s.store.valid = true → s.allOnline = false → exec .resume s = .next (s.reply f .state [])) ∧
    (s.store.valid = true → s.allOnline = true → s.papersMatch o.grade = false → exec .resume s = .next (s.reply f .grade [])) ∧
    (s.store.valid = true → s.allOnline = true → s.papersMatch o.grade = true →
      Completes .resume s fun t =>
        Replied s t f .ok [] ∧ (t.sup.line = .run ∨ t.sup.line = .hold) ∧
        t.sup.holds.host = false ∧ t.sup.holds.order = false ∧ t.sup.cause = s.sup.cause ∧ t.sup.trips = s.sup.trips ∧
        t.reels.grade = some o.grade ∧ (∀ i, (t.standRecord i).arms = (s.standRecord i).arms) ∧
        (∃ x ∈ t.orders.list, x.number = o.number) ∧ (∀ x ∈ t.orders.list, x.number = o.number → x.state ≠ .queued) ∧
        t.map.marks = s.map.marks ∧ t.router.sheets = s.router.sheets ∧
        (kept.map key ++ [(.order, start, some o.number)]) <+: t.map.zones.map key ∧
        (∀ z, e < closing → s.map.zones.getLast? = some z → z.order = none →
          ∃ y ∈ t.map.zones, key y = key z ∧ y.stop = some start ∧ (y.setChange = false ↔ s.AtHand o.tools)) ∧
        (let entry := s.swapTo start o.tools
         ¬ s.AtHand o.tools → (s.web.w < entry.point → entry ∈ t.cut.swaps) ∧
           ∀ x u, s.MustSet (s.cut.swaps ++ [entry]) x u → ⟨.station x, .set u⟩ ∈ t.line.normal ∧
             t.station x = { s.station x with state := .setting, retained := some u, timer := none }) ∧
        (e < closing → t.cut.schedule = s.cut.schedule.map fun k =>
          if k.zone = e then relaid k start s.profile.lmin s.profile.lmax else k) ∧
        (closing ≤ e → t.cut.schedule = s.cut.schedule) ∧
        (let present (u : State) : Option Nat := u.cut.schedule.map fun k => k.nextCut - k.pieceStart
         (present t = present s → t.cut.ratio = s.cut.ratio ∧ t.pins.ratioStrobes = s.pins.ratioStrobes) ∧
         (∀ len, present t = some len → present s ≠ some len →
           let q := (1024 * len + s.profile.knifeC / 2) / s.profile.knifeC
           t.cut.ratio = q ∧ t.pins.ratioStrobes = s.pins.ratioStrobes + if q = s.cut.ratio then 0 else 1)) ∧
        (t.map.terminal = none → t.sup.holds.queueEnd = false ∧ t.map.queueEndCall = false ∧ t.map.openOrder.isSome = true) ∧
        (∀ e', t.map.terminal = some e' → t.map.openOrder = none ∧
          ∃ z, t.map.zones.getLast? = some z ∧ z.kind = .runout ∧ z.start = e' ∧ z.stop = none) ∧
        (s.order? o.number = some o →
          s.horizon < start + plannedLength o.pattern (o.needed + o.overrun + spoiled) →
          t.map.openOrder = some o.number ∧ t.map.terminal = none ∧
          (s.AtHand o.tools → t.cut.swaps = [] ∧ t.cut.station = s.cut.station ∧ SameSets s t) ∧
          (¬ s.AtHand o.tools → StationsSettled s t (s.cut.swaps ++ [s.swapTo start o.tools])) ∧
          (∃ z, t.map.zones.getLast? = some z ∧ key z = (.order, start, some o.number) ∧ z.stop = none) ∧
          ∃ x, t.order? o.number = some x ∧ x.state = .scheduled ∧ x.zoneStart = some start ∧ x.spoiled = spoiled ∧
            x.planned = o.needed + o.overrun + spoiled ∧
            x.plannedEnd = some (start + plannedLength o.pattern (o.needed + o.overrun + spoiled))))

/-- EMERGENCY STOP is taken in every line state and answered OK. In Run and Hold the line enters Safe stop with cause EMERGENCY, every
plan but a Firing one returns to Idle, the trip record is written or waits for a write, and SAFE_STOP and LINE_STATE are placed before the
plans' reports. In every other state a SAFE_STOP event reports the cause as not entered, and nothing else changes (R17, R18, R21, R31,
R33, R115). That LINE_STATE comes before the plans' reports is the model's choice (notes/assumptions/47), and so is the way a trip record
waits behind a write (notes/assumptions/21); that a disarmed plan keeps and reports its window is its deduction (notes/assumptions/23). -/
def Obligations.EmergencyStop : Prop :=
  ∀ (s : State) (f : HostFrame), s.Asks 0x13 f → f.payload = [] →
    (s.sup.line = .run ∨ s.sup.line = .hold →
      let trips := s.sup.trips + 1
      let lock := s.sup.lockFlag || decide (s.profile.tripLimit < trips)
      let reports := stands.flatMap fun i =>
        if (s.plan i).state = .planned ∨ (s.plan i).state = .blocked then
          [EventBody.splicePlanned i .idle none (s.plan i).earliest (s.plan i).latest none none]
        else []
      Completes .emergencyStop s fun t =>
        OnlyChanges [.sup, .splice, .store, .host] s t ∧
        t.sup = { s.sup with
          line := .safeStop, holds := .empty, setWait := ⟨false, false⟩, spliceWait := .same false
          ceilings := { s.sup.ceilings with knife := none, splice := none }
          hostSpeed := 0, cause := .emergency, standstill := 0, trips := trips, lockFlag := lock, clearing := 0, linkTimer := none } ∧
        (∀ i, t.plan i = (s.plan i).disarmed) ∧ t.splice = { s.splice with plan := t.splice.plan } ∧
        t.host = ((s.placeAll
          ([.safeStop .emergency true trips, .lineState .safeStop s.sup.line .empty .emergency] ++ reports)).reply f .ok []).host ∧
        t.store =
          (if s.store.writing.isSome ∨ s.store.tripWriting.isSome then { s.store with tripDeferred := true }
           else { s.store with trips := s.store.trips.beginWrite, tripWriting := some { trips := trips, flag := lock } })) ∧
    (s.sup.line ≠ .run → s.sup.line ≠ .hold →
      exec .emergencyStop s = .next ((s.place (.safeStop .emergency false s.sup.trips)).reply f .ok []))

/-- CLEAR TRIP in Tripped and RELEASE LOCKOUT in Lockout tear the schedule down, are answered OK and end in Standby; the first keeps the
trip counter and the lockout flag, the second sets them to 0 and clear and writes the record, once (R20, R23, R79, R149; one write by
notes/assumptions/43). The router counts first: the sheets of the queue are lost to their orders, the uncredited runs of a Changing
stacker and the open stack of a Stacking one are credited, with CHANGE STACK queued for the latter (R159). Then, with at most 24 orders of
distinct numbers, every Queued order stays with its fields; a Scheduled or Fixed one returns to Queued; a Running or Ending one returns
with its remaining quantity and an INTERRUPTED record, or completes NORMAL if nothing remains; a cancelled one that is not Queued
completes CANCELLED. Records carry the counts as the router left them, and the queue keeps its order (R55, R56). -/
def Obligations.TeardownSettles : Prop :=
  (∀ (s : State) (f : HostFrame), f.payload = [] →
    (s.Asks 0x14 f → s.sup.line = .tripped → Completes .clearTrip s fun t =>
      Replied s t f .ok [] ∧ TornDown s t ∧ t.sup.trips = s.sup.trips ∧ t.sup.lockFlag = s.sup.lockFlag ∧ t.store = s.store) ∧
    (s.Asks 0x15 f → s.sup.line = .lockout → Completes .releaseLockout s fun t =>
      Replied s t f .ok [] ∧ TornDown s t ∧ t.sup.trips = 0 ∧ t.sup.lockFlag = false ∧
      (s.store.writing = none → s.store.tripWriting = none → t.store.tripWriting = some { trips := 0, flag := false }))) ∧
  (∀ (s : State) (f : HostFrame) (c : Instr), f.payload = [] →
    (c = .clearTrip ∧ s.Asks 0x14 f ∧ s.sup.line = .tripped) ∨ (c = .releaseLockout ∧ s.Asks 0x15 f ∧ s.sup.line = .lockout) →
    s.orders.list.length ≤ 24 → (s.orders.list.map (·.number)).Nodup →
    let runs (o : Order) : List BufferRun := if s.router.stacker = .changing then
      s.router.buffer.filter fun r => decide (r.order = o.number) && r.credit.isNone else []
    let open_ (o : Order) : Bool := decide (s.router.stacker = .stacking) && s.router.stack.any fun k => decide (k.order = o.number)
    let good (o : Order) : Nat := o.good + ((runs o).map (·.count)).sum
    let lost (o : Order) : Nat := o.lost + (s.router.sheets.filter fun h => decide (h.order = some o.number)).length
    let stacked (o : Order) : Nat :=
      o.stackTotal + ((runs o).map fun r => ceilDiv r.count o.height).sum + (if open_ o then 1 else 0)
    let back (o : Order) (quantity : Nat) : Order :=
      { o with
        quantity := quantity, state := .queued, zoneStart := none, zoneEnd := none, needed := cutsNeeded quantity o.ups, spoiled := 0
        planned := cutsNeeded quantity o.ups + o.overrun, plannedEnd := none, cuts := 0, good := 0, rejected := 0, lost := 0
        stackTotal := 0, tempMin := none, tempMax := none, derates := 0, deferred := 0 }
    Completes c s fun t =>
      let recorded (o : Order) (status : Completion) : Prop := ∃ r, t.HasEvent s.web.w (.orderComplete r) ∧ r.number = o.number ∧
        r.status = status ∧ r.good = good o ∧ r.lost = lost o ∧ r.stackTotal = stacked o ∧
        r.difference = (good o : Int) - o.needed
      let gone (o : Order) : Prop := ∀ x ∈ t.orders.list, x.number ≠ o.number
      (∀ k, s.router.stacker = .stacking → s.router.stack = some k → t.router.stacker = .changing ∧ t.router.stack = some k ∧
        t.router.reason = some .orderEnd ∧ ⟨.stacker, .changeStack .orderEnd⟩ ∈ t.line.normal) ∧
      (t.orders.list.map (·.number)).Sublist (s.orders.list.map (·.number)) ∧
      ∀ o ∈ s.orders.list,
        let making := o.state = .running ∨ o.state = .ending
        (o.state = .queued → ∃ x ∈ t.orders.list, x.number = o.number ∧ x.given = o.given) ∧
        (o.state ≠ .queued → o.cancelled = true → gone o ∧ recorded o .cancelled) ∧
        (o.state = .scheduled ∨ o.state = .fixed → o.cancelled = false → back o o.quantity ∈ t.orders.list ∧
          t.HasEvent s.web.w (.orderState o.number (some o.state) (some .queued) none none)) ∧
        (making → o.cancelled = false → o.quantity ≤ good o * o.ups → gone o ∧ recorded o .normal) ∧
        (making → o.cancelled = false → good o * o.ups < o.quantity →
          back o (o.quantity - good o * o.ups) ∈ t.orders.list ∧ recorded o .interrupted))

/-- SET SPEED in Standby, Run and Hold: the speed is clamped to v_max, becomes the host speed command, and is the reply (R24). -/
def Obligations.SetSpeed : Prop :=
  ∀ (s : State) (f : HostFrame), s.Asks 0x16 f → f.payload.length = 2 →
    s.sup.line = .standby ∨ s.sup.line = .run ∨ s.sup.line = .hold →
    let v := min (fieldAt f.payload 0 2) s.profile.vMax
    exec .setSpeed s = .next (State.reply { s with sup := { s.sup with hostSpeed := v } } f .ok (word v))

/-! ### Orders -/

/-- A good ADD ORDER with no deferral pending appends the order, or inserts it before its target, as a Queued order with counts at 0,
reports it, and changes nothing else; with a deferral pending it is placed as well. Each check of R35 that fails gives its result in its
place (R35, R36, R37). -/
def Obligations.AddOrder : Prop :=
  ∀ (s : State) (f : HostFrame), s.Asks 0x20 f → orderWellFormed f.payload = true →
    let o := orderOf f.payload
    let target := fieldAt f.payload 4 4
    let ranged := orderInRange s.profile f.payload o = true
    let graded := (s.grade? o.grade).isSome = true
    let fresh := s.order? o.number = none
    let found := target = 0 ∨ (s.order? target).isSome = true
    let before := target = 0 ∨ (s.order? target).any (fun x => x.state = .queued) = true
    (s.sup.line = .startUp → exec .addOrder s = .next (s.reply f .state [])) ∧
    (s.sup.line ≠ .startUp →
      (¬ ranged → exec .addOrder s = .next (s.reply f .range [])) ∧
      (ranged → ¬ graded → exec .addOrder s = .next (s.reply f .grade [])) ∧
      (ranged → graded → ¬ fresh → exec .addOrder s = .next (s.reply f .duplicate [])) ∧
      (ranged → graded → fresh → ¬ found → exec .addOrder s = .next (s.reply f .notFound [])) ∧
      (ranged → graded → fresh → found → ¬ before → exec .addOrder s = .next (s.reply f .state [])) ∧
      (ranged → graded → fresh → before → 24 ≤ s.orders.list.length → exec .addOrder s = .next (s.reply f .full [])) ∧
      (ranged → graded → fresh → before → s.orders.list.length < 24 → s.map.deferrals = 0 →
        exec .addOrder s = .next ((State.place { s with orders := { s.orders with
          list := if target = 0 then s.orders.list ++ [o]
            else s.orders.list.takeWhile (fun x => x.number ≠ target) ++ o :: s.orders.list.dropWhile fun x => x.number ≠ target } }
          (.orderState o.number none (some .queued) none none)).reply f .ok [])) ∧
      (ranged → graded → fresh → before → s.orders.list.length < 24 → Completes .addOrder s fun t =>
        Replied s t f .ok [] ∧ t.orders.list.length = s.orders.list.length + 1 ∧ (t.order? o.number).isSome = true)) ∧
    (o.state = .queued ∧ o.needed = cutsNeeded o.quantity o.ups ∧ o.planned = o.needed + o.overrun ∧ o.good = 0 ∧ o.cuts = 0)

/-- AMEND ORDER: the checks of R44 in their order. A good amendment replaces the given fields and no other field of the line computer. Of
a Queued order with no deferral pending it also recomputes the cuts and changes nothing else; with one pending the re-check that may
follow leaves the given fields and the cuts needed as amended (R45). Of a placed order that gives neither quantity nor overrun it changes
nothing else but, with a cap given, the ceiling entries and approach marks composed afresh (R26, R47). A resizing one of a placed order
recomputes cuts needed, planned cuts and planned end with the spoiled and deferral cuts kept; the open order's end inside the horizon is
clamped to the first cut boundary there, and the commit check runs at once with that end (R65); the reply carries the planned cuts and
planned end of that moment (R46; before the check by notes/assumptions/26). -/
def Obligations.AmendOrder : Prop :=
  ∀ (s : State) (f : HostFrame) (m : Amendment), s.Asks 0x21 f → 4 ≤ f.payload.length →
    amendmentOf (f.payload.drop 4) = some m →
    let n := fieldAt f.payload 0 4
    (s.sup.line = .startUp → exec .amendOrder s = .next (s.reply f .state [])) ∧
    (s.sup.line ≠ .startUp → s.order? n = none → exec .amendOrder s = .next (s.reply f .notFound [])) ∧
    (∀ o, s.sup.line ≠ .startUp → s.order? n = some o →
      let open_ := o.cancelled = false ∧ m.allowed o = true
      let graded := m.grade.any (fun g => (s.grade? g).isNone) = false
      let amended (g : Order → Order) : State := { s with orders := { s.orders with
        list := s.orders.list.map fun x => if x.number = n then g x else x } }
      let composed (u : State) : State := if m.cap.isSome then u.recompose else u
      let resized (x : Order) : Order :=
        let y := m.apply x
        let needed := cutsNeeded y.quantity y.ups
        let planned := needed + y.overrun + y.spoiled + y.deferred
        { y with
          needed := needed, planned := planned
          plannedEnd := y.zoneStart.map fun z => z + plannedLength y.pattern planned }
      let clamped (x : Order) : Order :=
        let z := x.zoneStart.getD 0
        let cuts := cutsToBoundary z x.pattern s.horizon
        { x with planned := cuts, plannedEnd := some (z + plannedLength x.pattern cuts) }
      let totals (x : Order) : List Byte := count x.planned ++ optional 6 x.plannedEnd
      (¬ open_ → exec .amendOrder s = .next (s.reply f .locked [])) ∧
      (open_ → m.inRange s.profile = false → exec .amendOrder s = .next (s.reply f .range [])) ∧
      (open_ → m.inRange s.profile = true → ¬ graded → exec .amendOrder s = .next (s.reply f .grade [])) ∧
      (open_ → m.inRange s.profile = true → graded →
        (o.state = .queued → s.map.deferrals = 0 →
          exec .amendOrder s = .next ((amended fun x => (m.apply x).recount).reply f .ok [])) ∧
        (o.state ≠ .queued → m.quantity = none → m.overrun = none →
          exec .amendOrder s = .next ((composed (amended m.apply)).reply f .ok [])) ∧
        (o.state ≠ .queued → m.resizes = true → (∀ x ∈ s.orders.list, x.number = n → x.zoneStart.isSome = true) →
          (∀ e, (resized o).plannedEnd = some e → s.map.openOrder = some n → s.horizon < e →
            exec .amendOrder s = .next ((composed (amended resized)).reply f .ok (totals (resized o)))) ∧
          (∀ e, (resized o).plannedEnd = some e → s.map.openOrder = some n → e ≤ s.horizon →
            exec .amendOrder s = .next
              ((composed (amended fun x => clamped (resized x))).horizonCheck.reply f .ok (totals (clamped (resized o)))))) ∧
        Completes .amendOrder s fun t =>
          (∃ fields, Replied s t f .ok fields) ∧ t.orders.list.length = s.orders.list.length ∧
          ∃ x, t.order? n = some x ∧ x.given = (m.apply o).given ∧
            (o.state = .queued ∨ m.resizes = true → x.needed = cutsNeeded x.quantity x.ups)))

/-- CANCEL ORDER removes a Queued order at once, reported, with nothing else changed while no deferral is pending; a Scheduled order is
marked cancelled and stays: its planned cuts become the least number, at least 1, whose boundary lies at or beyond the horizon, its
planned end that boundary, and the commit check runs at once with it (R48, R49, R65); no order is NOT_FOUND, Start-up is STATE. -/
def Obligations.CancelOrder : Prop :=
  ∀ (s : State) (f : HostFrame), s.Asks 0x22 f → f.payload.length = 4 →
    let n := fieldAt f.payload 0 4
    (s.sup.line = .startUp → exec .cancelOrder s = .next (s.reply f .state [])) ∧
    (s.sup.line ≠ .startUp → s.order? n = none → exec .cancelOrder s = .next (s.reply f .notFound [])) ∧
    (∀ o, s.sup.line ≠ .startUp → s.order? n = some o → o.cancelled = false → o.state = .queued → s.map.deferrals = 0 →
      exec .cancelOrder s = .next ((State.place { s with orders := { s.orders with
        list := s.orders.list.filter fun x => x.number ≠ n } } (.orderState n (some .queued) none none none)).reply f .ok [])) ∧
    (∀ o, s.sup.line ≠ .startUp → s.order? n = some o → o.cancelled = false → o.state = .queued →
      Completes .cancelOrder s fun t => Replied s t f .ok [] ∧ ∀ x ∈ t.orders.list, x.number ≠ n) ∧
    (∀ o, s.sup.line ≠ .startUp → s.order? n = some o → o.cancelled = false → o.state = .scheduled →
      Completes .cancelOrder s fun t => Replied s t f .ok [] ∧
        (∃ x ∈ t.orders.list, x.number = n) ∧ (∀ x ∈ t.orders.list, x.number = n → x.cancelled = true)) ∧
    (∀ o z, s.sup.line ≠ .startUp → s.order? n = some o → o.cancelled = false → o.state = .scheduled → o.zoneStart = some z →
      o.pattern ≠ [] → (∀ l ∈ o.pattern, 1 ≤ l) → (∀ x ∈ s.orders.list, x.number = n → x = o) →
      ∃ cuts, 1 ≤ cuts ∧ s.horizon ≤ z + plannedLength o.pattern cuts ∧
        (∀ m, 1 ≤ m → m < cuts → z + plannedLength o.pattern m < s.horizon) ∧
        let cut : State := { s with orders := { s.orders with list := s.orders.list.map fun x => if x.number = n then
          { o with cancelled := true, planned := cuts, plannedEnd := some (z + plannedLength o.pattern cuts) } else x } }
        exec .cancelOrder s = .next (cut.horizonCheck.reply f .ok []))

/-- CANCEL ORDER naming an order that is Fixed, Running or Ending, or whose cancelled mark is set, is refused with LOCKED and changes
nothing; so is every amendment of an order with the mark set (R50). -/
def Obligations.CancelLocked : Prop :=
  (∀ (s : State) (f : HostFrame) (o : Order), s.Asks 0x22 f → f.payload.length = 4 → s.sup.line ≠ .startUp →
    s.order? (fieldAt f.payload 0 4) = some o →
    o.state = .fixed ∨ o.state = .running ∨ o.state = .ending ∨ o.cancelled = true →
    exec .cancelOrder s = .next (s.reply f .locked [])) ∧
  (∀ (s : State) (f : HostFrame) (o : Order) (m : Amendment), s.Asks 0x21 f → 4 ≤ f.payload.length →
    amendmentOf (f.payload.drop 4) = some m → s.sup.line ≠ .startUp → s.order? (fieldAt f.payload 0 4) = some o →
    o.cancelled = true → exec .amendOrder s = .next (s.reply f .locked []))

/-! ### Grades, reels, splices -/

/-- DEFINE GRADE and DEFINE TABLE: a good definition replaces one slot or one table and nothing else; what is in use is LOCKED, a store
that is Writing is BUSY, an absent table is NOT_FOUND, a value out of range is RANGE (R121, R122, R123). -/
def Obligations.GradesAndTables : Prop :=
  ∀ (s : State) (f : HostFrame),
    let p := f.payload
    let i := byteAt p 0
    (s.Asks 0x30 f → p.length = 1 →
      (s.sup.line = .startUp → exec .defineGrade s = .next (s.reply f .state [])) ∧
      (s.sup.line ≠ .startUp → 15 < i → exec .defineGrade s = .next (s.reply f .range [])) ∧
      (s.sup.line ≠ .startUp → i ≤ 15 → s.gradeLocked i = true → exec .defineGrade s = .next (s.reply f .locked [])) ∧
      (s.sup.line ≠ .startUp → i ≤ 15 → s.gradeLocked i = false → s.store.writing.isSome = true →
        exec .defineGrade s = .next (s.reply f .busy [])) ∧
      (s.sup.line ≠ .startUp → i ≤ 15 → s.gradeLocked i = false → s.store.writing = none →
        exec .defineGrade s = .next (State.reply { s with cond := { s.cond with grades := s.cond.grades.set i .free } } f .ok []))) ∧
    (s.Asks 0x30 f → p.length = 24 →
      let g := gradeOf p
      let good := i ≤ 15 ∧ gradeGood g = true
      let tabled := (s.cond.tables.getD g.table none).isSome = true
      (s.sup.line = .startUp → exec .defineGrade s = .next (s.reply f .state [])) ∧
      (s.sup.line ≠ .startUp →
        (¬ good → exec .defineGrade s = .next (s.reply f .range [])) ∧
        (good → ¬ tabled → exec .defineGrade s = .next (s.reply f .notFound [])) ∧
        (good → tabled → s.gradeLocked i = true → exec .defineGrade s = .next (s.reply f .locked [])) ∧
        (good → tabled → s.gradeLocked i = false → s.store.writing.isSome = true →
          exec .defineGrade s = .next (s.reply f .busy [])) ∧
        (good → tabled → s.gradeLocked i = false → s.store.writing = none → s.map.deferrals = 0 →
          exec .defineGrade s = .next
            (State.reply { s with cond := { s.cond with grades := s.cond.grades.set i (.defined g) } } f .ok [])) ∧
        (good → tabled → s.gradeLocked i = false → s.store.writing = none → i < s.cond.grades.length →
          Completes .defineGrade s fun t => Replied s t f .ok [] ∧ (t.grade? i) = some g))) ∧
    (s.Asks 0x31 f → p.length = 2 + 8 * byteAt p 1 →
      let table := breakpointsAt p 2 (byteAt p 1)
      let good := i ≤ 7 ∧ tableGood table = true
      (s.sup.line = .startUp → exec .defineTable s = .next (s.reply f .state [])) ∧
      (s.sup.line ≠ .startUp →
        (¬ good → exec .defineTable s = .next (s.reply f .range [])) ∧
        (good → s.tableLocked i = true → exec .defineTable s = .next (s.reply f .locked [])) ∧
        (good → s.tableLocked i = false → s.store.writing.isSome = true → exec .defineTable s = .next (s.reply f .busy [])) ∧
        (good → s.tableLocked i = false → s.store.writing = none →
          exec .defineTable s = .next
            (State.reply { s with cond := { s.cond with tables := s.cond.tables.set i (some table) } } f .ok []))))

/-- ASSIGN REEL and CLEAR REEL: each check gives its result, STATE in Start-up and RANGE for a stand outside the mask or an arm other than
A or B among them (STATE of a Running arm before BUSY in CLEAR REEL is the model's choice, notes/assumptions/65); a taken request changes
the reel records of its stand alone, as the record operations give them, whatever planning pass or commit it leads to (R83, R84, R85). -/
def Obligations.ReelData : Prop :=
  (∀ (s : State) (f : HostFrame) (i : Stand) (x : Arm), s.sup.line ≠ .startUp →
     s.maskedStand (byteAt f.payload 0) = some i → armOfCode (byteAt f.payload 1) = some x →
     let arm := (s.standRecord i).arms.get x
     let d := reelOf f.payload
     (s.Asks 0x40 f → f.payload.length = 12 →
       (reelGood d = false → exec .assignReel s = .next (s.reply f .range [])) ∧
       (reelGood d = true → arm.state = .spent ∨ (arm.state = .running ∧ arm.data.isSome = true) →
         exec .assignReel s = .next (s.reply f .state [])) ∧
       (reelGood d = true → arm.state ≠ .spent → arm.state ≠ .running ∨ arm.data = none → (s.plan i).state = .firing →
         exec .assignReel s = .next (s.reply f .busy [])) ∧
       (reelGood d = true → arm.state ≠ .spent → arm.state ≠ .running ∨ arm.data = none → (s.plan i).state ≠ .firing →
         Completes .assignReel s fun t => Replied s t f .ok [] ∧
           t.reels = { s.reels with stand := s.reels.stand.set i ((s.standRecord i).assign x d s.web.w) } ∧
           ((t.standRecord i).arms.get x).data = some d)) ∧
     (s.Asks 0x41 f → f.payload.length = 2 →
       (arm.state = .running → exec .clearReel s = .next (s.reply f .state [])) ∧
       (arm.state ≠ .running → (s.plan i).state = .firing → exec .clearReel s = .next (s.reply f .busy [])) ∧
       (arm.state ≠ .running → (s.plan i).state ≠ .firing →
         Completes .clearReel s fun t => Replied s t f .ok [] ∧
           t.reels = { s.reels with stand := s.reels.stand.set i ((s.standRecord i).clear x) } ∧
           ((t.standRecord i).arms.get x).data = none))) ∧
  (∀ (s : State) (f : HostFrame) (c : Instr),
    (c = .assignReel ∧ s.Asks 0x40 f ∧ f.payload.length = 12) ∨ (c = .clearReel ∧ s.Asks 0x41 f ∧ f.payload.length = 2) →
    (s.sup.line = .startUp → exec c s = .next (s.reply f .state [])) ∧
    (s.sup.line ≠ .startUp → s.maskedStand (byteAt f.payload 0) = none ∨ armOfCode (byteAt f.payload 1) = none →
      exec c s = .next (s.reply f .range [])))

/-- SPLICE NOW: the checks of R118 in their order; taken, the stand's plan is of kind MANUAL at the target the reply names, which is W in
Standby and elsewhere the coordinate whose approach passes just then (R108, R118). -/
def Obligations.SpliceNow : Prop :=
  ∀ (s : State) (f : HostFrame), s.Asks 0x42 f → f.payload.length = 1 →
    (s.sup.line = .startUp → exec .spliceNow s = .next (s.reply f .state [])) ∧
    (s.sup.line ≠ .startUp → s.maskedStand (byteAt f.payload 0) = none → exec .spliceNow s = .next (s.reply f .range [])) ∧
    (∀ i, s.maskedStand (byteAt f.payload 0) = some i →
      let moving := s.sup.line = .run ∨ s.sup.line = .hold ∨ s.sup.line = .standby
      let busy := (s.plan i).state = .armed ∨ (s.plan i).state = .due ∨ (s.plan i).state = .firing
      let fit := (s.standRecord i).runningArm.isSome = true ∧ (s.standRecord i).standbyPrepared = true ∧ s.online (.stand i) = true
      let target := if s.sup.line = .standby then s.web.w else s.web.w + s.dApp s.spliceLimit + s.profile.guard
      (s.sup.line ≠ .startUp → ¬ moving → exec .spliceNow s = .next (s.reply f .state [])) ∧
      (moving → busy → exec .spliceNow s = .next (s.reply f .busy [])) ∧
      (moving → ¬ busy → (s.plan i).kind = some .grade → exec .spliceNow s = .next (s.reply f .locked [])) ∧
      (moving → ¬ busy → (s.plan i).kind ≠ some .grade → ¬ fit → exec .spliceNow s = .next (s.reply f .state [])) ∧
      (moving → ¬ busy → (s.plan i).kind ≠ some .grade → fit →
        Completes .spliceNow s fun t => Replied s t f .ok (coordinate target) ∧
          (t.plan i).kind = some .manual ∧ (t.plan i).target = some target ∧ (t.plan i).state ≠ .idle))

/-! ### Nodes by request -/

/-- SECTION OFFLINE: STATE in Start-up, before the address is looked at (notes/assumptions/20), and in Run, Safe stop and a moving Hold,
BUSY for a Firing stand, RANGE for no configured node; an Offline node stays as it is; any other becomes Offline with its latches kept and
nothing queued for it (R165, R172). Where several of them apply, RANGE comes before STATE and STATE before BUSY by the model's choice
(notes/assumptions/62). -/
def Obligations.NodeOffline : Prop :=
  ∀ (s : State) (f : HostFrame), s.Asks 0x50 f → f.payload.length = 1 →
    (s.sup.line = .startUp → exec .sectionOffline s = .next (s.reply f .state [])) ∧
    (s.sup.line ≠ .startUp → s.namedNode (byteAt f.payload 0) = none → exec .sectionOffline s = .next (s.reply f .range [])) ∧
    (∀ n, s.sup.line ≠ .startUp → s.namedNode (byteAt f.payload 0) = some n →
      let barred := s.sup.line = .run ∨ s.sup.line = .safeStop ∨ (s.sup.line = .hold ∧ s.atRest = false)
      let firing := ∃ i, n = .stand i ∧ (s.plan i).state = .firing
      (barred → exec .sectionOffline s = .next (s.reply f .state [])) ∧
      (¬ barred → firing → exec .sectionOffline s = .next (s.reply f .busy [])) ∧
      (¬ barred → ¬ firing → (s.node n).service = .offline → exec .sectionOffline s = .next (s.reply f .ok [])) ∧
      (¬ barred → ¬ firing → (s.node n).service ≠ .offline →
        Completes .sectionOffline s fun t => Replied s t f .ok [] ∧
          (t.node n).service = .offline ∧ (t.node n).latches = (s.node n).latches ∧
          (∀ c ∈ t.line.urgent ++ t.line.normal, c.node ≠ n)))

/-- SECTION ONLINE brings an Offline node with no latch but GAUGE to Initialising with INIT queued, one with another latch to Faulted,
leaves an Initialising or Online node as it is and refuses a Faulted one with STATE (R163, R172). An address of no configured node is
RANGE; in Start-up the answer is STATE, before the address is looked at (notes/assumptions/20). -/
def Obligations.NodeOnline : Prop :=
  (∀ (s : State) (f : HostFrame), s.Asks 0x51 f → f.payload.length = 1 →
    (s.sup.line = .startUp → exec .sectionOnline s = .next (s.reply f .state [])) ∧
    (s.sup.line ≠ .startUp → s.namedNode (byteAt f.payload 0) = none → exec .sectionOnline s = .next (s.reply f .range []))) ∧
  (∀ (s : State) (f : HostFrame) (n : Node), s.Asks 0x51 f → f.payload.length = 1 → s.sup.line ≠ .startUp →
    s.namedNode (byteAt f.payload 0) = some n →
    ((s.node n).service = .initialising ∨ (s.node n).service = .online → exec .sectionOnline s = .next (s.reply f .ok [])) ∧
    ((s.node n).service = .faulted → exec .sectionOnline s = .next (s.reply f .state [])) ∧
    ((s.node n).service = .offline → (s.node n).latches.faulting = false →
      Completes .sectionOnline s fun t => Replied s t f .ok [] ∧
        t.node n = { s.node n with service := .initialising, missed := 0 } ∧ (∀ k, k ≠ n → t.node k = s.node k) ∧
        t.line.normal = s.line.normal ++ [⟨n, .init⟩] ∧ t.line.urgent = s.line.urgent ∧ t.line.inFlight = s.line.inFlight) ∧
    ((s.node n).service = .offline → (s.node n).latches.faulting = true →
      Completes .sectionOnline s fun t => Replied s t f .ok [] ∧ (t.node n).service = .faulted ∧
        (t.node n).latches = (s.node n).latches))

/-- ACK FAULTS clears the latches of the node it names, or of every configured node for address 0; a Faulted node becomes Initialising
with INIT queued, any other keeps its service state; SECTION is acknowledged, and leaves the hold reason set if the stacker and the
conditioning node are Online (R170, R171). An address of no configured node is RANGE; in Start-up the answer is STATE, before the address
is looked at (notes/assumptions/20). -/
def Obligations.AckFaults : Prop :=
  ∀ (s : State) (f : HostFrame), s.Asks 0x52 f → f.payload.length = 1 →
    (s.sup.line = .startUp → exec .ackFaults s = .next (s.reply f .state [])) ∧
    (s.sup.line ≠ .startUp →
    let section_ (t : State) : Prop :=
      t.sup.holds.section_ = (s.sup.holds.section_ && !(s.online .stacker && s.online .conditioning))
    let after (t : State) (n : Node) : Prop :=
      (t.node n).latches = .clear ∧
      ((s.node n).service = .faulted → (t.node n).service = .initialising ∧ ⟨n, .init⟩ ∈ t.line.normal) ∧
      ((s.node n).service ≠ .faulted → (t.node n).service = (s.node n).service)
    (∀ n, byteAt f.payload 0 ≠ 0 → s.namedNode (byteAt f.payload 0) = some n →
      Completes .ackFaults s fun t => Replied s t f .ok [] ∧ t.line.acked = true ∧ section_ t ∧ after t n ∧
        (∀ k, k ≠ n → (t.node k).latches = (s.node k).latches ∧ (t.node k).service = (s.node k).service)) ∧
    (byteAt f.payload 0 = 0 →
      Completes .ackFaults s fun t => Replied s t f .ok [] ∧ t.line.acked = true ∧ section_ t ∧
        ∀ n, (s.node n).service ≠ .absent → after t n) ∧
    (byteAt f.payload 0 ≠ 0 → s.namedNode (byteAt f.payload 0) = none → exec .ackFaults s = .next (s.reply f .range [])))

/-! ### Profile, store and resets -/

/-- WRITE PROFILE ITEM: RANGE, STATE, BUSY and PROTECTED come before the cross-item conditions; an accepted write replaces that item of
the working profile and no other, K's sets the remainder to 0 with the odometer kept, and what acts at once leaves the core alone (R4,
R181). A trip limit written below the counter sets a clear lockout flag, with the trip record written or waiting (notes/assumptions/21),
and takes Standby and Tripped to Lockout; any other changes nothing of the supervisor (R21). A write of P_glue sets the glue grade from the
zone at the new glue point, as an advance does (R125). A write of D_gate decides the sheets that the new gate has passed, and the marks in
no zone that it has passed leave (R62, R152). A write of D_commit that leaves the planned end of the open order at or below the horizon
clamps it up to the first cut boundary of its zone at or beyond the horizon and runs the horizon's check; one that does not does nothing
more (R65). A write of v_max, v_crawl or the heat action recomputes the heat ceiling and applies it (R128 to R131). Every other item's
write changes the profile alone. A stand removed from the mask has its records
and its node's as at reset, Absent, with nothing queued for it; one added starts at those values, Initialising with INIT queued; the
others keep their records, their service and their latches (R82, R162). The item number of the request is one byte by
notes/assumptions/9. -/
def Obligations.ProfileItemWritten : Prop :=
  ∀ (s : State) (f : HostFrame), s.Asks 0x61 f → f.payload.length = 5 →
    let n := byteAt f.payload 0
    let p := s.profile.write n (fieldAt f.payload 1 4)
    let ranged := itemInRange n (fieldAt f.payload 1 4) = true
    let placed := s.sup.line = .standby ∨ s.sup.line = .tripped ∨ s.sup.line = .lockout
    let busy := s.store.writing.isSome = true ∨ s.removesBusyStand n p = true
    let closed := geometryItem n = true ∧ s.store.frozen = true
    (¬ ranged → exec .writeProfileItem s = .next (s.reply f .range [])) ∧
    (ranged → ¬ placed → exec .writeProfileItem s = .next (s.reply f .state [])) ∧
    (ranged → placed → busy → exec .writeProfileItem s = .next (s.reply f .busy [])) ∧
    (ranged → placed → ¬ busy → closed → exec .writeProfileItem s = .next (s.reply f .frozen [])) ∧
    (ranged → placed → ¬ busy → ¬ closed → p.consistent s.orders.list = false →
      exec .writeProfileItem s = .next (s.reply f .range [])) ∧
    (ranged → placed → ¬ busy → ¬ closed → p.consistent s.orders.list = true →
      Completes .writeProfileItem s fun t =>
        t.core = { s.core with
          profile := p
          web := if n = 13 then { s.web with r := 0 } else s.web
          holding := s.host.holding.drop 1, answering := some (replyTo f .ok [] false) } ∧
        (∀ k, k ≠ n → 1 ≤ k → p.items[k - 1]? = s.profile.items[k - 1]?) ∧
        p.items[n - 1]? = some (fieldAt f.payload 1 4) ∧
        (let u : State := { s with profile := p, host := { s.host with holding := s.host.holding.drop 1 } }
         let answered (v : State) : State := { v with host := { v.host with answering := some (replyTo f .ok [] false) } }
         (n ∉ [1, 7, 9, 10, 28, 29, 37, 39] → t = answered { u with web := if n = 13 then { s.web with r := 0 } else s.web }) ∧
         (n = 7 → ∀ ready, t = answered (u.advancePhase ready .glue)) ∧
         (n = 9 → ∀ ready, t = answered ((u.advancePhase ready .gateDecisions).advancePhase ready .markSweep)) ∧
         (n = 10 →
           (s.openOrder? = none → t = answered u) ∧
           (∀ o e, s.openOrder? = some o → o.plannedEnd = some e → s.web.w + p.dCommit < e → t = answered u) ∧
           (∀ o start e, s.openOrder? = some o → o.zoneStart = some start → o.plannedEnd = some e → e ≤ s.web.w + p.dCommit →
             (∀ x ∈ s.orders.list, x.number = o.number → x = o) →
             let cuts := cutsToBoundary start o.pattern (s.web.w + p.dCommit)
             let clamped := { o with planned := cuts, plannedEnd := some (start + plannedLength o.pattern cuts) }
             t = answered (State.horizonCheck { u with
               orders := { s.orders with list := s.orders.list.map fun x => if x.number = o.number then clamped else x } }))) ∧
         (n = 28 ∨ n = 29 ∨ n = 37 → OnlyChanges [.sup, .orders, .cond, .host] u t ∧ HeatRecomputed u t)) ∧
        (n = 39 →
          (p.tripLimit < s.sup.trips → s.sup.lockFlag = false →
            t.sup = { s.sup with lockFlag := true, line := .lockout } ∧
            t.store = (if s.store.tripWriting.isSome then { s.store with tripDeferred := true } else
              { s.store with trips := s.store.trips.beginWrite, tripWriting := some { trips := s.sup.trips, flag := true } }) ∧
            (s.sup.line ≠ .lockout → t.host.events = (s.place (.lineState .lockout s.sup.line s.sup.holds s.sup.cause)).host.events)) ∧
          (s.sup.trips ≤ p.tripLimit ∨ s.sup.lockFlag = true → t.sup = s.sup ∧ t.store = s.store)) ∧
        (n = 1 → ∀ i,
          let cleared := t.standRecord i = {
            arms := ⟨⟨.empty, none, none, 0⟩, ⟨.empty, none, none, 0⟩⟩, basis := none, implausible := 0, estimate := false
            lowCount := 0, lowReported := false, outReported := false }
          (p.mask.get i = s.profile.mask.get i → t.standRecord i = s.standRecord i ∧
            (t.node (.stand i)).service = (s.node (.stand i)).service ∧ (t.node (.stand i)).latches = (s.node (.stand i)).latches) ∧
          (s.profile.mask.get i = true → p.mask.get i = false → cleared ∧
            t.node (.stand i) = { service := .absent, latches := .clear, missed := 0, awaited := none } ∧
            ∀ c ∈ t.line.urgent ++ t.line.normal, c.node ≠ .stand i) ∧
          (s.profile.mask.get i = false → p.mask.get i = true → cleared ∧ (t.node (.stand i)).service = .initialising ∧
            (t.node (.stand i)).missed = 0 ∧ ⟨.stand i, .init⟩ ∈ t.line.normal)))

/-- SAVE PROFILE, FREEZE GEOMETRY and UNFREEZE GEOMETRY take the image of the working profile and answer ACCEPTED: the write begins at
once, with the trip record, or waits for a trip record being written; a store that is Writing is BUSY and each other check gives its
result. RESTART PART is answered OK and the reset waits for the reply to be sent (R182, R183, R185). UNFREEZE keeps the service level it
read (notes/assumptions/6), and how a begun write treats the older copy and a waiting record is the model's choice (notes/assumptions/21).
-/
def Obligations.SavesBegin : Prop :=
  ∀ (s : State) (f : HostFrame), f.payload = [] →
    let job (op : SaveOp) (frozen : Bool) (begun : Option TripRecord) : SaveJob :=
      { op := op, begun := begun
        image := { profile := s.profile, grades := s.cond.grades.map GradeSlot.stored, tables := s.cond.tables, frozen := frozen } }
    let saved (u : State) (op : SaveOp) (frozen : Bool) : State := State.reply { u with store :=
      if s.store.tripWriting.isSome then { s.store with frozen := frozen, writing := some (job op frozen none) }
      else { s.store with
        frozen := frozen, images := s.store.images.beginWrite, trips := s.store.trips.beginWrite, tripDeferred := false
        writing := some (job op frozen (some { trips := s.sup.trips, flag := s.sup.lockFlag })) } } f .accepted []
    let read (service : Bool) : State := { s with pins := { s.pins with service := service } }
    (s.Asks 0x62 f →
      (s.sup.line = .startUp → exec .saveProfile s = .next (s.reply f .state [])) ∧
      (s.sup.line ≠ .startUp → s.store.writing.isSome = true → exec .saveProfile s = .next (s.reply f .busy [])) ∧
      (s.sup.line ≠ .startUp → s.store.writing = none → exec .saveProfile s = .next (saved s .save s.store.frozen))) ∧
    (s.Asks 0x63 f →
      (s.sup.line = .startUp → exec .freezeGeometry s = .next (s.reply f .state [])) ∧
      (s.sup.line ≠ .startUp → s.store.writing.isSome = true → exec .freezeGeometry s = .next (s.reply f .busy [])) ∧
      (s.sup.line ≠ .startUp → s.store.writing = none → s.store.valid = false →
        exec .freezeGeometry s = .next (s.reply f .profile [])) ∧
      (s.sup.line ≠ .startUp → s.store.writing = none → s.store.valid = true → s.store.frozen = true →
        exec .freezeGeometry s = .next (s.reply f .ok [])) ∧
      (s.sup.line ≠ .startUp → s.store.writing = none → s.store.valid = true → s.store.frozen = false →
        exec .freezeGeometry s = .next (saved s .freeze true))) ∧
    (∀ service, s.Asks 0x64 f →
      (s.sup.line ≠ .standby → exec (.unfreezeGeometry service) s = .next (s.reply f .state [])) ∧
      (s.sup.line = .standby → service = false → exec (.unfreezeGeometry service) s = .next ((read service).reply f .frozen [])) ∧
      (s.sup.line = .standby → service = true → s.store.writing.isSome = true →
        exec (.unfreezeGeometry service) s = .next ((read service).reply f .busy [])) ∧
      (s.sup.line = .standby → service = true → s.store.writing = none → s.store.frozen = false →
        exec (.unfreezeGeometry service) s = .next ((read service).reply f .ok [])) ∧
      (s.sup.line = .standby → service = true → s.store.writing = none → s.store.frozen = true →
        exec (.unfreezeGeometry service) s = .next (saved (read service) .unfreeze false))) ∧
    (s.Asks 0x65 f →
      (s.sup.line ≠ .standby → s.sup.line ≠ .tripped → s.sup.line ≠ .lockout →
        exec .restartPart s = .next (s.reply f .state [])) ∧
      (s.sup.line = .standby ∨ s.sup.line = .tripped ∨ s.sup.line = .lockout →
        (s.store.writing.isSome = true ∨ s.store.tripWriting.isSome = true → exec .restartPart s = .next (s.reply f .busy [])) ∧
        (s.store.writing = none → s.store.tripWriting = none → exec .restartPart s = .next { s with host := { s.host with
          holding := s.host.holding.drop 1, answering := some (replyTo f .ok [] true) } })))

/-- Power-on, the end of a low reset input and the end of the reply of an accepted RESTART PART end in Start-up's end: every block
cleared, the newest good images or the defaults loaded, every configured node Initialising with INIT queued in address order, Lockout if
the loaded flag is set and Standby otherwise (the flag as loaded, also with the counter above the limit, notes/assumptions/48),
PART_STARTED placed first and LINE_STATE last. The reset input held low keeps the part in Start-up with nothing loaded. What waits outside
and the store's copies stay. A reply without a restart only ends (R10, R12, R32, R173, R176, R184, R185). -/
def Obligations.ResetsAndReplies : Prop :=
  ∀ s : State,
    let started (t : State) (cause : ResetCause) : Prop :=
      Cleared t ∧ Loaded s t ∧ t.pending = s.pending ∧ t.host.cause = cause ∧ t.store.images = s.store.images ∧
      t.store.trips = s.store.trips ∧ t.store.writing = none ∧ t.store.tripWriting = none ∧
      t.pins.resetLow = false ∧ t.pins.loaded = true ∧
      t.sup.line = (if t.sup.lockFlag then .lockout else .standby) ∧
      (∀ i, (t.node (.stand i)).service = if t.profile.mask.get i then .initialising else .absent) ∧
      (t.node .conditioning).service = .initialising ∧ (∀ x, (t.node (.station x)).service = .initialising) ∧
      (t.node .stacker).service = .initialising ∧
      t.line.normal = (allNodes.filter fun n => (t.node n).service = .initialising).map (fun n => ⟨n, .init⟩) ∧
      (t.host.events.head?.map (·.body)) = some (.partStarted cause t.store.checkPassed t.store.valid t.store.frozen) ∧
      (t.host.events.getLast?.map (·.body)) = some (.lineState t.sup.line .startUp .empty .noCause)
    let heldLow (t : State) (cause : ResetCause) : Prop :=
      Cleared t ∧ t.sup.line = .startUp ∧ t.pins.resetLow = true ∧ t.pins.loaded = false ∧ t.host.cause = cause ∧
      t.host.events = [] ∧ t.pending = s.pending ∧ t.store.images = s.store.images ∧ t.store.trips = s.store.trips ∧
      t.store.writing = none ∧ t.store.tripWriting = none
    Completes (.powerOn false) s (fun t => started t .power) ∧
    Completes (.powerOn true) s (fun t => heldLow t .power) ∧
    (s.pins.resetLow = false → Completes .resetPin s fun t => heldLow t .pin) ∧
    (s.pins.resetLow = true → exec .resetPin s = .next s) ∧
    (∀ (cause : ResetCause) (u : State), s = u.resetPart cause true → Completes .resetRelease s fun t => started t cause) ∧
    (s.pins.resetLow = false → exec .resetRelease s = .next s) ∧
    (∀ r, s.host.answering = some r → r.restart = true → Completes .replySent s fun t => started t .request) ∧
    (∀ r, s.host.answering = some r → r.restart = false →
      exec .replySent s = .next { s with host := { s.host with answering := none } }) ∧
    (s.host.answering = none → exec .replySent s = .next s)

/-- An image write that ends well makes the image the newest and the profile valid, one that ends badly leaves both; the trip record
written with it is taken either way and STORE_DONE tells the outcome; a trip record that waited for it is then written. A trip-record
write that ends lets a waiting image write or record begin. Neither happens with no write in progress. Of two copies the newest good one
is what was last written, and a write broken off leaves it as it was (R21, R182, R184; that a record written beside a bad image is good is
the model's choice, notes/assumptions/21). -/
def Obligations.StoreWritesEnd : Prop :=
  (∀ (s : State) (good : Bool),
    (∀ op image record, s.store.writing = some { op := op, image := image, begun := some record } → s.store.tripDeferred = false →
      exec (.storeWriteDone good) s = .next (State.place { s with store := { s.store with
        images := if good then s.store.images.endWrite image else s.store.images
        trips := s.store.trips.endWrite record, valid := s.store.valid || good, writing := none } } (.storeDone op good))) ∧
    (∀ op image record, s.store.writing = some { op := op, image := image, begun := some record } → s.store.tripDeferred = true →
      s.store.tripWriting = none →
      let told : State := State.place { s with store := { s.store with
        images := if good then s.store.images.endWrite image else s.store.images
        trips := (s.store.trips.endWrite record).beginWrite, valid := s.store.valid || good, writing := none, tripDeferred := false
        tripWriting := some { trips := s.sup.trips, flag := s.sup.lockFlag } } } (.storeDone op good)
      exec (.storeWriteDone good) s = .next told) ∧
    (s.store.writing = none ∨ (∃ j, s.store.writing = some j ∧ j.begun = none) → exec (.storeWriteDone good) s = .next s) ∧
    (∀ record, s.store.tripWriting = some record → s.store.writing = none → s.store.tripDeferred = false →
      exec .tripRecordWriteDone s = .next { s with store := { s.store with
        trips := s.store.trips.endWrite record, tripWriting := none } }) ∧
    (∀ record, s.store.tripWriting = some record → s.store.writing = none → s.store.tripDeferred = true →
      exec .tripRecordWriteDone s = .next { s with store := { s.store with
        trips := (s.store.trips.endWrite record).beginWrite, tripDeferred := false
        tripWriting := some { trips := s.sup.trips, flag := s.sup.lockFlag } } }) ∧
    (∀ record job, s.store.tripWriting = some record → s.store.writing = some job →
      exec .tripRecordWriteDone s = .next { s with store := { s.store with
        images := s.store.images.beginWrite, trips := (s.store.trips.endWrite record).beginWrite, tripWriting := none
        tripDeferred := false, writing := some { job with begun := some { trips := s.sup.trips, flag := s.sup.lockFlag } } } }) ∧
    (s.store.tripWriting = none → exec .tripRecordWriteDone s = .next s)) ∧
  (∀ (t : TwoCopies Image) (u : TwoCopies TripRecord) (x : Image) (r : TripRecord),
    (t.beginWrite.endWrite x).newest.map (·.value) = some x ∧ t.beginWrite.newest = t.newest ∧
    (u.beginWrite.endWrite r).newest.map (·.value) = some r ∧ u.beginWrite.newest = u.newest)

/-! ### Timers that end -/

/-- The link timer's end sets the silence flag, stands at t_link, enters SILENT at v_silent and is reported once; with the timer stopped
or the flag set already nothing happens (R30). The temperature becomes stale once: its age stops at 10,001 ms and the heat ceiling is
v_crawl where a table is in force, absent where none is; under DERATE the HEAT entry follows, under HOLD the reason (R127 to R130). Both
act whatever their running timer reads, and change nothing with it stopped (the model's choice, notes/assumptions/3). At an advance the
glue grade takes the grade that the zone at the glue point gives, if it gives one and it is another: the grade's table is copied into
force, SETPOINTS of it at the present speed are placed and kept as last sent if the conditioning node is Online, and the heat ceiling is
recomputed; otherwise nothing changes (R125, R126, R128). At a gate period end SETPOINTS are placed if the speed has left the last sent
one by the deadband or none were sent, with the node Online and a table in force, and otherwise nothing changes; SETPOINTS still queued
are replaced in place (R126, R165). -/
def Obligations.SilenceStalenessAndSetpoints : Prop :=
  (∀ s : State,
    (s.sup.linkTimer.isSome = true → s.sup.silent = false → exec .linkSilent s = .next (State.place { s with sup := { s.sup with
      silent := true, linkTimer := some s.profile.tLink, ceilings := { s.sup.ceilings with silent := some s.profile.vSilent } } }
      .linkSilent)) ∧
    (s.sup.linkTimer = none ∨ s.sup.silent = true → exec .linkSilent s = .next s)) ∧
  (∀ s : State, s.pins.loaded = true → s.pins.resetLow = false →
    (10000 < s.cond.age → exec .temperatureStale s = .next s) ∧
    (s.cond.age ≤ 10000 → Completes .temperatureStale s fun t =>
      t.core = s.core ∧
      t.cond = { s.cond with age := 10001, heatCeiling := s.cond.inForce.map fun _ => s.profile.vCrawl } ∧
      (s.profile.heatAction = .derate → t.sup.ceilings.heat =
        if s.cond.inForce.isSome ∧ s.profile.vCrawl < s.profile.vMax then some s.profile.vCrawl else none) ∧
      (s.profile.heatAction = .hold → t.sup.ceilings.heat = none ∧
        (s.sup.line = .run ∨ s.sup.line = .hold → t.sup.holds.heat = s.cond.inForce.isSome)))) ∧
  (let placed (s t : State) (p : Setpoints) : Prop := t.cond.lastSent = some p ∧ t.line = { s.line with
      normal := if s.line.normal.any Command.isSetpoints then
        s.line.normal.map fun c => if c.isSetpoints then ⟨.conditioning, .setpoints p⟩ else c
        else s.line.normal ++ [⟨.conditioning, .setpoints p⟩] }
   (∀ (s : State) (ready : Bool),
    let t := s.advancePhase ready .glue
    let gives (g : Nat) : Prop := ∃ z, s.zoneAt (s.web.w + s.profile.pGlue) = some z ∧
      ((z.kind = .order ∧ s.gradeOfZone z = some g) ∨
        ((z.kind = .thread ∨ (z.kind = .runout ∧ z.stop.isSome = true)) ∧
          ∃ y, s.orderZoneAfter z.start = some y ∧ s.gradeOfZone y = some g))
    ((∀ g, gives g → s.cond.glueGrade = some g) → t = s) ∧
    (∀ g, gives g → s.cond.glueGrade ≠ some g →
      let table := (s.grade? g).bind fun d => s.cond.tables.getD d.table none
      OnlyChanges [.cond, .sup, .orders, .line, .host] s t ∧ t.cond.glueGrade = some g ∧ t.cond.inForce = table ∧
      t.cond.heatCeiling = t.computeCeiling ∧ t.cond.lastTemp = s.cond.lastTemp ∧ t.cond.age = s.cond.age ∧
      (∀ l, table = some l → s.online .conditioning = true → placed s t (setpointsAt l s.web.v)) ∧
      (table = none ∨ s.online .conditioning = false → t.cond.lastSent = s.cond.lastSent ∧ t.line = s.line))) ∧
   (∀ (s : State) (lost : Bool),
    let t := s.gatePhase lost .setpoints
    let due := ∀ p, s.cond.lastSent = some p → p.speed + s.profile.deadband ≤ s.web.v ∨ s.web.v + s.profile.deadband ≤ p.speed
    (∀ l, due → s.cond.inForce = some l → s.online .conditioning = true →
      placed s t (setpointsAt l s.web.v) ∧ OnlyChanges [.cond, .line] s t ∧ t.cond = { s.cond with lastSent := t.cond.lastSent }) ∧
    (¬ due ∨ s.cond.inForce = none ∨ s.online .conditioning = false → t = s)))

/-- Splice plans as the board nears their targets. Arming (R108), falling due with the limit a Blocked plan takes (R109), the last call
and the wait holders of SPLICE_WAIT by readiness (R29, R107), and the arbiter (R110): with the supply Ready, none Firing and fewer than 12
marks it grants to the Due plan of least Lf that has a usable standby and an Online node, an absent Lf first and ties to the lower stand,
and otherwise to none. When the air is Ready again the last acknowledgement goes and the arbiter runs: what it grants, with its FIRE
queued urgent, ranks no later than any plan grantable before (R110, R116). The recharge's end acts whatever the remaining recharge reads
and does nothing when the supply is Ready (the model's choice, notes/assumptions/3). -/
def Obligations.ReadinessAndGrant : Prop :=
  let first (s : State) (j : Stand) : Prop := ∀ k, s.grantable k = true →
    (s.plan j).rank < (s.plan k).rank ∨ ((s.plan j).rank = (s.plan k).rank ∧ standCode j ≤ standCode k)
  (∀ (s : State) (ready lost : Bool),
    s.gatePhase lost .spliceArm = s.advancePhase ready .spliceArm ∧ s.gatePhase lost .spliceReady = s.advancePhase ready .spliceReady ∧
    (∀ i, (s.advancePhase ready .spliceArm).plan i =
      if (s.plan i).state = .planned ∧ (s.plan i).target.getD 0 ≤ s.web.w + s.dApp s.spliceLimit + s.profile.guard then
        { s.plan i with state := .armed, limit := some s.spliceLimit }
      else s.plan i) ∧
    (∀ i target, (s.plan i).target = some target →
      let t := s.advancePhase ready (.spliceDue i)
      (s.web.w < target → t.splice = s.splice ∧ t.line = s.line) ∧
      (target ≤ s.web.w → (s.plan i).state = .armed ∨ (s.plan i).state = .blocked →
        (t.plan i).target = some target ∧ ((t.plan i).state = .due ∨ (t.plan i).state = .firing) ∧
        ((t.plan i).state = .due → (t.plan i).limit =
          if (s.plan i).state = .armed then (s.plan i).limit else some s.spliceLimit))) ∧
    (∀ i target, (s.plan i).target = some target →
      let t := s.advancePhase ready .spliceReady
      let called := (s.plan i).state ≠ .idle ∧ (s.plan i).state ≠ .firing
      let passed := (s.plan i).lastCall = true ∨ target ≤ s.web.w + s.dStop + s.profile.guard
      let prepared := (s.plan i).state ≠ .blocked ∧ s.online (.stand i) = true ∧ s.planUsable i = true ∧
        (s.splice.recharging = false ∨ s.web.w * 600 + s.web.v * s.splice.remaining ≤ target * 600)
      (called → ((t.plan i).lastCall = true ↔ passed)) ∧
      (s.sup.line = .run ∨ s.sup.line = .hold →
        (t.sup.spliceWait.get i = true ↔ called ∧ passed ∧ s.web.w < target ∧ ¬ prepared) ∧
        t.sup.holds.spliceWait = stands.any t.sup.spliceWait.get)) ∧
    (let t := s.arbiter
     let may := s.splice.recharging = false ∧ s.anyFiring = false ∧ s.map.marks.length < 12 ∧ ∃ i, s.grantable i = true
     (may → ∃ j, s.grantable j = true ∧ first s j ∧
        t.plan j = { s.plan j with
          state := .firing, limit := none, late := some (decide ((s.plan j).target.getD 0 < s.web.w)), lastCall := false } ∧
        (∀ k, k ≠ j → t.plan k = s.plan k) ∧ t.line.urgent = s.line.urgent ++ [⟨.stand j, .fire⟩]) ∧
     (¬ may → t = s))) ∧
  (∀ s : State,
      (s.splice.recharging = false → exec .airRechargeEnd s = .next s) ∧
      (s.splice.recharging = true → Completes .airRechargeEnd s fun t =>
        t.core = s.core ∧ t.splice.recharging = false ∧ t.splice.remaining = 0 ∧ t.splice.lastAck = none ∧ t.reels = s.reels ∧
        t.orders = s.orders ∧ t.map = s.map ∧
        ((∃ i, s.grantable i = true) → s.anyFiring = false → s.map.marks.length < 12 →
          ∃ j, s.planUsable j = true ∧ s.online (.stand j) = true ∧ first s j ∧ (t.plan j).state = .firing ∧
            t.line.urgent = s.line.urgent ++ [⟨.stand j, .fire⟩])))

/-- A planning pass. The window of a stand with an estimate and a take-up factor (R100); the fits of the transitions in the map (R102);
the choice of R103: the first eligible fit that keeps separation from the references, else the greatest coordinate of the window that
does, else Blocked at the first candidate, when none does. A pass outside Run and Hold does nothing (R101). In Run and Hold it changes no
record of another block but the wait, the ceiling, the events and a FIRE that becomes due; fixed plans keep kind, target and target zone;
each movable plan of a stand with a window gets the window found, a target in it and kind PLANNED or LATEST; one without a window, and
with no held target, is Idle; and two plans that it leaves Planned, or Armed at once, keep separation, as they do from a fixed plan's
target and from the last acknowledgement while the supply recharges (R101 to R104; that what follows at once is taken in the same pass is
notes/assumptions/36). -/
def Obligations.PlanningPass : Prop :=
  (∀ (s : State) (i : Stand),
    (∀ l, s.estimate i = some l → s.configured i = true → 0 < s.takeUp i →
      let butt := if (s.standRecord i).estimate then 2 * s.profile.lButt else s.profile.lButt
      let latest := s.web.w + (l - butt) * 1000 / s.takeUp i
      s.window i = some { earliest := min (s.web.w + (l - s.profile.lOpen) * 1000 / s.takeUp i) latest, latest := latest }) ∧
    (s.estimate i = none ∨ s.configured i = false ∨ s.takeUp i = 0 → s.window i = none) ∧
    (∀ w target start, (target, start) ∈ s.fits i w ↔ ∃ z ∈ s.map.zones, z.kind = .transition ∧ z.start = start ∧
      target + s.profile.path.get i = z.start + s.profile.margin ∧ w.earliest ≤ target ∧ target ≤ w.latest ∧
      ∀ e, z.stop = some e → z.start + s.profile.margin + s.profile.markLength ≤ e)) ∧
  (∀ (s : State) (i : Stand) (w : Window) (refs : List Nat), w.earliest ≤ w.latest →
    let c := s.choose i w refs
    let apart (x : Nat) : Prop := ∀ r ∈ refs, s.separation + r ≤ x ∨ s.separation + x ≤ r
    (s.separation = ceilDiv (s.web.v * s.profile.tAir) 600) ∧
    (c.blocked = false → apart c.target ∧ w.earliest ≤ c.target ∧ c.target ≤ w.latest) ∧
    (∀ pre f post, s.fits i w = pre ++ f :: post → (∀ x ∈ pre, ¬ apart x.1) → apart f.1 →
      c = { kind := .planned, target := f.1, zone := some f.2, blocked := false }) ∧
    ((∀ f ∈ s.fits i w, ¬ apart f.1) →
      (c.blocked = false → c.kind = .latest ∧ c.zone = none ∧ ∀ x, w.earliest ≤ x → x ≤ w.latest → apart x → x ≤ c.target) ∧
      (c.blocked = true → ∀ x, w.earliest ≤ x → x ≤ w.latest → ¬ apart x)) ∧
    (c.blocked = true → (s.fits i w = [] → c.kind = .latest ∧ c.target = w.latest ∧ c.zone = none) ∧
      ∀ f rest, s.fits i w = f :: rest → c.kind = .planned ∧ c.target = f.1 ∧ c.zone = some f.2)) ∧
  (∀ s : State, s.sup.line ≠ .run → s.sup.line ≠ .hold → s.pass = s) ∧
  (∀ s : State, s.sup.line = .run ∨ s.sup.line = .hold →
    let t := s.pass
    let laid (i : Stand) : Prop := (s.plan i).movable = true ∧ (s.window i).isSome = true ∧
      ((t.plan i).state = .planned ∨ (t.plan i).state = .armed)
    let apart (x y : Nat) : Prop := s.separation + y ≤ x ∨ s.separation + x ≤ y
    t.core = s.core ∧ OnlyChanges [.sup, .splice, .line, .host] s t ∧
    (∀ i, s.configured i = true → (s.plan i).movable = false →
      (t.plan i).kind = (s.plan i).kind ∧ (t.plan i).target = (s.plan i).target ∧ (t.plan i).targetZone = (s.plan i).targetZone) ∧
    (∀ i w, (s.plan i).movable = true → s.window i = some w →
      (t.plan i).state ≠ .idle ∧ ((t.plan i).kind = some .planned ∨ (t.plan i).kind = some .latest) ∧
      (t.plan i).earliest = some w.earliest ∧ (t.plan i).latest = some w.latest ∧
      ∃ target, (t.plan i).target = some target ∧ w.earliest ≤ target ∧ target ≤ w.latest) ∧
    (∀ i, s.configured i = true → (s.plan i).movable = true → s.window i = none → (s.plan i).held = none →
      (t.plan i).state = .idle ∧ (t.plan i).earliest = none ∧ (t.plan i).latest = none) ∧
    (∀ i x, laid i → (t.plan i).target = some x →
      (∀ j y, j ≠ i → laid j → (t.plan j).target = some y → apart x y) ∧
      (∀ j y, s.configured j = true → (s.plan j).movable = false → (s.plan j).target = some y → apart x y) ∧
      (∀ y, s.splice.recharging = true → s.splice.lastAck = some y → apart x y)))

/-- How a set, an engage and a stack change end. A result that a poll answer of the node carries is taken when it is of the command
awaited and the block is still making it. A set done makes the station Set, and its first swap is taken at once if it is due (R138, R139);
an engage done makes it Engaged and the outgoing station leaves Engaged, also one that the entry did not name (R140;
notes/assumptions/53); a change done places STACK_DONE and moves the first run onto a stack of its own, closed at once when it is full or
credited (R156). A failed result and a timer's end do the same: a Setting or Swapping station becomes Faulted with SET_FAIL latched, a
Changing stacker with STACK_FAULT and its stack and buffer gone; a swap that fails is a cause of Safe stop in Run and Hold, a set that
fails is not (R138, R140, R157). A timeout acts whatever its timer reads, and with the timer stopped nothing happens (the model's choice,
notes/assumptions/3). That SET_DONE of a failure and of ENGAGE carries no counts is its choice too (notes/assumptions/40), and that the
condition reported beside a result is used for nothing its deduction (notes/assumptions/37). -/
def Obligations.StationAndStackResults : Prop :=
  (∀ (s : State) (x : Station),
      let faulted (t : State) : Prop := t.core = s.core ∧
        t.station x = { state := .faulted, retained := none, timer := none, outgoing := none } ∧
        (t.node (.station x)).latches.setFail = true
      ((s.station x).timer = none → exec (.setTimeout x) s = .next s ∧ exec (.engageTimeout x) s = .next s) ∧
      ((s.station x).timer.isSome = true → (s.station x).state = .setting → Completes (.setTimeout x) s fun t =>
        faulted t ∧ t.sup.trips = s.sup.trips ∧ t.sup.cause = s.sup.cause) ∧
      ((s.station x).timer.isSome = true → (s.station x).state = .swapping → Completes (.engageTimeout x) s fun t =>
        faulted t ∧ (s.sup.line = .run ∨ s.sup.line = .hold →
          t.sup.line = .safeStop ∧ t.sup.cause = .sectionLine ∧ t.sup.trips = s.sup.trips + 1)) ∧
      (s.router.timer = none → exec .stackChangeTimeout s = .next s) ∧
      (s.router.timer.isSome = true → s.router.stacker = .changing → Completes .stackChangeTimeout s fun t =>
        t.core = s.core ∧ (t.node .stacker).latches.stackFault = true ∧ t.router.stacker = .faulted ∧ t.router.stack = none ∧
        t.router.buffer = [] ∧ t.router.timer = none ∧ t.router.sheets = s.router.sheets)) ∧
  (∀ (s : State) (a : Answer) (f : InFlight) (x : Station) (c : StationCondition) (ok : Bool) (txn : Byte) (routes : List Route),
    s.line.inFlight = some f → f.ask = .poll routes → f.node = .station x → s.online (.station x) = true →
    f.TakenWith a { fault := false, body := .poll (.station c (some { ok := ok, txn := txn })) } →
    let r := s.station x
    let taken := (s.node (.station x)).awaited = some txn
    let faulted (t : State) : Prop := t.core = s.core ∧ t.line.inFlight = none ∧
      t.station x = { state := .faulted, retained := none, timer := none, outgoing := none } ∧
      (t.node (.station x)).latches.setFail = true
    (¬ taken → exec (.pollAnswer a) s = .next
      (State.modNode { s with line := { s.line with inFlight := none } } (.station x) fun n => { n with missed := 0 })) ∧
    (taken → r.state ≠ .setting → r.state ≠ .swapping → exec (.pollAnswer a) s = .next
      (State.modNode { s with line := { s.line with inFlight := none } } (.station x) fun n =>
        { n with missed := 0, awaited := none })) ∧
    (taken → r.state = .setting → ok = true → s.map.deferrals = 0 → Completes (.pollAnswer a) s fun t =>
      t.core = s.core ∧ t.line.inFlight = none ∧
      t.HasEvent s.web.w (.setDone x .set .ok (r.retained.map (·.slits.length)) (r.retained.map (·.scores.length))) ∧
      ((∀ e ∈ s.cut.swaps, e.incoming ≠ x) → t.station x = { r with state := .set, timer := none }) ∧
      (∀ e rest, s.cut.swaps = e :: rest → e.incoming = x → r.retained = some e.tools → s.web.w < e.point →
        t.station x = { r with state := .set, timer := none }) ∧
      (∀ e rest, s.cut.swaps = e :: rest → e.incoming = x → r.retained = some e.tools → e.point ≤ s.web.w →
        t.station x = { r with state := .swapping, timer := none, outgoing := e.outgoing } ∧
          ⟨.station x, .engage⟩ ∈ t.line.urgent ∧ t.cut.swaps <:+ rest)) ∧
    (taken → r.state = .setting → ok = false → Completes (.pollAnswer a) s fun t =>
      faulted t ∧ t.HasEvent s.web.w (.setDone x .set .failed none none) ∧ t.sup.trips = s.sup.trips ∧ t.sup.cause = s.sup.cause) ∧
    (taken → r.state = .swapping → ok = true → r.outgoing ≠ some x → Completes (.pollAnswer a) s fun t =>
      t.core = s.core ∧ t.line.inFlight = none ∧
      t.station x = { r with state := .engaged, timer := none, outgoing := none } ∧ (t.station (otherStation x)).state ≠ .engaged ∧
      (s.map.deferrals = 0 → t.HasEvent s.web.w (.setDone x .engage .ok none none))) ∧
    (taken → r.state = .swapping → ok = false → Completes (.pollAnswer a) s fun t =>
      faulted t ∧ t.HasEvent s.web.w (.setDone x .engage .failed none none) ∧
      (s.sup.line = .run ∨ s.sup.line = .hold →
        t.sup.line = .safeStop ∧ t.sup.cause = .sectionLine ∧ t.sup.trips = s.sup.trips + 1))) ∧
  (∀ (s : State) (a : Answer) (f : InFlight) (seq : Nat) (ok : Bool) (txn : Byte) (routes : List Route),
    s.line.inFlight = some f → f.ask = .poll routes → f.node = .stacker → s.online .stacker = true →
    f.TakenWith a { fault := false, body := .poll (.stacker seq (some { ok := ok, txn := txn })) } →
    s.line.nodes.stacker.awaited = some txn → s.router.stacker = .changing →
    let raise (t : State) (n : Nat) (good closed : Nat) : Prop :=
      t.orders = { s.orders with list := s.orders.list.map fun o =>
        if o.number = n then { o with good := o.good + good, stackTotal := o.stackTotal + closed } else o }
    let done (t : State) (moved : Nat) : Prop := t.core = s.core ∧ t.line.inFlight = none ∧ t.line.routes = acceptRoutes seq s.line.routes ∧
      ∀ k why, s.router.stack = some k → s.router.reason = some why →
        t.host = (s.place (.stackDone k.order k.number k.count why moved)).host
    (ok = true → s.router.buffer = [] → Completes (.pollAnswer a) s fun t =>
      done t 0 ∧ t.orders = s.orders ∧
      t.router = { s.router with stacker := .stacking, stack := none, reason := none, timer := none }) ∧
    (∀ r rest, ok = true → s.router.buffer = r :: rest → r.credit = none →
      let height := s.heightOf r.order
      let moved := min r.count height
      let left := if r.count ≤ height then rest else { r with count := r.count - height } :: rest
      let stack : Stack := { order := r.order, number := s.stacksOf r.order + 1, count := moved }
      Completes (.pollAnswer a) s fun t => done t moved ∧
        (moved < height → raise t r.order moved 0 ∧ t.router =
          { s.router with stacker := .stacking, stack := some stack, buffer := left, reason := none, timer := none }) ∧
        (height ≤ moved → raise t r.order moved 1 ∧ t.line.normal = s.line.normal ++ [⟨.stacker, .changeStack .height⟩] ∧
          t.router = { s.router with
            stacker := .changing, stack := some stack, buffer := left, reason := some .height, timer := none })) ∧
    (∀ r rest k, ok = true → s.router.buffer = r :: rest → r.credit = some k →
      let moved := min r.count k.height
      let left := if r.count ≤ k.height then rest
        else { r with count := r.count - k.height, credit := some { k with nextStack := k.nextStack + 1 } } :: rest
      let why : ChangeReason := if k.height ≤ moved then .height else .orderEnd
      Completes (.pollAnswer a) s fun t => done t moved ∧ t.orders = s.orders ∧
        t.line.normal = s.line.normal ++ [⟨.stacker, .changeStack why⟩] ∧
        t.router = { s.router with
          stacker := .changing, stack := some { order := r.order, number := k.nextStack, count := moved }, buffer := left
          reason := some why, timer := none }) ∧
    (ok = false → Completes (.pollAnswer a) s fun t =>
      t.core = s.core ∧ t.line.inFlight = none ∧ (t.node .stacker).latches.stackFault = true ∧ t.router.stacker = .faulted ∧
      t.router.stack = none ∧ t.router.buffer = [] ∧ t.router.timer = none ∧ t.router.sheets = s.router.sheets))

/-! ### The section line -/

/-- The next transaction: the oldest urgent command, else the oldest normal one, else a poll of the next Online node after the poll
pointer, else none; the request takes the transaction number, which rises and wraps, and its deadline is 25 ms. One transaction at a time
(R164, R165, R166). -/
def Obligations.TransactionChoice : Prop :=
  ∀ s : State,
    let sent (n : Node) (a : Ask) (t : State) : Prop :=
      t.core = s.core ∧ t.line.txn = s.line.txn + 1 ∧
      (∃ frame, t.line.inFlight = some { node := n, ask := a, txn := s.line.txn, deadline := 25, frame := frame } ∧
        frame = sectionFrameBytes (BitVec.ofNat 8 (nodeAddress n)) (BitVec.ofNat 8 (askKind a)) s.line.txn (askPayload n a)) ∧
      OnlyChanges [.line] s t
    (s.line.inFlight.isSome = true → exec .sectionTransactionStart s = .next s) ∧
    (∀ c rest, s.line.inFlight = none → s.line.urgent = c :: rest → Completes .sectionTransactionStart s fun t =>
      sent c.node c.ask t ∧ t.line.urgent = rest ∧ t.line.normal = s.line.normal ∧ t.line.pointer = s.line.pointer) ∧
    (∀ c rest, s.line.inFlight = none → s.line.urgent = [] → s.line.normal = c :: rest → Completes .sectionTransactionStart s fun t =>
      sent c.node c.ask t ∧ t.line.urgent = [] ∧ t.line.normal = rest ∧ t.line.pointer = s.line.pointer) ∧
    (∀ n, s.line.inFlight = none → s.line.urgent = [] → s.line.normal = [] → s.online n = true →
      (s.line.pointer < nodeAddress n ∨ ∀ k, s.online k = true → nodeAddress k ≤ s.line.pointer) →
      (∀ k, s.online k = true → nodeAddress k < nodeAddress n → nodeAddress k ≤ s.line.pointer ∧ s.line.pointer < nodeAddress n) →
      Completes .sectionTransactionStart s fun t =>
        sent n (.poll (if n = .stacker then s.line.routes.take 16 else [])) t ∧ t.line.pointer = nodeAddress n ∧
        t.line.nodes = s.line.nodes ∧ t.line.routes = s.line.routes) ∧
    (s.line.inFlight = none → s.line.urgent = [] → s.line.normal = [] → (∀ k, s.online k = false) →
      exec .sectionTransactionStart s = .next s)

/-- The deadline's end is a missed answer: the third poll missed in a row and any missed command latch NO_ANSWER for a node in
Initialising or Online, and for one made Faulted in the meantime, which stays so; a missed FIRE spends the air and marks the board; a node
taken Offline or out of the mask in the meantime only loses the transaction (R112, R168, R169). An answer taken from a node no longer in
service sets its count to 0, hands nothing on, and latches NODE_FAULT where it carries a fault indication or is an INIT reply of the wrong
kind. It acts whatever the deadline reads, and with no request in flight nothing happens (the model's choice, notes/assumptions/3). A node
in service that NO_ANSWER makes Faulted has nothing queued for it, and by its role at that moment (R170; notes/assumptions/16): the
stacker and the conditioning node raise SECTION, not acknowledged; a stand that feeds the web or is Firing, and a station Engaged or
Swapping, are a cause of Safe stop in Run and Hold; another stand or station is none. -/
def Obligations.MissedAnswers : Prop :=
  ∀ s : State,
    (s.line.inFlight = none → exec .answerDeadline s = .next s) ∧
    (∀ f, s.line.inFlight = some f →
      let counts := (s.node f.node).service = .initialising ∨ (s.node f.node).service = .online ∨
        (s.node f.node).service = .faulted
      let ended : State := { s with line := { s.line with inFlight := none } }
      (f.ask ≠ .fire → ¬ counts → exec .answerDeadline s = .next ended) ∧
      (∀ routes, f.ask = .poll routes → counts → (s.node f.node).missed < 2 → exec .answerDeadline s = .next
        (ended.modNode f.node fun r => { r with missed := r.missed + 1 })) ∧
      (∀ routes, f.ask = .poll routes → counts → 2 ≤ (s.node f.node).missed → Completes .answerDeadline s fun t =>
        t.core = s.core ∧ t.line.inFlight = none ∧ (t.node f.node).latches.noAnswer = true) ∧
      ((∀ routes, f.ask ≠ .poll routes) → counts → Completes .answerDeadline s fun t =>
        t.core = s.core ∧ t.line.inFlight = none ∧ (t.node f.node).latches.noAnswer = true) ∧
      (∀ i, f.node = .stand i → f.ask = .fire → (s.plan i).state = .firing → (∀ c ∈ s.line.urgent, c.node ≠ .stand i) →
        Completes .answerDeadline s fun t => t.core = s.core ∧ t.splice.recharging = true ∧
          t.splice.lastAck = some s.web.w ∧ s.spliceMark i ∈ t.map.marks) ∧
      ((s.node f.node).service = .faulted → ∀ routes, f.ask = .poll routes → Completes .answerDeadline s fun t =>
        (t.node f.node).service = .faulted ∧ t.cond = s.cond ∧ t.cut = s.cut ∧ t.reels = s.reels ∧ t.sup = s.sup) ∧
      let n := s.node f.node
      let moving := s.sup.line = .run ∨ s.sup.line = .hold
      (n.latches.noAnswer = false → n.service = .initialising ∨ n.service = .online →
        (∃ routes, f.ask = .poll routes ∧ 2 ≤ n.missed) ∨ (∀ routes, f.ask ≠ .poll routes) →
        Completes .answerDeadline s fun t =>
          let stops := t.sup.line = .safeStop ∧ t.sup.cause = .sectionLine ∧ t.sup.trips = s.sup.trips + 1
          let none_ := t.sup.trips = s.sup.trips ∧ t.sup.cause = s.sup.cause
          (t.node f.node).service = .faulted ∧ (∀ c ∈ t.line.urgent ++ t.line.normal, c.node ≠ f.node) ∧
          t.HasEvent s.web.w (.sectionFault f.node .noAnswer { n.latches with noAnswer := true }) ∧
          (f.node = .conditioning ∨ f.node = .stacker → none_ ∧ t.line.acked = false ∧
            (moving → t.sup.holds = { s.sup.holds with section_ := true } ∧ (s.sup.holds.section_ = false → t.sup.line = .hold)) ∧
            (¬ moving → t.sup = s.sup)) ∧
          (∀ i, f.node = .stand i →
            let feeds := (s.standRecord i).runningArm.isSome = true ∧ ∀ g, s.reels.grade = some g → s.codeOf g i ≠ some 0
            (feeds ∨ (s.plan i).state = .firing → moving → stops) ∧ (¬ feeds → (s.plan i).state ≠ .firing → none_)) ∧
          (∀ x, f.node = .station x →
            let working := (s.station x).state = .engaged ∨ (s.station x).state = .swapping
            (working → moving → stops) ∧ (¬ working → none_)))) ∧
    (∀ (f : InFlight) (a : Answer) (c : Content), s.line.inFlight = some f →
      (s.node f.node).service = .offline ∨ (s.node f.node).service = .faulted → f.TakenWith a c →
      let indicts := c.fault = true ∨ ∃ b, c.body = .init b ∧ b.suits f.node = false
      let u := State.modNode { s with line := { s.line with inFlight := none } } f.node fun r => { r with missed := 0 }
      let n := s.node f.node
      let v := (u.modNode f.node fun r => { r with latches := { r.latches with nodeFault := true } }).place
        (.sectionFault f.node .nodeFault { n.latches with nodeFault := true })
      let ends (command : Instr) : Prop := (indicts → n.latches.nodeFault = false → exec command s = .next v) ∧
        (¬ indicts ∨ n.latches.nodeFault = true → exec command s = .next u)
      (∀ routes, f.ask = .poll routes → ends (.pollAnswer a)) ∧ (f.ask = .init → ends (.initReply a)))

/-- A frame whose check fails, whose address or transaction number is not the request's, or that comes with no request in flight is
ignored, whatever kind it has; a matching frame of the wrong kind or of malformed content ends the transaction as a missed answer. Every
arriving frame is judged alike, a matching one ends the transaction, and none changes a core item (R164; that the command of an ignored
frame judges any frame is the model's choice, notes/assumptions/30). -/
def Obligations.FramesIgnored : Prop :=
  (∀ (s : State) (a : Answer) (kind : Byte),
    let ignored (k : Byte) : Prop := ∀ g, s.line.inFlight = some g →
      a.check ≠ crc (sectionCovered a.address k a.txn a.payload) ∨ a.address ≠ BitVec.ofNat 8 (nodeAddress g.node) ∨ a.txn ≠ g.txn
    (ignored kind → exec (.sectionFrameIgnored kind a) s = .next s) ∧
    (ignored 0x81#8 → exec (.initReply a) s = .next s) ∧
    (ignored 0x82#8 → exec (.pollAnswer a) s = .next s) ∧
    (ignored 0x83#8 → exec (.fireAcknowledged a) s = .next s) ∧
    (ignored 0x84#8 → exec (.engageAnswer a) s = .next s) ∧
    (ignored 0x85#8 → exec (.setAnswer a) s = .next s) ∧
    (ignored 0x86#8 → exec (.setpointsAnswer a) s = .next s) ∧
    (ignored 0x87#8 → exec (.changeStackAnswer a) s = .next s)) ∧
  (∀ (s : State) (a : Answer) (kind : Byte) (f : InFlight), s.line.inFlight = some f → f.answeredBy kind a = true →
    kind ≠ BitVec.ofNat 8 (askKind f.ask + 0x80) ∨ contentOf f.node f.ask a.payload = none →
    exec (.sectionFrameIgnored kind a) s = exec .answerDeadline s) ∧
  (∀ (s : State) (a : Answer) (kind : Byte), Completes (.sectionFrameIgnored kind a) s fun t => t.core = s.core ∧
    ∀ f, s.line.inFlight = some f → f.answeredBy kind a = true → t.line.inFlight = none) ∧
  (∀ (s : State) (a : Answer),
    exec (.sectionFrameIgnored 0x81#8 a) s = exec (.initReply a) s ∧ exec (.sectionFrameIgnored 0x82#8 a) s = exec (.pollAnswer a) s ∧
    exec (.sectionFrameIgnored 0x83#8 a) s = exec (.fireAcknowledged a) s ∧
    exec (.sectionFrameIgnored 0x84#8 a) s = exec (.engageAnswer a) s ∧
    exec (.sectionFrameIgnored 0x85#8 a) s = exec (.setAnswer a) s ∧
    exec (.sectionFrameIgnored 0x86#8 a) s = exec (.setpointsAnswer a) s ∧
    exec (.sectionFrameIgnored 0x87#8 a) s = exec (.changeStackAnswer a) s)

/-- An INIT reply without a fault indication whose kind is its node's makes an Initialising node Online with its missed-poll count 0, and
the owning block takes the reported conditions: a station is Engaged if so reported and the other is not, and otherwise Parked with its
retained set absent, from where its next swap's set, if one waits, is commanded at once (R137, R141); the conditioning node has SETPOINTS of
the table in force, if there is one, at the present speed placed and kept as last sent, those still queued replaced in place (R126, R132,
R165); the stacker has an empty stack and buffer, what it still held counted as at a loss of the stacker
(R153); with no deferral pending, an INIT still queued for the conditioning
node or the stacker leaves the queue unsent (the model's choice, notes/assumptions/69); a stand its arms, by the table of R98, unless its plan is Firing. SECTION leaves the hold reason set when it is acknowledged and
the stacker and the conditioning node are both Online then (R170). One of another kind, or with a fault indication, latches NODE_FAULT,
whatever node it is, and hands nothing on (R98, R141, R157, R163, R169; what stands beside a fault indication by notes/assumptions/11, the
condition on the two reported flags by notes/assumptions/25). -/
def Obligations.InitReply : Prop :=
  ∀ (s : State) (a : Answer) (f : InFlight) (b : InitBody), s.line.inFlight = some f → f.ask = .init →
    (s.node f.node).service = .initialising →
    let online (t : State) : Prop := t.core = s.core ∧ t.line.inFlight = none ∧ (t.node f.node).service = .online ∧
      (t.node f.node).missed = 0 ∧ (t.node f.node).latches = (s.node f.node).latches
    let faulted (t : State) : Prop := t.core = s.core ∧ t.line.inFlight = none ∧ (t.node f.node).latches.nodeFault = true ∧
      ((s.node f.node).latches.nodeFault = false → (t.node f.node).service = .faulted) ∧ t.reels = s.reels
    let queued := s.line.normal.filter fun c => c ≠ ⟨f.node, .init⟩
    (f.TakenWith a { fault := false, body := .init b } →
      (f.node = .conditioning → b = .conditioning → Completes (.initReply a) s fun t => online t ∧
        t.sup.holds.section_ = (s.sup.holds.section_ && !(s.line.acked && s.online .stacker)) ∧
        (∀ l, t.cond.inForce = some l → t.cond.lastSent = some (setpointsAt l s.web.v) ∧
          ⟨.conditioning, .setpoints (setpointsAt l s.web.v)⟩ ∈ t.line.normal) ∧
        (s.map.deferrals = 0 →
          (∀ l, s.cond.inForce = some l →
            let p := setpointsAt l s.web.v
            t.cond = { s.cond with lastSent := some p } ∧
            t.line.normal = if queued.any Command.isSetpoints then
              queued.map fun c => if c.isSetpoints then ⟨.conditioning, .setpoints p⟩ else c
              else queued ++ [⟨.conditioning, .setpoints p⟩]) ∧
          (s.cond.inForce = none → t.cond = s.cond ∧ t.line.normal = queued))) ∧
      (f.node = .stacker → b = .stacker → Completes (.initReply a) s fun t =>
        online t ∧ t.router.stacker = .stacking ∧ t.router.stack = none ∧ t.router.buffer = [] ∧
        t.sup.holds.section_ = (s.sup.holds.section_ && !(s.line.acked && s.online .conditioning)) ∧
        (s.map.deferrals = 0 → t.line.normal = queued ∧ t.orders = (s.loseStacker .offline).orders)) ∧
      (∀ i arms, f.node = .stand i → b = .stand arms → Completes (.initReply a) s fun t =>
        online t ∧ t.reels = (if (s.plan i).state = .firing then s.reels
          else { s.reels with stand := s.reels.stand.set i ((s.standRecord i).initialised arms s.web.w) }) ∧
        ((s.plan i).state ≠ .firing →
          let r := s.standRecord i
          let r' := t.standRecord i
          r'.implausible = 0 ∧ r'.lowCount = 0 ∧ r'.estimate = false ∧
          (r'.lowReported = (r.lowReported && decide (r'.runningArm = r.runningArm))) ∧
          (r'.outReported = (r.outReported && decide (r'.runningArm = r.runningArm))) ∧
          (r'.runningArm = none → r'.basis = none) ∧
          ∀ x : Arm,
            let p := arms.get x
            let arm := r.arms.get x
            let arm' := r'.arms.get x
            let both := p.condition = .running ∧ (arms.get x.other).condition = .running
            let asLoaded := p.condition = .loaded ∨ (both ∧ arm.state ≠ .running)
            (p.condition = .empty → arm'.state = .empty ∧ arm'.data = none) ∧
            (asLoaded → arm'.state = (if arm.state = .spent then .spent else .loaded) ∧ arm'.data = arm.data ∧
              arm'.diameter = p.diameter) ∧
            (p.condition = .prepared → arm'.data = arm.data ∧ arm'.diameter = p.diameter ∧
              arm'.state = if arm.state = .spent then .spent else if arm.data.isSome then .prepared else .loaded) ∧
            (p.condition = .running → ¬ asLoaded → (r.arms.get x.other).state ≠ .running ∨ ¬ both →
              arm'.state = .running ∧ arm'.data = arm.data ∧ arm'.diameter = p.diameter ∧
              r'.basis = arm.data.map fun d => { length := remainingLength p.diameter d.core d.caliper, at_ := s.web.w }))) ∧
      (∀ x c, f.node = .station x → b = .station c → Completes (.initReply a) s fun t =>
        let engaged := c = .engaged ∧ (s.station (otherStation x)).state ≠ .engaged
        let setting (tools : ToolSet) : Prop :=
          t.station x = { state := .setting, retained := some tools, timer := none, outgoing := none } ∧
            ⟨.station x, .set tools⟩ ∈ t.line.normal
        let parked : Prop := t.station x = { state := .parked, retained := none, timer := none, outgoing := none }
        online t ∧
        (engaged → t.station x = { state := .engaged, retained := none, timer := none, outgoing := none }) ∧
        (¬ engaged → parked ∨ ∃ tools, setting tools) ∧
        (¬ engaged → s.map.deferrals = 0 → (∀ e ∈ s.cut.swaps, e.incoming ≠ x) → parked) ∧
        (∀ e, ¬ engaged → s.map.deferrals = 0 → s.firstEntry x = some e → setting e.tools)) ∧
      (b.suits f.node = false → Completes (.initReply a) s faulted)) ∧
    (f.TakenWith a { fault := true, body := .init b } → Completes (.initReply a) s faulted)

/-- A poll answer of an Online node is handed on. The plate temperature is recorded with age 0; the order whose ORDER zone contains the glue
point takes it into its least and its greatest plate temperature, and none does with the glue point elsewhere (R127); the heat ceiling is
recomputed from it and applied (R128): under DERATE the HEAT entry appears, changes or goes with its event, an appearing counts for that
order, and under HOLD the reason HEAT is raised or cleared (R129, R130). With no result, or with one that is not of
the command awaited, as a node repeats its latest one (R166), the stacker's routes through the one named leave the list and nothing else
is done, and the condition that a station reports is used for nothing (the model's reading, notes/assumptions/37); a fault indication
latches NODE_FAULT in place of the content (R127, R166, R167, R169; that the content is then dropped is the model's choice,
notes/assumptions/11). Stand reports and results are the subject of other statements. -/
def Obligations.PollAnswer : Prop :=
  ∀ (s : State) (a : Answer) (f : InFlight) (routes : List Route), s.line.inFlight = some f → f.ask = .poll routes →
    s.online f.node = true →
    (∀ temp, f.node = .conditioning → f.TakenWith a { fault := false, body := .poll (.conditioning temp) } →
      Completes (.pollAnswer a) s fun t => t.core = s.core ∧ t.line.inFlight = none ∧ (t.node .conditioning).missed = 0 ∧
        t.cond.lastTemp = some temp ∧ t.cond.age = 0 ∧ t.reels = s.reels ∧ t.map = s.map ∧
        OnlyChanges [.sup, .orders, .cond, .line, .host] s t ∧
        t.line = { s.line with
          inFlight := none, nodes := { s.line.nodes with conditioning := { s.line.nodes.conditioning with missed := 0 } } } ∧
        (let least (m : Option Nat) : Option Nat := some (match m with | none => temp | some x => min x temp)
         let greatest (m : Option Nat) : Option Nat := some (match m with | none => temp | some x => max x temp)
         let reported (o : Order) : Order := { o with tempMin := least o.tempMin, tempMax := greatest o.tempMax }
         let list := s.orders.list.map fun o => if s.orderHere = some o.number then reported o else o
         HeatRecomputed { s with
           cond := { s.cond with lastTemp := some temp, age := 0 }, orders := { s.orders with list := list } } t)) ∧
    (∀ seq result, f.node = .stacker → (∀ r, result = some r → s.line.nodes.stacker.awaited ≠ some r.txn) →
      f.TakenWith a { fault := false, body := .poll (.stacker seq result) } →
      exec (.pollAnswer a) s = .next { s with line := { s.line with
        inFlight := none
        nodes := { s.line.nodes with stacker := { s.line.nodes.stacker with missed := 0 } }
        routes := if s.line.routes.any (fun r => r.sequence = seq) then
            (s.line.routes.dropWhile fun r => r.sequence ≠ seq).drop 1 else s.line.routes } }) ∧
    (∀ x c result, f.node = .station x → (∀ r, result = some r → (s.node (.station x)).awaited ≠ some r.txn) →
      f.TakenWith a { fault := false, body := .poll (.station c result) } →
      exec (.pollAnswer a) s = .next { s with line := { s.line with
        inFlight := none
        nodes := { s.line.nodes with
          station := s.line.nodes.station.set x { s.line.nodes.station.get x with missed := 0 } } } }) ∧
    (∀ b, f.TakenWith a { fault := true, body := .poll b } → Completes (.pollAnswer a) s fun t =>
      t.core = s.core ∧ (t.node f.node).latches.nodeFault = true ∧ t.cond.lastTemp = s.cond.lastTemp ∧ t.cond.age = s.cond.age)

/-- A stand report of an Online node, the plan not Firing, with no result or one not of the command awaited (a node repeats its latest
one, R166): arm A before arm B (notes/assumptions/24). Each arm neither Running nor reported RUNNING is taken by the table of R86 (arm B
unless arm A's gauge reading may have made the plan Firing, which a standby not Prepared excludes, R88). A RUNNING report threads a Loaded
or Prepared arm in Standby and Hold at standstill, with the other arm, if it was Running, left Spent, and nowhere else, and never both
arms nor an Empty or Spent one (R87; standstill in Standby by notes/assumptions/33, the node condition of the arm left Spent kept by
notes/assumptions/28). EMPTY for the Running arm is taken in Standby, Tripped, Lockout and Hold at standstill (R87). No other stand's
records change. A gauge reading: RUNNING reported for the one Running arm of a stand whose plan is not Firing (R91). Up to 2 mm above the
accepted diameter it is plausible: it becomes the accepted diameter and the basis, with the implausible count 0 and estimate-only mode
off; a length of 0 with the board moving is a REEL_OUT (R94). Above, it is counted, up to 3, and nothing else of the reel changes; the
third turns estimate-only mode on and latches GAUGE, with the node left Online (R92). Either way, with reel data, the low filter counts
while the estimate is below L_warn and the standby is not Prepared, returns to 0 otherwise, and reaching its limit for the first time
places REEL_LOW (R93). -/
def Obligations.StandReports : Prop :=
  (∀ (s : State) (a : Answer) (f : InFlight) (i : Stand) (report : PerArm ArmReport)
     (result : Option NodeResult) (routes : List Route),
     s.line.inFlight = some f → f.ask = .poll routes → f.node = .stand i → s.online (.stand i) = true → (s.plan i).state ≠ .firing →
     (∀ r, result = some r → (s.node (.stand i)).awaited ≠ some r.txn) →
     f.TakenWith a { fault := false, body := .poll (.stand report result) } →
     Completes (.pollAnswer a) s fun t =>
       t.core = s.core ∧ t.line.inFlight = none ∧ (∀ j, j ≠ i → t.standRecord j = s.standRecord j) ∧
       ∀ x : Arm,
         let r := s.standRecord i
         let r' := t.standRecord i
         let arm := r.arms.get x
         let arm' := r'.arms.get x
         let p := report.get x
         let q := report.get x.other
         let standing := (s.sup.line = .standby ∨ s.sup.line = .hold) ∧ s.sup.reference = 0 ∧ s.web.v = 0
         let emptiable := s.sup.line = .standby ∨ s.sup.line = .tripped ∨ s.sup.line = .lockout ∨ (s.sup.line = .hold ∧ s.atRest = true)
         (arm.state ≠ .running → p.condition ≠ .running → x = .a ∨ r.arms.a.state ≠ .running ∨ s.runOrHold = false ∨ arm.state ≠ .prepared ∨
            (t.plan i).state ≠ .firing →
           (p.condition = .empty → arm.state = .empty → arm' = arm) ∧
           (p.condition = .empty → arm.state ≠ .empty → arm' = { arm with state := .empty, condition := some .empty, data := none }) ∧
           (p.condition ≠ .empty → arm.state = .spent → arm' = arm) ∧
           (p.condition = .loaded → arm.state = .loaded → arm' = { arm with diameter := p.diameter }) ∧
           (p.condition = .loaded → arm.state = .empty ∨ arm.state = .prepared →
             arm' = { arm with state := .loaded, condition := some .loaded, diameter := p.diameter }) ∧
           (p.condition = .prepared → arm.state = .prepared → arm' = { arm with diameter := p.diameter }) ∧
           (p.condition = .prepared → arm.state = .empty ∨ arm.state = .loaded →
             arm' = { arm with
               state := if arm.data.isSome then .prepared else .loaded, condition := some .prepared, diameter := p.diameter })) ∧
         (p.condition = .running → arm.state = .loaded ∨ arm.state = .prepared →
           (standing → q.condition ≠ .running →
             arm' = { arm with state := .running, condition := some .running, diameter := p.diameter } ∧
             r'.basis = arm.data.map (fun d => { length := remainingLength p.diameter d.core d.caliper, at_ := s.web.w }) ∧
             r'.implausible = 0 ∧ r'.lowCount = 0 ∧ r'.estimate = false ∧ r'.lowReported = false ∧ r'.outReported = false ∧
             ((r.arms.get x.other).state = .running → q.condition ≠ .empty →
               r'.arms.get x.other = { r.arms.get x.other with state := .spent })) ∧
           (¬ standing ∨ q.condition = .running → arm' = arm)) ∧
         (p.condition = .running → arm.state = .empty ∨ arm.state = .spent → arm' = arm) ∧
         (arm.state = .running → q.condition ≠ .running → (r.arms.get x.other).state ≠ .running →
           (p.condition = .empty → emptiable →
             arm' = { arm with state := .empty, condition := some .empty, data := none } ∧ r'.basis = none) ∧
           (p.condition = .empty → ¬ emptiable → arm' = arm) ∧
           (p.condition = .loaded ∨ p.condition = .prepared → arm' = arm))) ∧
  (∀ (s : State) (a : Answer) (f : InFlight) (i : Stand) (report : PerArm ArmReport)
     (result : Option NodeResult) (routes : List Route) (x : Arm),
     s.line.inFlight = some f → f.ask = .poll routes → f.node = .stand i → s.online (.stand i) = true → (s.plan i).state ≠ .firing →
     (∀ r, result = some r → (s.node (.stand i)).awaited ≠ some r.txn) →
     f.TakenWith a { fault := false, body := .poll (.stand report result) } →
     let r := s.standRecord i
     let arm := r.arms.get x
     let d := (report.get x).diameter
     arm.state = .running → (r.arms.get x.other).state ≠ .running → (report.get x).condition = .running →
     Completes (.pollAnswer a) s fun t =>
       let r' := t.standRecord i
       let prepared := (r.arms.get x.other).state = .prepared
       let low := (∃ l, t.estimate i = some l ∧ l < s.profile.lWarn) ∧ ¬ prepared
       let n := min (r.lowCount + 1) s.profile.lowFilter
       let reaches := s.profile.lowFilter ≤ n ∧ r.lowReported = false
       (d ≤ arm.diameter + 2 →
         r'.arms.get x = { arm with diameter := d } ∧ r'.implausible = 0 ∧ r'.estimate = false ∧
         r'.basis = arm.data.map (fun k => { length := remainingLength d k.core k.caliper, at_ := s.web.w }) ∧
         (∀ k, arm.data = some k → remainingLength d k.core k.caliper = 0 → 0 < s.web.v → s.configured i = true →
           r.outReported = false → s.sup.line = .run ∨ s.sup.line = .hold →
           t.sup.line = .safeStop ∧ t.sup.cause = .reelOut ∧ r'.outReported = true)) ∧
       (arm.diameter + 2 < d →
         r'.arms.get x = arm ∧ r'.basis = r.basis ∧ r'.outReported = r.outReported ∧ r'.implausible = min 3 (r.implausible + 1) ∧
         (r.implausible ≠ 2 → r'.estimate = r.estimate ∧ (t.node (.stand i)).latches = (s.node (.stand i)).latches) ∧
         (r.implausible = 2 → r'.estimate = true ∧ (t.node (.stand i)).latches = { (s.node (.stand i)).latches with gauge := true } ∧
           t.online (.stand i) = true)) ∧
       (arm.data.isSome = true → r'.basis.isSome = true → ((r'.arms.get x.other).state = .prepared ↔ prepared) →
         (low → r'.lowCount = n ∧ r'.lowReported = (r.lowReported || decide (s.profile.lowFilter ≤ n)) ∧
           (reaches → s.map.deferrals = 0 → ∃ l, t.estimate i = some l ∧ ∃ standby, (standby = .prepared ↔ prepared) ∧
             t.HasEvent s.web.w (.reelLow i x (arm.data.map (·.reel)) l standby))) ∧
         (¬ low → r'.lowCount = 0 ∧ r'.lowReported = r.lowReported)))

/-- What ends or carries on a Firing splice. The acknowledgement of FIRE spends the air at the present W, starts the result timer and
marks the board: a mark of the profile's length, P_s upstream, LATE if the plan was granted late; SPLICE_FIRED is placed with the plan's
kind and target, the mark's start and the mark's kind (R61, R111, R116). A poll answer of its node while the plan fires leaves the arms as
they are and hands on the result of the FIRE awaited, once: success swaps the arms and reports the butt (R88, R113), failure latches
SPLICE_FAIL, as a result that does not come in time does, and is a cause of Safe stop in Run and Hold (R17, R114). The timeout acts
whatever the result timer reads, and with no Firing plan acknowledged nothing happens (the model's choice, notes/assumptions/3). -/
def Obligations.SpliceAnswers : Prop :=
  (∀ (s : State) (a : Answer) (f : InFlight) (i : Stand) (b : Body), s.line.inFlight = some f → f.ask = .fire → f.node = .stand i →
    s.online (.stand i) = true → (s.plan i).state = .firing → f.TakenWith a { fault := false, body := b } →
    Completes (.fireAcknowledged a) s fun t =>
      t.core = s.core ∧ t.line.inFlight = none ∧ t.plan i = { s.plan i with resultTimer := some 0 } ∧
      t.splice.recharging = true ∧ t.splice.remaining = s.profile.tAir ∧ t.splice.lastAck = some s.web.w ∧
      t.map = { s.map with marks := insertMark (s.spliceMark i) s.map.marks } ∧
      (s.spliceMark i).start = s.web.w + s.profile.path.get i ∧
      (s.spliceMark i).stop = (s.spliceMark i).start + s.profile.markLength ∧
      ((s.plan i).late = some true → (s.spliceMark i).kind = .late) ∧
      t.HasEvent s.web.w (.spliceFired i (s.plan i).kind (s.plan i).target s.web.w (s.web.w + s.profile.path.get i)
        (s.spliceMark i).kind) ∧
      t.orders = s.orders ∧ t.reels = s.reels) ∧
  (∀ (s : State) (a : Answer) (f : InFlight) (i : Stand) (arms : PerArm ArmReport) (ok : Bool) (txn : Byte) (routes : List Route),
    s.line.inFlight = some f → f.ask = .poll routes → f.node = .stand i → s.online (.stand i) = true → (s.plan i).state = .firing →
    f.TakenWith a { fault := false, body := .poll (.stand arms (some { ok := ok, txn := txn })) } →
    let r := s.standRecord i
    ((s.node (.stand i)).awaited ≠ some txn → exec (.pollAnswer a) s = .next
      (State.modNode { s with line := { s.line with inFlight := none } } (.stand i) fun n => { n with missed := 0 })) ∧
    (∀ x, ok = true → (s.node (.stand i)).awaited = some txn → r.runningArm = some x → Completes (.pollAnswer a) s fun t =>
      t.core = s.core ∧ t.line.inFlight = none ∧ (t.node (.stand i)).awaited = none ∧ t.map = s.map ∧
      (t.standRecord i).arms.get x = { r.arms.get x with state := .spent, condition := some .loaded } ∧
      (t.standRecord i).arms.get x.other = { r.arms.get x.other with state := .running, condition := some .running } ∧
      (t.standRecord i).basis = (r.arms.get x.other).data.map (fun d =>
        { length := remainingLength (r.arms.get x.other).diameter d.core d.caliper, at_ := s.web.w }) ∧
      (t.standRecord i).implausible = 0 ∧ (t.standRecord i).lowCount = 0 ∧ (t.standRecord i).estimate = false ∧
      (t.standRecord i).lowReported = false ∧ (t.standRecord i).outReported = false ∧
      (∀ j, j ≠ i → t.standRecord j = s.standRecord j) ∧
      t.HasEvent s.web.w (.spliceDone i x.other x (s.estimate i)) ∧
      (s.sup.line ≠ .run → s.sup.line ≠ .hold → (t.plan i).state = .idle) ∧
      (s.sup.line = .safeStop → s.sup.standstill = 5 → (∀ j, j ≠ i → (s.plan j).state = .idle) →
        t.sup.line = if s.sup.lockFlag then .lockout else .tripped)) ∧
    (ok = false → (s.node (.stand i)).awaited = some txn → Completes (.pollAnswer a) s fun t =>
      t.core = s.core ∧ t.line.inFlight = none ∧ (t.node (.stand i)).awaited = none ∧ (t.plan i).state = .idle ∧
      (t.node (.stand i)).latches.spliceFail = true ∧ t.map.marks = s.map.marks ∧ t.reels = s.reels ∧
      t.HasEvent s.web.w (.spliceFailed i .failed) ∧
      (s.sup.line = .run ∨ s.sup.line = .hold →
        t.sup.line = .safeStop ∧ t.sup.cause = .spliceFail ∧ t.sup.trips = s.sup.trips + 1))) ∧
  (∀ s : State,
      (∀ i, s.resultAwaited = some i → Completes .spliceResultTimeout s fun t =>
        t.core = s.core ∧ (t.plan i).state = .idle ∧ (t.node (.stand i)).latches.spliceFail = true ∧ t.map.marks = s.map.marks ∧
        (s.sup.line = .run ∨ s.sup.line = .hold →
          t.sup.line = .safeStop ∧ t.sup.cause = .spliceFail ∧ t.sup.trips = s.sup.trips + 1)) ∧
      ((∀ i, (s.plan i).state = .firing → (s.plan i).resultTimer = none) → exec .spliceResultTimeout s = .next s))

/-- The answers to SET, ENGAGE and CHANGE STACK start the timer of the operation they acknowledge and do nothing else; the answer to
SETPOINTS only ends its transaction. The change timer keeps the t_stack of its start (R126, R138, R140, R156, R164, R168). -/
def Obligations.CommandAnswers : Prop :=
  ∀ (s : State) (a : Answer) (f : InFlight) (b : Body), s.line.inFlight = some f → s.online f.node = true →
    f.TakenWith a { fault := false, body := b } →
    let u : State := ({ s with line := { s.line with inFlight := none } } : State).modNode f.node fun r => { r with missed := 0 }
    (∀ x tools, f.node = .station x → f.ask = .set tools → exec (.setAnswer a) s = .next
      (if (s.station x).state = .setting then u.modStation x fun r => { r with timer := some 0 } else u)) ∧
    (∀ x, f.node = .station x → f.ask = .engage → exec (.engageAnswer a) s = .next
      (if (s.station x).state = .swapping then u.modStation x fun r => { r with timer := some 0 } else u)) ∧
    (∀ why, f.node = .stacker → f.ask = .changeStack why → exec (.changeStackAnswer a) s = .next
      (if s.router.stacker = .changing then { u with router := { u.router with timer := some 0, limit := s.profile.tStack } } else u)) ∧
    (∀ p, f.ask = .setpoints p → exec (.setpointsAnswer a) s = .next u)

/-! ### Board, cuts and sheets -/

/-- A commit with a ready successor (R68, R69): the open order's end is fixed at its planned end, a TRANSITION zone of the length of R69
follows exactly when a set or a paper changes, the successor's ORDER zone starts behind it, open-ended, with the successor Scheduled and
its grade In use; the deferral count returns to 0, and no mark and no core item changes. A grade-change stand is a configured one to which
the successor's grade gives a code other than 0 that the open order's does not give; the set changes when the successor's is not the open
order's, or, once that order has reached the slitter-scorer, not the one that the engaged station holds (R66; where that set is absent,
notes/assumptions/19). The idle station is the one other than the carrying station (R66, R136; with none carrying, notes/assumptions/64).
The first failing condition of R67 is the deferral reason, (a) with its lowest stand. A check at the horizon that finds none failing
commits, and an end of the new open order inside the horizon is clamped and checked at once (R65); so does a re-check with a deferral
pending (R73).

What R70 hands on (the order among the blocks by notes/assumptions/49). With a set change a swap to the idle station with the successor's
set is appended P_slit ahead of the transition, and the stations stand as the list then asks, SET among it (R135 to R139, R29); without
one they stay. In Run and Hold each grade-change stand is offered a target S_margin into the transition less P_s; an Idle plan takes it,
and so does a normal one whose Lf allows it; else it is held (R105, R106; a taken one goes before an older held one,
notes/assumptions/67). A taken one short of its approach is Planned, its node Online (R67, R104), with a mark length above 0 and no zone
starting beyond. Every other plan that a pass may move, with a window, has a target in it (R101). Outside Run and Hold, and with nothing
changed, no plan changes. The KNIFE and ORDER entries are those of the new zones (R26). -/
def Obligations.BoundaryCommit : Prop :=
  (∀ (s : State) (o succ : Order) (e : Nat), s.openOrder? = some o → o.plannedEnd = some e → s.firstQueued = some succ →
     s.deferReason o succ = none →
     let papers := stands.any (s.gradeChange o succ)
     let change := s.setChange o succ || papers
     let len := max (if s.setChange o succ then s.profile.tSlit else 0)
       (if papers then s.profile.markLength + 2 * s.profile.margin else 0)
     let start := if change then e + len else e
     let t := s.commit o succ
     t.core = s.core ∧ t.map.openOrder = some succ.number ∧ t.map.deferrals = 0 ∧ t.map.marks = s.map.marks ∧
     t.map.zones.length = s.map.zones.length + (if change then 2 else 1) ∧
     (∃ z, t.map.zones.getLast? = some z ∧ z.kind = .order ∧ z.start = start ∧ z.stop = none ∧ z.order = some succ.number) ∧
     (change = true → ∃ z ∈ t.map.zones, z.kind = .transition ∧ z.start = e ∧ z.stop = some (e + len) ∧
       z.setChange = s.setChange o succ ∧ ∀ i, z.stands.get i = s.gradeChange o succ i) ∧
     (∀ x ∈ t.orders.list, x.number = succ.number → x.state = .scheduled ∧ x.zoneStart = some start ∧
       x.planned = x.needed + x.overrun + x.spoiled ∧ x.plannedEnd = some (start + plannedLength x.pattern x.planned)) ∧
     (∀ x ∈ t.orders.list, x.number = o.number → o.number ≠ succ.number → x.zoneEnd = some e) ∧
     (∀ g, s.slot succ.grade = .defined g → t.slot succ.grade = .inUse g)) ∧
  (∀ (s : State) (o succ : Order) (e : Nat), s.openOrder? = some o → o.plannedEnd = some e → s.firstQueued = some succ →
     s.deferReason o succ = none →
     let t := s.commit o succ
     let target (i : Stand) : GradeTarget := { target := e + s.profile.margin - s.profile.path.get i, transition := e }
     let moving := s.sup.line = .run ∨ s.sup.line = .hold
     (s.setChange o succ = true → StationsSettled s t (s.cut.swaps ++ [s.swapTo e succ.tools])) ∧
     (s.setChange o succ = false → t.cut = s.cut ∧ SameSets s t) ∧
     (¬ moving → t.splice = s.splice) ∧
     (s.setChange o succ = false → (∀ i, s.gradeChange o succ i = false) → t.splice = s.splice) ∧
     (∀ i, moving → s.gradeChange o succ i = true →
       GradeOffered s t i (target i) ∧
       ((s.plan i).Takes (target i) → (∀ z ∈ s.map.zones, z.start ≤ e) → (∀ x ∈ s.orders.list, x.number = succ.number → x = succ) →
         0 < s.profile.markLength → s.online (.stand i) = true → s.web.w + s.dApp s.spliceLimit + s.profile.guard < (target i).target →
         (t.plan i).state = .planned)) ∧
     (∀ i w, moving → s.setChange o succ = true ∨ (∃ j, s.gradeChange o succ j = true) →
       (s.plan i).state = .idle ∨ (s.plan i).Normal → ¬ (s.gradeChange o succ i = true ∧ (s.plan i).Takes (target i)) →
       s.window i = some w →
       (t.plan i).earliest = some w.earliest ∧ (t.plan i).latest = some w.latest ∧
         ∃ k f zone, (t.plan i).AimsAt (some k) (some f) zone ∧ (k = .planned ∨ k = .latest) ∧ w.earliest ≤ f ∧ f ≤ w.latest) ∧
     t.sup.ceilings.knife = t.knifeEntry ∧ t.sup.ceilings.order = t.orderEntry ∧
     (∀ z ∈ t.map.zones, s.web.w < z.start →
       (z.start ≤ s.web.w + s.dApp (t.cutRate z) + s.profile.guard → z.nearKnife = true) ∧
       (∀ u, t.capOf z = some u → z.start ≤ s.web.w + s.dApp u + s.profile.guard → z.nearOrder = true)) ∧
     (∀ z, t.map.zones.getLast? = some z →
       (z.nearKnife = true ↔ s.web.w < z.start ∧ z.start ≤ s.web.w + s.dApp (t.cutRate z) + s.profile.guard) ∧
       (z.nearOrder = true ↔ s.web.w < z.start ∧ ∃ u, t.capOf z = some u ∧ z.start ≤ s.web.w + s.dApp u + s.profile.guard))) ∧
  (∀ (s : State) (o succ : Order),
    let code (g : Nat) (i : Stand) (c : Nat) : Prop := ∃ d, s.grade? g = some d ∧ d.codes.get i = c
    let reached := o.zoneStart.getD 0 ≤ s.web.w + s.profile.pSlit
    let engaged (x : Station) : Prop := (s.station x).state = .engaged ∧ (s.station (otherStation x)).state ≠ .engaged
    let fails (i : Stand) : Prop := s.gradeChange o succ i = true ∧ ¬ ∃ (x : Arm) (d : Machine.ReelData),
      ((s.standRecord i).arms.get x.other).state = .running ∧ ((s.standRecord i).arms.get x).state = .prepared ∧
      ((s.standRecord i).arms.get x).data = some d ∧ code succ.grade i d.code
    let lacking := s.setChange o succ = true ∧
      ¬ (s.online (.station s.idleStation) = true ∧ (s.station s.idleStation).state ≠ .faulted)
    (∀ i, s.gradeChange o succ i = true ↔
      s.profile.mask.get i = true ∧ ∃ c, c ≠ 0 ∧ code succ.grade i c ∧ ¬ code o.grade i c) ∧
    (∀ x, reached → engaged x → (s.setChange o succ = true ↔ (s.station x).retained ≠ some succ.tools)) ∧
    (reached → (∀ x, (s.station x).state ≠ .engaged) → s.setChange o succ = true) ∧
    (¬ reached → s.cut.swaps ≠ [] ∨ (∀ x, (s.station x).state = .engaged → (s.station x).retained.isSome = true) →
      (s.setChange o succ = true ↔ o.tools ≠ succ.tools)) ∧
    (∀ x, ¬ reached → s.cut.swaps = [] → engaged x → (s.station x).retained = none → s.setChange o succ = true) ∧
    (∀ l e, s.cut.swaps = l ++ [e] → s.carrying = some e.incoming ∧ s.idleStation = otherStation e.incoming) ∧
    (∀ x, s.cut.swaps = [] → engaged x → s.carrying = some x ∧ s.idleStation = otherStation x) ∧
    (s.cut.swaps = [] → (∀ x, (s.station x).state ≠ .engaged) → s.carrying = none ∧ s.idleStation = .a) ∧
    (∀ i, fails i → (∀ j, fails j → standCode i ≤ standCode j) → s.deferReason o succ = some (.paper, some i)) ∧
    ((∀ i, ¬ fails i) →
      (lacking → s.deferReason o succ = some (.station, none)) ∧
      (¬ lacking → 48 < s.map.zones.length + 2 → s.deferReason o succ = some (.zoneSlots, none)) ∧
      (¬ lacking → s.map.zones.length + 2 ≤ 48 → s.slot succ.grade = .free → s.deferReason o succ = some (.grade, none)) ∧
      (¬ lacking → s.map.zones.length + 2 ≤ 48 → s.slot succ.grade ≠ .free → s.deferReason o succ = none)) ∧
    (s.openOrder? = some o → s.firstQueued = some succ → s.deferReason o succ = none →
      let t := s.commit o succ
      s.horizonCheck = (if t.overdue then State.commitCheck s.orders.list.length true t.clampOpen else t) ∧
      (0 < s.map.deferrals → s.recheck = s.horizonCheck)))

/-- The cut at an advance (R147, R148): when W has reached the next cut the trigger is pulsed, the sheet joins the sheet queue with the
zone's kind and order and whether a mark overlaps it, and the order's cuts rise; a knife that is not ready at or above v_crawl is a cause
of Safe stop in Run and Hold. Before the next cut nothing is done. The next piece of an ORDER zone follows its pattern, that of another
closed zone its division into equal pieces, the first ones 1 mm longer, and that of an open RUNOUT zone is of Lmax (R143, R144); at the
zone's end it is the first piece of the zone that begins there, and with none there the schedule becomes idle. The ratio of the new piece
is presented, with one strobe if the word changes and none if it is the one already presented (R146). -/
def Obligations.CutTaken : Prop :=
  ∀ (s : State) (k : KnifeSchedule) (z : Zone) (ready : Bool), s.cut.schedule = some k → s.zoneFrom k.zone = some z →
    let t := s.advancePhase ready .cut
    let n := if z.kind = .order then z.order else none
    (s.web.w < k.nextCut → t = s) ∧
    (k.nextCut ≤ s.web.w →
      t.core = s.core ∧ t.pins.cutTriggers = s.pins.cutTriggers + 1 ∧ t.map = s.map ∧
      t.cut = { s.cut with schedule := t.cut.schedule, ratio := t.cut.ratio } ∧
      t.router = { s.router with sheets := s.router.sheets ++ [{
        start := k.pieceStart, stop := k.nextCut, kind := z.kind, order := n
        defect := s.map.marks.any fun m => decide (m.start < k.nextCut) && decide (k.pieceStart < m.stop) }] } ∧
      t.orders = { s.orders with list := s.orders.list.map fun o => if some o.number = n then { o with cuts := o.cuts + 1 } else o } ∧
      (z.kind = .order → z.stop ≠ some k.nextCut → t.cut.schedule = some { k with
        pieceStart := k.nextCut, nextCut := k.nextCut + cutLength (s.patternOf z) (k.index + 1), index := k.index + 1 }) ∧
      (z.kind ≠ .order → z.stop ≠ some k.nextCut →
        (∀ p, k.plan = some p → t.cut.schedule = some { k with
          pieceStart := k.nextCut, nextCut := k.nextCut + (p.base + if p.begun < p.longer then 1 else 0)
          plan := some { p with begun := p.begun + 1 } }) ∧
        (k.plan = none → t.cut.schedule = some { k with pieceStart := k.nextCut, nextCut := k.nextCut + s.profile.lmax })) ∧
      (∀ y, z.stop = some k.nextCut → s.zoneFrom k.nextCut = some y →
        let first (len : Nat) (plan : Option PiecePlan) : Prop := t.cut.schedule = some {
          pieceStart := k.nextCut, nextCut := k.nextCut + len, zone := k.nextCut, index := 0, plan := plan }
        (y.kind = .order → first (cutLength (s.patternOf y) 0) none) ∧
        (∀ e, y.kind ≠ .order → y.stop = some e →
          let len := e - k.nextCut
          let n := ceilDiv len s.profile.lmax
          let longer := len - n * (len / n)
          first (len / n + if 0 < longer then 1 else 0) (some { count := n, base := len / n, longer := longer, begun := 1 })) ∧
        (y.kind ≠ .order → y.stop = none → first s.profile.lmax none)) ∧
      (z.stop = some k.nextCut → s.zoneFrom k.nextCut = none →
        t.cut.schedule = none ∧ t.cut.ratio = s.cut.ratio ∧ t.pins.ratioStrobes = s.pins.ratioStrobes) ∧
      (∀ k', t.cut.schedule = some k' →
        let q := (1024 * (k'.nextCut - k'.pieceStart) + s.profile.knifeC / 2) / s.profile.knifeC
        t.cut.ratio = q ∧ t.pins.ratioStrobes = s.pins.ratioStrobes + if q = s.cut.ratio then 0 else 1) ∧
      (ready = true ∨ s.web.v < s.profile.vCrawl → t.sup = s.sup) ∧
      (ready = false → s.profile.vCrawl ≤ s.web.v → s.sup.line = .run ∨ s.sup.line = .hold →
        t.sup.line = .safeStop ∧ t.sup.cause = .knife ∧ t.sup.trips = s.sup.trips + 1))

/-- The gate decision of a sheet that ends no order, with no deferral pending (R152, R154, R155): the first row of the table that applies
gives the count raised and the route handed over; the marks that end within the sheet go, and the first zone if it ends there (R60, R62).
At an advance the oldest sheet is decided when W has reached its end and D_gate, then the next in the same case, and none otherwise
(R152). With 64 routes held and the stacker Online NO_ANSWER is latched instead of the route's being appended: the stacker becomes Faulted
with its stack, buffer, routes and commands gone; a decision of a stacker not Online makes no route (R157, R167; that the route is handed
over before an order's accounting is closed by notes/assumptions/55). -/
def Obligations.GateDecision : Prop :=
  (∀ (s : State) (sh : Sheet) (rest : List Sheet), s.router.sheets = sh :: rest → s.map.deferrals = 0 → s.line.routes.length < 64 →
    s.endsOrder sh = none →
    let t := s.decideSheet sh
    let raise (n : Nat) (f : Order → Order) : Prop :=
      t.orders = { s.orders with list := s.orders.list.map fun o => if o.number = n then f o else o }
    let routed (stack : Bool) : Prop := t.line.routes =
      if s.online .stacker then s.line.routes ++ [{ toStack := stack, sequence := s.line.nextSeq }] else s.line.routes
    t.core = s.core ∧ t.router.sheets = rest ∧
    t.map = { s.map with
      marks := s.map.marks.filter fun m => decide (sh.stop < m.stop)
      zones := if s.firstZoneEnds sh.stop then s.map.zones.drop 1 else s.map.zones } ∧
    (sh.kind ≠ .order → s.router.nonOrder < 4294967295 →
      t.orders = s.orders ∧ t.router.nonOrder = s.router.nonOrder + 1 ∧ routed false) ∧
    (∀ n, sh.kind = .order → sh.order = some n →
      let rejected := s.cancelledOrder n = true ∨ sh.defect = true ∨ s.marked sh.start sh.stop = true
      let stack := s.router.stack.getD { order := n, number := s.stacksOf n + 1, count := 0 }
      (rejected → raise n (fun o => { o with rejected := o.rejected + 1 }) ∧ routed false) ∧
      (¬ rejected → s.router.stacker = .stacking → stack.order = n →
        raise n (fun o => { o with good := o.good + 1, stackTotal := o.stackTotal + if s.heightOf n ≤ stack.count + 1 then 1 else 0 }) ∧
        t.router.stack = some { stack with count := stack.count + 1 } ∧
        t.router.stacker = (if s.heightOf n ≤ stack.count + 1 then .changing else .stacking) ∧ routed true) ∧
      (¬ rejected → s.router.stacker = .changing → s.router.occupancy < s.profile.buffer →
        t.orders = s.orders ∧ t.router.occupancy = s.router.occupancy + 1 ∧ routed true) ∧
      (¬ rejected → (s.router.stacker = .changing ∧ s.profile.buffer ≤ s.router.occupancy) ∨ s.router.stacker = .faulted
          ∨ s.router.stacker = .offline →
        raise n (fun o => { o with lost := o.lost + 1 }) ∧ routed false))) ∧
  (∀ (s : State) (ready : Bool),
    let t := s.advancePhase ready .gateDecisions
    (s.router.sheets = [] → t = s) ∧
    (∀ sh rest, s.router.sheets = sh :: rest →
      (s.web.w < sh.stop + s.profile.dGate → t = s) ∧
      (sh.stop + s.profile.dGate ≤ s.web.w → t = (s.decideSheet sh).advancePhase ready .gateDecisions)) ∧
    (∀ sh rest, t.router.sheets = sh :: rest → s.web.w < sh.stop + s.profile.dGate) ∧ t.router.sheets <:+ s.router.sheets) ∧
  (∀ (s : State) (sh : Sheet) (rest : List Sheet), s.router.sheets = sh :: rest → s.map.deferrals = 0 →
    let t := s.decideSheet sh
    let held := s.line.nodes.stacker.latches
    (s.online .stacker = false → t.line.routes = s.line.routes ∧ t.line.nextSeq = s.line.nextSeq) ∧
    (64 ≤ s.line.routes.length → s.online .stacker = true → held.noAnswer = true → t.line.routes = s.line.routes) ∧
    (64 ≤ s.line.routes.length → s.online .stacker = true → held.noAnswer = false →
      t.core = s.core ∧ t.router.sheets = rest ∧ t.router.stacker = .faulted ∧ t.line.routes = [] ∧
      (s.router.stacker = .stacking ∨ s.router.stacker = .changing →
        t.router.stack = none ∧ t.router.buffer = [] ∧ t.router.reason = none ∧ t.router.timer = none) ∧ t.line.nextSeq = s.line.nextSeq ∧
      t.line.nodes.stacker.service = .faulted ∧ t.line.nodes.stacker.latches = { held with noAnswer := true } ∧
      (∀ c ∈ t.line.urgent ++ t.line.normal, c.node ≠ .stacker) ∧
      t.HasEvent s.web.w (.sectionFault .stacker .noAnswer { held with noAnswer := true }) ∧
      (s.sup.line = .run ∨ s.sup.line = .hold → t.sup.holds.section_ = true)))

/-- What falls due at the knife and the slitter-scorer at an advance. In Run the clearing distance counts and its end lowers a trip
counter above 0, with the trip record written (R22). The Scheduled or Fixed order whose zone start W has reached becomes Running, with the
estimate grade its own (R41, R90); the Running order whose zone end it has reached becomes Ending and raises ORDER if hold-after is set
(R42); both are reported. The first swap is taken once W has reached its point and its incoming station is ready, and waits otherwise
(R139). Last calls of swaps pass and stay passed, and hold SET_WAIT for the stations not ready (R29). The approaches of the zones ahead
pass and stay passed, and then, and when a zone begins at W, the KNIFE and ORDER entries are the least over the zone at the knife and the
zones whose approach has passed (R26). -/
def Obligations.KnifeActions : Prop :=
  ∀ (s : State) (ready : Bool),
    let act (p : AdvancePhase) : State := s.advancePhase ready p
    let last (x : Nat) : Bool := decide (x ≤ s.web.w + s.dStop + s.profile.guard)
    let near (x u : Nat) : Bool := decide (x ≤ s.web.w + s.dApp u + s.profile.guard)
    let prepared (e : SwapEntry) : Prop := (s.station e.incoming).state = .set ∧ (s.station e.incoming).retained = some e.tools ∧
      s.online (.station e.incoming) = true
    (let t := act .clearing
     (s.sup.line ≠ .run → t = s) ∧
     (s.sup.line = .run → s.sup.clearing + 1 < s.profile.dClear * 1000 →
       t = { s with sup := { s.sup with clearing := s.sup.clearing + 1 } }) ∧
     (s.sup.line = .run → s.profile.dClear * 1000 ≤ s.sup.clearing + 1 →
       t.sup = { s.sup with clearing := 0, trips := s.sup.trips - 1 } ∧ OnlyChanges [.sup, .store] s t ∧
       (s.sup.trips = 0 → t.store = s.store) ∧
       (0 < s.sup.trips → s.store.writing = none → s.store.tripWriting = none →
         t.store.tripWriting = some { trips := s.sup.trips - 1, flag := s.sup.lockFlag }))) ∧
    (let t := act .orderRunning
     let due (o : Order) : Prop := (o.state = .scheduled ∨ o.state = .fixed) ∧ ∃ c, o.zoneStart = some c ∧ c ≤ s.web.w
     ((∀ o ∈ s.orders.list, ¬ due o) → t = s) ∧
     (∀ l o r, s.orders.list = l ++ o :: r → (∀ x ∈ l, ¬ due x) → due o → (∀ x ∈ l ++ r, x.number ≠ o.number) →
       t.core = s.core ∧ t.orders = { s.orders with list := l ++ { o with state := .running } :: r } ∧
       t.reels.grade = some o.grade ∧
       t.HasEvent s.web.w (.orderState o.number (some o.state) (some .running) o.zoneStart o.zoneEnd))) ∧
    (let t := act .orderEnding
     let due (o : Order) : Prop := o.state = .running ∧ ∃ c, o.zoneEnd = some c ∧ c ≤ s.web.w
     ((∀ o ∈ s.orders.list, ¬ due o) → t = s) ∧
     (∀ l o r, s.orders.list = l ++ o :: r → (∀ x ∈ l, ¬ due x) → due o → (∀ x ∈ l ++ r, x.number ≠ o.number) →
       OnlyChanges [.sup, .orders, .host] s t ∧ t.orders = { s.orders with list := l ++ { o with state := .ending } :: r } ∧
       t.HasEvent s.web.w (.orderState o.number (some .running) (some .ending) o.zoneStart o.zoneEnd) ∧
       (o.holdAfter = false → t.sup = s.sup) ∧
       (o.holdAfter = true → s.sup.line = .run ∨ s.sup.line = .hold → t.sup.holds = { s.sup.holds with order := true }))) ∧
    (let t := act .swap
     ((∀ e rest, s.cut.swaps = e :: rest → ¬ (e.point ≤ s.web.w ∧ prepared e)) → t.cut = s.cut ∧ t.line = s.line) ∧
     (∀ e rest, s.cut.swaps = e :: rest → e.point ≤ s.web.w → prepared e →
       t.station e.incoming = { s.station e.incoming with state := .swapping, timer := none, outgoing := e.outgoing } ∧
       ⟨.station e.incoming, .engage⟩ ∈ t.line.urgent ∧ t.cut.swaps <:+ rest)) ∧
    (let t := act .swapLastCall
     t.cut = { s.cut with swaps := s.cut.swaps.map fun e => { e with lastCall := e.lastCall || last e.point } } ∧
     (s.sup.line = .run ∨ s.sup.line = .hold →
       (∀ x, t.sup.setWait.get x = true ↔
         ∃ e ∈ s.cut.swaps, e.incoming = x ∧ (e.lastCall = true ∨ last e.point = true) ∧ ¬ prepared e) ∧
       (t.sup.holds.setWait = true ↔ ∃ x, t.sup.setWait.get x = true))) ∧
    (let t := act .approach
     let counts (z : Zone) : Prop := z.covers s.web.w = true ∨ (s.web.w < z.start ∧ z.nearKnife = true)
     let capped (z : Zone) : Prop := z.covers s.web.w = true ∨ (s.web.w < z.start ∧ z.nearOrder = true)
     let least (e : Option Nat) (p : Nat → Prop) : Prop := (∀ c, e = some c → p c ∧ ∀ d, p d → c ≤ d) ∧ (e = none → ∀ d, ¬ p d)
     t.map = { s.map with zones := s.map.zones.map fun z =>
       if s.web.w < z.start then
         { z with
           nearKnife := z.nearKnife || near z.start (s.cutRate z)
           nearOrder := z.nearOrder || (match s.capOf z with | some u => near z.start u | none => false) }
       else z } ∧
     (t.map = s.map → (∀ z ∈ s.map.zones, z.start ≠ s.web.w) → t = s) ∧
     (t.map ≠ s.map ∨ (∃ z ∈ s.map.zones, z.start = s.web.w) →
       least t.sup.ceilings.order (fun c => ∃ z ∈ t.map.zones, capped z ∧ s.capOf z = some c) ∧
       (s.sup.line = .run ∨ s.sup.line = .hold → (∃ z ∈ s.map.zones, z.covers s.web.w = true) →
         least t.sup.ceilings.knife (fun c => ∃ z ∈ t.map.zones, counts z ∧ s.cutRate z = c))))

/-- What comes due at the horizon, at the gate and in Safe stop. The check at the horizon that finds no ready successor extends the open
order by one cut of its pattern, counts the deferral and reports it; at the limit it raises DEFERRAL with a successor and, without one and
with 2 slots free, fixes the terminal boundary: the order's end, an open RUNOUT zone behind it and no open order (R40, R71, R72, R75). A
re-check that finds no ready successor takes no step, leaves the end and the count and places no event of its own, and at the limit does
the same as the horizon's (R73). The decision of the last sheet of an Ending order completes it: it leaves the queue, its record is the
last of the recent completions and is reported; from Stacking its open stack closes and counts, and from Changing its waiting run, with
the last sheet in it if that is good and there is room, is credited (R43, R52, R53, R155, R158). In Safe stop the ramp counts standstill;
the fifth period at rest with no splice Firing leads to Tripped, or to Lockout with the flag set (R19). The last call of a terminal
boundary, at the gate's distance beyond it, passes once and raises QUEUE_END, which is recorded in Run and Hold alone (R15, R76). Marks in
no zone whose end has passed the gate leave the list, and no others (R62). A configured stand whose estimate has become 0 reports REEL_OUT
once: a cause of Safe stop in Run and Hold, and elsewhere reported as not entered (R94). -/
def Obligations.HorizonGateAndStandstill : Prop :=
  (∀ (s : State) (ready : Bool),
    let t := s.horizonCheck
    (s.overdue = false → s.advancePhase ready .commit = s) ∧ (s.overdue = true → s.advancePhase ready .commit = t) ∧
    (∀ (o : Order) (e : Nat) (succ : Option Order) (reason : DeferReason) (stand : Option Stand),
      s.openOrder? = some o → o.plannedEnd = some e → s.firstQueued = succ →
      (succ = none ∧ reason = .noSuccessor ∧ stand = none) ∨ (∃ q, succ = some q ∧ s.deferReason o q = some (reason, stand)) →
      (∀ x ∈ s.orders.list, x.number = o.number → x = o) →
      let stop := e + cutLength o.pattern o.planned
      let n := min 65535 (s.map.deferrals + 1)
      let extended := { o with planned := o.planned + 1, plannedEnd := some stop, deferred := o.deferred + 1 }
      let record (x : Order) : Prop :=
        t.orders = { s.orders with list := s.orders.list.map fun y => if y.number = o.number then x else y }
      t.core = s.core ∧
      t.HasEvent s.web.w (.boundaryDeferred o.number (succ.map (·.number)) reason stand n stop) ∧
      (n < s.profile.deferLimit ∨ (succ = none ∧ s.freeSlots < 2) →
        record extended ∧ t.map = { s.map with deferrals := n } ∧ t.sup = s.sup) ∧
      (s.profile.deferLimit ≤ n → succ.isSome = true → record extended ∧ t.map = { s.map with deferrals := n } ∧
        (s.sup.line = .run ∨ s.sup.line = .hold →
          t.sup.holds = { s.sup.holds with deferral := true } ∧ (s.sup.holds.deferral = false → t.sup.line = .hold))) ∧
      (s.profile.deferLimit ≤ n → succ = none → 2 ≤ s.freeSlots →
        t.orders.recent = s.orders.recent ∧
        (t.orders.list.map fun y => { y with derates := 0 }) = (s.orders.list.map fun y => if y.number = o.number then
          { extended with zoneEnd := some stop, state := if o.state = .scheduled then .fixed else o.state, derates := 0 }
          else { y with derates := 0 }) ∧
        t.map.terminal = some stop ∧ t.map.openOrder = none ∧ t.map.deferrals = 0 ∧ t.map.marks = s.map.marks ∧
        t.map.zones.length = s.map.zones.length + 1 ∧ t.sup.holds.deferral = false ∧
        ∃ z, t.map.zones.getLast? = some z ∧ z.kind = .runout ∧ z.start = stop ∧ z.stop = none ∧ z.setChange = false))) ∧
  (∀ s : State,
    let t := s.recheck
    (s.map.deferrals = 0 ∨ s.openOrder? = none → t = s) ∧
    (∀ (o : Order) (e : Nat) (succ : Option Order), s.openOrder? = some o → o.plannedEnd = some e → 0 < s.map.deferrals →
      s.firstQueued = succ → (∀ q, succ = some q → s.deferReason o q ≠ none) → (∀ x ∈ s.orders.list, x.number = o.number → x = o) →
      (s.map.deferrals < s.profile.deferLimit ∨ (succ = none ∧ s.freeSlots < 2) → t = s) ∧
      (s.profile.deferLimit ≤ s.map.deferrals → succ.isSome = true → OnlyChanges [.sup, .host] s t ∧
        (s.sup.line ≠ .run → s.sup.line ≠ .hold → t = s) ∧ (s.sup.holds.deferral = true → t = s) ∧
        (s.sup.line = .run ∨ s.sup.line = .hold → t.sup.holds = { s.sup.holds with deferral := true } ∧
          (s.sup.holds.deferral = false → t.sup.line = .hold ∧ t.host = (s.place (.lineState .hold s.sup.line
            { s.sup.holds with deferral := true } s.sup.cause)).host))) ∧
      (s.profile.deferLimit ≤ s.map.deferrals → succ = none → 2 ≤ s.freeSlots →
        t.core = s.core ∧ t.orders.recent = s.orders.recent ∧
        (t.orders.list.map fun y => { y with derates := 0 }) = (s.orders.list.map fun y => if y.number = o.number then
          { o with zoneEnd := some e, state := if o.state = .scheduled then .fixed else o.state, derates := 0 }
          else { y with derates := 0 }) ∧
        t.map.terminal = some e ∧ t.map.openOrder = none ∧ t.map.deferrals = 0 ∧ t.map.marks = s.map.marks ∧
        t.map.zones.length = s.map.zones.length + 1 ∧ t.sup.holds.deferral = false ∧
        ∃ z, t.map.zones.getLast? = some z ∧ z.kind = .runout ∧ z.start = e ∧ z.stop = none ∧ z.setChange = false))) ∧
  (∀ (s : State) (sh : Sheet) (rest : List Sheet) (o : Order), s.router.sheets = sh :: rest → s.map.deferrals = 0 →
    s.line.routes.length < 64 → sh.kind = .order →
    sh.order = some o.number → s.order? o.number = some o → o.state = .ending → o.zoneEnd = some sh.stop →
    let t := s.decideSheet sh
    let rejected := o.cancelled = true ∨ sh.defect = true ∨ s.marked sh.start sh.stop = true
    t.core = s.core ∧ t.router.sheets = rest ∧ (∀ x ∈ t.orders.list, x.number ≠ o.number) ∧
    ∃ r, t.orders.recent.getLast? = some r ∧ t.HasEvent s.web.w (.orderComplete r) ∧ r.number = o.number ∧
      r.status = (if o.cancelled then .cancelled else .normal) ∧ r.needed = o.needed ∧ r.difference = (r.good : Int) - o.needed ∧
      r.zoneStart = o.zoneStart ∧ r.zoneEnd = o.zoneEnd ∧ r.rejected = o.rejected + (if rejected then 1 else 0) ∧
      (s.router.stacker = .stacking → s.router.buffer = [] → ¬ rejected → (∀ k, s.router.stack = some k → k.order = o.number) →
        r.good = o.good + 1 ∧ r.stackTotal = o.stackTotal + 1 ∧ t.router.stacker = .changing) ∧
      (∀ k, s.router.stacker = .stacking → rejected → s.router.stack = some k → k.order = o.number →
        r.good = o.good ∧ r.stackTotal = o.stackTotal + 1 ∧ t.router.stacker = .changing ∧ t.router.reason = some .orderEnd ∧
        t.line.normal = s.line.normal ++ [⟨.stacker, .changeStack .orderEnd⟩]) ∧
      (s.router.stacker = .stacking → rejected → s.router.stack = none → r.good = o.good ∧ r.stackTotal = o.stackTotal ∧
        t.router = { s.router with sheets := rest }) ∧
      (∀ b, s.router.stacker = .changing → rejected → s.router.buffer = [b] → b.order = o.number → b.credit = none →
        r.good = o.good + b.count ∧ r.stackTotal = o.stackTotal + ceilDiv b.count o.height ∧
        t.router.buffer = [{ b with credit := some { height := o.height, nextStack := o.stackTotal + 1 } }]) ∧
      (s.router.stacker = .faulted ∨ s.router.stacker = .offline → ¬ rejected → r.lost = o.lost + 1 ∧ r.good = o.good) ∧
      (s.router.stacker = .changing → ¬ rejected →
        let room := s.router.occupancy < s.profile.buffer
        let credit : Credit := { height := o.height, nextStack := o.stackTotal + 1 }
        let buffered (l : List BufferRun) (n : Nat) : Prop := r.good = o.good + n ∧ r.stackTotal = o.stackTotal + ceilDiv n o.height ∧
          r.lost = o.lost ∧ t.router.buffer = l ++ [{ order := o.number, count := n, credit := some credit }]
        (room → (∀ b ∈ s.router.buffer, b.order ≠ o.number) → buffered s.router.buffer 1) ∧
        (∀ l n, room → s.router.buffer = l ++ [{ order := o.number, count := n, credit := none }] → (∀ b ∈ l, b.order ≠ o.number) →
          buffered l (n + 1)) ∧
        (¬ room → r.lost = o.lost + 1))) ∧
  (∀ (s : State) (lost : Bool), s.sup.line = .safeStop →
    let t := s.gatePhase lost .ramp
    let still := t.sup.reference = 0 ∧ s.web.v = 0
    (¬ still → t.sup.standstill = 0 ∧ t.sup.line = .safeStop) ∧
    (still → t.sup.standstill = min 5 (s.sup.standstill + 1)) ∧
    (still → s.sup.standstill < 4 ∨ s.anyFiring = true → t.sup.line = .safeStop ∧ t.host = s.host) ∧
    (still → 4 ≤ s.sup.standstill → s.anyFiring = false →
      let next := if s.sup.lockFlag then LineState.lockout else .tripped
      t.sup.line = next ∧ t.host = (s.place (.lineState next .safeStop s.sup.holds s.sup.cause)).host)) ∧
  (∀ (s : State) (ready lost : Bool),
    let t := s.advancePhase ready .queueEnd
    s.gatePhase lost .queueEnd = t ∧
    (s.map.terminal = none ∨ s.map.queueEndCall = true → t = s) ∧
    (∀ e, s.map.terminal = some e → s.map.queueEndCall = false →
      let passes := e + s.profile.dGate ≤ s.web.w + s.dStop + s.profile.guard
      (¬ passes → t = s) ∧
      (passes → t.map = { s.map with queueEndCall := true } ∧ OnlyChanges [.map, .sup, .host] s t ∧
        (s.sup.line = .run ∨ s.sup.line = .hold → t.sup.holds = { s.sup.holds with queueEnd := true } ∧
          (s.sup.holds.queueEnd = false → t.sup.line = .hold)) ∧
        (s.sup.line ≠ .run → s.sup.line ≠ .hold → t.sup = s.sup ∧ t.host = s.host)))) ∧
  (∀ (s : State) (ready : Bool),
    let t := s.advancePhase ready .markSweep
    let gone (m : Mark) : Bool := decide (m.stop + s.profile.dGate ≤ s.web.w) && (s.zoneAt (m.stop - 1)).isNone
    ((∀ m ∈ s.map.marks, gone m = false) → t = s) ∧ t.map = { s.map with marks := s.map.marks.filter fun m => !gone m } ∧
    OnlyChanges [.map, .sup, .splice, .line, .host] s t) ∧
  (∀ (s : State) (ready : Bool),
    let t := s.advancePhase ready .reelOut
    let out (i : Stand) : Prop := s.configured i = true ∧ s.estimate i = some 0 ∧ (s.standRecord i).outReported = false
    ((∀ i, ¬ out i) → t = s) ∧
    (∀ i, (out i → t.standRecord i = { s.standRecord i with outReported := true }) ∧
      (¬ out i → t.standRecord i = s.standRecord i)) ∧
    (∀ i, out i →
      (s.sup.line = .run ∨ s.sup.line = .hold →
        t.sup.line = .safeStop ∧ t.sup.cause = .reelOut ∧ t.sup.trips = s.sup.trips + 1 ∧
        t.HasEvent s.web.w (.safeStop .reelOut true (s.sup.trips + 1))) ∧
      (s.sup.line ≠ .run → s.sup.line ≠ .hold → t.sup = s.sup ∧ t.HasEvent s.web.w (.safeStop .reelOut false s.sup.trips))))

/-! ### What the manual's formulas give -/

/-- The setpoints of a table at a speed (R124), for each quantity alike: the end values outside the table, each breakpoint's value exactly
at its speed, and in a segment the nearest integer to the straight line between its breakpoints, halves away from zero, never outside the
two values. -/
def Obligations.Interpolation : Prop :=
  (∀ (table : List Breakpoint) (v : Nat), setpointsAt table v =
    { wrap := interpolate (·.wrap) v table, gap := interpolate (·.gap) v table, temp := interpolate (·.temp) v table, speed := v }) ∧
  ∀ (y : Breakpoint → Nat) (l r : List Breakpoint) (b c : Breakpoint) (v : Nat), breakpointsRise (l ++ b :: c :: r) = true →
    let value := interpolate y v (l ++ b :: c :: r)
    (l = [] → v ≤ b.speed → value = y b) ∧
    (r = [] → c.speed ≤ v → value = y c) ∧
    (b.speed ≤ v → v < c.speed →
      let rise : Int := ((y c : Int) - y b) * ((v : Int) - b.speed)
      let run : Int := (c.speed : Int) - b.speed
      let step : Int := (value : Int) - y b
      (v = b.speed → value = y b) ∧
      2 * (rise - step * run) ≤ run ∧ -run ≤ 2 * (rise - step * run) ∧
      (0 ≤ rise → 2 * (rise - step * run) < run) ∧ (rise ≤ 0 → -run < 2 * (rise - step * run)) ∧
      min (y b) (y c) ≤ value ∧ value ≤ max (y b) (y c))

/-- The heat ceiling (R128): absent without a table or at and above its last required temperature, v_crawl when stale or below the first,
otherwise the greatest speed that the temperature serves in its segment, raised to v_crawl. -/
def Obligations.HeatCeiling : Prop :=
  ∀ s : State,
    (s.cond.inForce = none → s.computeCeiling = none) ∧
    (∀ table, s.cond.inForce = some table → s.stale = true → s.computeCeiling = some s.profile.vCrawl) ∧
    (∀ table t, s.cond.inForce = some table → s.cond.lastTemp = some t → s.cond.age ≤ 10000 → breakpointsRise table = true →
      (∀ b, table.head? = some b → t < b.temp → s.computeCeiling = some s.profile.vCrawl) ∧
      (∀ b, table.getLast? = some b → 2 ≤ table.length → b.temp ≤ t → s.computeCeiling = none) ∧
      (∀ l r b c, table = l ++ b :: c :: r → b.temp ≤ t → t < c.temp →
        ∃ v, s.computeCeiling = some (max v s.profile.vCrawl) ∧ b.speed ≤ v ∧ v ≤ c.speed ∧
          (v - b.speed) * (c.temp - b.temp) ≤ (t - b.temp) * (c.speed - b.speed) ∧
          (t - b.temp) * (c.speed - b.speed) < (v + 1 - b.speed) * (c.temp - b.temp)))

/-- A zone of a length is laid in ceil(length / Lmax) equal pieces: they fill it exactly, differ by at most 1 mm, the longer ones first,
none longer than Lmax (R144). -/
def Obligations.Pieces : Prop :=
  ∀ len lmax : Nat, 1 ≤ len → 1 ≤ lmax →
    let p := dividedInto len lmax
    p.count = (len + lmax - 1) / lmax ∧ ((List.range p.count).map p.piece).sum = len ∧
    (∀ i, i < p.count → p.piece i ≤ lmax ∧ 1 ≤ p.piece i ∧ (p.piece i = len / p.count ∨ p.piece i = len / p.count + 1)) ∧
    (∀ i j, i ≤ j → j < p.count → p.piece j ≤ p.piece i)

/-- Cuts and lengths along a pattern: cuts needed are the least whose ups cover the quantity; the planned length is the sum of the cuts'
lengths, the pattern used cyclically; the clamp takes the first cut boundary at or beyond a coordinate (R37, R46, R65). -/
def Obligations.CutBoundaries : Prop :=
  (∀ quantity ups, 1 ≤ ups → quantity ≤ cutsNeeded quantity ups * ups ∧
    ∀ n, quantity ≤ n * ups → cutsNeeded quantity ups ≤ n) ∧
  (∀ (pattern : List Nat) (p : Nat), pattern ≠ [] →
    plannedLength pattern p = ((List.range p).map (cutLength pattern)).sum ∧
    plannedLength pattern (p + 1) = plannedLength pattern p + cutLength pattern p) ∧
  (∀ (start x : Nat) (pattern : List Nat), pattern ≠ [] → (∀ l ∈ pattern, 1 ≤ l) →
    1 ≤ cutsToBoundary start pattern x ∧ x ≤ start + plannedLength pattern (cutsToBoundary start pattern x) ∧
    ∀ n, 1 ≤ n → x ≤ start + plannedLength pattern n → cutsToBoundary start pattern x ≤ n)

/-- The two distances computed from the measured speed (R28): each is the least whole number of millimetres that the formula allows, the
approach is 0 from a speed at or below the ceiling, and both take the speed and the step in force. -/
def Obligations.StoppingDistances : Prop :=
  ∀ s : State, 1 ≤ s.profile.sDown →
    (∀ n, s.dStop ≤ n ↔ s.web.v * s.web.v ≤ n * (12 * s.profile.sDown)) ∧
    (∀ u, u < s.web.v → ∀ n, s.dApp u ≤ n ↔ s.web.v * s.web.v - u * u ≤ n * (12 * s.profile.sDown)) ∧
    (∀ u, s.web.v ≤ u → s.dApp u = 0) ∧
    (s.web.v = 3000 → s.profile.sDown = 30 → s.dStop = 25000 ∧ s.dApp 2000 = 13889)
end

