-- ==== Sys2Proof/Laws/State.lean ====
section
/-! SUPPORT. What each update of a block leaves of the state, one lemma for each field and update, all by `rfl`; and what the
families indexed by stand, station, arm and node give back after an update. Later proofs unfold no record update. -/

namespace Sys2Proof.Machine

variable (s : State)

/-! ### `modWeb` -/

@[simp] theorem State.modWeb_web (f : Web → Web) : (s.modWeb f).web = f s.web := rfl
@[simp] theorem State.modWeb_sup (f : Web → Web) : (s.modWeb f).sup = s.sup := rfl
@[simp] theorem State.modWeb_orders (f : Web → Web) : (s.modWeb f).orders = s.orders := rfl
@[simp] theorem State.modWeb_map (f : Web → Web) : (s.modWeb f).map = s.map := rfl
@[simp] theorem State.modWeb_reels (f : Web → Web) : (s.modWeb f).reels = s.reels := rfl
@[simp] theorem State.modWeb_splice (f : Web → Web) : (s.modWeb f).splice = s.splice := rfl
@[simp] theorem State.modWeb_cond (f : Web → Web) : (s.modWeb f).cond = s.cond := rfl
@[simp] theorem State.modWeb_cut (f : Web → Web) : (s.modWeb f).cut = s.cut := rfl
@[simp] theorem State.modWeb_router (f : Web → Web) : (s.modWeb f).router = s.router := rfl
@[simp] theorem State.modWeb_line (f : Web → Web) : (s.modWeb f).line = s.line := rfl
@[simp] theorem State.modWeb_host (f : Web → Web) : (s.modWeb f).host = s.host := rfl
@[simp] theorem State.modWeb_profile (f : Web → Web) : (s.modWeb f).profile = s.profile := rfl
@[simp] theorem State.modWeb_store (f : Web → Web) : (s.modWeb f).store = s.store := rfl
@[simp] theorem State.modWeb_pins (f : Web → Web) : (s.modWeb f).pins = s.pins := rfl
@[simp] theorem State.modWeb_pending (f : Web → Web) : (s.modWeb f).pending = s.pending := rfl

/-! ### `modSup` -/

@[simp] theorem State.modSup_web (f : Supervisor → Supervisor) : (s.modSup f).web = s.web := rfl
@[simp] theorem State.modSup_sup (f : Supervisor → Supervisor) : (s.modSup f).sup = f s.sup := rfl
@[simp] theorem State.modSup_orders (f : Supervisor → Supervisor) : (s.modSup f).orders = s.orders := rfl
@[simp] theorem State.modSup_map (f : Supervisor → Supervisor) : (s.modSup f).map = s.map := rfl
@[simp] theorem State.modSup_reels (f : Supervisor → Supervisor) : (s.modSup f).reels = s.reels := rfl
@[simp] theorem State.modSup_splice (f : Supervisor → Supervisor) : (s.modSup f).splice = s.splice := rfl
@[simp] theorem State.modSup_cond (f : Supervisor → Supervisor) : (s.modSup f).cond = s.cond := rfl
@[simp] theorem State.modSup_cut (f : Supervisor → Supervisor) : (s.modSup f).cut = s.cut := rfl
@[simp] theorem State.modSup_router (f : Supervisor → Supervisor) : (s.modSup f).router = s.router := rfl
@[simp] theorem State.modSup_line (f : Supervisor → Supervisor) : (s.modSup f).line = s.line := rfl
@[simp] theorem State.modSup_host (f : Supervisor → Supervisor) : (s.modSup f).host = s.host := rfl
@[simp] theorem State.modSup_profile (f : Supervisor → Supervisor) : (s.modSup f).profile = s.profile := rfl
@[simp] theorem State.modSup_store (f : Supervisor → Supervisor) : (s.modSup f).store = s.store := rfl
@[simp] theorem State.modSup_pins (f : Supervisor → Supervisor) : (s.modSup f).pins = s.pins := rfl
@[simp] theorem State.modSup_pending (f : Supervisor → Supervisor) : (s.modSup f).pending = s.pending := rfl

/-! ### `modOrders` -/

@[simp] theorem State.modOrders_web (f : Orders → Orders) : (s.modOrders f).web = s.web := rfl
@[simp] theorem State.modOrders_sup (f : Orders → Orders) : (s.modOrders f).sup = s.sup := rfl
@[simp] theorem State.modOrders_orders (f : Orders → Orders) : (s.modOrders f).orders = f s.orders := rfl
@[simp] theorem State.modOrders_map (f : Orders → Orders) : (s.modOrders f).map = s.map := rfl
@[simp] theorem State.modOrders_reels (f : Orders → Orders) : (s.modOrders f).reels = s.reels := rfl
@[simp] theorem State.modOrders_splice (f : Orders → Orders) : (s.modOrders f).splice = s.splice := rfl
@[simp] theorem State.modOrders_cond (f : Orders → Orders) : (s.modOrders f).cond = s.cond := rfl
@[simp] theorem State.modOrders_cut (f : Orders → Orders) : (s.modOrders f).cut = s.cut := rfl
@[simp] theorem State.modOrders_router (f : Orders → Orders) : (s.modOrders f).router = s.router := rfl
@[simp] theorem State.modOrders_line (f : Orders → Orders) : (s.modOrders f).line = s.line := rfl
@[simp] theorem State.modOrders_host (f : Orders → Orders) : (s.modOrders f).host = s.host := rfl
@[simp] theorem State.modOrders_profile (f : Orders → Orders) : (s.modOrders f).profile = s.profile := rfl
@[simp] theorem State.modOrders_store (f : Orders → Orders) : (s.modOrders f).store = s.store := rfl
@[simp] theorem State.modOrders_pins (f : Orders → Orders) : (s.modOrders f).pins = s.pins := rfl
@[simp] theorem State.modOrders_pending (f : Orders → Orders) : (s.modOrders f).pending = s.pending := rfl

/-! ### `modMap` -/

@[simp] theorem State.modMap_web (f : WebMap → WebMap) : (s.modMap f).web = s.web := rfl
@[simp] theorem State.modMap_sup (f : WebMap → WebMap) : (s.modMap f).sup = s.sup := rfl
@[simp] theorem State.modMap_orders (f : WebMap → WebMap) : (s.modMap f).orders = s.orders := rfl
@[simp] theorem State.modMap_map (f : WebMap → WebMap) : (s.modMap f).map = f s.map := rfl
@[simp] theorem State.modMap_reels (f : WebMap → WebMap) : (s.modMap f).reels = s.reels := rfl
@[simp] theorem State.modMap_splice (f : WebMap → WebMap) : (s.modMap f).splice = s.splice := rfl
@[simp] theorem State.modMap_cond (f : WebMap → WebMap) : (s.modMap f).cond = s.cond := rfl
@[simp] theorem State.modMap_cut (f : WebMap → WebMap) : (s.modMap f).cut = s.cut := rfl
@[simp] theorem State.modMap_router (f : WebMap → WebMap) : (s.modMap f).router = s.router := rfl
@[simp] theorem State.modMap_line (f : WebMap → WebMap) : (s.modMap f).line = s.line := rfl
@[simp] theorem State.modMap_host (f : WebMap → WebMap) : (s.modMap f).host = s.host := rfl
@[simp] theorem State.modMap_profile (f : WebMap → WebMap) : (s.modMap f).profile = s.profile := rfl
@[simp] theorem State.modMap_store (f : WebMap → WebMap) : (s.modMap f).store = s.store := rfl
@[simp] theorem State.modMap_pins (f : WebMap → WebMap) : (s.modMap f).pins = s.pins := rfl
@[simp] theorem State.modMap_pending (f : WebMap → WebMap) : (s.modMap f).pending = s.pending := rfl

/-! ### `modReels` -/

@[simp] theorem State.modReels_web (f : Reels → Reels) : (s.modReels f).web = s.web := rfl
@[simp] theorem State.modReels_sup (f : Reels → Reels) : (s.modReels f).sup = s.sup := rfl
@[simp] theorem State.modReels_orders (f : Reels → Reels) : (s.modReels f).orders = s.orders := rfl
@[simp] theorem State.modReels_map (f : Reels → Reels) : (s.modReels f).map = s.map := rfl
@[simp] theorem State.modReels_reels (f : Reels → Reels) : (s.modReels f).reels = f s.reels := rfl
@[simp] theorem State.modReels_splice (f : Reels → Reels) : (s.modReels f).splice = s.splice := rfl
@[simp] theorem State.modReels_cond (f : Reels → Reels) : (s.modReels f).cond = s.cond := rfl
@[simp] theorem State.modReels_cut (f : Reels → Reels) : (s.modReels f).cut = s.cut := rfl
@[simp] theorem State.modReels_router (f : Reels → Reels) : (s.modReels f).router = s.router := rfl
@[simp] theorem State.modReels_line (f : Reels → Reels) : (s.modReels f).line = s.line := rfl
@[simp] theorem State.modReels_host (f : Reels → Reels) : (s.modReels f).host = s.host := rfl
@[simp] theorem State.modReels_profile (f : Reels → Reels) : (s.modReels f).profile = s.profile := rfl
@[simp] theorem State.modReels_store (f : Reels → Reels) : (s.modReels f).store = s.store := rfl
@[simp] theorem State.modReels_pins (f : Reels → Reels) : (s.modReels f).pins = s.pins := rfl
@[simp] theorem State.modReels_pending (f : Reels → Reels) : (s.modReels f).pending = s.pending := rfl

/-! ### `modSplice` -/

@[simp] theorem State.modSplice_web (f : Splicer → Splicer) : (s.modSplice f).web = s.web := rfl
@[simp] theorem State.modSplice_sup (f : Splicer → Splicer) : (s.modSplice f).sup = s.sup := rfl
@[simp] theorem State.modSplice_orders (f : Splicer → Splicer) : (s.modSplice f).orders = s.orders := rfl
@[simp] theorem State.modSplice_map (f : Splicer → Splicer) : (s.modSplice f).map = s.map := rfl
@[simp] theorem State.modSplice_reels (f : Splicer → Splicer) : (s.modSplice f).reels = s.reels := rfl
@[simp] theorem State.modSplice_splice (f : Splicer → Splicer) : (s.modSplice f).splice = f s.splice := rfl
@[simp] theorem State.modSplice_cond (f : Splicer → Splicer) : (s.modSplice f).cond = s.cond := rfl
@[simp] theorem State.modSplice_cut (f : Splicer → Splicer) : (s.modSplice f).cut = s.cut := rfl
@[simp] theorem State.modSplice_router (f : Splicer → Splicer) : (s.modSplice f).router = s.router := rfl
@[simp] theorem State.modSplice_line (f : Splicer → Splicer) : (s.modSplice f).line = s.line := rfl
@[simp] theorem State.modSplice_host (f : Splicer → Splicer) : (s.modSplice f).host = s.host := rfl
@[simp] theorem State.modSplice_profile (f : Splicer → Splicer) : (s.modSplice f).profile = s.profile := rfl
@[simp] theorem State.modSplice_store (f : Splicer → Splicer) : (s.modSplice f).store = s.store := rfl
@[simp] theorem State.modSplice_pins (f : Splicer → Splicer) : (s.modSplice f).pins = s.pins := rfl
@[simp] theorem State.modSplice_pending (f : Splicer → Splicer) : (s.modSplice f).pending = s.pending := rfl

/-! ### `modCond` -/

@[simp] theorem State.modCond_web (f : Conditioning → Conditioning) : (s.modCond f).web = s.web := rfl
@[simp] theorem State.modCond_sup (f : Conditioning → Conditioning) : (s.modCond f).sup = s.sup := rfl
@[simp] theorem State.modCond_orders (f : Conditioning → Conditioning) : (s.modCond f).orders = s.orders := rfl
@[simp] theorem State.modCond_map (f : Conditioning → Conditioning) : (s.modCond f).map = s.map := rfl
@[simp] theorem State.modCond_reels (f : Conditioning → Conditioning) : (s.modCond f).reels = s.reels := rfl
@[simp] theorem State.modCond_splice (f : Conditioning → Conditioning) : (s.modCond f).splice = s.splice := rfl
@[simp] theorem State.modCond_cond (f : Conditioning → Conditioning) : (s.modCond f).cond = f s.cond := rfl
@[simp] theorem State.modCond_cut (f : Conditioning → Conditioning) : (s.modCond f).cut = s.cut := rfl
@[simp] theorem State.modCond_router (f : Conditioning → Conditioning) : (s.modCond f).router = s.router := rfl
@[simp] theorem State.modCond_line (f : Conditioning → Conditioning) : (s.modCond f).line = s.line := rfl
@[simp] theorem State.modCond_host (f : Conditioning → Conditioning) : (s.modCond f).host = s.host := rfl
@[simp] theorem State.modCond_profile (f : Conditioning → Conditioning) : (s.modCond f).profile = s.profile := rfl
@[simp] theorem State.modCond_store (f : Conditioning → Conditioning) : (s.modCond f).store = s.store := rfl
@[simp] theorem State.modCond_pins (f : Conditioning → Conditioning) : (s.modCond f).pins = s.pins := rfl
@[simp] theorem State.modCond_pending (f : Conditioning → Conditioning) : (s.modCond f).pending = s.pending := rfl

/-! ### `modCut` -/

@[simp] theorem State.modCut_web (f : CutControl → CutControl) : (s.modCut f).web = s.web := rfl
@[simp] theorem State.modCut_sup (f : CutControl → CutControl) : (s.modCut f).sup = s.sup := rfl
@[simp] theorem State.modCut_orders (f : CutControl → CutControl) : (s.modCut f).orders = s.orders := rfl
@[simp] theorem State.modCut_map (f : CutControl → CutControl) : (s.modCut f).map = s.map := rfl
@[simp] theorem State.modCut_reels (f : CutControl → CutControl) : (s.modCut f).reels = s.reels := rfl
@[simp] theorem State.modCut_splice (f : CutControl → CutControl) : (s.modCut f).splice = s.splice := rfl
@[simp] theorem State.modCut_cond (f : CutControl → CutControl) : (s.modCut f).cond = s.cond := rfl
@[simp] theorem State.modCut_cut (f : CutControl → CutControl) : (s.modCut f).cut = f s.cut := rfl
@[simp] theorem State.modCut_router (f : CutControl → CutControl) : (s.modCut f).router = s.router := rfl
@[simp] theorem State.modCut_line (f : CutControl → CutControl) : (s.modCut f).line = s.line := rfl
@[simp] theorem State.modCut_host (f : CutControl → CutControl) : (s.modCut f).host = s.host := rfl
@[simp] theorem State.modCut_profile (f : CutControl → CutControl) : (s.modCut f).profile = s.profile := rfl
@[simp] theorem State.modCut_store (f : CutControl → CutControl) : (s.modCut f).store = s.store := rfl
@[simp] theorem State.modCut_pins (f : CutControl → CutControl) : (s.modCut f).pins = s.pins := rfl
@[simp] theorem State.modCut_pending (f : CutControl → CutControl) : (s.modCut f).pending = s.pending := rfl

/-! ### `modRouter` -/

@[simp] theorem State.modRouter_web (f : Router → Router) : (s.modRouter f).web = s.web := rfl
@[simp] theorem State.modRouter_sup (f : Router → Router) : (s.modRouter f).sup = s.sup := rfl
@[simp] theorem State.modRouter_orders (f : Router → Router) : (s.modRouter f).orders = s.orders := rfl
@[simp] theorem State.modRouter_map (f : Router → Router) : (s.modRouter f).map = s.map := rfl
@[simp] theorem State.modRouter_reels (f : Router → Router) : (s.modRouter f).reels = s.reels := rfl
@[simp] theorem State.modRouter_splice (f : Router → Router) : (s.modRouter f).splice = s.splice := rfl
@[simp] theorem State.modRouter_cond (f : Router → Router) : (s.modRouter f).cond = s.cond := rfl
@[simp] theorem State.modRouter_cut (f : Router → Router) : (s.modRouter f).cut = s.cut := rfl
@[simp] theorem State.modRouter_router (f : Router → Router) : (s.modRouter f).router = f s.router := rfl
@[simp] theorem State.modRouter_line (f : Router → Router) : (s.modRouter f).line = s.line := rfl
@[simp] theorem State.modRouter_host (f : Router → Router) : (s.modRouter f).host = s.host := rfl
@[simp] theorem State.modRouter_profile (f : Router → Router) : (s.modRouter f).profile = s.profile := rfl
@[simp] theorem State.modRouter_store (f : Router → Router) : (s.modRouter f).store = s.store := rfl
@[simp] theorem State.modRouter_pins (f : Router → Router) : (s.modRouter f).pins = s.pins := rfl
@[simp] theorem State.modRouter_pending (f : Router → Router) : (s.modRouter f).pending = s.pending := rfl

/-! ### `modLine` -/

@[simp] theorem State.modLine_web (f : SectionLine → SectionLine) : (s.modLine f).web = s.web := rfl
@[simp] theorem State.modLine_sup (f : SectionLine → SectionLine) : (s.modLine f).sup = s.sup := rfl
@[simp] theorem State.modLine_orders (f : SectionLine → SectionLine) : (s.modLine f).orders = s.orders := rfl
@[simp] theorem State.modLine_map (f : SectionLine → SectionLine) : (s.modLine f).map = s.map := rfl
@[simp] theorem State.modLine_reels (f : SectionLine → SectionLine) : (s.modLine f).reels = s.reels := rfl
@[simp] theorem State.modLine_splice (f : SectionLine → SectionLine) : (s.modLine f).splice = s.splice := rfl
@[simp] theorem State.modLine_cond (f : SectionLine → SectionLine) : (s.modLine f).cond = s.cond := rfl
@[simp] theorem State.modLine_cut (f : SectionLine → SectionLine) : (s.modLine f).cut = s.cut := rfl
@[simp] theorem State.modLine_router (f : SectionLine → SectionLine) : (s.modLine f).router = s.router := rfl
@[simp] theorem State.modLine_line (f : SectionLine → SectionLine) : (s.modLine f).line = f s.line := rfl
@[simp] theorem State.modLine_host (f : SectionLine → SectionLine) : (s.modLine f).host = s.host := rfl
@[simp] theorem State.modLine_profile (f : SectionLine → SectionLine) : (s.modLine f).profile = s.profile := rfl
@[simp] theorem State.modLine_store (f : SectionLine → SectionLine) : (s.modLine f).store = s.store := rfl
@[simp] theorem State.modLine_pins (f : SectionLine → SectionLine) : (s.modLine f).pins = s.pins := rfl
@[simp] theorem State.modLine_pending (f : SectionLine → SectionLine) : (s.modLine f).pending = s.pending := rfl

/-! ### `modHost` -/

@[simp] theorem State.modHost_web (f : HostLine → HostLine) : (s.modHost f).web = s.web := rfl
@[simp] theorem State.modHost_sup (f : HostLine → HostLine) : (s.modHost f).sup = s.sup := rfl
@[simp] theorem State.modHost_orders (f : HostLine → HostLine) : (s.modHost f).orders = s.orders := rfl
@[simp] theorem State.modHost_map (f : HostLine → HostLine) : (s.modHost f).map = s.map := rfl
@[simp] theorem State.modHost_reels (f : HostLine → HostLine) : (s.modHost f).reels = s.reels := rfl
@[simp] theorem State.modHost_splice (f : HostLine → HostLine) : (s.modHost f).splice = s.splice := rfl
@[simp] theorem State.modHost_cond (f : HostLine → HostLine) : (s.modHost f).cond = s.cond := rfl
@[simp] theorem State.modHost_cut (f : HostLine → HostLine) : (s.modHost f).cut = s.cut := rfl
@[simp] theorem State.modHost_router (f : HostLine → HostLine) : (s.modHost f).router = s.router := rfl
@[simp] theorem State.modHost_line (f : HostLine → HostLine) : (s.modHost f).line = s.line := rfl
@[simp] theorem State.modHost_host (f : HostLine → HostLine) : (s.modHost f).host = f s.host := rfl
@[simp] theorem State.modHost_profile (f : HostLine → HostLine) : (s.modHost f).profile = s.profile := rfl
@[simp] theorem State.modHost_store (f : HostLine → HostLine) : (s.modHost f).store = s.store := rfl
@[simp] theorem State.modHost_pins (f : HostLine → HostLine) : (s.modHost f).pins = s.pins := rfl
@[simp] theorem State.modHost_pending (f : HostLine → HostLine) : (s.modHost f).pending = s.pending := rfl

/-! ### `modStore` -/

@[simp] theorem State.modStore_web (f : Store → Store) : (s.modStore f).web = s.web := rfl
@[simp] theorem State.modStore_sup (f : Store → Store) : (s.modStore f).sup = s.sup := rfl
@[simp] theorem State.modStore_orders (f : Store → Store) : (s.modStore f).orders = s.orders := rfl
@[simp] theorem State.modStore_map (f : Store → Store) : (s.modStore f).map = s.map := rfl
@[simp] theorem State.modStore_reels (f : Store → Store) : (s.modStore f).reels = s.reels := rfl
@[simp] theorem State.modStore_splice (f : Store → Store) : (s.modStore f).splice = s.splice := rfl
@[simp] theorem State.modStore_cond (f : Store → Store) : (s.modStore f).cond = s.cond := rfl
@[simp] theorem State.modStore_cut (f : Store → Store) : (s.modStore f).cut = s.cut := rfl
@[simp] theorem State.modStore_router (f : Store → Store) : (s.modStore f).router = s.router := rfl
@[simp] theorem State.modStore_line (f : Store → Store) : (s.modStore f).line = s.line := rfl
@[simp] theorem State.modStore_host (f : Store → Store) : (s.modStore f).host = s.host := rfl
@[simp] theorem State.modStore_profile (f : Store → Store) : (s.modStore f).profile = s.profile := rfl
@[simp] theorem State.modStore_store (f : Store → Store) : (s.modStore f).store = f s.store := rfl
@[simp] theorem State.modStore_pins (f : Store → Store) : (s.modStore f).pins = s.pins := rfl
@[simp] theorem State.modStore_pending (f : Store → Store) : (s.modStore f).pending = s.pending := rfl

/-! ### `modPins` -/

@[simp] theorem State.modPins_web (f : Pins → Pins) : (s.modPins f).web = s.web := rfl
@[simp] theorem State.modPins_sup (f : Pins → Pins) : (s.modPins f).sup = s.sup := rfl
@[simp] theorem State.modPins_orders (f : Pins → Pins) : (s.modPins f).orders = s.orders := rfl
@[simp] theorem State.modPins_map (f : Pins → Pins) : (s.modPins f).map = s.map := rfl
@[simp] theorem State.modPins_reels (f : Pins → Pins) : (s.modPins f).reels = s.reels := rfl
@[simp] theorem State.modPins_splice (f : Pins → Pins) : (s.modPins f).splice = s.splice := rfl
@[simp] theorem State.modPins_cond (f : Pins → Pins) : (s.modPins f).cond = s.cond := rfl
@[simp] theorem State.modPins_cut (f : Pins → Pins) : (s.modPins f).cut = s.cut := rfl
@[simp] theorem State.modPins_router (f : Pins → Pins) : (s.modPins f).router = s.router := rfl
@[simp] theorem State.modPins_line (f : Pins → Pins) : (s.modPins f).line = s.line := rfl
@[simp] theorem State.modPins_host (f : Pins → Pins) : (s.modPins f).host = s.host := rfl
@[simp] theorem State.modPins_profile (f : Pins → Pins) : (s.modPins f).profile = s.profile := rfl
@[simp] theorem State.modPins_store (f : Pins → Pins) : (s.modPins f).store = s.store := rfl
@[simp] theorem State.modPins_pins (f : Pins → Pins) : (s.modPins f).pins = f s.pins := rfl
@[simp] theorem State.modPins_pending (f : Pins → Pins) : (s.modPins f).pending = s.pending := rfl

/-! ### `withProfile` -/

@[simp] theorem State.withProfile_web (p : Profile) : (s.withProfile p).web = s.web := rfl
@[simp] theorem State.withProfile_sup (p : Profile) : (s.withProfile p).sup = s.sup := rfl
@[simp] theorem State.withProfile_orders (p : Profile) : (s.withProfile p).orders = s.orders := rfl
@[simp] theorem State.withProfile_map (p : Profile) : (s.withProfile p).map = s.map := rfl
@[simp] theorem State.withProfile_reels (p : Profile) : (s.withProfile p).reels = s.reels := rfl
@[simp] theorem State.withProfile_splice (p : Profile) : (s.withProfile p).splice = s.splice := rfl
@[simp] theorem State.withProfile_cond (p : Profile) : (s.withProfile p).cond = s.cond := rfl
@[simp] theorem State.withProfile_cut (p : Profile) : (s.withProfile p).cut = s.cut := rfl
@[simp] theorem State.withProfile_router (p : Profile) : (s.withProfile p).router = s.router := rfl
@[simp] theorem State.withProfile_line (p : Profile) : (s.withProfile p).line = s.line := rfl
@[simp] theorem State.withProfile_host (p : Profile) : (s.withProfile p).host = s.host := rfl
@[simp] theorem State.withProfile_profile (p : Profile) : (s.withProfile p).profile = p := rfl
@[simp] theorem State.withProfile_store (p : Profile) : (s.withProfile p).store = s.store := rfl
@[simp] theorem State.withProfile_pins (p : Profile) : (s.withProfile p).pins = s.pins := rfl
@[simp] theorem State.withProfile_pending (p : Profile) : (s.withProfile p).pending = s.pending := rfl

/-! ### `modStand` -/

@[simp] theorem State.modStand_web (i : Stand) (f : StandRecord → StandRecord) : (s.modStand i f).web = s.web := rfl
@[simp] theorem State.modStand_sup (i : Stand) (f : StandRecord → StandRecord) : (s.modStand i f).sup = s.sup := rfl
@[simp] theorem State.modStand_orders (i : Stand) (f : StandRecord → StandRecord) : (s.modStand i f).orders = s.orders := rfl
@[simp] theorem State.modStand_map (i : Stand) (f : StandRecord → StandRecord) : (s.modStand i f).map = s.map := rfl
@[simp] theorem State.modStand_reels (i : Stand) (f : StandRecord → StandRecord) : (s.modStand i f).reels = { s.reels with stand := s.reels.stand.set i (f (s.reels.stand.get i)) } := rfl
@[simp] theorem State.modStand_splice (i : Stand) (f : StandRecord → StandRecord) : (s.modStand i f).splice = s.splice := rfl
@[simp] theorem State.modStand_cond (i : Stand) (f : StandRecord → StandRecord) : (s.modStand i f).cond = s.cond := rfl
@[simp] theorem State.modStand_cut (i : Stand) (f : StandRecord → StandRecord) : (s.modStand i f).cut = s.cut := rfl
@[simp] theorem State.modStand_router (i : Stand) (f : StandRecord → StandRecord) : (s.modStand i f).router = s.router := rfl
@[simp] theorem State.modStand_line (i : Stand) (f : StandRecord → StandRecord) : (s.modStand i f).line = s.line := rfl
@[simp] theorem State.modStand_host (i : Stand) (f : StandRecord → StandRecord) : (s.modStand i f).host = s.host := rfl
@[simp] theorem State.modStand_profile (i : Stand) (f : StandRecord → StandRecord) : (s.modStand i f).profile = s.profile := rfl
@[simp] theorem State.modStand_store (i : Stand) (f : StandRecord → StandRecord) : (s.modStand i f).store = s.store := rfl
@[simp] theorem State.modStand_pins (i : Stand) (f : StandRecord → StandRecord) : (s.modStand i f).pins = s.pins := rfl
@[simp] theorem State.modStand_pending (i : Stand) (f : StandRecord → StandRecord) : (s.modStand i f).pending = s.pending := rfl

/-! ### `modPlan` -/

@[simp] theorem State.modPlan_web (i : Stand) (f : Plan → Plan) : (s.modPlan i f).web = s.web := rfl
@[simp] theorem State.modPlan_sup (i : Stand) (f : Plan → Plan) : (s.modPlan i f).sup = s.sup := rfl
@[simp] theorem State.modPlan_orders (i : Stand) (f : Plan → Plan) : (s.modPlan i f).orders = s.orders := rfl
@[simp] theorem State.modPlan_map (i : Stand) (f : Plan → Plan) : (s.modPlan i f).map = s.map := rfl
@[simp] theorem State.modPlan_reels (i : Stand) (f : Plan → Plan) : (s.modPlan i f).reels = s.reels := rfl
@[simp] theorem State.modPlan_splice (i : Stand) (f : Plan → Plan) : (s.modPlan i f).splice = { s.splice with plan := s.splice.plan.set i (f (s.splice.plan.get i)) } := rfl
@[simp] theorem State.modPlan_cond (i : Stand) (f : Plan → Plan) : (s.modPlan i f).cond = s.cond := rfl
@[simp] theorem State.modPlan_cut (i : Stand) (f : Plan → Plan) : (s.modPlan i f).cut = s.cut := rfl
@[simp] theorem State.modPlan_router (i : Stand) (f : Plan → Plan) : (s.modPlan i f).router = s.router := rfl
@[simp] theorem State.modPlan_line (i : Stand) (f : Plan → Plan) : (s.modPlan i f).line = s.line := rfl
@[simp] theorem State.modPlan_host (i : Stand) (f : Plan → Plan) : (s.modPlan i f).host = s.host := rfl
@[simp] theorem State.modPlan_profile (i : Stand) (f : Plan → Plan) : (s.modPlan i f).profile = s.profile := rfl
@[simp] theorem State.modPlan_store (i : Stand) (f : Plan → Plan) : (s.modPlan i f).store = s.store := rfl
@[simp] theorem State.modPlan_pins (i : Stand) (f : Plan → Plan) : (s.modPlan i f).pins = s.pins := rfl
@[simp] theorem State.modPlan_pending (i : Stand) (f : Plan → Plan) : (s.modPlan i f).pending = s.pending := rfl

/-! ### `modStation` -/

@[simp] theorem State.modStation_web (x : Station) (f : StationRecord → StationRecord) : (s.modStation x f).web = s.web := rfl
@[simp] theorem State.modStation_sup (x : Station) (f : StationRecord → StationRecord) : (s.modStation x f).sup = s.sup := rfl
@[simp] theorem State.modStation_orders (x : Station) (f : StationRecord → StationRecord) : (s.modStation x f).orders = s.orders := rfl
@[simp] theorem State.modStation_map (x : Station) (f : StationRecord → StationRecord) : (s.modStation x f).map = s.map := rfl
@[simp] theorem State.modStation_reels (x : Station) (f : StationRecord → StationRecord) : (s.modStation x f).reels = s.reels := rfl
@[simp] theorem State.modStation_splice (x : Station) (f : StationRecord → StationRecord) : (s.modStation x f).splice = s.splice := rfl
@[simp] theorem State.modStation_cond (x : Station) (f : StationRecord → StationRecord) : (s.modStation x f).cond = s.cond := rfl
@[simp] theorem State.modStation_cut (x : Station) (f : StationRecord → StationRecord) : (s.modStation x f).cut = { s.cut with station := s.cut.station.set x (f (s.cut.station.get x)) } := rfl
@[simp] theorem State.modStation_router (x : Station) (f : StationRecord → StationRecord) : (s.modStation x f).router = s.router := rfl
@[simp] theorem State.modStation_line (x : Station) (f : StationRecord → StationRecord) : (s.modStation x f).line = s.line := rfl
@[simp] theorem State.modStation_host (x : Station) (f : StationRecord → StationRecord) : (s.modStation x f).host = s.host := rfl
@[simp] theorem State.modStation_profile (x : Station) (f : StationRecord → StationRecord) : (s.modStation x f).profile = s.profile := rfl
@[simp] theorem State.modStation_store (x : Station) (f : StationRecord → StationRecord) : (s.modStation x f).store = s.store := rfl
@[simp] theorem State.modStation_pins (x : Station) (f : StationRecord → StationRecord) : (s.modStation x f).pins = s.pins := rfl
@[simp] theorem State.modStation_pending (x : Station) (f : StationRecord → StationRecord) : (s.modStation x f).pending = s.pending := rfl

/-! ### `modNode` -/

@[simp] theorem State.modNode_web (n : Node) (f : NodeRecord → NodeRecord) : (s.modNode n f).web = s.web := rfl
@[simp] theorem State.modNode_sup (n : Node) (f : NodeRecord → NodeRecord) : (s.modNode n f).sup = s.sup := rfl
@[simp] theorem State.modNode_orders (n : Node) (f : NodeRecord → NodeRecord) : (s.modNode n f).orders = s.orders := rfl
@[simp] theorem State.modNode_map (n : Node) (f : NodeRecord → NodeRecord) : (s.modNode n f).map = s.map := rfl
@[simp] theorem State.modNode_reels (n : Node) (f : NodeRecord → NodeRecord) : (s.modNode n f).reels = s.reels := rfl
@[simp] theorem State.modNode_splice (n : Node) (f : NodeRecord → NodeRecord) : (s.modNode n f).splice = s.splice := rfl
@[simp] theorem State.modNode_cond (n : Node) (f : NodeRecord → NodeRecord) : (s.modNode n f).cond = s.cond := rfl
@[simp] theorem State.modNode_cut (n : Node) (f : NodeRecord → NodeRecord) : (s.modNode n f).cut = s.cut := rfl
@[simp] theorem State.modNode_router (n : Node) (f : NodeRecord → NodeRecord) : (s.modNode n f).router = s.router := rfl
@[simp] theorem State.modNode_line (n : Node) (f : NodeRecord → NodeRecord) : (s.modNode n f).line = { s.line with nodes := s.line.nodes.set n (f (s.line.nodes.get n)) } := rfl
@[simp] theorem State.modNode_host (n : Node) (f : NodeRecord → NodeRecord) : (s.modNode n f).host = s.host := rfl
@[simp] theorem State.modNode_profile (n : Node) (f : NodeRecord → NodeRecord) : (s.modNode n f).profile = s.profile := rfl
@[simp] theorem State.modNode_store (n : Node) (f : NodeRecord → NodeRecord) : (s.modNode n f).store = s.store := rfl
@[simp] theorem State.modNode_pins (n : Node) (f : NodeRecord → NodeRecord) : (s.modNode n f).pins = s.pins := rfl
@[simp] theorem State.modNode_pending (n : Node) (f : NodeRecord → NodeRecord) : (s.modNode n f).pending = s.pending := rfl

/-! ### `modOrder` -/

@[simp] theorem State.modOrder_web (n : Nat) (f : Order → Order) : (s.modOrder n f).web = s.web := rfl
@[simp] theorem State.modOrder_sup (n : Nat) (f : Order → Order) : (s.modOrder n f).sup = s.sup := rfl
@[simp] theorem State.modOrder_orders (n : Nat) (f : Order → Order) : (s.modOrder n f).orders = { s.orders with list := s.orders.list.map fun o => if o.number = n then f o else o } := rfl
@[simp] theorem State.modOrder_map (n : Nat) (f : Order → Order) : (s.modOrder n f).map = s.map := rfl
@[simp] theorem State.modOrder_reels (n : Nat) (f : Order → Order) : (s.modOrder n f).reels = s.reels := rfl
@[simp] theorem State.modOrder_splice (n : Nat) (f : Order → Order) : (s.modOrder n f).splice = s.splice := rfl
@[simp] theorem State.modOrder_cond (n : Nat) (f : Order → Order) : (s.modOrder n f).cond = s.cond := rfl
@[simp] theorem State.modOrder_cut (n : Nat) (f : Order → Order) : (s.modOrder n f).cut = s.cut := rfl
@[simp] theorem State.modOrder_router (n : Nat) (f : Order → Order) : (s.modOrder n f).router = s.router := rfl
@[simp] theorem State.modOrder_line (n : Nat) (f : Order → Order) : (s.modOrder n f).line = s.line := rfl
@[simp] theorem State.modOrder_host (n : Nat) (f : Order → Order) : (s.modOrder n f).host = s.host := rfl
@[simp] theorem State.modOrder_profile (n : Nat) (f : Order → Order) : (s.modOrder n f).profile = s.profile := rfl
@[simp] theorem State.modOrder_store (n : Nat) (f : Order → Order) : (s.modOrder n f).store = s.store := rfl
@[simp] theorem State.modOrder_pins (n : Nat) (f : Order → Order) : (s.modOrder n f).pins = s.pins := rfl
@[simp] theorem State.modOrder_pending (n : Nat) (f : Order → Order) : (s.modOrder n f).pending = s.pending := rfl

/-! ### `place` -/

@[simp] theorem State.place_web (b : EventBody) : (s.place b).web = s.web := State.modHost_web s _
@[simp] theorem State.place_sup (b : EventBody) : (s.place b).sup = s.sup := State.modHost_sup s _
@[simp] theorem State.place_orders (b : EventBody) : (s.place b).orders = s.orders := State.modHost_orders s _
@[simp] theorem State.place_map (b : EventBody) : (s.place b).map = s.map := State.modHost_map s _
@[simp] theorem State.place_reels (b : EventBody) : (s.place b).reels = s.reels := State.modHost_reels s _
@[simp] theorem State.place_splice (b : EventBody) : (s.place b).splice = s.splice := State.modHost_splice s _
@[simp] theorem State.place_cond (b : EventBody) : (s.place b).cond = s.cond := State.modHost_cond s _
@[simp] theorem State.place_cut (b : EventBody) : (s.place b).cut = s.cut := State.modHost_cut s _
@[simp] theorem State.place_router (b : EventBody) : (s.place b).router = s.router := State.modHost_router s _
@[simp] theorem State.place_line (b : EventBody) : (s.place b).line = s.line := State.modHost_line s _
@[simp] theorem State.place_profile (b : EventBody) : (s.place b).profile = s.profile := State.modHost_profile s _
@[simp] theorem State.place_store (b : EventBody) : (s.place b).store = s.store := State.modHost_store s _
@[simp] theorem State.place_pins (b : EventBody) : (s.place b).pins = s.pins := State.modHost_pins s _
@[simp] theorem State.place_pending (b : EventBody) : (s.place b).pending = s.pending := State.modHost_pending s _

/-! ### `withPending` -/

@[simp] theorem State.withPending_web (l : List Instr) : (s.withPending l).web = s.web := rfl
@[simp] theorem State.withPending_sup (l : List Instr) : (s.withPending l).sup = s.sup := rfl
@[simp] theorem State.withPending_orders (l : List Instr) : (s.withPending l).orders = s.orders := rfl
@[simp] theorem State.withPending_map (l : List Instr) : (s.withPending l).map = s.map := rfl
@[simp] theorem State.withPending_reels (l : List Instr) : (s.withPending l).reels = s.reels := rfl
@[simp] theorem State.withPending_splice (l : List Instr) : (s.withPending l).splice = s.splice := rfl
@[simp] theorem State.withPending_cond (l : List Instr) : (s.withPending l).cond = s.cond := rfl
@[simp] theorem State.withPending_cut (l : List Instr) : (s.withPending l).cut = s.cut := rfl
@[simp] theorem State.withPending_router (l : List Instr) : (s.withPending l).router = s.router := rfl
@[simp] theorem State.withPending_line (l : List Instr) : (s.withPending l).line = s.line := rfl
@[simp] theorem State.withPending_host (l : List Instr) : (s.withPending l).host = s.host := rfl
@[simp] theorem State.withPending_profile (l : List Instr) : (s.withPending l).profile = s.profile := rfl
@[simp] theorem State.withPending_store (l : List Instr) : (s.withPending l).store = s.store := rfl
@[simp] theorem State.withPending_pins (l : List Instr) : (s.withPending l).pins = s.pins := rfl
@[simp] theorem State.withPending_pending (l : List Instr) : (s.withPending l).pending = l := rfl

/-! ### Families -/

@[simp] theorem PerStand.get_set {α : Type} (p : PerStand α) (i j : Stand) (x : α) :
    (p.set i x).get j = if j = i then x else p.get j := by
  cases i <;> cases j <;> rfl

@[simp] theorem PerStand.get_same {α : Type} (x : α) (i : Stand) : (PerStand.same x).get i = x := by cases i <;> rfl

@[simp] theorem PerStand.get_of {α : Type} (f : Stand → α) (i : Stand) : (PerStand.of f).get i = f i := by cases i <;> rfl

@[simp] theorem PerStation.get_set {α : Type} (p : PerStation α) (i j : Station) (x : α) :
    (p.set i x).get j = if j = i then x else p.get j := by
  cases i <;> cases j <;> rfl

@[simp] theorem PerArm.get_set {α : Type} (p : PerArm α) (i j : Arm) (x : α) :
    (p.set i x).get j = if j = i then x else p.get j := by
  cases i <;> cases j <;> rfl

@[simp] theorem Nodes.get_set (p : Nodes) (n m : Node) (x : NodeRecord) : (p.set n x).get m = if m = n then x else p.get m := by
  rcases n with i | _ | i | _ <;> rcases m with j | _ | j | _ <;>
    simp [Nodes.set, Nodes.get, PerStand.get_set, PerStation.get_set]

/-- Two families of stands with the same values are the same. -/
theorem PerStand.ext_get {α : Type} {p q : PerStand α} (h : ∀ i, p.get i = q.get i) : p = q := by
  obtain ⟨a, b, c, d, e⟩ := p
  obtain ⟨a', b', c', d', e'⟩ := q
  have h1 : a = a' := h .s1
  have h2 : b = b' := h .s2
  have h3 : c = c' := h .s3
  have h4 : d = d' := h .s4
  have h5 : e = e' := h .s5
  simp [h1, h2, h3, h4, h5]

/-- A stand's plan after an update of a plan. -/
@[simp] theorem State.modPlan_plan (i j : Stand) (f : Plan → Plan) :
    (s.modPlan i f).plan j = if j = i then f (s.plan i) else s.plan j := by
  simp [State.plan]

/-- A stand's record after an update of a record. -/
@[simp] theorem State.modStand_standRecord (i j : Stand) (f : StandRecord → StandRecord) :
    (s.modStand i f).standRecord j = if j = i then f (s.standRecord i) else s.standRecord j := by
  simp [State.standRecord]

/-- A station's record after an update of a record. -/
@[simp] theorem State.modStation_station (x y : Station) (f : StationRecord → StationRecord) :
    (s.modStation x f).station y = if y = x then f (s.station x) else s.station y := by
  simp [State.station]

/-- A node's record after an update of a record. -/
@[simp] theorem State.modNode_node (n m : Node) (f : NodeRecord → NodeRecord) :
    (s.modNode n f).node m = if m = n then f (s.node n) else s.node m := by
  simp [State.node]

/-- What placing an event changes of the host line's items (R179). -/
theorem State.place_host (b : EventBody) :
    (s.place b).host =
      { s.host with
        events := (s.host.events ++ [Event.mk s.host.sequence s.web.w b]).drop (s.host.events.length + 1 - Config.eventCapacity)
        sequence := (s.host.sequence + 1) % 65536
        overflow := s.host.overflow || decide (Config.eventCapacity ≤ s.host.events.length) } := rfl

@[simp] theorem State.place_host_gathered (b : EventBody) : (s.place b).host.gathered = s.host.gathered := by simp only [State.place_host]
@[simp] theorem State.place_host_gap (b : EventBody) : (s.place b).host.gap = s.host.gap := by simp only [State.place_host]
@[simp] theorem State.place_host_holding (b : EventBody) : (s.place b).host.holding = s.host.holding := by simp only [State.place_host]
@[simp] theorem State.place_host_answering (b : EventBody) : (s.place b).host.answering = s.host.answering := by simp only [State.place_host]
@[simp] theorem State.place_host_cause (b : EventBody) : (s.place b).host.cause = s.host.cause := by simp only [State.place_host]

end Sys2Proof.Machine
end

