-- ==== Sys2Proof/Laws/Frames.lean ====
section
/-! SUPPORT. Which blocks an operation may change, one lemma for each operation in the form `OnlyChanges blocks s (s.operation)`; a
chain of operations is followed by `OnlyChanges.andThen`. -/

namespace Sys2Proof.Machine

variable {a s t : State} {l m : List Block}

/-! ### The relation -/

theorem Block.Same.refl (b : Block) (s : State) : b.Same s s := by cases b <;> rfl

theorem Block.Same.trans {b : Block} (h : b.Same a s) (k : b.Same s t) : b.Same a t := by
  cases b <;> exact Eq.trans k h

theorem OnlyChanges.refl (l : List Block) (s : State) : OnlyChanges l s s := ⟨rfl, fun b _ => .refl b s⟩

/-- After an operation another one acts that changes no other blocks. -/
theorem OnlyChanges.andThen (h : OnlyChanges l a s) (k : OnlyChanges m s t) (hm : ∀ b ∈ m, b ∈ l := by decide) : OnlyChanges l a t :=
  ⟨k.1.trans h.1, fun b hb => (h.2 b hb).trans (k.2 b fun x => hb (hm b x))⟩

/-- One of two states that both change no other blocks. -/
theorem OnlyChanges.ite {c : Prop} [Decidable c] (h : OnlyChanges l a s) (k : OnlyChanges l a t) :
    OnlyChanges l a (if c then s else t) := by split <;> assumption

theorem OnlyChanges.foldl {β : Type} (f : State → β → State) (hf : ∀ s x, OnlyChanges l s (f s x)) (xs : List β) (s : State) :
    OnlyChanges l s (xs.foldl f s) := by
  induction xs generalizing s with
  | nil => exact .refl l s
  | cons x xs ih => exact (hf s x).andThen (ih (f s x)) fun _ => id

theorem OnlyChanges.eachStand (f : Stand → State → State) (hf : ∀ i s, OnlyChanges l s (f i s)) (s : State) :
    OnlyChanges l s (s.eachStand f) := .foldl _ (fun s i => hf i s) _ s

section
variable (h : OnlyChanges l a s)
include h

theorem OnlyChanges.web (hb : Block.web ∉ l := by decide) : s.web = a.web := h.2 .web hb
theorem OnlyChanges.sup (hb : Block.sup ∉ l := by decide) : s.sup = a.sup := h.2 .sup hb
theorem OnlyChanges.orders (hb : Block.orders ∉ l := by decide) : s.orders = a.orders := h.2 .orders hb
theorem OnlyChanges.map (hb : Block.map ∉ l := by decide) : s.map = a.map := h.2 .map hb
theorem OnlyChanges.reels (hb : Block.reels ∉ l := by decide) : s.reels = a.reels := h.2 .reels hb
theorem OnlyChanges.splice (hb : Block.splice ∉ l := by decide) : s.splice = a.splice := h.2 .splice hb
theorem OnlyChanges.cond (hb : Block.cond ∉ l := by decide) : s.cond = a.cond := h.2 .cond hb
theorem OnlyChanges.cut (hb : Block.cut ∉ l := by decide) : s.cut = a.cut := h.2 .cut hb
theorem OnlyChanges.line (hb : Block.line ∉ l := by decide) : s.line = a.line := h.2 .line hb
theorem OnlyChanges.host (hb : Block.host ∉ l := by decide) : s.host = a.host := h.2 .host hb
theorem OnlyChanges.profile (hb : Block.profile ∉ l := by decide) : s.profile = a.profile := h.2 .profile hb

end

/-! ### One block -/

variable (s)

theorem State.modSup_only (f : Supervisor → Supervisor) : OnlyChanges [.sup] s (s.modSup f) :=
  ⟨rfl, fun b hb => by cases b <;> first | exact absurd List.mem_cons_self hb | rfl⟩
theorem State.modOrders_only (f : Orders → Orders) : OnlyChanges [.orders] s (s.modOrders f) :=
  ⟨rfl, fun b hb => by cases b <;> first | exact absurd List.mem_cons_self hb | rfl⟩
theorem State.modMap_only (f : WebMap → WebMap) : OnlyChanges [.map] s (s.modMap f) :=
  ⟨rfl, fun b hb => by cases b <;> first | exact absurd List.mem_cons_self hb | rfl⟩
theorem State.modReels_only (f : Reels → Reels) : OnlyChanges [.reels] s (s.modReels f) :=
  ⟨rfl, fun b hb => by cases b <;> first | exact absurd List.mem_cons_self hb | rfl⟩
theorem State.modSplice_only (f : Splicer → Splicer) : OnlyChanges [.splice] s (s.modSplice f) :=
  ⟨rfl, fun b hb => by cases b <;> first | exact absurd List.mem_cons_self hb | rfl⟩
theorem State.modCond_only (f : Conditioning → Conditioning) : OnlyChanges [.cond] s (s.modCond f) :=
  ⟨rfl, fun b hb => by cases b <;> first | exact absurd List.mem_cons_self hb | rfl⟩
theorem State.modCut_only (f : CutControl → CutControl) : OnlyChanges [.cut] s (s.modCut f) :=
  ⟨rfl, fun b hb => by cases b <;> first | exact absurd List.mem_cons_self hb | rfl⟩
theorem State.modLine_only (f : SectionLine → SectionLine) : OnlyChanges [.line] s (s.modLine f) :=
  ⟨rfl, fun b hb => by cases b <;> first | exact absurd List.mem_cons_self hb | rfl⟩
theorem State.modHost_only (f : HostLine → HostLine) : OnlyChanges [.host] s (s.modHost f) :=
  ⟨rfl, fun b hb => by cases b <;> first | exact absurd List.mem_cons_self hb | rfl⟩
theorem State.modPins_only (f : Pins → Pins) : OnlyChanges [.pins] s (s.modPins f) :=
  ⟨rfl, fun b hb => by cases b <;> first | exact absurd List.mem_cons_self hb | rfl⟩
theorem State.modPlan_only (i : Stand) (f : Plan → Plan) : OnlyChanges [.splice] s (s.modPlan i f) := s.modSplice_only _
theorem State.modStation_only (x : Station) (f : StationRecord → StationRecord) : OnlyChanges [.cut] s (s.modStation x f) :=
  s.modCut_only _
theorem State.modStand_only (i : Stand) (f : StandRecord → StandRecord) : OnlyChanges [.reels] s (s.modStand i f) := s.modReels_only _
theorem State.modNode_only (n : Node) (f : NodeRecord → NodeRecord) : OnlyChanges [.line] s (s.modNode n f) := s.modLine_only _
theorem State.modOrder_only (n : Nat) (f : Order → Order) : OnlyChanges [.orders] s (s.modOrder n f) := s.modOrders_only _
theorem State.place_only (b : EventBody) : OnlyChanges [.host] s (s.place b) := s.modHost_only _

/-! ### Supervisor -/

theorem State.placeLineState_only (b : LineState) : OnlyChanges [.host] s (s.placeLineState b) := s.place_only _

theorem State.setHolds_only (h : Holds) : OnlyChanges [.sup, .host] s (s.setHolds h) :=
  .ite (.refl _ s) (((OnlyChanges.refl _ s).andThen (s.modSup_only _)).andThen (State.placeLineState_only _ _))

theorem State.raiseHold_only (r : HoldReason) : OnlyChanges [.sup, .host] s (s.raiseHold r) := .ite (s.setHolds_only _) (.refl _ s)

theorem State.clearHold_only (r : HoldReason) : OnlyChanges [.sup, .host] s (s.clearHold r) := s.setHolds_only _

theorem State.putHold_only (r : HoldReason) (b : Bool) : OnlyChanges [.sup, .host] s (s.putHold r b) :=
  .ite (s.raiseHold_only r) (s.clearHold_only r)

theorem State.setSetWait_only (h : PerStation Bool) : OnlyChanges [.sup, .host] s (s.setSetWait h) :=
  .ite (((OnlyChanges.refl _ s).andThen (s.modSup_only _)).andThen (State.putHold_only _ _ _)) (.refl _ s)

theorem State.setSpliceWait_only (h : PerStand Bool) : OnlyChanges [.sup, .host] s (s.setSpliceWait h) :=
  .ite (((OnlyChanges.refl _ s).andThen (s.modSup_only _)).andThen (State.putHold_only _ _ _)) (.refl _ s)

theorem State.syncSpliceCeiling_only : OnlyChanges [.sup] s s.syncSpliceCeiling := s.modSup_only _

/-! ### Section command queue -/

theorem State.queueCommand_only (n : Node) (x : Ask) : OnlyChanges [.line] s (s.queueCommand n x) :=
  ((OnlyChanges.refl _ s).andThen (.ite (s.modNode_only n _) (.refl [.line] s))).andThen (State.modLine_only _ _)

theorem State.withdrawInit_only (n : Node) : OnlyChanges [.line] s (s.withdrawInit n) := s.modLine_only _

theorem State.queueSetpoints_only (p : Setpoints) : OnlyChanges [.line] s (s.queueSetpoints p) := s.modLine_only _

/-! ### Splice planner -/

theorem State.placePlanned_only (i : Stand) : OnlyChanges [.host] s (s.placePlanned i) := s.place_only _

theorem State.writeWindow_only (i : Stand) : OnlyChanges [.splice] s (s.writeWindow i) := s.modPlan_only i _

theorem State.grant_only (i : Stand) : OnlyChanges [.splice, .line] s (s.grant i) :=
  ((OnlyChanges.refl _ s).andThen (s.modPlan_only i _)).andThen (State.queueCommand_only _ _ _)

theorem State.arbiter_only : OnlyChanges [.splice, .line] s s.arbiter := by
  unfold State.arbiter
  repeat' split
  · exact s.grant_only _
  · exact .refl _ s
  · exact .refl _ s

theorem State.testSpliceCall_only (i : Stand) : OnlyChanges [.splice] s (s.testSpliceCall i) := s.modPlan_only i _

theorem State.syncSplice_only : OnlyChanges [.sup, .splice, .host] s s.syncSplice :=
  (((OnlyChanges.refl _ s).andThen (.eachStand State.testSpliceCall (fun i s => s.testSpliceCall_only i) s)).andThen
    (State.setSpliceWait_only _ _)).andThen (State.syncSpliceCeiling_only _)

theorem State.armPlan_only (i : Stand) : OnlyChanges [.splice] s (s.armPlan i) := .ite (s.modPlan_only i _) (.refl _ s)

theorem State.duePlan_only (i : Stand) : OnlyChanges [.splice, .line] s (s.duePlan i) := by
  unfold State.duePlan
  dsimp only
  repeat' split
  · exact ((OnlyChanges.refl _ s).andThen (s.modPlan_only i _)).andThen (State.arbiter_only _)
  · exact ((OnlyChanges.refl _ s).andThen (s.modPlan_only i _)).andThen (State.arbiter_only _)
  · exact .refl _ s
  · exact .refl _ s

theorem State.settleSplice_only : OnlyChanges [.sup, .splice, .line, .host] s s.settleSplice :=
  ((((OnlyChanges.refl _ s).andThen (.eachStand State.armPlan (fun i s => s.armPlan_only i) s)).andThen
    (.eachStand State.duePlan (fun i s => s.duePlan_only i) _)).andThen (State.arbiter_only _)).andThen (State.syncSplice_only _)

theorem State.reportPlan_only (i : Stand) (p : Plan) : OnlyChanges [.host] s (s.reportPlan i p) :=
  .ite (.refl _ s) (s.placePlanned_only i)

theorem State.takeGrade_only (i : Stand) (g : GradeTarget) : OnlyChanges [.splice, .host] s (s.takeGrade i g) :=
  ((OnlyChanges.refl _ s).andThen (s.modPlan_only i _)).andThen (State.placePlanned_only _ _)

theorem State.takeUpHeld_only (i : Stand) : OnlyChanges [.splice, .host] s (s.takeUpHeld i) := by
  unfold State.takeUpHeld
  dsimp only
  have w := (OnlyChanges.refl [.splice, .host] s).andThen (s.writeWindow_only i)
  repeat' split
  · exact (w.andThen (State.modPlan_only _ _ _)).andThen (State.takeGrade_only _ _ _)
  · exact w
  · exact (w.andThen (State.modPlan_only _ _ _)).andThen (State.takeGrade_only _ _ _)
  · exact .refl _ s
  · exact .refl _ s

theorem State.passFixed_only (i : Stand) : OnlyChanges [.splice, .host] s (s.passFixed i) := by
  unfold State.passFixed
  dsimp only
  have w := (OnlyChanges.refl [.splice, .host] s).andThen (s.writeWindow_only i)
  repeat' split
  · exact w
  · exact ((w.andThen (State.modPlan_only _ _ _)).andThen (State.reportPlan_only _ _ _)).andThen (State.takeUpHeld_only _ _)
  · exact (w.andThen (State.modPlan_only _ _ _)).andThen (State.reportPlan_only _ _ _)
  · exact w
  · exact ((w.andThen (State.modPlan_only _ _ _)).andThen (State.reportPlan_only _ _ _)).andThen (State.takeUpHeld_only _ _)
  · exact (w.andThen (State.modPlan_only _ _ _)).andThen (State.reportPlan_only _ _ _)
  · exact w
  · exact .refl _ s

theorem State.placeMovable_only (xs : List Stand) (refs : List Nat) : OnlyChanges [.splice, .host] s (State.placeMovable xs refs s) := by
  induction xs generalizing s refs with
  | nil => exact .refl _ s
  | cons i xs ih =>
    unfold State.placeMovable
    split
    · exact (((OnlyChanges.refl _ s).andThen (s.modPlan_only i _)).andThen (State.reportPlan_only _ _ _)).andThen (ih _ _)
    · exact ih s refs

theorem State.pass_only : OnlyChanges [.sup, .splice, .line, .host] s s.pass := by
  unfold State.pass
  split
  · exact (((OnlyChanges.refl _ s).andThen (.eachStand State.passFixed (fun i s => s.passFixed_only i) s)).andThen
      (State.placeMovable_only _ _ _)).andThen (State.settleSplice_only _)
  · exact .refl _ s

theorem State.holdGrade_only (i : Stand) (g : GradeTarget) : OnlyChanges [.splice] s (s.holdGrade i g) := s.modPlan_only i _

theorem State.offerGrade_only (i : Stand) (g : GradeTarget) : OnlyChanges [.splice, .host] s (s.offerGrade i g) := by
  unfold State.offerGrade
  dsimp only
  have h := (OnlyChanges.refl [.splice, .host] s).andThen (s.holdGrade_only i g)
  repeat' split
  all_goals first | exact s.takeGrade_only i g | exact h | exact .refl _ s

/-! ### Conditioning unit -/

theorem State.setHeatEntry_only (e : Option Nat) : OnlyChanges [.sup] s (s.setHeatEntry e) := s.modSup_only _

theorem State.countDerate_only : OnlyChanges [.orders] s s.countDerate := by
  unfold State.countDerate
  split
  · exact s.modOrder_only _ _
  · exact .refl _ s

theorem State.applyHeat_only : OnlyChanges [.sup, .orders, .host] s s.applyHeat := by
  unfold State.applyHeat
  dsimp only
  have h := fun e => (OnlyChanges.refl [.sup, .orders, .host] s).andThen (s.setHeatEntry_only e)
  repeat' split
  · exact (((h _).andThen (State.clearHold_only _ _)).andThen (State.place_only _ _)).andThen (State.countDerate_only _)
  · exact ((h _).andThen (State.clearHold_only _ _)).andThen (State.place_only _ _)
  · exact (h _).andThen (State.clearHold_only _ _)
  · exact ((h _).andThen (State.place_only _ _)).andThen (State.putHold_only _ _ _)
  · exact (h _).andThen (State.putHold_only _ _ _)

theorem State.recomputeHeat_only : OnlyChanges [.sup, .orders, .cond, .host] s s.recomputeHeat :=
  ((OnlyChanges.refl _ s).andThen (s.modCond_only _)).andThen (State.applyHeat_only _)

theorem State.placeSetpoints_only : OnlyChanges [.cond, .line] s s.placeSetpoints := by
  unfold State.placeSetpoints
  dsimp only
  repeat' split
  · exact ((OnlyChanges.refl _ s).andThen (s.modCond_only _)).andThen (State.queueSetpoints_only _ _)
  · exact .refl _ s
  · exact .refl _ s

theorem State.takeTable_only (g : Nat) : OnlyChanges [.sup, .orders, .cond, .line, .host] s (s.takeTable g) :=
  (((OnlyChanges.refl _ s).andThen (s.modCond_only _)).andThen (State.placeSetpoints_only _)).andThen (State.recomputeHeat_only _)

theorem State.applyGlue_only : OnlyChanges [.sup, .orders, .cond, .line, .host] s s.applyGlue := by
  unfold State.applyGlue
  repeat' split
  · exact .refl _ s
  · exact s.takeTable_only _
  · exact .refl _ s

theorem State.applyGlueFresh_only : OnlyChanges [.sup, .orders, .cond, .line, .host] s s.applyGlueFresh := by
  unfold State.applyGlueFresh
  repeat' split
  · exact s.takeTable_only _
  · exact s.takeTable_only _
  · exact .refl _ s

/-! ### Stations -/

theorem State.syncSetWait_only : OnlyChanges [.sup, .host] s s.syncSetWait := s.setSetWait_only _

theorem State.issueSet_only (x : Station) : OnlyChanges [.cut, .line] s (s.issueSet x) := by
  unfold State.issueSet
  dsimp only
  repeat' split
  · exact ((OnlyChanges.refl _ s).andThen (s.modStation_only x _)).andThen (State.queueCommand_only _ _ _)
  · exact .refl _ s
  · exact .refl _ s

theorem State.examine_only (x : Station) : OnlyChanges [.cut, .line] s (s.examine x) :=
  .ite ((OnlyChanges.refl _ s).andThen (s.modStation_only x _)) (s.issueSet_only x)

theorem State.takeSwap_only (e : SwapEntry) : OnlyChanges [.cut, .line] s (s.takeSwap e) :=
  (((OnlyChanges.refl _ s).andThen (s.modStation_only _ _)).andThen (State.modCut_only _ _)).andThen (State.queueCommand_only _ _ _)

theorem State.takeSwaps_only (n : Nat) : OnlyChanges [.cut, .line] s (State.takeSwaps n s) := by
  induction n generalizing s with
  | zero => exact .refl _ s
  | succ n ih =>
    unfold State.takeSwaps
    repeat' split
    · exact (s.takeSwap_only _).andThen (ih _)
    · exact .refl _ s
    · exact .refl _ s

theorem State.dueSwaps_only : OnlyChanges [.sup, .cut, .line, .host] s s.dueSwaps :=
  ((OnlyChanges.refl _ s).andThen (s.takeSwaps_only _)).andThen (State.syncSetWait_only _)

theorem State.settleStations_only : OnlyChanges [.sup, .cut, .line, .host] s s.settleStations :=
  (((OnlyChanges.refl _ s).andThen (s.examine_only .a)).andThen (State.examine_only _ .b)).andThen (State.dueSwaps_only _)

theorem State.appendSwap_only (p : Nat) (x : Station) (u : ToolSet) (z : Nat) : OnlyChanges [.cut] s (s.appendSwap p x u z) :=
  s.modCut_only _

/-! ### Knife and boundary planner -/

theorem State.recompose_only : OnlyChanges [.sup, .map] s s.recompose :=
  ((OnlyChanges.refl _ s).andThen (s.modMap_only _)).andThen (State.modSup_only _ _)

theorem State.presentRatio_only : OnlyChanges [.cut, .pins] s s.presentRatio := by
  unfold State.presentRatio
  dsimp only
  repeat' split
  · exact .refl _ s
  · exact ((OnlyChanges.refl _ s).andThen (s.modCut_only _)).andThen (State.modPins_only _ _)
  · exact .refl _ s

theorem State.presentIfChanged_only (k : Option KnifeSchedule) : OnlyChanges [.cut, .pins] s (s.presentIfChanged k) :=
  .ite (.refl _ s) s.presentRatio_only

theorem State.setEstimateGrade_only (g : Option Nat) : OnlyChanges [.reels] s (s.setEstimateGrade g) :=
  .ite (.refl _ s) (((OnlyChanges.refl _ s).andThen (.eachStand State.rebase (fun i s => s.modStand_only i _) s)).andThen
    (State.modReels_only _ _))

theorem State.appendZone_only (z : Zone) : OnlyChanges [.map] s (s.appendZone z) := s.modMap_only _

theorem State.placeOrderState_only (n : Nat) (b : Option OrderState) : OnlyChanges [.host] s (s.placeOrderState n b) := by
  unfold State.placeOrderState
  split
  · exact s.place_only _
  · exact .refl _ s

theorem State.schedule_only (o : Order) (start : Nat) : OnlyChanges [.orders, .map, .cond, .host] s (s.schedule o start) :=
  (((((OnlyChanges.refl _ s).andThen (s.appendZone_only _)).andThen (State.modOrder_only _ _ _)).andThen (State.modCond_only _ _)).andThen
    (State.modMap_only _ _)).andThen (State.placeOrderState_only _ _ _)

theorem State.fixEnd_only (o : Order) : OnlyChanges [.orders, .map, .host] s (s.fixEnd o) :=
  (((OnlyChanges.refl _ s).andThen (s.modOrder_only _ _)).andThen (State.modMap_only _ _)).andThen (State.placeOrderState_only _ _ _)

theorem State.queueEndTest_only : OnlyChanges [.sup, .map, .host] s s.queueEndTest := by
  unfold State.queueEndTest
  repeat' split
  · exact ((OnlyChanges.refl _ s).andThen (s.modMap_only _)).andThen (State.raiseHold_only _ _)
  · exact .refl _ s
  · exact .refl _ s

theorem State.chooseStation_only (x : ToolSet) (z : Nat) : OnlyChanges [.sup, .cut, .line, .host] s (s.chooseStation x z) :=
  .ite (.refl _ s) (((OnlyChanges.refl _ s).andThen (s.appendSwap_only _ _ _ _)).andThen (State.settleStations_only _))

end Sys2Proof.Machine
end

