-- ==== Sys2Proof/Laws/Keeps.lean ====
section
/-! SUPPORT. `Keeps a s`: the state `s`, reached from `a` by some of the part's operations, has what those operations never touch as
`a` has it, and each law of Safety.lean that holds in `a` holds in `s`. One lemma for each kind of update; the files that follow add
one lemma for each operation, in the form `Keeps a s → Keeps a (s.operation)`, so that a chain of operations is followed by `simp`. -/

namespace Sys2Proof.Machine

/-- `s` keeps the core of `a` and every law that holds in `a`. -/
structure Keeps (a s : State) : Prop where
  core      : s.core = a.core
  bounded   : a.Bounded → s.Bounded
  holds     : a.HoldsAgree → s.HoldsAgree
  firing    : a.OneFiring → s.OneFiring
  reference : a.ReferenceSafe → s.ReferenceSafe
  zones     : a.ZonesSized → s.ZonesSized
  queueEnd  : a.QueueEndStands → s.QueueEndStands

theorem Keeps.refl (s : State) : Keeps s s := ⟨rfl, id, id, id, id, id, id⟩

theorem Keeps.trans {a s t : State} (h : Keeps a s) (k : Keeps s t) : Keeps a t :=
  ⟨k.core.trans h.core, k.bounded ∘ h.bounded, k.holds ∘ h.holds, k.firing ∘ h.firing, k.reference ∘ h.reference,
   k.zones ∘ h.zones, k.queueEnd ∘ h.queueEnd⟩

/-- The supervisor's items that the laws speak of. -/
def Supervisor.lawful (p : Supervisor) :
    LineState × Holds × PerStation Bool × PerStand Bool × Nat × Nat × Bool × Bool :=
  (p.line, p.holds, p.setWait, p.spliceWait, p.reference, p.standstill, p.silent, p.ceilings.silent.isSome)

variable {a s t : State}

/-- Laws from agreement: what the laws speak of is alike in `t` and `s`, or smaller. -/
theorem Keeps.alike (h : Keeps a s) (hc : t.core = s.core) (hs : t.sup.lawful = s.sup.lawful)
    (hf : ∀ i, (t.plan i).state = .firing → (s.plan i).state = .firing)
    (hz : t.map.zones.length ≤ s.map.zones.length)
    (ho : t.map.openOrder = s.map.openOrder ∨ t.map.openOrder = none) (ht : t.map.terminal = s.map.terminal)
    (hb : s.Bounded → t.Bounded) : Keeps a t := by
  simp only [Supervisor.lawful, Prod.mk.injEq] at hs
  obtain ⟨h1, h2, h3, h4, h5, h6, h7, h8⟩ := hs
  have hr : t.pins.resetLow = s.pins.resetLow := congrArg Core.resetLow hc
  have hp : t.profile = s.profile := congrArg Core.profile hc
  refine ⟨hc.trans h.core, hb ∘ h.bounded, fun x => ?_, fun x => ?_, fun x => ?_, fun x => ?_, fun x => ?_⟩
  · obtain ⟨q1, q2, q3, q4, q5, q6, q7⟩ := h.holds x
    constructor <;> simp_all [State.HeldInStartUp]
  · exact fun i j hi hj => h.firing x i j (hf i hi) (hf j hj)
  · obtain ⟨q1, q2, q3, q4⟩ := h.reference x
    constructor <;> simp_all [State.HeldInStartUp]
  · obtain ⟨q1, q2, q3, q4⟩ := h.zones x
    constructor
    · simp_all [State.HeldInStartUp]
    · omega
    · intro hl
      rw [h1] at hl
      obtain ⟨z, o⟩ := q3 hl
      constructor
      · rw [z] at hz
        exact List.length_eq_zero_iff.mp (by simpa using hz)
      · rcases ho with ho | ho <;> simp [ho, o]
    · intro hl
      rw [ht] at hl
      obtain ⟨z, o⟩ := q4 hl
      refine ⟨by omega, ?_⟩
      rcases ho with ho | ho <;> simp [ho, o]
  · intro hq
    rw [h2] at hq
    obtain ⟨y, z⟩ := h.queueEnd x hq
    refine ⟨by rw [ht]; exact y, ?_⟩
    simpa [State.runOrHold, h1] using z

theorem State.Bounded.of_eq (b : s.Bounded) (h1 : t.host.events.length ≤ max 128 s.host.events.length)
    (h2 : t.host.holding = s.host.holding) (h3 : t.orders.list.length ≤ max 24 s.orders.list.length)
    (h4 : t.orders.recent.length ≤ max 8 s.orders.recent.length) (h5 : t.line.routes.length ≤ max 64 s.line.routes.length) :
    t.Bounded := by
  obtain ⟨b1, b2, b3, b4, b5⟩ := b
  constructor
  · omega
  · rw [h2]; exact b2
  · omega
  · omega
  · omega

/-! ### Updates of one block -/

section
variable (h : Keeps a s)
include h

@[simp] theorem Keeps.modReels (f : Reels → Reels) : Keeps a (s.modReels f) :=
  h.alike rfl rfl (fun _ => id) (Nat.le_refl _) (.inl rfl) rfl fun b => b.of_eq (Nat.le_max_right _ _) rfl (Nat.le_max_right _ _) (Nat.le_max_right _ _) (Nat.le_max_right _ _)

@[simp] theorem Keeps.modCond (f : Conditioning → Conditioning) : Keeps a (s.modCond f) :=
  h.alike rfl rfl (fun _ => id) (Nat.le_refl _) (.inl rfl) rfl fun b => b.of_eq (Nat.le_max_right _ _) rfl (Nat.le_max_right _ _) (Nat.le_max_right _ _) (Nat.le_max_right _ _)

@[simp] theorem Keeps.modCut (f : CutControl → CutControl) : Keeps a (s.modCut f) :=
  h.alike rfl rfl (fun _ => id) (Nat.le_refl _) (.inl rfl) rfl fun b => b.of_eq (Nat.le_max_right _ _) rfl (Nat.le_max_right _ _) (Nat.le_max_right _ _) (Nat.le_max_right _ _)

@[simp] theorem Keeps.modRouter (f : Router → Router) : Keeps a (s.modRouter f) :=
  h.alike rfl rfl (fun _ => id) (Nat.le_refl _) (.inl rfl) rfl fun b => b.of_eq (Nat.le_max_right _ _) rfl (Nat.le_max_right _ _) (Nat.le_max_right _ _) (Nat.le_max_right _ _)

@[simp] theorem Keeps.modStand (i : Stand) (f : StandRecord → StandRecord) : Keeps a (s.modStand i f) := h.modReels _

@[simp] theorem Keeps.modStation (x : Station) (f : StationRecord → StationRecord) : Keeps a (s.modStation x f) := h.modCut _

@[simp] theorem Keeps.modLine (f : SectionLine → SectionLine) (hr : (f s.line).routes.length ≤ max 64 s.line.routes.length) :
    Keeps a (s.modLine f) :=
  h.alike rfl rfl (fun _ => id) (Nat.le_refl _) (.inl rfl) rfl fun b => b.of_eq (Nat.le_max_right _ _) rfl (Nat.le_max_right _ _) (Nat.le_max_right _ _) hr

@[simp] theorem Keeps.modNode (n : Node) (f : NodeRecord → NodeRecord) : Keeps a (s.modNode n f) := h.modLine _ (Nat.le_max_right _ _)

@[simp] theorem Keeps.modOrders (f : Orders → Orders) (hl : (f s.orders).list.length ≤ max 24 s.orders.list.length)
    (hr : (f s.orders).recent.length ≤ max 8 s.orders.recent.length) : Keeps a (s.modOrders f) :=
  h.alike rfl rfl (fun _ => id) (Nat.le_refl _) (.inl rfl) rfl fun b => b.of_eq (Nat.le_max_right _ _) rfl hl hr (Nat.le_max_right _ _)

@[simp] theorem Keeps.modOrder (n : Nat) (f : Order → Order) : Keeps a (s.modOrder n f) := h.modOrders _ (Nat.le_trans (Nat.le_of_eq (by simp)) (Nat.le_max_right _ _)) (Nat.le_max_right _ _)

@[simp] theorem Keeps.modMap (f : WebMap → WebMap) (hz : (f s.map).zones.length ≤ s.map.zones.length)
    (ho : (f s.map).openOrder = s.map.openOrder ∨ (f s.map).openOrder = none) (ht : (f s.map).terminal = s.map.terminal) :
    Keeps a (s.modMap f) :=
  h.alike rfl rfl (fun _ => id) hz ho ht fun b => b.of_eq (Nat.le_max_right _ _) rfl (Nat.le_max_right _ _) (Nat.le_max_right _ _) (Nat.le_max_right _ _)

@[simp] theorem Keeps.modSup (f : Supervisor → Supervisor) (hs : (f s.sup).lawful = s.sup.lawful) : Keeps a (s.modSup f) :=
  h.alike rfl hs (fun _ => id) (Nat.le_refl _) (.inl rfl) rfl fun b => b.of_eq (Nat.le_max_right _ _) rfl (Nat.le_max_right _ _) (Nat.le_max_right _ _) (Nat.le_max_right _ _)

@[simp] theorem Keeps.modSplice (f : Splicer → Splicer)
    (hf : ∀ i, ((f s.splice).plan.get i).state = .firing → (s.plan i).state = .firing) : Keeps a (s.modSplice f) :=
  h.alike rfl rfl hf (Nat.le_refl _) (.inl rfl) rfl fun b => b.of_eq (Nat.le_max_right _ _) rfl (Nat.le_max_right _ _) (Nat.le_max_right _ _) (Nat.le_max_right _ _)

@[simp] theorem Keeps.modPlan (i : Stand) (f : Plan → Plan) (hf : (f (s.plan i)).state = .firing → (s.plan i).state = .firing) :
    Keeps a (s.modPlan i f) :=
  h.modSplice _ fun j hj => by
    by_cases e : j = i
    · subst e; exact hf (by simpa [State.plan] using hj)
    · simpa [e, State.plan] using hj

@[simp] theorem Keeps.modStore (f : Store → Store) (h1 : (f s.store).images = s.store.images)
    (h2 : (f s.store).writing = s.store.writing) (h3 : (f s.store).valid = s.store.valid) (h4 : (f s.store).frozen = s.store.frozen)
    (h5 : (f s.store).checkPassed = s.store.checkPassed) : Keeps a (s.modStore f) :=
  h.alike (by simp [State.core, h1, h2, h3, h4, h5]) rfl (fun _ => id) (Nat.le_refl _) (.inl rfl) rfl
    fun b => b.of_eq (Nat.le_max_right _ _) rfl (Nat.le_max_right _ _) (Nat.le_max_right _ _) (Nat.le_max_right _ _)

@[simp] theorem Keeps.modPins (f : Pins → Pins) (h1 : (f s.pins).resetLow = s.pins.resetLow)
    (h2 : (f s.pins).loaded = s.pins.loaded) (h3 : (f s.pins).gateMs = s.pins.gateMs) : Keeps a (s.modPins f) :=
  h.alike (by simp [State.core, h1, h2, h3]) rfl (fun _ => id) (Nat.le_refl _) (.inl rfl) rfl
    fun b => b.of_eq (Nat.le_max_right _ _) rfl (Nat.le_max_right _ _) (Nat.le_max_right _ _) (Nat.le_max_right _ _)

end

theorem State.place_events_le (s : State) (b : EventBody) (hb : s.host.events.length ≤ 128) :
    (s.place b).host.events.length ≤ 128 := by
  simp only [State.place_host, List.length_drop, List.length_append, List.length_singleton, Config.eventCapacity]
  omega

/-- Placing an event never holds more than 128 (R179). -/
@[simp] theorem Keeps.place (h : Keeps a s) (b : EventBody) : Keeps a (s.place b) := by
  refine h.alike (by simp [State.core]) (by simp) (fun i => by simp [State.plan]) (by simp) (by simp) (by simp) fun k => ?_
  obtain ⟨b1, b2, b3, b4, b5⟩ := k
  exact ⟨State.place_events_le s b b1, by rw [State.place_host_holding]; exact b2, b3, b4, b5⟩

/-! ### Repeated operations -/

/-- A fold of an operation that keeps keeps. -/
theorem Keeps.foldl {β : Type} (f : State → β → State) (hf : ∀ s x, Keeps a s → Keeps a (f s x)) (l : List β) (h : Keeps a s) :
    Keeps a (l.foldl f s) := by
  induction l generalizing s with
  | nil => exact h
  | cons x l ih => exact ih (hf s x h)

/-- An operation taken for each stand. -/
theorem Keeps.eachStand (f : Stand → State → State) (hf : ∀ i s, Keeps a s → Keeps a (f i s)) (h : Keeps a s) :
    Keeps a (s.eachStand f) := Keeps.foldl _ (fun s i => hf i s) _ h

end Sys2Proof.Machine
end

