-- ==== Sys2Proof/Laws/KeepsLine.lean ====
section
/-! SUPPORT. The line supervisor's operations keep the laws (see Keeps.lean). -/

namespace Sys2Proof.Machine

variable {a s t : State}

theorem State.runOrHold_iff (s : State) : s.runOrHold = true ↔ s.sup.line = .run ∨ s.sup.line = .hold := by
  simp [State.runOrHold]

theorem LineState.atRest_iff (l : LineState) :
    l.atRest = true ↔ l = .startUp ∨ l = .standby ∨ l = .tripped ∨ l = .lockout := by
  cases l <;> simp [LineState.atRest]

/-! ### The store's part -/

@[simp] theorem Keeps.writeTripRecord (h : Keeps a s) : Keeps a s.writeTripRecord := by
  unfold State.writeTripRecord
  split <;> exact h.modStore _ rfl rfl rfl rfl rfl

/-! ### Hold reasons -/

@[simp] theorem Keeps.placeLineState (h : Keeps a s) (l : LineState) : Keeps a (s.placeLineState l) := h.place _

@[simp] theorem Holds.any_empty : Holds.empty.any = false := rfl

theorem Holds.eq_empty (w : Holds) (h : w.any = false) : w = .empty := by
  cases w
  simp only [Holds.any, Bool.or_eq_false_iff] at h
  simp_all [Holds.empty]

/-- A hold reason set that agrees with the wait holders, is empty outside Run and Hold, and gains no QUEUE_END. -/
theorem Keeps.setHolds (h : Keeps a s) (w : Holds) (h1 : w.setWait = s.sup.holds.setWait)
    (h2 : w.spliceWait = s.sup.holds.spliceWait) (h3 : s.runOrHold = false → s.sup.holds = .empty → w = .empty)
    (h4 : w.queueEnd = true → s.sup.holds.queueEnd = true) : Keeps a (s.setHolds w) := by
  unfold State.setHolds
  split
  · exact h
  · refine Keeps.placeLineState ?_ _
    obtain ⟨kc, kb, kh, kf, kr, kz, kq⟩ := h
    refine ⟨kc, fun x => ?_, fun x => ?_, kf, fun x => ?_, fun x => ?_, fun x => ?_⟩
    · obtain ⟨b1, b2, b3, b4, b5⟩ := kb x
      exact ⟨b1, b2, b3, b4, b5⟩
    · obtain ⟨q1, q2, q3, q4, q5, q6, q7⟩ := kh x
      have hw := Holds.eq_empty w
      constructor
      · intro p; have := q1 p; simp_all [lineFor]
      · simp only [State.modSup_sup]
        intro p
        cases hl : s.sup.line <;> simp_all [lineFor]
      · simp only [State.modSup_sup]
        intro p
        cases hl : s.sup.line <;> simp_all [lineFor]
      · simp only [State.modSup_sup]
        intro p1 p2
        cases hl : s.sup.line <;> simp_all [lineFor, State.runOrHold]
      · simp only [State.modSup_sup]; rw [h1]; exact q5
      · simp only [State.modSup_sup]; rw [h2]; exact q6
      · exact q7
    · obtain ⟨q1, q2, q3, q4⟩ := kr x
      constructor
      · intro p; have := q1 p; simp_all [lineFor]
      · exact q2
      · simp only [State.modSup_sup]
        intro p
        cases hl : s.sup.line <;> cases e : w.any <;> simp_all [lineFor]
        all_goals by_cases e : w.any = true <;> simp_all [LineState.atRest]
      · simp only [State.modSup_sup]
        intro p1 p2
        cases hl : s.sup.line <;> cases e : w.any <;> simp_all [lineFor]
    · obtain ⟨q1, q2, q3, q4⟩ := kz x
      constructor
      · intro p; have := q1 p; simp_all [lineFor]
      · exact q2
      · simp only [State.modSup_sup, State.modSup_map]
        intro p
        cases hl : s.sup.line <;> cases e : w.any <;> simp_all [lineFor]
      · exact q4
    · intro p
      obtain ⟨y, z⟩ := kq x (h4 p)
      refine ⟨y, ?_⟩
      simp only [State.runOrHold_iff, State.modSup_sup] at *
      rcases z with z | z <;> rw [z] <;> by_cases e : w.any = true <;> simp [lineFor, e]

/-- A reason of its own: neither a wait nor QUEUE_END. -/
def HoldReason.plain : HoldReason → Bool
  | .host | .deferral | .order | .sectionLine | .heat => true
  | .setWait | .spliceWait | .queueEnd => false

theorem Keeps.raiseHold (h : Keeps a s) (r : HoldReason) (hr : r.plain = true) : Keeps a (s.raiseHold r) := by
  unfold State.raiseHold
  split
  · cases r <;> simp [HoldReason.plain] at hr <;> refine h.setHolds _ rfl rfl (fun p => by simp_all) id
  · exact h

theorem Keeps.clearHold (h : Keeps a s) (r : HoldReason) (hr : r.plain = true ∨ r = .queueEnd) : Keeps a (s.clearHold r) := by
  unfold State.clearHold
  cases r <;> simp [HoldReason.plain] at hr <;> refine h.setHolds _ rfl rfl (fun _ p => by rw [p]; rfl) (by simp [Holds.set])

theorem Keeps.putHold (h : Keeps a s) (r : HoldReason) (b : Bool) (hr : r.plain = true) : Keeps a (s.putHold r b) := by
  unfold State.putHold
  split
  · exact h.raiseHold r hr
  · exact h.clearHold r (.inl hr)

/-- The wait holders and their reasons change together in Run and Hold (R29). -/
theorem Keeps.setWaits (h : Keeps a s) (u : PerStation Bool) (v : PerStand Bool) (w : Holds) (hr : s.runOrHold = true)
    (hu : a.HoldsAgree → w.setWait = u.any) (hv : a.HoldsAgree → w.spliceWait = v.any) (hq : w.queueEnd = true → s.sup.holds.queueEnd = true ∨ s.map.terminal.isSome = true) :
    Keeps a ((s.modSup fun p => { p with setWait := u, spliceWait := v }).setHolds w) := by
  have hn := Holds.eq_empty w
  have key : ∀ (t : State) (l : LineState), (t.runOrHold = true) → (l = .run ∨ l = .hold) → (l = .run → w.any = false) →
      (l = .hold → w.any = true) → t.core = s.core → (s.Bounded → t.Bounded) → t.splice = s.splice → t.map = s.map →
      t.profile = s.profile →
      t.sup = { s.sup with setWait := u, spliceWait := v, holds := w, line := l } → Keeps a t := by
    intro t l ht hl h1 h2 hc hb hs hm hp hsup
    obtain ⟨kc, kb, kh, kf, kr, kz, kq⟩ := h
    have hreset : t.pins.resetLow = s.pins.resetLow := congrArg Core.resetLow hc
    have hrun := (State.runOrHold_iff s).mp hr
    refine ⟨hc.trans kc, hb ∘ kb, fun x => ?_, fun x => ?_, fun x => ?_, fun x => ?_, fun x => ?_⟩
    · obtain ⟨q1, q2, q3, q4, q5, q6, q7⟩ := kh x
      constructor
      · intro p; rw [hreset] at p; have := q1 p; rcases hrun with r | r <;> simp [r] at this
      · rw [hsup]; intro p; exact hn (h1 p)
      · rw [hsup]; exact h2
      · rw [hsup]; intro p1 p2; rcases hl with r | r <;> simp_all
      · rw [hsup]; exact hu x
      · rw [hsup]; exact hv x
      · rw [hsup]; exact q7
    · intro i j; simp only [State.plan, hs]; exact kf x i j
    · obtain ⟨q1, q2, q3, q4⟩ := kr x
      constructor
      · intro p; rw [hreset] at p; have := q1 p; rcases hrun with r | r <;> simp [r] at this
      · rw [hsup, hp]; exact q2
      · rw [hsup]; intro p; rcases hl with r | r <;> simp [r, LineState.atRest] at p
      · rw [hsup]; intro p; rcases hl with r | r <;> simp [r] at p
    · obtain ⟨q1, q2, q3, q4⟩ := kz x
      constructor
      · intro p; rw [hreset] at p; have := q1 p; rcases hrun with r | r <;> simp [r] at this
      · rw [hm]; exact q2
      · rw [hsup]; intro p; rcases hl with r | r <;> simp [r] at p
      · rw [hm]; exact q4
    · intro p; rw [hsup] at p
      refine ⟨?_, ht⟩
      rw [hm]
      exact (hq p).elim (fun y => (kq x y).1) id
  have hrun := (State.runOrHold_iff s).mp hr
  unfold State.setHolds
  split
  · next e =>
    obtain ⟨kc, kb, kh, kf, kr, kz, kq⟩ := h
    refine ⟨kc, fun x => ?_, fun x => ?_, kf, fun x => ?_, fun x => ?_, kq⟩
    · obtain ⟨b1, b2, b3, b4, b5⟩ := kb x
      exact ⟨b1, b2, b3, b4, b5⟩
    · obtain ⟨q1, q2, q3, q4, q5, q6, q7⟩ := kh x
      exact ⟨q1, q2, q3, q4, (congrArg Holds.setWait e).symm.trans (hu x), (congrArg Holds.spliceWait e).symm.trans (hv x), q7⟩
    · obtain ⟨q1, q2, q3, q4⟩ := kr x
      exact ⟨q1, q2, q3, q4⟩
    · obtain ⟨q1, q2, q3, q4⟩ := kz x
      exact ⟨q1, q2, q3, q4⟩
  · refine Keeps.placeLineState ?_ _
    refine key _ (lineFor s.sup.line w) ?_ ?_ ?_ ?_ rfl (fun b => ?_) rfl rfl rfl rfl
    · simp only [State.runOrHold_iff, State.modSup_sup]
      rcases hrun with r | r <;> rw [r] <;> by_cases e : w.any = true <;> simp [lineFor, e]
    · rcases hrun with r | r <;> rw [r] <;> by_cases e : w.any = true <;> simp [lineFor, e]
    · rcases hrun with r | r <;> rw [r] <;> by_cases e : w.any = true <;> simp [lineFor, e]
    · rcases hrun with r | r <;> rw [r] <;> by_cases e : w.any = true <;> simp [lineFor, e]
    · exact ⟨b.1, b.2, b.3, b.4, b.5⟩

theorem State.putHold_of_runOrHold (s : State) (r : HoldReason) (b : Bool) (hr : s.runOrHold = true) :
    s.putHold r b = s.setHolds (s.sup.holds.set r b) := by
  unfold State.putHold State.raiseHold State.clearHold
  cases b <;> simp [hr]

@[simp] theorem Keeps.setSetWait (h : Keeps a s) (u : PerStation Bool) : Keeps a (s.setSetWait u) := by
  unfold State.setSetWait
  split
  · next hr =>
    rw [State.putHold_of_runOrHold _ _ _ (by exact hr)]
    exact h.setWaits u s.sup.spliceWait _ hr (fun _ => rfl) (fun x => (h.holds x).spliceWait) .inl
  · exact h

@[simp] theorem Keeps.setSpliceWait (h : Keeps a s) (v : PerStand Bool) : Keeps a (s.setSpliceWait v) := by
  unfold State.setSpliceWait
  split
  · next hr =>
    rw [State.putHold_of_runOrHold _ _ _ (by exact hr)]
    exact h.setWaits s.sup.setWait v _ hr (fun x => (h.holds x).setWait) (fun _ => rfl) .inl
  · exact h

/-- QUEUE_END is raised while a terminal boundary stands (R76). -/
theorem Keeps.raiseQueueEnd (h : Keeps a s) (ht : s.map.terminal.isSome = true) : Keeps a (s.raiseHold .queueEnd) := by
  unfold State.raiseHold
  split
  · next hr =>
    exact h.setWaits s.sup.setWait s.sup.spliceWait _ hr (fun x => (h.holds x).setWait) (fun x => (h.holds x).spliceWait)
      fun _ => .inr ht
  · exact h

/-! ### Plans and the SPLICE entry -/

@[simp] theorem Keeps.placePlanned (h : Keeps a s) (i : Stand) : Keeps a (s.placePlanned i) := h.place _

@[simp] theorem Keeps.toIdle (h : Keeps a s) (i : Stand) : Keeps a (s.modPlan i Plan.toIdle) := h.modPlan i _ (by simp [Plan.toIdle])

@[simp] theorem Keeps.disarmPlan (h : Keeps a s) (i : Stand) : Keeps a (s.disarmPlan i) := by
  unfold State.disarmPlan
  split <;> simp [h]

@[simp] theorem Keeps.dropHeldTargets (h : Keeps a s) : Keeps a s.dropHeldTargets :=
  h.modSplice _ fun i p => by simpa [State.plan] using p

@[simp] theorem Keeps.syncSpliceCeiling (h : Keeps a s) : Keeps a s.syncSpliceCeiling := h.modSup _ rfl

@[simp] theorem Keeps.disarmAll (h : Keeps a s) : Keeps a s.disarmAll :=
  (h.eachStand _ fun i _ k => k.disarmPlan i).syncSpliceCeiling

/-! ### Safe stop -/

theorem State.anyFiring_iff (s : State) : s.anyFiring = true ↔ ∃ i, (s.plan i).state = .firing := by
  simp only [State.anyFiring, PerStand.toList, List.any_cons, List.any_nil, Bool.or_false, Bool.or_eq_true, decide_eq_true_eq,
    State.plan]
  constructor
  · rintro (p | p | p | p | p)
    · exact ⟨.s1, p⟩
    · exact ⟨.s2, p⟩
    · exact ⟨.s3, p⟩
    · exact ⟨.s4, p⟩
    · exact ⟨.s5, p⟩
  · rintro ⟨i, p⟩
    cases i <;> simp [PerStand.get] at p <;> simp [p]

/-- The supervisor's part of an entry to Safe stop (R18). -/
theorem Keeps.stopped (h : Keeps a s) (f : Supervisor → Supervisor) (hr : s.runOrHold = true) (h1 : (f s.sup).line = .safeStop)
    (h2 : (f s.sup).holds = .empty) (h3 : (f s.sup).setWait = ⟨false, false⟩) (h4 : (f s.sup).spliceWait = .same false)
    (h5 : (f s.sup).reference = s.sup.reference) (h6 : (f s.sup).standstill = 0) (h7 : (f s.sup).silent = s.sup.silent)
    (h8 : (f s.sup).ceilings.silent = s.sup.ceilings.silent) : Keeps a (s.modSup f) := by
  have hrun := (State.runOrHold_iff s).mp hr
  obtain ⟨kc, kb, kh, kf, kr, kz, kq⟩ := h
  have no : s.HeldInStartUp → s.pins.resetLow = true → False := by
    intro q p
    have := q p
    rcases hrun with r | r <;> simp [r] at this
  refine ⟨kc, fun x => ?_, fun x => ?_, kf, fun x => ?_, fun x => ?_, fun x => ?_⟩
  · obtain ⟨b1, b2, b3, b4, b5⟩ := kb x
    exact ⟨b1, b2, b3, b4, b5⟩
  · obtain ⟨q1, q2, q3, q4, q5, q6, q7⟩ := kh x
    constructor
    · exact fun p => (no q1 p).elim
    all_goals simp only [State.modSup_sup, h1, h2, h3, h4, h7, h8]
    · simp
    · simp
    · simp
    · rfl
    · rfl
    · exact q7
  · obtain ⟨q1, q2, q3, q4⟩ := kr x
    constructor
    · exact fun p => (no q1 p).elim
    all_goals simp only [State.modSup_sup, h1, h5, h6]
    · exact q2
    · simp [LineState.atRest]
    · simp
  · obtain ⟨q1, q2, q3, q4⟩ := kz x
    constructor
    · exact fun p => (no q1 p).elim
    · exact q2
    · simp [h1]
    · exact q4
  · intro p
    simp [h2, Holds.empty] at p

@[simp] theorem Keeps.enterSafeStop (h : Keeps a s) (c : Cause) (hr : s.runOrHold = true) : Keeps a (s.enterSafeStop c) := by
  unfold State.enterSafeStop
  exact ((((h.stopped _ hr rfl rfl rfl rfl rfl rfl rfl rfl).writeTripRecord.place _).placeLineState _).disarmAll).dropHeldTargets

@[simp] theorem Keeps.reportCause (h : Keeps a s) (c : Cause) : Keeps a (s.reportCause c) := by
  unfold State.reportCause
  split
  · next hr => exact h.enterSafeStop c hr
  · exact h.place _

/-- The line goes from one state without hold reasons to another, the reference being 0 where it must be. -/
theorem Keeps.goTo (h : Keeps a s) (l : LineState) (h1 : l = .tripped ∨ l = .lockout)
    (h2 : s.sup.line = .safeStop ∨ s.sup.line = .standby ∨ s.sup.line = .tripped ∨ s.sup.line = .lockout)
    (h3 : a.ReferenceSafe → s.sup.reference = 0) : Keeps a (s.goTo l) := by
  unfold State.goTo
  refine Keeps.placeLineState ?_ _
  obtain ⟨kc, kb, kh, kf, kr, kz, kq⟩ := h
  have no : s.HeldInStartUp → s.pins.resetLow = true → False := by
    intro q p
    have := q p
    rcases h2 with r | r | r | r <;> simp [r] at this
  refine ⟨kc, fun x => ?_, fun x => ?_, kf, fun x => ?_, fun x => ?_, fun x => ?_⟩
  · obtain ⟨b1, b2, b3, b4, b5⟩ := kb x
    exact ⟨b1, b2, b3, b4, b5⟩
  · obtain ⟨q1, q2, q3, q4, q5, q6, q7⟩ := kh x
    have e : s.sup.holds = .empty := by rcases h2 with r | r | r | r <;> apply q4 <;> simp [r]
    constructor
    · exact fun p => (no q1 p).elim
    · rcases h1 with r | r <;> simp [r]
    · rcases h1 with r | r <;> simp [r]
    · exact fun _ _ => e
    · exact q5
    · exact q6
    · exact q7
  · obtain ⟨q1, q2, q3, q4⟩ := kr x
    constructor
    · exact fun p => (no q1 p).elim
    · exact q2
    · exact fun _ => h3 x
    · exact fun _ _ => h3 x
  · obtain ⟨q1, q2, q3, q4⟩ := kz x
    constructor
    · exact fun p => (no q1 p).elim
    · exact q2
    · rcases h1 with r | r <;> simp [r]
    · exact q4
  · intro p
    obtain ⟨y, z⟩ := kq x p
    rw [State.runOrHold_iff] at z
    rcases h2 with r | r | r | r <;> simp [r] at z

@[simp] theorem Keeps.leaveSafeStop (h : Keeps a s) : Keeps a s.leaveSafeStop := by
  unfold State.leaveSafeStop
  split
  · next c =>
    refine h.goTo _ ?_ (.inl c.1) fun x => (h.reference x).stopping c.1 (by omega)
    by_cases e : s.sup.lockFlag = true <;> simp [e]
  · exact h

@[simp] theorem Keeps.lockOnLimit (h : Keeps a s) : Keeps a s.lockOnLimit := by
  unfold State.lockOnLimit
  split
  · have k : Keeps a ((s.modSup fun p => { p with lockFlag := true }).writeTripRecord) := (h.modSup _ rfl).writeTripRecord
    have e : ((s.modSup fun p => { p with lockFlag := true }).writeTripRecord).sup.line = s.sup.line := by
      unfold State.writeTripRecord; split <;> rfl
    split
    · next c =>
      refine k.goTo _ (.inr rfl) (by rw [e]; rcases c with c | c <;> simp [c]) fun x => (k.reference x).rest ?_
      rw [e]; rcases c with c | c <;> simp [c, LineState.atRest]
    · exact k
  · exact h

/-! ### Ramp, clearing distance, link -/

theorem State.effectiveCeiling_le (s : State) : s.effectiveCeiling ≤ s.profile.vMax := by
  have key : ∀ (l : List (Option Nat)) (m : Nat), l.foldl (fun m e => min m (e.getD m)) m ≤ m := by
    intro l
    induction l with
    | nil => intro m; exact Nat.le_refl _
    | cons x l ih => intro m; exact Nat.le_trans (ih _) (Nat.min_le_left _ _)
  exact key _ _

theorem State.speedTarget_le (s : State) : s.speedTarget ≤ s.profile.vMax := by
  unfold State.speedTarget
  split
  · exact Nat.le_trans (Nat.min_le_right _ _) s.effectiveCeiling_le
  · exact Nat.zero_le _

theorem State.speedTarget_of_ne (s : State) (h : s.sup.line ≠ .run) : s.speedTarget = 0 := by
  simp [State.speedTarget, h]

theorem rampStep_le (r t u d m : Nat) (hr : r ≤ m) (ht : t ≤ m) : rampStep r t u d ≤ m := by
  unfold rampStep; split <;> omega

theorem rampStep_zero (u d : Nat) : rampStep 0 0 u d = 0 := by
  simp [rampStep]

/-- A change of the reference alone. -/
theorem Keeps.referenceStep (h : Keeps a s) (x : Nat) (h1 : a.ReferenceSafe → x ≤ s.profile.vMax)
    (h2 : a.ReferenceSafe → s.sup.line.atRest = true → x = 0)
    (h3 : a.ReferenceSafe → s.sup.line = .safeStop → s.sup.standstill ≠ 0 → x = 0) :
    Keeps a (s.modSup fun p => { p with reference := x }) := by
  obtain ⟨kc, kb, kh, kf, kr, kz, kq⟩ := h
  refine ⟨kc, fun x => ?_, fun x => ?_, kf, fun x => ?_, fun x => ?_, kq⟩
  · obtain ⟨b1, b2, b3, b4, b5⟩ := kb x
    exact ⟨b1, b2, b3, b4, b5⟩
  · obtain ⟨q1, q2, q3, q4, q5, q6, q7⟩ := kh x
    exact ⟨q1, q2, q3, q4, q5, q6, q7⟩
  · exact ⟨(kr x).held, h1 x, h2 x, h3 x⟩
  · obtain ⟨q1, q2, q3, q4⟩ := kz x
    exact ⟨q1, q2, q3, q4⟩

@[simp] theorem Keeps.stepReference (h : Keeps a s) : Keeps a s.stepReference := by
  unfold State.stepReference
  refine Keeps.modPins (h.referenceStep _ (fun x => ?_) (fun x p => ?_) fun x p q => ?_) _ rfl rfl rfl
  · exact rampStep_le _ _ _ _ _ (h.reference x).limit s.speedTarget_le
  · rw [(h.reference x).rest p, s.speedTarget_of_ne (by rintro e; simp [e, LineState.atRest] at p), rampStep_zero]
  · rw [(h.reference x).stopping p q, s.speedTarget_of_ne (by simp [p]), rampStep_zero]

@[simp] theorem Keeps.countStandstill (h : Keeps a s) : Keeps a s.countStandstill := by
  unfold State.countStandstill
  split
  · next c =>
    refine Keeps.leaveSafeStop ?_
    obtain ⟨kc, kb, kh, kf, kr, kz, kq⟩ := h
    refine ⟨kc, fun x => ?_, fun x => ?_, kf, fun x => ?_, fun x => ?_, kq⟩
    · obtain ⟨b1, b2, b3, b4, b5⟩ := kb x
      exact ⟨b1, b2, b3, b4, b5⟩
    · obtain ⟨q1, q2, q3, q4, q5, q6, q7⟩ := kh x
      exact ⟨q1, q2, q3, q4, q5, q6, q7⟩
    · obtain ⟨q1, q2, q3, q4⟩ := kr x
      refine ⟨q1, q2, q3, fun _ p => ?_⟩
      by_cases e : s.atRest = true
      · simp [State.atRest] at e; exact e.1
      · simp [e] at p
    · obtain ⟨q1, q2, q3, q4⟩ := kz x
      exact ⟨q1, q2, q3, q4⟩
  · exact h

@[simp] theorem Keeps.clearTravel (h : Keeps a s) : Keeps a s.clearTravel := by
  unfold State.clearTravel
  repeat' split
  · exact (h.modSup _ rfl).writeTripRecord
  · exact h.modSup _ rfl
  · exact h.modSup _ rfl
  · exact h

/-- A change of the silence flag with its ceiling entry (R30). -/
theorem Keeps.silence (h : Keeps a s) (f : Supervisor → Supervisor) (hs : (f s.sup).ceilings.silent.isSome = (f s.sup).silent)
    (h1 : (f s.sup).line = s.sup.line) (h2 : (f s.sup).holds = s.sup.holds) (h3 : (f s.sup).setWait = s.sup.setWait)
    (h4 : (f s.sup).spliceWait = s.sup.spliceWait) (h5 : (f s.sup).reference = s.sup.reference)
    (h6 : (f s.sup).standstill = s.sup.standstill) : Keeps a (s.modSup f) := by
  obtain ⟨kc, kb, kh, kf, kr, kz, kq⟩ := h
  refine ⟨kc, fun x => ?_, fun x => ?_, kf, fun x => ?_, fun x => ?_, fun x => ?_⟩
  · obtain ⟨b1, b2, b3, b4, b5⟩ := kb x
    exact ⟨b1, b2, b3, b4, b5⟩
  · obtain ⟨q1, q2, q3, q4, q5, q6, q7⟩ := kh x
    constructor <;> simp_all [State.HeldInStartUp]
  · obtain ⟨q1, q2, q3, q4⟩ := kr x
    constructor <;> simp_all [State.HeldInStartUp]
  · obtain ⟨q1, q2, q3, q4⟩ := kz x
    constructor <;> simp_all [State.HeldInStartUp]
  · intro p
    have := kq x (by simpa [h2] using p)
    simpa [State.runOrHold, h1] using this

@[simp] theorem Keeps.linkAlive (h : Keeps a s) : Keeps a s.linkAlive := by
  unfold State.linkAlive
  have k : Keeps a (if s.runOrHold = true then s.modSup fun p => { p with linkTimer := some 0 } else s) := by
    split
    · exact h.modSup _ rfl
    · exact h
  simp only
  split
  · exact (k.silence _ rfl rfl rfl rfl rfl rfl rfl).place _
  · exact k

@[simp] theorem Keeps.linkLost (h : Keeps a s) : Keeps a s.linkLost := by
  unfold State.linkLost
  exact (h.silence _ rfl rfl rfl rfl rfl rfl rfl).place _

end Sys2Proof.Machine
end

