-- ==== Sys2Proof/Laws/Heat.lean ====
section
/-! SUPPORT. What recomputing the heat ceiling comes to: `State.recomputeHeat_spec` (R128 to R130). -/

namespace Sys2Proof.Machine

variable (s : State)

theorem lineFor_eq_lineWith (l : LineState) (h : Holds) : lineFor l h = lineWith l h := by
  have key : h.any = true ↔ ¬ h = .empty := by
    constructor
    · rintro p rfl; simp at p
    · intro p
      cases c : h.any with
      | true => rfl
      | false => exact absurd (Holds.eq_empty h c) p
  cases l <;> simp only [lineFor, lineWith] <;> by_cases e : h = .empty <;> simp_all

theorem State.placeAll_only (l : List EventBody) : OnlyChanges [.host] s (s.placeAll l) :=
  .foldl State.place (fun s b => s.place_only b) l s

theorem State.placeAll_append (l m : List EventBody) : s.placeAll (l ++ m) = (s.placeAll l).placeAll m := List.foldl_append

/-- What events leave of the host line depends on the host line and the odometer alone. -/
theorem State.placeAll_host_congr {s t : State} (l : List EventBody) (h : t.host = s.host) (w : t.web = s.web) :
    (t.placeAll l).host = (s.placeAll l).host := by
  induction l generalizing s t with
  | nil => exact h
  | cons b l ih =>
    have hb : (t.place b).host = (s.place b).host := by
      rw [s.place_host b, t.place_host b]
      generalize t.host = th at *
      rw [h, w]
    have wb : (t.place b).web = (s.place b).web := (t.place_only b).web.trans (w.trans (s.place_only b).web.symm)
    simp only [State.placeAll, List.foldl_cons] at ih ⊢
    exact ih (s := s.place b) (t := t.place b) hb wb

/-- The supervisor after a change of the hold reason set (R14, R15). -/
theorem State.setHolds_sup (h : Holds) :
    (s.setHolds h).sup =
      { s.sup with holds := h, line := if h = s.sup.holds then s.sup.line else lineWith s.sup.line h } := by
  unfold State.setHolds
  split
  · next e => subst e; rfl
  · simp [State.placeLineState, lineFor_eq_lineWith]

/-- The host line after a change of the hold reason set: one LINE_STATE, or nothing (R33). -/
theorem State.setHolds_host (h : Holds) :
    (s.setHolds h).host = (s.placeAll (if h = s.sup.holds then [] else
      [.lineState (lineWith s.sup.line h) s.sup.line h s.sup.cause])).host := by
  unfold State.setHolds
  split
  · rfl
  · simp only [State.placeLineState, lineFor_eq_lineWith]
    exact State.placeAll_host_congr [_] rfl rfl

theorem State.putHeat_eq (b : Bool) :
    s.putHold .heat b = s.setHolds { s.sup.holds with heat := if b then s.sup.holds.heat || s.runOrHold else false } := by
  unfold State.putHold State.raiseHold State.clearHold
  cases b
  · simp [Holds.set]
  · simp only [if_true]
    by_cases h : s.runOrHold = true
    · simp [Holds.set, h]
    · simp [State.setHolds, h]

theorem State.countDerate_orders : s.countDerate.orders = { s.orders with list := s.orders.list.map (fun o =>
    (if s.orderHere = some o.number then { o with derates := o.derates + 1 } else o)) } := by
  have : s.orderAtGlue = s.orderHere := rfl
  unfold State.countDerate
  rw [this]
  split
  · next n e => simp [e, eq_comm]
  · next e => simp [e]

theorem State.orderHere_congr {s t : State} (w : t.web = s.web) (m : t.map = s.map) (p : t.profile = s.profile) :
    t.orderHere = s.orderHere := by unfold State.orderHere State.zoneAt; rw [w, m, p]

/-- The HEAT_DERATE event of a change of the HEAT entry (R129). -/
def heatEvent (s : State) (entry : Option Nat) : List EventBody :=
  match s.sup.ceilings.heat, entry with
  | none, some v => [.heatDerateOn v s.cond.lastTemp s.stale s.cond.glueGrade]
  | some _, none => [.heatDerateOff s.cond.lastTemp]
  | _, _ => []

theorem State.applyHeat_derate (h : s.profile.heatAction = .derate) :
    s.applyHeat =
      (let t := ((s.setHeatEntry s.heatEntry).setHolds { s.sup.holds with heat := false }).placeAll (heatEvent s s.heatEntry)
       if s.sup.ceilings.heat = none ∧ s.heatEntry.isSome = true then t.countDerate else t) := by
  unfold State.applyHeat heatEvent
  simp only [h]
  cases s.sup.ceilings.heat <;> cases s.heatEntry <;> rfl

theorem State.applyHeat_hold (h : s.profile.heatAction = .hold) :
    s.applyHeat = State.putHold ((s.setHeatEntry none).placeAll (heatEvent s none)) .heat
      (s.cond.heatCeiling.any (· < s.profile.vCrawl + 1)) := by
  unfold State.applyHeat heatEvent
  simp only [h]
  cases s.sup.ceilings.heat <;> rfl

theorem heat_iff (h : Holds) (b : Bool) : ({ h with heat := b } = h) ↔ b = h.heat :=
  ⟨fun p => congrArg Holds.heat p, fun p => by rw [p]⟩

/-- What recomputing the heat ceiling leaves (R128 to R130). -/
theorem State.recomputeHeat_spec : HeatRecomputed s s.recomputeHeat := by
  have cond : s.recomputeHeat.cond = { s.cond with heatCeiling := s.computeCeiling } :=
    (State.applyHeat_only (s.modCond fun c => { c with heatCeiling := s.computeCeiling })).cond
  cases ha : s.profile.heatAction with
  | derate =>
    let u := s.modCond fun c => { c with heatCeiling := s.computeCeiling }
    have ev : ∀ e, heatEvent u e = heatEvent s e := fun _ => rfl
    have veq := State.applyHeat_derate u ha
    rw [ev] at veq
    replace veq : s.recomputeHeat = _ := veq
    have te : u.heatEntry = s.computeCeiling.filter (· < s.profile.vMax) := rfl
    rw [te] at veq
    generalize he : Option.filter (fun x => decide (x < s.profile.vMax)) s.computeCeiling = e at veq
    generalize hh : ({ s.sup.holds with heat := false } : Holds) = h
    have uh : ({ u.sup.holds with heat := false } : Holds) = h := hh
    rw [uh] at veq
    let x := u.setHeatEntry e
    let v := x.setHolds h
    replace veq : s.recomputeHeat = (let t := v.placeAll (heatEvent s e)
       if s.sup.ceilings.heat = none ∧ e.isSome = true then t.countDerate else t) := veq
    have vo : OnlyChanges [.sup, .cond, .host] s v :=
      (((OnlyChanges.refl _ s).andThen (s.modCond_only _)).andThen (State.setHeatEntry_only _ _)).andThen (State.setHolds_only _ _)
    have vsup : v.sup = { x.sup with holds := h, line := if h = x.sup.holds then x.sup.line else lineWith x.sup.line h } :=
      State.setHolds_sup x h
    have vhost : v.host = (x.placeAll (if h = x.sup.holds then [] else
      [.lineState (lineWith x.sup.line h) x.sup.line h x.sup.cause])).host := State.setHolds_host x h
    have wo := State.placeAll_only v (heatEvent s e)
    have tsup : s.recomputeHeat.sup = v.sup := by
      rw [veq]; dsimp only; split
      · exact (State.countDerate_only _).sup.trans wo.sup
      · exact wo.sup
    have tent : s.recomputeHeat.sup.ceilings.heat = e := by rw [tsup, vsup]; rfl
    have thold : s.recomputeHeat.sup.holds = h := by rw [tsup, vsup]
    have xh : x.sup.holds = s.sup.holds := rfl
    have xl : x.sup.line = s.sup.line := rfl
    have xc : x.sup.cause = s.sup.cause := rfl
    refine ⟨cond, ?_, ?_, ?_⟩
    · rw [tsup, vsup, xh, xl, ← hh]
      simp only [heat_iff, ha, if_true, he]; rfl
    · dsimp only
      rw [tent, veq]; dsimp only
      by_cases c : s.sup.ceilings.heat = none ∧ e.isSome = true
      · rw [if_pos (by exact c), State.countDerate_orders, State.orderHere_congr (wo.web.trans vo.web) (wo.map.trans vo.map)
          (wo.profile.trans vo.profile), wo.orders, vo.orders]
        simp [c]
      · rw [if_neg (by exact c), wo.orders, vo.orders]
        simp [c]
    · dsimp only
      intro _
      have hq : s.recomputeHeat.host = (v.placeAll (heatEvent s e)).host := by
        rw [veq]; dsimp only; split
        · exact (State.countDerate_only _).host
        · rfl
      have k : (v.placeAll (heatEvent s e)).host = (s.placeAll ((if s.recomputeHeat.sup.holds = s.sup.holds then [] else
          [.lineState s.recomputeHeat.sup.line s.sup.line s.recomputeHeat.sup.holds s.sup.cause]) ++ heatEvent s e)).host := by
        rw [State.placeAll_append]
        refine State.placeAll_host_congr _ ?_ ?_
        · rw [vhost, thold, tsup, vsup, xh, xl, xc]
          refine (State.placeAll_host_congr _ rfl rfl).trans ?_
          by_cases q : h = s.sup.holds <;> simp only [q, if_true, if_false] <;> rfl
        · exact vo.web.trans (State.placeAll_only _ _).web.symm
      have he' : heatEvent s e = heatEvent s s.recomputeHeat.sup.ceilings.heat := by rw [tent]
      rw [he'] at k hq
      unfold SameEvents
      rw [hq]
      exact ⟨congrArg HostLine.events k, congrArg HostLine.sequence k, congrArg HostLine.overflow k⟩
  | hold =>
    let u := s.modCond fun c => { c with heatCeiling := s.computeCeiling }
    have veq : s.recomputeHeat = State.putHold ((u.setHeatEntry none).placeAll (heatEvent s none)) .heat
      (s.computeCeiling.any (· < s.profile.vCrawl + 1)) := State.applyHeat_hold u ha
    rw [State.putHeat_eq] at veq
    have hany : s.computeCeiling.any (fun x => decide (x < s.profile.vCrawl + 1)) = s.computeCeiling.any (· ≤ s.profile.vCrawl) := by
      congr 1; funext x; simp [Nat.lt_succ_iff]
    rw [hany] at veq
    let x := (u.setHeatEntry none).placeAll (heatEvent s none)
    have xo := State.placeAll_only (u.setHeatEntry none) (heatEvent s none)
    have xs : x.sup = (u.setHeatEntry none).sup := xo.sup
    have xh : x.sup.holds = s.sup.holds := by rw [xs]; rfl
    have xl : x.sup.line = s.sup.line := by rw [xs]; rfl
    have xc : x.sup.cause = s.sup.cause := by rw [xs]; rfl
    have xr : x.runOrHold = s.runOrHold := by unfold State.runOrHold; rw [xl]
    generalize hb : (if s.computeCeiling.any (· ≤ s.profile.vCrawl) = true then s.sup.holds.heat || s.runOrHold else false) = b
    generalize hh : ({ s.sup.holds with heat := b } : Holds) = h
    replace veq : s.recomputeHeat = x.setHolds h := by
      rw [veq]
      have e1 : ({ x.sup.holds with heat := (if (s.computeCeiling.any (· ≤ s.profile.vCrawl))
          = true then x.sup.holds.heat || x.runOrHold else false) } : Holds) = h := by
        rw [← hh, ← hb, xh, xr]
      exact congrArg x.setHolds e1
    have tsup : s.recomputeHeat.sup = { x.sup with
        holds := h, line := if h = x.sup.holds then x.sup.line else lineWith x.sup.line h } := by
      rw [veq]; exact State.setHolds_sup x h
    have thost := State.setHolds_host x h
    rw [← veq, xh, xl, xc] at thost
    have tent : s.recomputeHeat.sup.ceilings.heat = none := by rw [tsup, xs]; rfl
    have thold : s.recomputeHeat.sup.holds = h := by rw [tsup]
    have tord : s.recomputeHeat.orders = s.orders := by rw [veq]; exact (State.setHolds_only _ _).orders.trans xo.orders
    have tline : s.recomputeHeat.sup.line = if h = s.sup.holds then s.sup.line else lineWith s.sup.line h := by rw [tsup, xh, xl]
    refine ⟨cond, ?_, ?_, ?_⟩
    · dsimp only
      rw [tsup, xh, xl, xs]
      have c1 : (s.profile.heatAction = .derate) = False := by simp [ha]
      have c2 : (s.profile.heatAction = .hold) = True := by simp [ha]
      simp only [c1, c2, if_false, true_and, hb, hh]
      have c3 : (h = s.sup.holds) = (b = s.sup.holds.heat) := by rw [← hh]; exact propext (heat_iff _ _)
      simp only [c3]
      rfl
    · dsimp only
      rw [tent, tord]; simp
    · dsimp only
      intro q
      have k : s.recomputeHeat.host = (s.placeAll ((if s.recomputeHeat.sup.holds = s.sup.holds then [] else
          [.lineState s.recomputeHeat.sup.line s.sup.line s.recomputeHeat.sup.holds s.sup.cause]) ++
          heatEvent s s.recomputeHeat.sup.ceilings.heat)).host := by
        rw [tent, thold]
        replace q : (if h = s.sup.holds then [] else
          [EventBody.lineState s.recomputeHeat.sup.line s.sup.line h s.sup.cause]) = [] ∨ heatEvent s none = [] := by
          rw [thold, tent] at q; exact q
        by_cases c : h = s.sup.holds
        · rw [if_pos c] at thost ⊢
          rw [thost]; exact State.placeAll_host_congr (heatEvent s none) (s := s) (t := u.setHeatEntry none) rfl rfl
        · rw [if_neg c] at thost q ⊢
          have q' : heatEvent s none = [] := q.resolve_left (by simp)
          rw [thost, tline, if_neg c, q']
          refine State.placeAll_host_congr _ ?_ ?_
          · show ((u.setHeatEntry none).placeAll (heatEvent s none)).host = _
            rw [q']; rfl
          · exact xo.web
      exact ⟨congrArg HostLine.events k, congrArg HostLine.sequence k, congrArg HostLine.overflow k⟩

end Sys2Proof.Machine
end

