-- ==== Sys2Proof/Laws/KeepsSplice.lean ====
section
/-! SUPPORT. The reel stand monitor's and the splice planner's operations keep the laws (see Keeps.lean). -/

namespace Sys2Proof.Machine

variable {a s t : State}

/-! ### Reels -/

@[simp] theorem Keeps.rebase (h : Keeps a s) (i : Stand) : Keeps a (s.rebase i) := h.modStand i _

@[simp] theorem Keeps.setEstimateGrade (h : Keeps a s) (g : Option Nat) : Keeps a (s.setEstimateGrade g) := by
  unfold State.setEstimateGrade
  split
  · exact h
  · exact (h.eachStand _ fun i _ k => k.rebase i).modReels _

@[simp] theorem Keeps.reelOutTest (h : Keeps a s) (i : Stand) : Keeps a (s.reelOutTest i) := by
  unfold State.reelOutTest
  split
  · exact (h.modStand i _).reportCause _
  · exact h

@[simp] theorem Keeps.reelLowEvaluation (h : Keeps a s) (i : Stand) : Keeps a (s.reelLowEvaluation i) := by
  unfold State.reelLowEvaluation
  dsimp only
  repeat' split
  · exact ((h.modStand i _).modStand i _).place _
  · exact h.modStand i _
  · exact h.modStand i _
  · exact h

/-! ### Commands -/

@[simp] theorem Keeps.queueCommand (h : Keeps a s) (n : Node) (x : Ask) : Keeps a (s.queueCommand n x) := by
  unfold State.queueCommand
  refine Keeps.modLine (s := if x.resulting = true then s.modNode n fun r => { r with awaited := none } else s) ?_ _ ?_
  · split
    · exact h.modNode n _
    · exact h
  · split <;> exact Nat.le_max_right _ _

@[simp] theorem Keeps.queueSetpoints (h : Keeps a s) (p : Setpoints) : Keeps a (s.queueSetpoints p) := by
  refine h.modLine _ ?_
  split <;> exact Nat.le_max_right _ _

@[simp] theorem Keeps.purgeCommands (h : Keeps a s) (n : Node) : Keeps a (s.purgeCommands n) := h.modLine _ (Nat.le_max_right _ _)

@[simp] theorem Keeps.withdrawInit (h : Keeps a s) (n : Node) : Keeps a (s.withdrawInit n) := h.modLine _ (Nat.le_max_right _ _)

/-! ### Plans -/

@[simp] theorem Keeps.writeWindow (h : Keeps a s) (i : Stand) : Keeps a (s.writeWindow i) := by
  unfold State.writeWindow
  exact h.modPlan i _ id

/-- A plan becomes Firing when none is (R110). -/
theorem Keeps.fire (h : Keeps a s) (i : Stand) (f : Plan → Plan) (hf : ¬ s.anyFiring = true) : Keeps a (s.modPlan i f) := by
  obtain ⟨kc, kb, kh, kf, kr, kz, kq⟩ := h
  refine ⟨kc, fun x => ?_, fun x => ?_, fun _ => ?_, fun x => ?_, fun x => ?_, kq⟩
  · obtain ⟨b1, b2, b3, b4, b5⟩ := kb x
    exact ⟨b1, b2, b3, b4, b5⟩
  · obtain ⟨q1, q2, q3, q4, q5, q6, q7⟩ := kh x
    exact ⟨q1, q2, q3, q4, q5, q6, q7⟩
  · have no : ∀ j, (s.plan j).state ≠ .firing := fun j p => hf ((State.anyFiring_iff s).mpr ⟨j, p⟩)
    intro j k pj pk
    rw [State.modPlan_plan] at pj pk
    by_cases e : j = i <;> by_cases d : k = i
    · rw [e, d]
    · simp [d, no k] at pk
    · simp [e, no j] at pj
    · simp [e, no j] at pj
  · obtain ⟨q1, q2, q3, q4⟩ := kr x
    exact ⟨q1, q2, q3, q4⟩
  · obtain ⟨q1, q2, q3, q4⟩ := kz x
    exact ⟨q1, q2, q3, q4⟩

@[simp] theorem Keeps.arbiter (h : Keeps a s) : Keeps a s.arbiter := by
  unfold State.arbiter
  split
  · next c =>
    split
    · exact (h.fire _ _ c.2.1).queueCommand _ _
    · exact h
  · exact h

@[simp] theorem Keeps.testSpliceCall (h : Keeps a s) (i : Stand) : Keeps a (s.testSpliceCall i) := by
  refine h.modPlan i _ ?_
  repeat' split
  all_goals exact id

@[simp] theorem Keeps.syncSplice (h : Keeps a s) : Keeps a s.syncSplice :=
  (Keeps.setSpliceWait (h.eachStand _ fun i _ k => k.testSpliceCall i) _).syncSpliceCeiling

@[simp] theorem Keeps.armPlan (h : Keeps a s) (i : Stand) : Keeps a (s.armPlan i) := by
  unfold State.armPlan
  simp only
  split
  · exact h.modPlan i _ (by simp)
  · exact h

@[simp] theorem Keeps.duePlan (h : Keeps a s) (i : Stand) : Keeps a (s.duePlan i) := by
  unfold State.duePlan
  simp only
  split
  · split
    · exact (h.modPlan i _ (by simp)).arbiter
    · exact (h.modPlan i _ (by simp)).arbiter
    · exact h
  · exact h

@[simp] theorem Keeps.settleSplice (h : Keeps a s) : Keeps a s.settleSplice :=
  ((Keeps.eachStand _ (fun i _ k => k.duePlan i) (h.eachStand _ fun i _ k => k.armPlan i)).arbiter).syncSplice

@[simp] theorem Keeps.reportPlan (h : Keeps a s) (i : Stand) (p : Plan) : Keeps a (s.reportPlan i p) := by
  unfold State.reportPlan
  simp only
  split
  · exact h
  · exact h.placePlanned i

theorem State.judged_ne_firing (s : State) (i : Stand) (k : Option PlanKind) (z : Option Nat) : s.judged i k z ≠ .firing := by
  unfold State.judged; split <;> simp

@[simp] theorem Keeps.takeGrade (h : Keeps a s) (i : Stand) (g : GradeTarget) : Keeps a (s.takeGrade i g) :=
  (h.modPlan i _ fun p => absurd p (s.judged_ne_firing i _ _)).placePlanned i

@[simp] theorem Keeps.takeUpHeld (h : Keeps a s) (i : Stand) : Keeps a (s.takeUpHeld i) := by
  unfold State.takeUpHeld
  dsimp only
  repeat' split
  · exact Keeps.takeGrade ((h.writeWindow i).modPlan i _ id) i _
  · exact h.writeWindow i
  · exact Keeps.takeGrade ((h.writeWindow i).modPlan i _ id) i _
  · exact h
  · exact h

@[simp] theorem Keeps.passFixed (h : Keeps a s) (i : Stand) : Keeps a (s.passFixed i) := by
  unfold State.passFixed
  dsimp only
  have k := h.writeWindow i
  have fixed : Keeps a (((State.writeWindow i s).modPlan i fun p =>
      { p with state := (State.writeWindow i s).judged i p.kind p.targetZone }).reportPlan i (s.plan i)) :=
    (k.modPlan i _ fun p => absurd p (State.judged_ne_firing _ i _ _)).reportPlan i _
  repeat' split
  · exact k
  · exact ((k.toIdle i).reportPlan i _).takeUpHeld i
  · exact fixed
  · exact k
  · exact ((k.toIdle i).reportPlan i _).takeUpHeld i
  · exact fixed
  · exact k
  · exact h

@[simp] theorem Keeps.placeMovable (l : List Stand) (refs : List Nat) (h : Keeps a s) : Keeps a (State.placeMovable l refs s) := by
  induction l generalizing refs s with
  | nil => exact h
  | cons i l ih =>
    unfold State.placeMovable
    split
    · refine ih _ (Keeps.reportPlan (h.modPlan i _ fun p => ?_) i _)
      simp only [Plan.aim] at p
      split at p
      · simp at p
      · exact absurd p (s.judged_ne_firing i _ _)
    · exact ih _ h

@[simp] theorem Keeps.pass (h : Keeps a s) : Keeps a s.pass := by
  unfold State.pass
  split
  · exact (Keeps.placeMovable _ _ (h.eachStand _ fun i _ k => k.passFixed i)).settleSplice
  · exact h

@[simp] theorem Keeps.offerGrade (h : Keeps a s) (i : Stand) (g : GradeTarget) : Keeps a (s.offerGrade i g) := by
  unfold State.offerGrade State.holdGrade
  dsimp only
  repeat' split
  all_goals first
    | simp [h]

@[simp] theorem Keeps.leaveFiring (h : Keeps a s) (i : Stand) : Keeps a (s.leaveFiring i) := by
  exact ((((h.toIdle i).takeUpHeld i).pass).settleSplice).leaveSafeStop

@[simp] theorem Keeps.spendAir (h : Keeps a s) (i : Stand) : Keeps a (s.spendAir i) :=
  (h.modMap (fun m => { m with marks := insertMark (s.spliceMark i) m.marks }) (Nat.le_refl _) (.inl rfl) rfl).modSplice _ fun _ => id

end Sys2Proof.Machine
end

