-- ==== Sys2Proof/Laws/KeepsBlocks.lean ====
section
/-! SUPPORT. The operations of the conditioning unit, the cut controller and the section line controller keep the laws (see
Keeps.lean). -/

namespace Sys2Proof.Machine

variable {a s t : State}

/-! ### Conditioning -/

@[simp] theorem Keeps.setHeatEntry (h : Keeps a s) (e : Option Nat) : Keeps a (s.setHeatEntry e) := h.modSup _ rfl

@[simp] theorem Keeps.countDerate (h : Keeps a s) : Keeps a s.countDerate := by
  unfold State.countDerate
  split
  · exact h.modOrder _ _
  · exact h

@[simp] theorem Keeps.applyHeat (h : Keeps a s) : Keeps a s.applyHeat := by
  unfold State.applyHeat
  dsimp only
  have k := fun e => (h.setHeatEntry e).clearHold .heat (.inl rfl)
  split
  · split
    · exact ((k _).place _).countDerate
    · exact (k _).place _
    · exact k _
  · refine Keeps.putHold ?_ .heat _ rfl
    split
    · exact (h.setHeatEntry _).place _
    · exact h.setHeatEntry _

@[simp] theorem Keeps.recomputeHeat (h : Keeps a s) : Keeps a s.recomputeHeat := (h.modCond _).applyHeat

@[simp] theorem Keeps.placeSetpoints (h : Keeps a s) : Keeps a s.placeSetpoints := by
  unfold State.placeSetpoints
  dsimp only
  repeat' split
  · exact (h.modCond _).queueSetpoints _
  · exact h
  · exact h

@[simp] theorem Keeps.deadbandSetpoints (h : Keeps a s) : Keeps a s.deadbandSetpoints := by
  unfold State.deadbandSetpoints
  repeat' split
  all_goals simp [h]

@[simp] theorem Keeps.takeTable (h : Keeps a s) (g : Nat) : Keeps a (s.takeTable g) := ((h.modCond _).placeSetpoints).recomputeHeat

@[simp] theorem Keeps.applyGlue (h : Keeps a s) : Keeps a s.applyGlue := by
  unfold State.applyGlue
  repeat' split
  all_goals simp [h]

@[simp] theorem Keeps.applyGlueFresh (h : Keeps a s) : Keeps a s.applyGlueFresh := by
  unfold State.applyGlueFresh
  repeat' split
  all_goals simp [h]

@[simp] theorem Keeps.temperatureReport (h : Keeps a s) (n : Nat) : Keeps a (s.temperatureReport n) := by
  unfold State.temperatureReport
  dsimp only
  refine Keeps.recomputeHeat ?_
  split
  · exact (h.modCond _).modOrder _ _
  · exact h.modCond _

/-! ### Stations -/

@[simp] theorem Keeps.syncSetWait (h : Keeps a s) : Keeps a s.syncSetWait := h.setSetWait _

@[simp] theorem Keeps.testSwapCalls (h : Keeps a s) : Keeps a s.testSwapCalls := (h.modCut _).syncSetWait

@[simp] theorem Keeps.issueSet (h : Keeps a s) (x : Station) : Keeps a (s.issueSet x) := by
  unfold State.issueSet
  dsimp only
  repeat' split
  · exact (h.modStation x _).queueCommand _ _
  · exact h
  · exact h

@[simp] theorem Keeps.examine (h : Keeps a s) (x : Station) : Keeps a (s.examine x) := by
  unfold State.examine
  split
  · exact h.modStation x _
  · exact h.issueSet x

@[simp] theorem Keeps.takeSwap (h : Keeps a s) (e : SwapEntry) : Keeps a (s.takeSwap e) :=
  ((h.modStation _ _).modCut _).queueCommand _ _

@[simp] theorem Keeps.takeSwaps (n : Nat) (h : Keeps a s) : Keeps a (State.takeSwaps n s) := by
  induction n generalizing s with
  | zero => exact h
  | succ n ih =>
    unfold State.takeSwaps
    repeat' split
    · exact ih (h.takeSwap _)
    · exact h
    · exact h

@[simp] theorem Keeps.dueSwaps (h : Keeps a s) : Keeps a s.dueSwaps := (Keeps.takeSwaps _ h).syncSetWait

@[simp] theorem Keeps.settleStations (h : Keeps a s) : Keeps a s.settleStations := ((h.examine .a).examine .b).dueSwaps

@[simp] theorem Keeps.appendSwap (h : Keeps a s) (p : Nat) (x : Station) (u : ToolSet) (z : Nat) : Keeps a (s.appendSwap p x u z) := by
  unfold State.appendSwap
  exact h.modCut _

@[simp] theorem Keeps.faultStation (h : Keeps a s) (x : Station) : Keeps a (s.faultStation x) := h.modStation x _

@[simp] theorem Keeps.stationLoses (h : Keeps a s) (x : Station) : Keeps a (s.stationLoses x) := by
  unfold State.stationLoses
  refine Keeps.syncSetWait ?_
  split
  all_goals simp [h]

/-! ### Loss of the stacker -/

@[simp] theorem Keeps.countStacks (h : Keeps a s) (n k : Nat) : Keeps a (s.countStacks n k) := h.modOrder _ _

@[simp] theorem Keeps.loseRun (h : Keeps a s) (r : BufferRun) : Keeps a (s.loseRun r) := by
  unfold State.loseRun
  split
  · exact h
  · exact h.modOrder _ _

@[simp] theorem Keeps.loseStacker (h : Keeps a s) (x : StackerState) : Keeps a (s.loseStacker x) := by
  unfold State.loseStacker
  dsimp only
  split
  · exact h.modRouter _
  · exact h.modRouter _
  all_goals
    refine Keeps.modRouter (Keeps.foldl _ (fun _ r k => k.loseRun r) _ ?_) _
    split
    · split
      · exact h.countStacks _ _
      · exact h
    · exact h

/-! ### Service states and latches -/

@[simp] theorem Keeps.setService (h : Keeps a s) (n : Node) (x : Service) : Keeps a (s.setService n x) := by
  unfold State.setService
  dsimp only
  split
  · exact h
  · exact (h.modNode n _).place _

@[simp] theorem Keeps.initialise (h : Keeps a s) (n : Node) : Keeps a (s.initialise n) := by
  unfold State.initialise
  dsimp only
  have k := (((h.setService n .initialising).modNode n fun r => { r with missed := 0 }).queueCommand n .init)
  split
  · exact k.loseStacker _
  · exact k

@[simp] theorem Keeps.fireNotSent (h : Keeps a s) (i : Stand) : Keeps a (s.fireNotSent i) := by
  unfold State.fireNotSent
  dsimp only
  refine ((Keeps.place ?_ _).settleSplice).leaveSafeStop
  split
  · exact h.modPlan i _ (by simp)
  · exact h.toIdle i

@[simp] theorem Keeps.leaveService (h : Keeps a s) (n : Node) (x : Service) : Keeps a (s.leaveService n x) := by
  unfold State.leaveService
  dsimp only
  have k := (h.setService n x).purgeCommands n
  cases n with
  | stand i =>
    have m : Keeps a (if s.fireQueued i = true ∧ (s.plan i).state = .firing then ((s.setService (.stand i) x).purgeCommands
        (.stand i)).fireNotSent i else (s.setService (.stand i) x).purgeCommands (.stand i)) := by
      split
      · exact k.fireNotSent i
      · exact k
    dsimp only
    split
    · exact m.pass.settleSplice
    · exact m
  | conditioning => exact k
  | station y => exact k.stationLoses y
  | stacker => exact (k.modLine _ (by simp)).loseStacker _

@[simp] theorem Keeps.raiseSection (h : Keeps a s) : Keeps a s.raiseSection :=
  (h.modLine _ (Nat.le_max_right _ _)).raiseHold .sectionLine rfl

@[simp] theorem Keeps.releaseSection (h : Keeps a s) : Keeps a s.releaseSection := by
  unfold State.releaseSection
  split
  · exact h.clearHold .sectionLine (.inl rfl)
  · exact h

@[simp] theorem Keeps.faultConsequence (h : Keeps a s) (b : State) (n : Node) (l : Latch) : Keeps a (s.faultConsequence b n l) := by
  unfold State.faultConsequence
  repeat' split
  all_goals simp [h]

@[simp] theorem Keeps.becomeFaulted (h : Keeps a s) (n : Node) (l : Latch) : Keeps a (s.becomeFaulted n l) :=
  (h.leaveService n _).faultConsequence _ _ _

@[simp] theorem Keeps.latch (h : Keeps a s) (n : Node) (l : Latch) : Keeps a (s.latch n l) := by
  unfold State.latch
  dsimp only
  split
  · exact h
  · split
    · exact ((h.modNode n _).place _).becomeFaulted n l
    · exact (h.modNode n _).place _

@[simp] theorem Keeps.goOffline (h : Keeps a s) (n : Node) : Keeps a (s.goOffline n) := by
  unfold State.goOffline
  dsimp only
  repeat' split
  all_goals simp [h]

@[simp] theorem Keeps.handRoute (h : Keeps a s) (b : Bool) : Keeps a (s.handRoute b) := by
  unfold State.handRoute
  repeat' split
  · exact h.latch _ _
  · next c =>
    refine h.modLine _ ?_
    simp only [Config.routeCapacity] at c
    simp only [List.length_append, List.length_singleton]
    omega
  · exact h

/-! ### Knife -/

@[simp] theorem Keeps.presentRatio (h : Keeps a s) : Keeps a s.presentRatio := by
  unfold State.presentRatio
  dsimp only
  repeat' split
  · exact h
  · exact (h.modCut _).modPins _ rfl rfl rfl
  · exact h

@[simp] theorem Keeps.presentIfChanged (before : Option KnifeSchedule) (h : Keeps a s) : Keeps a (s.presentIfChanged before) := by
  unfold State.presentIfChanged
  split
  · exact h
  · exact h.presentRatio

@[simp] theorem Keeps.testApproaches (h : Keeps a s) : Keeps a s.testApproaches :=
  h.modMap _ (by simp) (.inl rfl) rfl

@[simp] theorem Keeps.composeCeilings (h : Keeps a s) : Keeps a s.composeCeilings := h.modSup _ rfl

@[simp] theorem Keeps.recompose (h : Keeps a s) : Keeps a s.recompose := h.testApproaches.composeCeilings

@[simp] theorem Keeps.approachTest (h : Keeps a s) : Keeps a s.approachTest := by
  unfold State.approachTest
  dsimp only
  split
  · exact h.testApproaches.composeCeilings
  · exact h.testApproaches

end Sys2Proof.Machine
end

