-- ==== Sys2Proof/Laws/KeepsPlanner.lean ====
section
/-! SUPPORT. The boundary planner's operations keep the laws (see Keeps.lean): what they need is room in the zone list, and no
terminal boundary while an order is open. -/

namespace Sys2Proof.Machine

variable {a s t : State}

/-! ### The map -/

/-- A change of the map that leaves it sized. -/
theorem Keeps.mapWith (h : Keeps a s) (f : WebMap → WebMap)
    (hz : a.ZonesSized → (f s.map).zones.length ≤ 48
      ∧ (s.sup.line = .startUp ∨ s.sup.line = .standby → (f s.map).zones = [] ∧ (f s.map).openOrder = none)
      ∧ ((f s.map).terminal.isSome = true → (f s.map).zones.length ≤ 47 ∧ (f s.map).openOrder = none))
    (hq : a.QueueEndStands → s.sup.holds.queueEnd = true → (f s.map).terminal.isSome = true) : Keeps a (s.modMap f) := by
  obtain ⟨kc, kb, kh, kf, kr, kz, kq⟩ := h
  refine ⟨kc, fun x => ?_, fun x => ?_, kf, fun x => ?_, fun x => ?_, fun x p => ?_⟩
  · obtain ⟨b1, b2, b3, b4, b5⟩ := kb x
    exact ⟨b1, b2, b3, b4, b5⟩
  · obtain ⟨q1, q2, q3, q4, q5, q6, q7⟩ := kh x
    exact ⟨q1, q2, q3, q4, q5, q6, q7⟩
  · obtain ⟨q1, q2, q3, q4⟩ := kr x
    exact ⟨q1, q2, q3, q4⟩
  · obtain ⟨z1, z2, z3⟩ := hz x
    exact ⟨(kz x).held, z1, z2, z3⟩
  · exact ⟨hq x p, (kq x p).2⟩

/-- The zone list has at most `n` zones, no terminal boundary stands, and the line has a plan. -/
def Roomy (a s : State) (n : Nat) : Prop :=
  a.ZonesSized → s.map.zones.length ≤ n ∧ s.map.terminal = none ∧ s.sup.line ≠ .startUp ∧ s.sup.line ≠ .standby

theorem Roomy.of_eq {n : Nat} (h : Roomy a s n) (hz : t.map.zones.length ≤ s.map.zones.length)
    (ht : t.map.terminal = s.map.terminal) (hl : t.sup.line = s.sup.line) : Roomy a t n := fun x => by
  obtain ⟨h1, h2, h3⟩ := h x
  exact ⟨Nat.le_trans hz h1, by rw [ht]; exact h2, by rw [hl]; exact h3⟩

theorem appendZone_length (z : Zone) (l : List Zone) : (appendZone z l).length = l.length + 1 := by
  fun_induction appendZone z l <;> simp_all

theorem Keeps.appendZone (h : Keeps a s) (z : Zone) (n : Nat) (hr : Roomy a s n) (hn : n < 48) : Keeps a (s.appendZone z) := by
  refine h.mapWith _ (fun x => ?_) fun x p => ((h.queueEnd x) p).1
  obtain ⟨r1, r2, r3, r4⟩ := hr x
  refine ⟨?_, fun p => ?_, fun p => ?_⟩
  · rw [appendZone_length]; omega
  · exact absurd p (by simp [r3, r4])
  · simp [r2] at p

theorem Roomy.appendZone {n : Nat} (hr : Roomy a s n) (z : Zone) : Roomy a (s.appendZone z) (n + 1) := fun x => by
  obtain ⟨r1, r2, r3⟩ := hr x
  refine ⟨?_, r2, r3⟩
  show (Machine.appendZone z s.map.zones).length ≤ n + 1
  rw [appendZone_length]; omega

/-! ### Scheduling and fixing -/

@[simp] theorem Keeps.placeOrderState (h : Keeps a s) (n : Nat) (b : Option OrderState) : Keeps a (s.placeOrderState n b) := by
  unfold State.placeOrderState
  split
  · exact h.place _
  · exact h

@[simp] theorem State.placeOrderState_map (s : State) (n : Nat) (b : Option OrderState) : (s.placeOrderState n b).map = s.map := by
  unfold State.placeOrderState
  split
  · exact State.place_map _ _
  · rfl

@[simp] theorem State.placeOrderState_sup (s : State) (n : Nat) (b : Option OrderState) : (s.placeOrderState n b).sup = s.sup := by
  unfold State.placeOrderState
  split
  · exact State.place_sup _ _
  · rfl

theorem Keeps.schedule (h : Keeps a s) (o : Order) (start : Nat) (n : Nat) (hr : Roomy a s n) (hn : n < 48) :
    Keeps a (s.schedule o start) := by
  unfold State.schedule
  have k := (((h.appendZone (newZone .order start (some o.number) false (.same false)) n hr hn).modOrder o.number
    fun x => x.schedule start s.map.marks).modCond fun c =>
      { c with grades := c.grades.modify o.grade fun x => match x with | .defined g => .inUse g | y => y })
  refine Keeps.placeOrderState (k.mapWith _ (fun x => ?_) fun x p => ((k.queueEnd x) p).1) _ _
  obtain ⟨r1, r2, r3, r4⟩ := (hr.appendZone (newZone .order start (some o.number) false (.same false))) x
  refine ⟨Nat.le_trans r1 hn, fun p => ?_, fun p => ?_⟩
  · exact absurd p (by simp only [not_or]; exact ⟨r3, r4⟩)
  · have : (s.appendZone (newZone .order start (some o.number) false (.same false))).map.terminal.isSome = true := p
    simp [r2] at this

@[simp] theorem Keeps.fixEnd (h : Keeps a s) (o : Order) : Keeps a (s.fixEnd o) := by
  unfold State.fixEnd
  dsimp only
  exact ((h.modOrder _ _).modMap _ (by simp) (.inr rfl) rfl).placeOrderState _ _

theorem State.fixEnd_map (s : State) (o : Order) :
    (s.fixEnd o).map = { s.map with
      zones := s.map.zones.map fun z => if z.order = some o.number then { z with stop := some (o.plannedEnd.getD 0) } else z
      openOrder := none } := by
  unfold State.fixEnd; simp

@[simp] theorem State.fixEnd_sup (s : State) (o : Order) : (s.fixEnd o).sup = s.sup := by
  unfold State.fixEnd; simp

theorem Roomy.fixEnd {n : Nat} (hr : Roomy a s n) (o : Order) : Roomy a (s.fixEnd o) n :=
  hr.of_eq (by rw [State.fixEnd_map]; simp) (by rw [State.fixEnd_map]) (by simp)

/-- An open order and two free slots leave room for a transition and the successor (R68). -/
theorem State.roomy (h : Keeps a s) (ho : s.map.openOrder ≠ none) (hf : 2 ≤ s.freeSlots) : Roomy a s 46 := fun x => by
  obtain ⟨q1, q2, q3, q4⟩ := h.zones x
  refine ⟨?_, ?_, ?_, ?_⟩
  · simp only [State.freeSlots, Config.zoneCapacity] at hf; omega
  · cases e : s.map.terminal with
    | none => rfl
    | some y => exact absurd (q4 (by simp [e])).2 ho
  · exact fun p => ho (q3 (.inl p)).2
  · exact fun p => ho (q3 (.inr p)).2

theorem State.openOrder?_some {o : Order} (h : s.openOrder? = some o) : s.map.openOrder ≠ none := by
  intro e; simp [State.openOrder?, e] at h

theorem State.freeSlots_of_ready {o succ : Order} (h : s.deferReason o succ = none) : 2 ≤ s.freeSlots := by
  unfold State.deferReason at h
  dsimp only at h
  repeat' split at h
  all_goals first
    | (simp at h; done)
    | omega

/-! ### Commit, deferral, terminal boundary -/

@[simp] theorem Keeps.commit (h : Keeps a s) (o succ : Order) (hr : Roomy a s 46) : Keeps a (s.commit o succ) := by
  unfold State.commit
  dsimp only
  refine Keeps.applyGlue (Keeps.recompose ?_)
  have k1 := h.fixEnd o
  have r1 := hr.fixEnd o
  have k4 : ∀ z start, Keeps a (((((s.fixEnd o).appendZone z).schedule succ start).modMap fun m =>
      { m with deferrals := 0 }).clearHold .deferral) := fun z start =>
    (((k1.appendZone z 46 r1 (by omega)).schedule succ start 47 (r1.appendZone z) (by omega)).modMap _ (Nat.le_refl _) (.inl rfl)
      rfl).clearHold .deferral (.inl rfl)
  have k4' : ∀ start, Keeps a ((((s.fixEnd o).schedule succ start).modMap fun m => { m with deferrals := 0 }).clearHold
      .deferral) := fun start =>
    ((k1.schedule succ start 46 r1 (by omega)).modMap _ (Nat.le_refl _) (.inl rfl) rfl).clearHold .deferral (.inl rfl)
  have rest : ∀ (u : State), Keeps a u → ∀ (b : Bool) (p : Nat) (x : Station) (st : Stand → Bool) (tgt : Stand → GradeTarget),
      Keeps a ((if b = true then (u.appendSwap p x succ.tools (o.plannedEnd.getD 0)).settleStations else u).eachStand fun i v =>
        if st i = true then v.offerGrade i (tgt i) else v) := by
    intro u k b p x st tgt
    refine Keeps.eachStand _ (fun i v k => ?_) ?_
    · split
      · exact k.offerGrade i _
      · exact k
    · split
      · exact (k.appendSwap _ _ _ _).settleStations
      · exact k
  split
  · exact (rest _ (k4 _ _) _ _ _ _ _).pass
  · exact rest _ (k4' _) _ _ _ _ _

@[simp] theorem Keeps.queueEndTest (h : Keeps a s) : Keeps a s.queueEndTest := by
  unfold State.queueEndTest
  repeat' split
  · next e _ =>
    refine (h.modMap _ (Nat.le_refl _) (.inl rfl) rfl).raiseQueueEnd ?_
    simp [e]
  · exact h
  · exact h

theorem Keeps.terminalFix (h : Keeps a s) (o : Order) (hr : Roomy a s 46) : Keeps a (s.terminalFix o) := by
  unfold State.terminalFix
  dsimp only
  refine Keeps.applyGlue (Keeps.recompose (Keeps.queueEndTest (Keeps.clearHold ?_ .deferral (.inl rfl))))
  have k := (h.fixEnd o).appendZone (newZone .runout (o.plannedEnd.getD 0) none false (.same false)) 46 (hr.fixEnd o) (by omega)
  refine k.mapWith _ (fun x => ?_) fun _ _ => rfl
  obtain ⟨r1, r2, r3, r4⟩ := ((hr.fixEnd o).appendZone (newZone .runout (o.plannedEnd.getD 0) none false (.same false))) x
  refine ⟨Nat.le_trans r1 (by omega), fun p => absurd p (by simp only [not_or]; exact ⟨r3, r4⟩), fun _ => ⟨r1, ?_⟩⟩
  show (s.fixEnd o).map.openOrder = none
  rw [State.fixEnd_map]

@[simp] theorem Keeps.limitTest (h : Keeps a s) (x : Option Order) : Keeps a (s.limitTest x) := by
  unfold State.limitTest
  repeat' split
  · exact h.raiseHold .deferral rfl
  · next e c => exact h.terminalFix _ (State.roomy h (State.openOrder?_some e) c)
  · exact h
  · exact h
  · exact h

@[simp] theorem Keeps.deferralStep (h : Keeps a s) (o : Order) (x : Option Order) (r : DeferReason) (i : Option Stand) :
    Keeps a (s.deferralStep o x r i) := by
  unfold State.deferralStep
  dsimp only
  exact ((h.modOrder _ _).modMap _ (Nat.le_refl _) (.inl rfl) rfl).place _

@[simp] theorem Keeps.notReady (h : Keeps a s) (b : Bool) (o : Order) (x : Option Order) (r : DeferReason) (i : Option Stand) :
    Keeps a (s.notReady b o x r i) := by
  unfold State.notReady
  refine Keeps.limitTest ?_ _
  split
  · exact h.deferralStep _ _ _ _
  · exact h

@[simp] theorem Keeps.clampOpen (h : Keeps a s) : Keeps a s.clampOpen := by
  unfold State.clampOpen
  split
  · exact h.modOrder _ _
  · exact h

@[simp] theorem Keeps.commitCheck (n : Nat) (b : Bool) (h : Keeps a s) : Keeps a (State.commitCheck n b s) := by
  induction n generalizing s b with
  | zero => exact h
  | succ n ih =>
    unfold State.commitCheck
    repeat' split
    · exact h
    · exact h.notReady _ _ _ _ _
    · exact h.notReady _ _ _ _ _
    · next o e _ succ _ _ c =>
      have k := h.commit o succ (State.roomy h (State.openOrder?_some e) (State.freeSlots_of_ready c))
      dsimp only
      split
      · exact ih _ k.clampOpen
      · exact k

@[simp] theorem Keeps.horizonCheck (h : Keeps a s) : Keeps a s.horizonCheck := Keeps.commitCheck _ _ h

@[simp] theorem Keeps.commitDue (h : Keeps a s) : Keeps a s.commitDue := by
  unfold State.commitDue
  split
  · exact h.horizonCheck
  · exact h

@[simp] theorem Keeps.clampAndCheck (h : Keeps a s) : Keeps a s.clampAndCheck := by
  unfold State.clampAndCheck
  split
  · exact h.clampOpen.horizonCheck
  · exact h

@[simp] theorem Keeps.recheck (h : Keeps a s) : Keeps a s.recheck := by
  unfold State.recheck
  split
  · exact Keeps.commitCheck _ _ h
  · exact h

@[simp] theorem Keeps.checkStations (h : Keeps a s) : Keeps a s.checkStations := by
  unfold State.checkStations
  dsimp only
  split
  · exact h.settleStations.recheck
  · exact h.settleStations

@[simp] theorem Keeps.chooseStation (h : Keeps a s) (x : ToolSet) (z : Nat) : Keeps a (s.chooseStation x z) := by
  unfold State.chooseStation
  split
  · exact h
  · exact (h.appendSwap _ _ _ _).settleStations

@[simp] theorem Keeps.afterScheduling (h : Keeps a s) : Keeps a s.afterScheduling :=
  ((h.applyGlueFresh.recomputeHeat).pass).clampAndCheck

end Sys2Proof.Machine
end

