-- ==== Sys2Proof/Laws/KeepsRouter.lean ====
section
/-! SUPPORT. The operations of the sheet router, of the stand reports and of one advance keep the laws (see Keeps.lean). -/

namespace Sys2Proof.Machine

variable {a s t : State}

/-! ### Router -/

@[simp] theorem Keeps.releaseGrades (h : Keeps a s) : Keeps a s.releaseGrades := h.modCond _

@[simp] theorem Keeps.recordCompletion (h : Keeps a s) (o : Order) (c : Completion) : Keeps a (s.recordCompletion o c) := by
  unfold State.recordCompletion
  dsimp only
  refine (h.place _).modOrders _ (Nat.le_max_right _ _) ?_
  simp only [appendRecent, List.length_drop, List.length_append, List.length_singleton, Config.recentCapacity]
  omega

@[simp] theorem Keeps.removeOrder (h : Keeps a s) (n : Nat) : Keeps a (s.removeOrder n) :=
  h.modOrders _ (Nat.le_trans (List.length_filter_le _ _) (Nat.le_max_right _ _)) (Nat.le_max_right _ _)

@[simp] theorem Keeps.completeOrder (h : Keeps a s) (n : Nat) : Keeps a (s.completeOrder n) := by
  unfold State.completeOrder
  split
  · exact ((h.recordCompletion _ _).removeOrder _).releaseGrades
  · exact h

@[simp] theorem Keeps.closeStack (h : Keeps a s) (k : Stack) (r : ChangeReason) (c : Bool) : Keeps a (s.closeStack k r c) := by
  unfold State.closeStack
  dsimp only
  refine Keeps.modRouter ?_ _
  split
  · exact h.queueCommand _ _
  · exact (h.queueCommand _ _).countStacks _ _

@[simp] theorem Keeps.countGood (h : Keeps a s) (n k : Nat) : Keeps a (s.countGood n k) := h.modOrder _ _

@[simp] theorem Keeps.stackSheet (h : Keeps a s) (n : Nat) : Keeps a (s.stackSheet n) := by
  unfold State.stackSheet
  dsimp only
  split
  · exact ((h.countGood _ _).modRouter _).closeStack _ _ _
  · exact (h.countGood _ _).modRouter _

@[simp] theorem Keeps.moveRun (h : Keeps a s) (r : BufferRun) (l : List BufferRun) : Keeps a (s.moveRun r l) := by
  unfold State.moveRun
  dsimp only
  have k : Keeps a (if r.credit.isSome = true then s else s.countGood r.order (s.runMoved r)) := by
    split
    · exact h
    · exact h.countGood _ _
  repeat' split
  all_goals first
    | exact (Keeps.modRouter (by assumption) _).closeStack _ _ _
    | exact Keeps.modRouter (Keeps.modRouter (by assumption) _) _
    | exact (Keeps.modRouter (h.countGood _ _) _).closeStack _ _ _
    | exact Keeps.modRouter (Keeps.modRouter (h.countGood _ _) _) _

@[simp] theorem Keeps.changeDone (h : Keeps a s) : Keeps a s.changeDone := by
  unfold State.changeDone
  dsimp only
  have k := h.modRouter fun r => { r with timer := none }
  split
  · split
    · split
      · exact (k.place _).modRouter _
      · exact k.modRouter _
    · split
      · exact (k.place _).moveRun _ _
      · exact k.moveRun _ _
  · exact h

@[simp] theorem Keeps.changeFailed (h : Keeps a s) : Keeps a s.changeFailed := by
  unfold State.changeFailed
  split
  · exact (h.latch _ _).loseStacker _
  · exact h

@[simp] theorem Keeps.creditRun (h : Keeps a s) (r : BufferRun) : Keeps a (s.creditRun r) := by
  unfold State.creditRun
  dsimp only
  split
  · exact (h.modOrder _ _).modRouter _
  · exact h

@[simp] theorem Keeps.orderEndAtGate (h : Keeps a s) (n : Nat) : Keeps a (s.orderEndAtGate n) := by
  unfold State.orderEndAtGate
  split
  · split
    · split
      · exact h.closeStack _ _ _
      · exact h
    · exact h
  · exact Keeps.foldl _ (fun _ r k => k.creditRun r) _ h
  · exact h
  · exact h

@[simp] theorem Keeps.countNonOrder (h : Keeps a s) : Keeps a s.countNonOrder := by
  unfold State.countNonOrder
  split
  · exact h.modRouter _
  · exact (h.modRouter _).modPins _ rfl rfl rfl

@[simp] theorem Keeps.countVerdict (h : Keeps a s) (v : Verdict) : Keeps a (s.countVerdict v) := by
  cases v with
  | nonOrder => exact h.countNonOrder
  | rejected n => exact h.modOrder _ _
  | stacked n => exact h.stackSheet n
  | buffered n => exact h.modRouter fun r => { r with buffer := bufferSheet n r.buffer }
  | lost n => exact h.modOrder _ _

@[simp] theorem Keeps.trimAfter (h : Keeps a s) (e : Nat) : Keeps a (s.trimAfter e) := by
  unfold State.trimAfter
  dsimp only
  have k : Keeps a (s.modMap fun m => { m with
      marks := m.marks.filter fun k => e < k.stop, zones := if s.firstZoneEnds e then m.zones.drop 1 else m.zones }) := by
    refine h.modMap _ ?_ (.inl rfl) rfl
    split <;> simp
  have m : Keeps a (if (s.map.marks.any fun k => decide (k.stop ≤ e)) = true then
      (State.arbiter (s.modMap fun m => { m with
        marks := m.marks.filter fun k => e < k.stop
        zones := if s.firstZoneEnds e then m.zones.drop 1 else m.zones })).syncSpliceCeiling
      else s.modMap fun m => { m with
        marks := m.marks.filter fun k => e < k.stop, zones := if s.firstZoneEnds e then m.zones.drop 1 else m.zones }) := by
    split
    · exact k.arbiter.syncSpliceCeiling
    · exact k
  by_cases c : s.firstZoneEnds e = true
  · rw [if_pos c]; exact m.recheck
  · rw [if_neg c]; exact m

@[simp] theorem Keeps.decideSheet (h : Keeps a s) (x : Sheet) : Keeps a (s.decideSheet x) := by
  unfold State.decideSheet
  dsimp only
  have k := ((h.modRouter fun r => { r with sheets := r.sheets.drop 1 }).countVerdict (s.judge x)).handRoute (s.judge x).toStack
  refine Keeps.trimAfter ?_ _
  split
  · exact (k.orderEndAtGate _).completeOrder _
  · exact k

@[simp] theorem Keeps.decideDue (n : Nat) (h : Keeps a s) : Keeps a (State.decideDue n s) := by
  induction n generalizing s with
  | zero => exact h
  | succ n ih =>
    unfold State.decideDue
    repeat' split
    · exact ih (h.decideSheet _)
    · exact h
    · exact h

@[simp] theorem Keeps.gateDecisions (h : Keeps a s) : Keeps a s.gateDecisions := Keeps.decideDue _ h

@[simp] theorem Keeps.sweepMarks (h : Keeps a s) : Keeps a s.sweepMarks := by
  unfold State.sweepMarks
  split
  · exact ((h.modMap _ (Nat.le_refl _) (.inl rfl) rfl).arbiter).syncSpliceCeiling
  · exact h

@[simp] theorem Keeps.loseSheet (h : Keeps a s) (x : Sheet) : Keeps a (s.loseSheet x) := by
  unfold State.loseSheet
  split
  · exact h.modOrder _ _
  · exact h

@[simp] theorem Keeps.tearDownRouter (h : Keeps a s) : Keeps a s.tearDownRouter := by
  unfold State.tearDownRouter
  dsimp only
  have k := (Keeps.foldl _ (fun _ x k => k.loseSheet x) s.router.sheets h).modRouter fun r => { r with sheets := [] }
  split
  · exact Keeps.foldl _ (fun _ r k => k.creditRun r) _ k
  · split
    · exact k.closeStack _ _ _
    · exact k
  · exact k
  · exact k

/-! ### Stand reports -/

@[simp] theorem Keeps.announce (h : Keeps a s) (i : Stand) (b : StandRecord) : Keeps a (s.announce i b) := by
  unfold State.announce
  dsimp only
  split
  · exact h
  · have k : Keeps a (if (s.standRecord i).standbyPrepared ≠ b.standbyPrepared then s.pass else s) := by
      split
      · exact h.pass
      · exact h
    split
    · exact k.settleSplice.recheck
    · exact k.settleSplice

@[simp] theorem Keeps.plausible (h : Keeps a s) (i : Stand) (x : Arm) (d : Nat) : Keeps a (s.plausible i x d) := by
  unfold State.plausible
  dsimp only
  have k := ((h.modStand i fun r =>
    { r with
      arms := r.arms.set x { r.arms.get x with diameter := d }
      basis := ({ r.arms.get x with diameter := d } : ArmRecord).basisAt s.web.w
      implausible := 0
      estimate := false
      outReported := r.outReported && !((({ r.arms.get x with diameter := d } : ArmRecord).basisAt s.web.w).any (0 < ·.length)) }).pass
    ).reelLowEvaluation i
  split
  · exact k.reelOutTest i
  · exact k

@[simp] theorem Keeps.implausible (h : Keeps a s) (i : Stand) : Keeps a (s.implausible i) := by
  unfold State.implausible
  dsimp only
  refine Keeps.reelLowEvaluation ?_ i
  split
  · exact (h.modStand i _).latch _ _
  · exact h.modStand i _

@[simp] theorem Keeps.gaugeReading (h : Keeps a s) (i : Stand) (x : Arm) (d : Nat) : Keeps a (s.gaugeReading i x d) := by
  unfold State.gaugeReading
  split
  · exact h.plausible i x d
  · exact h.implausible i

@[simp] theorem Keeps.armReport (h : Keeps a s) (i : Stand) (x : Arm) (p : ArmReport) (b : Bool) : Keeps a (s.armReport i x p b) := by
  unfold State.armReport
  dsimp only
  repeat' split
  all_goals first
    | exact h
    | exact h.gaugeReading _ _ _
    | exact h.modStand i _

@[simp] theorem Keeps.standReport (h : Keeps a s) (i : Stand) (p q : ArmReport) : Keeps a (s.standReport i p q) := by
  unfold State.standReport
  exact ((h.armReport i _ _ _).armReport i _ _ _).announce i _

@[simp] theorem Keeps.initArms (h : Keeps a s) (i : Stand) (p : PerArm ArmReport) : Keeps a (s.initArms i p) := by
  unfold State.initArms
  split
  · exact h
  · exact (h.modStand i _).announce i _

/-! ### One advance, one gate period end -/

@[simp] theorem Keeps.countCut (h : Keeps a s) (x : Sheet) : Keeps a (s.countCut x) := by
  unfold State.countCut
  split
  · exact h.modOrder _ _
  · exact h

@[simp] theorem Keeps.testKnife (h : Keeps a s) (b : Bool) : Keeps a (s.testKnife b) := by
  unfold State.testKnife
  split
  · exact h.reportCause _
  · exact h

@[simp] theorem Keeps.takeCut (h : Keeps a s) (k : KnifeSchedule) (z : Zone) (b : Bool) : Keeps a (s.takeCut k z b) := by
  unfold State.takeCut
  dsimp only
  exact (((((h.modPins _ rfl rfl rfl).modRouter _).countCut _).modCut _).presentRatio).testKnife _

@[simp] theorem Keeps.cutDue (h : Keeps a s) (b : Bool) : Keeps a (s.cutDue b) := by
  unfold State.cutDue
  repeat' split
  · exact h.takeCut _ _ _
  all_goals exact h

@[simp] theorem Keeps.runOrder (h : Keeps a s) (o : Order) : Keeps a (s.runOrder o) := by
  unfold State.runOrder
  dsimp only
  have k := ((h.modOrder o.number fun x => { x with state := .running }).placeOrderState o.number
    (some o.state)).setEstimateGrade (some o.grade)
  refine Keeps.composeCeilings ?_
  split
  · exact k
  · exact k.pass

@[simp] theorem Keeps.orderRunning (h : Keeps a s) : Keeps a s.orderRunning := by
  unfold State.orderRunning
  split
  · exact h.runOrder _
  · exact h

@[simp] theorem Keeps.orderEnding (h : Keeps a s) : Keeps a s.orderEnding := by
  unfold State.orderEnding
  split
  · dsimp only
    split
    · exact ((h.modOrder _ _).placeOrderState _ _).raiseHold .order rfl
    · exact (h.modOrder _ _).placeOrderState _ _
  · exact h

/-- Whatever action a block takes at an advance. -/
@[simp] theorem Keeps.advancePhase (h : Keeps a s) (b : Bool) (p : AdvancePhase) : Keeps a (State.advancePhase b s p) := by
  cases p with
  | clearing => exact h.clearTravel
  | cut => exact h.cutDue b
  | orderEnding => exact h.orderEnding
  | orderRunning => exact h.orderRunning
  | gateDecisions => exact h.gateDecisions
  | markSweep => exact h.sweepMarks
  | glue => exact h.applyGlue
  | swap => exact h.dueSwaps
  | swapLastCall => exact h.testSwapCalls
  | approach => exact h.approachTest
  | commit => exact h.commitDue
  | queueEnd => exact h.queueEndTest
  | spliceArm => exact (h.eachStand _ fun i _ k => k.armPlan i).syncSpliceCeiling
  | spliceDue i => exact (h.duePlan i).syncSpliceCeiling
  | spliceReady => exact h.syncSplice
  | reelOut => exact h.eachStand _ fun i _ k => k.reelOutTest i

/-- Whatever action a block takes at a gate period end. -/
@[simp] theorem Keeps.gatePhase (h : Keeps a s) (b : Bool) (p : GatePhase) : Keeps a (State.gatePhase b s p) := by
  cases p with
  | encoderLoss =>
    simp only [State.gatePhase]
    split
    · exact h.reportCause _
    · exact h
  | ramp => exact h.stepReference.countStandstill
  | approach => exact h.approachTest
  | swapLastCall => exact h.testSwapCalls
  | queueEnd => exact h.queueEndTest
  | spliceArm => exact (h.eachStand _ fun i _ k => k.armPlan i).syncSpliceCeiling
  | spliceReady => exact h.syncSplice
  | setpoints => exact h.deadbandSetpoints

end Sys2Proof.Machine
end

