-- ==== Sys2Proof/Laws/KeepsRequests.lean ====
section
/-! SUPPORT. What a request does before its reply keeps the laws (see Keeps.lean), for the requests that leave the working profile
and the store's images alone. -/

namespace Sys2Proof.Machine

variable {a s t : State}

@[simp] theorem State.refuse_state (s : State) (r : Result) : (s.refuse r).state = s := rfl

@[simp] theorem State.ok_state (s : State) (l : List Byte) : (s.ok l).state = s := rfl

@[simp] theorem State.refuse_result (s : State) (r : Result) : (s.refuse r).result = r := rfl

@[simp] theorem State.ok_result (s : State) (l : List Byte) : (s.ok l).result = .ok := rfl

@[simp] theorem Keeps.refuse (h : Keeps a s) (r : Result) : Keeps a (s.refuse r).state := h

@[simp] theorem Keeps.ok (h : Keeps a s) (l : List Byte) : Keeps a (s.ok l).state := h

@[simp] theorem Keeps.ifLength {u : Taken} (h : Keeps a s) (k : Keeps a u.state) (b : Bool) : Keeps a (u.ifLength s b).state := by
  unfold Taken.ifLength
  split
  · exact k
  · exact h

/-! ### START -/

/-- The line enters Run from Standby (R13). -/
theorem Keeps.enterRun (h : Keeps a s) (hl : s.sup.line = .standby) : Keeps a s.enterRun := by
  unfold State.enterRun State.goTo
  refine Keeps.placeLineState ?_ _
  obtain ⟨kc, kb, kh, kf, kr, kz, kq⟩ := h
  have no : s.HeldInStartUp → s.pins.resetLow = true → False := by
    intro q p
    simpa [hl] using q p
  refine ⟨kc, fun x => ?_, fun x => ?_, kf, fun x => ?_, fun x => ?_, fun x p => ?_⟩
  · obtain ⟨b1, b2, b3, b4, b5⟩ := kb x
    exact ⟨b1, b2, b3, b4, b5⟩
  · obtain ⟨q1, q2, q3, q4, q5, q6, q7⟩ := kh x
    exact ⟨fun p => (no q1 p).elim, fun _ => rfl, fun p => by simp at p, fun _ _ => rfl, rfl, rfl, q7⟩
  · obtain ⟨q1, q2, q3, q4⟩ := kr x
    exact ⟨fun p => (no q1 p).elim, q2, fun p => by simp [LineState.atRest] at p, fun p => by simp at p⟩
  · obtain ⟨q1, q2, q3, q4⟩ := kz x
    exact ⟨fun p => (no q1 p).elim, q2, fun p => by simp at p, q4⟩
  · simp [Holds.empty] at p

@[simp] theorem Keeps.clearReelOut (h : Keeps a s) : Keeps a s.clearReelOut := h.eachStand _ fun i _ k => k.modStand i _

/-- A fresh plan on an empty map (R77). -/
theorem Keeps.freshPlan (h : Keeps a s) (o : Order) (hz : a.ZonesSized → s.map.zones = []) (hl : s.sup.line = .run)
    (hq : s.sup.holds.queueEnd = false) : Keeps a (s.freshPlan o) := by
  unfold State.freshPlan
  dsimp only
  have k1 : Keeps a (s.modMap fun m => { m with deferrals := 0, terminal := none, queueEndCall := false }) := by
    refine h.mapWith _ (fun x => ⟨by rw [hz x]; exact Nat.zero_le _, fun p => ?_, fun p => by simp at p⟩) fun _ p => ?_
    · rw [hl] at p; simp at p
    · rw [hq] at p; simp at p
  have r1 : Roomy a (s.modMap fun m => { m with deferrals := 0, terminal := none, queueEndCall := false }) 0 := fun x =>
    ⟨by show s.map.zones.length ≤ 0; rw [hz x]; exact Nat.le_refl _, rfl, by show s.sup.line ≠ _; rw [hl]; simp,
      by show s.sup.line ≠ _; rw [hl]; simp⟩
  have k2 := fun z => k1.appendZone z 0 r1 (by omega)
  have k3 := fun z => (k2 z).schedule o (s.web.w + s.profile.dThread) 1 (r1.appendZone z) (by omega)
  refine Keeps.recompose (Keeps.presentRatio (Keeps.modCut (Keeps.chooseStation (Keeps.setEstimateGrade ?_ _) _ _) _))
  exact k3 _

theorem Keeps.startWith (h : Keeps a s) (o : Order) (hl : s.sup.line = .standby) : Keeps a (s.startWith o) := by
  unfold State.startWith
  refine Keeps.afterScheduling (Keeps.freshPlan ((h.enterRun hl).clearReelOut) o (fun x => ?_) rfl rfl)
  exact ((h.zones x).standing (.inr hl)).1

theorem Keeps.start (h : Keeps a s) : Keeps a s.start.state := by
  unfold State.start
  split
  · exact h.refuse _
  · next hl =>
    repeat' split
    · exact h.refuse _
    · exact h.refuse _
    · exact (h.startWith _ (Classical.not_not.mp hl)).ok _
    · exact h.refuse _

/-! ### RESUME -/

@[simp] theorem Keeps.clearResumed (h : Keeps a s) : Keeps a s.clearResumed := by
  refine h.setHolds _ rfl rfl (fun _ p => by rw [p]; rfl) id

/-- A law-keeping stretch that begins where QUEUE_END has lost its terminal boundary. -/
theorem Keeps.through {b : State} (h : Keeps a s) (kc : b.core = s.core) (kb : s.Bounded → b.Bounded)
    (kh : s.HoldsAgree → b.HoldsAgree) (kf : s.OneFiring → b.OneFiring) (kr : s.ReferenceSafe → b.ReferenceSafe)
    (kz : a.ZonesSized → b.ZonesSized) (k : Keeps b t) (hq : a.QueueEndStands → t.QueueEndStands) : Keeps a t :=
  ⟨(k.core.trans kc).trans h.core, k.bounded ∘ kb ∘ h.bounded, k.holds ∘ kh ∘ h.holds, k.firing ∘ kf ∘ h.firing,
   k.reference ∘ kr ∘ h.reference, k.zones ∘ kz, hq⟩

theorem closeRunout_length (e : Nat) (b : Bool) (l : List Zone) : (closeRunout e b l).length = l.length := by
  fun_induction closeRunout e b l <;> simp_all

/-- The terminal boundary is gone. -/
def State.unbounded (s : State) : State := s.modMap fun m => { m with terminal := none, queueEndCall := false }

/-- RESUME's scheduling, from a map whose terminal boundary is gone (R78). -/
theorem Keeps.scheduleBehindRunout {b : State} (o : Order) (k0 : Keeps b s.unbounded) (r0 : Roomy b s.unbounded 47) :
    Keeps b (s.scheduleBehindRunout o) := by
  unfold State.scheduleBehindRunout
  dsimp only
  have done : ∀ u z, Keeps b u → Roomy b u 47 →
      Keeps b (((((u.schedule o z).setEstimateGrade (some o.grade)).chooseStation o.tools z).presentIfChanged s.cut.schedule).recompose) := by
    intro u z k r
    refine Keeps.recompose (Keeps.presentIfChanged _ (Keeps.chooseStation (Keeps.setEstimateGrade ?_ _) _ _))
    exact k.schedule o z 47 r (by omega)
  split
  · refine done _ _ (Keeps.modCut (k0.modMap _ (Nat.le_of_eq (closeRunout_length _ _ _)) (.inl rfl) rfl) _) ?_
    exact r0.of_eq (Nat.le_of_eq (closeRunout_length _ _ _)) rfl rfl
  · have e : (s.unbounded.map.zones.dropLast).length ≤ s.unbounded.map.zones.length := by simp
    exact done _ _ (k0.modMap _ e (.inl rfl) rfl) (r0.of_eq e rfl rfl)

/-- QUEUE_END clears, and with it the one law that the stretch before had broken. -/
theorem State.clearHold_queueEnd (s : State) : (s.clearHold .queueEnd).sup.holds.queueEnd = false := by
  unfold State.clearHold State.setHolds State.placeLineState
  split
  · next e => exact (congrArg Holds.queueEnd e).symm
  · rw [State.place_sup]; rfl

theorem State.setHolds_map (s : State) (w : Holds) : (s.setHolds w).map = s.map := by
  unfold State.setHolds State.placeLineState
  split
  · rfl
  · rw [State.place_map]; rfl

theorem lineFor_plan (l : LineState) (w : Holds) (h : l = .run ∨ l = .hold) : lineFor l w = .run ∨ lineFor l w = .hold := by
  rcases h with h | h <;> rw [h] <;> unfold lineFor <;> dsimp only <;> split <;> simp

theorem State.setHolds_runOrHold (s : State) (w : Holds) (h : s.runOrHold = true) : (s.setHolds w).runOrHold = true := by
  unfold State.setHolds State.placeLineState
  split
  · exact h
  · rw [State.runOrHold_iff] at h ⊢
    rw [State.place_sup]
    exact lineFor_plan _ _ h

/-- A state that no map law constrains: a reference for a stretch of which nothing is asked of the map. -/
def State.offMap (s : State) : State :=
  s.modMap fun _ => { WebMap.reset with zones := List.replicate 49 (newZone .thread 0 none false (.same false)) }

theorem State.offMap_not_sized (s : State) : ¬ s.offMap.ZonesSized := fun h => by
  have := h.zones
  simp [State.offMap] at this

theorem Keeps.resumeWith (h : Keeps a s) (o : Order) (hr : s.runOrHold = true) (hq : a.QueueEndStands)
    (hh : s.sup.holds.queueEnd = true) : Keeps a (s.resumeWith o) := by
  unfold State.resumeWith
  refine Keeps.afterScheduling ?_
  have k := h.clearResumed
  have hr' : s.clearResumed.sup.line = .run ∨ s.clearResumed.sup.line = .hold :=
    (State.runOrHold_iff _).mp (s.setHolds_runOrHold _ hr)
  have hq' : ∀ u : State, (u.clearHold .queueEnd).QueueEndStands := fun u p => by
    rw [State.clearHold_queueEnd] at p; simp at p
  by_cases hz : a.ZonesSized
  · have ht := (k.zones hz).terminal (by
      unfold State.clearResumed
      rw [State.setHolds_map]
      exact (h.queueEnd hq hh).1)
    have hl : s.clearResumed.sup.line ≠ .startUp ∧ s.clearResumed.sup.line ≠ .standby := by
      rcases hr' with e | e <;> rw [e] <;> simp
    have kk := ((Keeps.refl s.clearResumed.unbounded).scheduleBehindRunout o fun _ => ⟨ht.1, rfl, hl⟩).clearHold .queueEnd (.inr rfl)
    exact k.through (b := s.clearResumed.unbounded) rfl (fun b => ⟨b.1, b.2, b.3, b.4, b.5⟩) (fun q => ⟨q.1, q.2, q.3, q.4, q.5, q.6, q.7⟩) id
      (fun q => ⟨q.1, q.2, q.3, q.4⟩)
      (fun x => ⟨(k.zones x).held, Nat.le_trans ht.1 (by omega), fun p => absurd p (by simp only [not_or]; exact hl),
        fun p => by simp [State.unbounded] at p⟩) kk fun _ => hq' _
  · have k0 : Keeps s.clearResumed.offMap s.clearResumed.unbounded := by
      refine ⟨rfl, fun b => ⟨b.1, b.2, b.3, b.4, b.5⟩, fun q => ⟨q.1, q.2, q.3, q.4, q.5, q.6, q.7⟩, id,
        fun q => ⟨q.1, q.2, q.3, q.4⟩, fun x => absurd x (State.offMap_not_sized _), fun x p => ?_⟩
      have := (x p).1
      simp [State.offMap, WebMap.reset] at this
    have kk := (k0.scheduleBehindRunout o fun x => absurd x (State.offMap_not_sized _)).clearHold .queueEnd (.inr rfl)
    exact k.through (b := s.clearResumed.offMap) rfl (fun b => ⟨b.1, b.2, b.3, b.4, b.5⟩) (fun q => ⟨q.1, q.2, q.3, q.4, q.5, q.6, q.7⟩) id
      (fun q => ⟨q.1, q.2, q.3, q.4⟩) (fun x => absurd x hz) kk fun _ => hq' _

theorem Keeps.resume (h : Keeps a s) (hq : a.QueueEndStands) : Keeps a s.resume.state := by
  unfold State.resume
  repeat' split
  · exact h.refuse _
  · exact h.clearResumed.ok _
  · exact h.clearResumed.ok _
  · exact h.refuse _
  · exact (h.resumeWith _ (by simp_all) hq (by simp_all)).ok _
  · exact h.refuse _

/-! ### Teardown -/

@[simp] theorem Keeps.returnOrder (h : Keeps a s) (o : Order) (q : Nat) : Keeps a (s.returnOrder o q) :=
  (h.modOrder _ _).placeOrderState _ _

@[simp] theorem Keeps.settleOrder (h : Keeps a s) (o : Order) : Keeps a (s.settleOrder o) := by
  unfold State.settleOrder
  have k := fun c => (h.recordCompletion o c).removeOrder o.number
  repeat' split
  · exact h
  · exact k _
  · exact h.returnOrder _ _
  · exact k _
  · exact h.returnOrder _ _
  · exact k _
  · exact k _
  · exact (h.recordCompletion _ _).returnOrder _ _
  · exact k _
  · exact k _
  · exact (h.recordCompletion _ _).returnOrder _ _

@[simp] theorem Keeps.settleOrders (h : Keeps a s) : Keeps a s.settleOrders := (Keeps.foldl _ (fun _ o k => k.settleOrder o) _ h).releaseGrades

/-- What the teardown's order and plan parts leave alone: the map and the supervisor's line state. -/
def SameLine (s t : State) : Prop := t.map = s.map ∧ t.sup.line = s.sup.line

theorem SameLine.refl (s : State) : SameLine s s := ⟨rfl, rfl⟩

theorem SameLine.trans {u : State} (h : SameLine s t) (k : SameLine t u) : SameLine s u := ⟨k.1.trans h.1, k.2.trans h.2⟩

theorem SameLine.foldl {β : Type} (f : State → β → State) (hf : ∀ s x, SameLine s (f s x)) (l : List β) (s : State) :
    SameLine s (l.foldl f s) := by
  induction l generalizing s with
  | nil => exact .refl s
  | cons x l ih => exact (hf s x).trans (ih _)

theorem SameLine.placeOrderState (s : State) (n : Nat) (b : Option OrderState) : SameLine s (s.placeOrderState n b) :=
  ⟨State.placeOrderState_map s n b, congrArg Supervisor.line (State.placeOrderState_sup s n b)⟩

theorem SameLine.recordCompletion (s : State) (o : Order) (c : Completion) : SameLine s (s.recordCompletion o c) := by
  unfold State.recordCompletion
  dsimp only
  exact ⟨(State.modOrders_map _ _).trans (State.place_map _ _), congrArg Supervisor.line ((State.modOrders_sup _ _).trans (State.place_sup _ _))⟩

theorem SameLine.settleOrder (s : State) (o : Order) : SameLine s (s.settleOrder o) := by
  have k : ∀ (u : State) n, SameLine u (u.removeOrder n) := fun _ _ => ⟨rfl, rfl⟩
  have r : ∀ (u : State) q, SameLine u (u.returnOrder o q) := fun u q =>
    SameLine.trans (t := u.modOrder o.number fun x => x.returned q) ⟨rfl, rfl⟩ (.placeOrderState _ _ _)
  unfold State.settleOrder
  repeat' split
  · exact .refl s
  · exact (SameLine.recordCompletion s o _).trans (k _ _)
  · exact r _ _
  · exact (SameLine.recordCompletion s o _).trans (k _ _)
  · exact r _ _
  · exact (SameLine.recordCompletion s o _).trans (k _ _)
  · exact (SameLine.recordCompletion s o _).trans (k _ _)
  · exact (SameLine.recordCompletion s o _).trans (r _ _)
  · exact (SameLine.recordCompletion s o _).trans (k _ _)
  · exact (SameLine.recordCompletion s o _).trans (k _ _)
  · exact (SameLine.recordCompletion s o _).trans (r _ _)

theorem SameLine.settleOrders (s : State) : SameLine s s.settleOrders :=
  SameLine.trans (SameLine.foldl _ (fun s o => .settleOrder s o) _ _) ⟨rfl, rfl⟩

theorem SameLine.disarmPlan (i : Stand) (s : State) : SameLine s (s.disarmPlan i) := by
  have k : SameLine s ((s.modPlan i Plan.toIdle).placePlanned i) :=
    ⟨State.place_map _ _, congrArg Supervisor.line (State.place_sup _ _)⟩
  unfold State.disarmPlan
  split
  · exact k
  · exact k
  all_goals exact ⟨rfl, rfl⟩

theorem SameLine.disarmAll (s : State) : SameLine s s.disarmAll :=
  SameLine.trans (SameLine.foldl (fun t i => State.disarmPlan i t) (fun s i => .disarmPlan i s) stands s) ⟨rfl, rfl⟩

theorem SameLine.setEstimateGrade (s : State) (g : Option Nat) : SameLine s (s.setEstimateGrade g) := by
  unfold State.setEstimateGrade
  split
  · exact .refl s
  · exact SameLine.trans (SameLine.foldl (fun t i => State.rebase i t) (fun _ _ => ⟨rfl, rfl⟩) stands s) ⟨rfl, rfl⟩

theorem SameLine.tearDownCut (s : State) (h : s.runOrHold = false) : SameLine s s.tearDownCut := by
  unfold State.tearDownCut State.syncSetWait State.setSetWait
  rw [if_neg]
  · exact ⟨rfl, rfl⟩
  · show ¬ s.runOrHold = true
    simp [h]

theorem SameLine.modOrder (s : State) (n : Nat) (f : Order → Order) : SameLine s (s.modOrder n f) := ⟨rfl, rfl⟩

theorem SameLine.creditRun (s : State) (r : BufferRun) : SameLine s (s.creditRun r) := by
  unfold State.creditRun
  split <;> exact ⟨rfl, rfl⟩

theorem SameLine.tearDownRouter (s : State) : SameLine s s.tearDownRouter := by
  have l : ∀ (u : State) x, SameLine u (u.loseSheet x) := by
    intro u x
    unfold State.loseSheet
    split <;> exact ⟨rfl, rfl⟩
  have k := SameLine.trans (SameLine.foldl _ l s.router.sheets s)
    (u := (s.router.sheets.foldl State.loseSheet s).modRouter fun r => { r with sheets := [] }) ⟨rfl, rfl⟩
  unfold State.tearDownRouter
  dsimp only
  split
  · exact k.trans (SameLine.foldl _ SameLine.creditRun _ _)
  · split
    · refine k.trans ⟨?_, ?_⟩ <;> simp [State.closeStack, State.queueCommand, State.countStacks, State.modOrder, Ask.resulting,
        State.modNode]
    · exact k
  · exact k
  · exact k

/-- The teardown up to the supervisor's own items. -/
def State.tornDown (s : State) : State :=
  (((s.tearDownRouter.tearDownMap).settleOrders.disarmAll.tearDownCut).setEstimateGrade none)

theorem SameLine.tornDown (s : State) (h : s.runOrHold = false) : SameLine s.tearDownRouter.tearDownMap s.tornDown := by
  unfold State.tornDown
  have e := SameLine.trans (SameLine.settleOrders s.tearDownRouter.tearDownMap) (SameLine.disarmAll _)
  refine (e.trans (SameLine.tearDownCut _ ?_)).trans (SameLine.setEstimateGrade _ _)
  have l := e.2.trans (SameLine.tearDownRouter s).2
  simpa [State.runOrHold, l] using h

theorem State.tornDown_map (s : State) (h : s.runOrHold = false) : s.tornDown.map = WebMap.reset := (SameLine.tornDown s h).1

theorem State.tornDown_line (s : State) (h : s.runOrHold = false) : s.tornDown.sup.line = s.sup.line :=
  (SameLine.tornDown s h).2.trans (SameLine.tearDownRouter s).2

theorem Keeps.tearDownMap (h : Keeps a s) (hr : s.runOrHold = false) : Keeps a s.tearDownMap := by
  refine h.mapWith _ (fun x => ⟨Nat.zero_le _, fun _ => ⟨rfl, rfl⟩, fun p => by simp [WebMap.reset] at p⟩) fun x p => ?_
  have := (h.queueEnd x p).2
  rw [hr] at this; simp at this

theorem Keeps.tornDown (h : Keeps a s) (hr : s.runOrHold = false) : Keeps a s.tornDown := by
  unfold State.tornDown
  have hr' : s.tearDownRouter.runOrHold = false := by simpa [State.runOrHold, (SameLine.tearDownRouter s).2] using hr
  exact Keeps.setEstimateGrade (((((h.tearDownRouter).tearDownMap hr').settleOrders).disarmAll.modCut _).syncSetWait) none

/-- A change of the supervisor's items outside Safe stop, where the standstill count is not looked at. -/
theorem Keeps.modSupStill (h : Keeps a s) (f : Supervisor → Supervisor) (hl : s.sup.line ≠ .safeStop)
    (hs : (f s.sup).lawful = ({ s.sup with standstill := (f s.sup).standstill } : Supervisor).lawful) : Keeps a (s.modSup f) := by
  have k : Keeps a (s.modSup fun p => { p with standstill := (f s.sup).standstill }) := by
    obtain ⟨kc, kb, kh, kf, kr, kz, kq⟩ := h
    refine ⟨kc, fun x => ?_, fun x => ?_, kf, fun x => ?_, fun x => ?_, kq⟩
    · obtain ⟨b1, b2, b3, b4, b5⟩ := kb x
      exact ⟨b1, b2, b3, b4, b5⟩
    · obtain ⟨q1, q2, q3, q4, q5, q6, q7⟩ := kh x
      exact ⟨q1, q2, q3, q4, q5, q6, q7⟩
    · obtain ⟨q1, q2, q3, q4⟩ := kr x
      exact ⟨q1, q2, q3, fun p => absurd p hl⟩
    · obtain ⟨q1, q2, q3, q4⟩ := kz x
      exact ⟨q1, q2, q3, q4⟩
  exact k.modSup (fun _ => f s.sup) hs

/-- The line enters Standby with an empty map (R20, R23). -/
theorem Keeps.goStandby (h : Keeps a s) (hl : s.sup.line = .tripped ∨ s.sup.line = .lockout) (hm : s.map = WebMap.reset) :
    Keeps a (s.goTo .standby) := by
  refine Keeps.placeLineState ?_ _
  obtain ⟨kc, kb, kh, kf, kr, kz, kq⟩ := h
  have no : s.HeldInStartUp → s.pins.resetLow = true → False := by
    intro q p
    have := q p
    rcases hl with r | r <;> simp [r] at this
  refine ⟨kc, fun x => ?_, fun x => ?_, kf, fun x => ?_, fun x => ?_, fun x p => ?_⟩
  · obtain ⟨b1, b2, b3, b4, b5⟩ := kb x
    exact ⟨b1, b2, b3, b4, b5⟩
  · obtain ⟨q1, q2, q3, q4, q5, q6, q7⟩ := kh x
    have e : s.sup.holds = .empty := by rcases hl with r | r <;> apply q4 <;> simp [r]
    exact ⟨fun p => (no q1 p).elim, fun _ => e, fun p => by simp at p, fun _ _ => e, q5, q6, q7⟩
  · obtain ⟨q1, q2, q3, q4⟩ := kr x
    have e : s.sup.reference = 0 := q3 (by rcases hl with r | r <;> simp [r, LineState.atRest])
    exact ⟨fun p => (no q1 p).elim, q2, fun _ => e, fun _ _ => e⟩
  · obtain ⟨q1, q2, q3, q4⟩ := kz x
    refine ⟨fun p => (no q1 p).elim, q2, fun _ => ?_, q4⟩
    show s.map.zones = [] ∧ s.map.openOrder = none
    rw [hm]; exact ⟨rfl, rfl⟩
  · have := (kq x p).2
    rw [State.runOrHold_iff] at this
    rcases hl with r | r <;> simp [r] at this

theorem Keeps.tearDown (h : Keeps a s) (hl : s.sup.line = .tripped ∨ s.sup.line = .lockout) : Keeps a s.tearDown := by
  have hr : s.runOrHold = false := by rcases hl with e | e <;> simp [State.runOrHold, e]
  have e : s.tornDown.sup.line ≠ .safeStop := by
    rw [s.tornDown_line hr]
    rcases hl with e | e <;> simp [e]
  exact (h.tornDown hr).modSupStill (fun p =>
    { p with
      ceilings := { p.ceilings with knife := none, order := none, splice := none }
      cause := .noCause
      standstill := 0 }) e rfl

theorem State.tearDown_map (s : State) (hr : s.runOrHold = false) : s.tearDown.map = WebMap.reset := s.tornDown_map hr

theorem State.tearDown_line (s : State) (hr : s.runOrHold = false) : s.tearDown.sup.line = s.sup.line := s.tornDown_line hr

theorem Keeps.clearTrip (h : Keeps a s) (hl : s.sup.line = .tripped) : Keeps a (s.tearDown.goTo .standby) := by
  have hr : s.runOrHold = false := by simp [State.runOrHold, hl]
  exact (h.tearDown (.inl hl)).goStandby (.inl ((s.tearDown_line hr).trans hl)) (s.tearDown_map hr)

@[simp] theorem State.writeTripRecord_sup (s : State) : s.writeTripRecord.sup = s.sup := by
  unfold State.writeTripRecord; split <;> rfl

@[simp] theorem State.writeTripRecord_map (s : State) : s.writeTripRecord.map = s.map := by
  unfold State.writeTripRecord; split <;> rfl

theorem Keeps.releaseLockout (h : Keeps a s) (hl : s.sup.line = .lockout) : Keeps a s.releaseLockout := by
  have hr : s.runOrHold = false := by simp [State.runOrHold, hl]
  refine ((h.tearDown (.inr hl)).modSup _ rfl).writeTripRecord.goStandby (.inr ?_) ?_
  · rw [State.writeTripRecord_sup]; exact (s.tearDown_line hr).trans hl
  · rw [State.writeTripRecord_map]; exact s.tearDown_map hr

/-! ### Requests on orders -/

theorem insertOrder_length (o : Order) (n : Nat) (l : List Order) : (insertOrder o n l).length = l.length + 1 := by
  unfold insertOrder
  split
  · simp
  · have : ∀ p : Order → Bool, (l.takeWhile p).length + (l.dropWhile p).length = l.length := by
      intro p; rw [← List.length_append, List.takeWhile_append_dropWhile]
    have e := this fun x => decide (x.number ≠ n)
    simp only [List.length_append, List.length_cons]
    omega

theorem Keeps.addOrder (h : Keeps a s) (p : List Byte) : Keeps a (s.addOrder p).state := by
  unfold State.addOrder
  dsimp only
  repeat' split
  iterate 7 exact h.refuse _
  next c =>
    refine Keeps.ok ?_ _
    unfold State.placeOrder
    dsimp only
    have k : Keeps a ((s.modOrders fun q => { q with list := insertOrder (orderOf p) (fieldAt p 4 4) q.list }).placeOrderState
        (orderOf p).number none) := by
      refine Keeps.placeOrderState (h.modOrders _ ?_ (Nat.le_max_right _ _)) _ _
      simp only [insertOrder_length]
      simp only [Config.orderCapacity] at c
      omega
    split
    · exact k.recheck
    · exact k

theorem Keeps.amendPlaced (h : Keeps a s) (o : Order) (m : Amendment) : Keeps a (s.amendPlaced o m).state := by
  unfold State.amendPlaced
  have k1 := fun f => (h.modOrder o.number f).recompose
  have k2 := fun f => h.modOrder o.number f
  have kc : ∀ u : State, Keeps a u → Keeps a (if u.overdue = true then u.clampIfOverdue.horizonCheck else u.clampIfOverdue) := by
    intro u ku
    have kd : Keeps a u.clampIfOverdue := by
      unfold State.clampIfOverdue
      split
      · exact ku.clampOpen
      · exact ku
    split
    · exact kd.horizonCheck
    · exact kd
  cases m.resizes <;> cases m.cap.isSome <;> simp only [Bool.false_eq_true, if_false, if_true]
  · exact (k2 _).ok _
  · exact (k1 _).ok _
  · exact (kc _ (k2 _)).ok _
  · exact (kc _ (k1 _)).ok _

theorem Keeps.amendOrder (h : Keeps a s) (n : Nat) (m : Amendment) : Keeps a (s.amendOrder n m).state := by
  unfold State.amendOrder
  repeat' split
  iterate 5 exact h.refuse _
  · unfold State.amendQueued
    dsimp only
    refine Keeps.ok ?_ _
    split
    · exact (h.modOrder _ _).recheck
    · exact h.modOrder _ _
  · exact h.amendPlaced _ _

theorem Keeps.cancelOrder (h : Keeps a s) (n : Nat) : Keeps a (s.cancelOrder n).state := by
  unfold State.cancelOrder
  repeat' split
  iterate 3 exact h.refuse _
  · refine Keeps.ok ?_ _
    unfold State.cancelQueued
    dsimp only
    split
    · exact ((h.removeOrder _).place _).recheck
    · exact (h.removeOrder _).place _
  · exact (h.modOrder _ _).horizonCheck.ok _
  all_goals exact h.refuse _

/-! ### Requests on grades, stands and nodes -/

theorem Keeps.defineGrade (h : Keeps a s) (i : Nat) (g : Grade) : Keeps a (s.defineGrade i g).state := by
  unfold State.defineGrade
  repeat' split
  iterate 5 exact h.refuse _
  exact (h.modCond _).recheck.ok _

theorem Keeps.freeGrade (h : Keeps a s) (i : Nat) : Keeps a (s.freeGrade i).state := by
  unfold State.freeGrade
  repeat' split
  iterate 4 exact h.refuse _
  exact (h.modCond _).ok _

theorem Keeps.defineTable (h : Keeps a s) (i : Nat) (l : List Breakpoint) : Keeps a (s.defineTable i l).state := by
  unfold State.defineTable
  repeat' split
  iterate 4 exact h.refuse _
  exact (h.modCond _).ok _

@[simp] theorem Keeps.changeReel (h : Keeps a s) (i : Stand) (f : StandRecord → StandRecord) : Keeps a (s.changeReel i f) :=
  (h.modStand i f).announce i _

theorem Keeps.assignReel (h : Keeps a s) (i j : Nat) (d : ReelData) : Keeps a (s.assignReel i j d).state := by
  unfold State.assignReel
  repeat' split
  iterate 4 exact h.refuse _
  · exact (h.changeReel _ _).ok _
  · exact h.refuse _

theorem Keeps.clearReel (h : Keeps a s) (i j : Nat) : Keeps a (s.clearReel i j).state := by
  unfold State.clearReel
  repeat' split
  iterate 3 exact h.refuse _
  · exact (h.changeReel _ _).ok _
  · exact h.refuse _

theorem Keeps.spliceNowChecked (h : Keeps a s) (i : Nat) : Keeps a (s.spliceNowChecked i).state := by
  unfold State.spliceNowChecked
  dsimp only
  repeat' split
  iterate 6 exact h.refuse _
  unfold State.spliceNow State.aimManual
  dsimp only
  refine Keeps.ok ?_ _
  have k : ∀ i, Keeps a ((((State.writeWindow i s).modPlan i fun p => p.aim .planned .manual s.manualTarget none).placePlanned
      i).settleSplice) := fun i => (((h.writeWindow i).modPlan i _ (by simp [Plan.aim])).placePlanned i).settleSplice
  split
  · exact (k _).pass
  · exact k _

theorem Keeps.sectionOffline (h : Keeps a s) (i : Nat) : Keeps a (s.sectionOffline i).state := by
  unfold State.sectionOffline
  repeat' split
  iterate 4 exact h.refuse _
  · exact h.ok _
  · exact (h.goOffline _).ok _

theorem Keeps.sectionOnline (h : Keeps a s) (i : Nat) : Keeps a (s.sectionOnline i).state := by
  unfold State.sectionOnline
  repeat' split
  · exact h.refuse _
  · exact h.refuse _
  · unfold State.bringBack
    dsimp only
    split
    · exact (h.becomeFaulted _ _).ok _
    · exact (h.initialise _).ok _
  all_goals first
    | exact h.refuse _

@[simp] theorem Keeps.parkFaulted (h : Keeps a s) (x : Station) : Keeps a (s.parkFaulted x) := by
  unfold State.parkFaulted
  split
  · exact (h.modStation x _).checkStations.recheck
  · exact h

@[simp] theorem Keeps.ackNode (h : Keeps a s) (n : Node) : Keeps a (s.ackNode n) := by
  unfold State.ackNode
  dsimp only
  have k := h.modNode n fun r => { r with latches := .clear }
  repeat' split
  · exact (k.initialise _).parkFaulted _
  all_goals first
    | exact k.initialise _
    | exact k

@[simp] theorem Keeps.ackNodes (h : Keeps a s) (l : List Node) : Keeps a (s.ackNodes l) :=
  ((Keeps.foldl _ (fun _ n k => k.ackNode n) l h).modLine _ (Nat.le_max_right _ _)).releaseSection

theorem Keeps.ackFaults (h : Keeps a s) (i : Nat) : Keeps a (s.ackFaults i).state := by
  unfold State.ackFaults
  repeat' split
  · exact h.refuse _
  · exact (h.ackNodes _).ok _
  · exact (h.ackNodes _).ok _
  · exact h.refuse _

end Sys2Proof.Machine
end

