-- ==== Sys2Proof/Laws/KeepsFrames.lean ====
section
/-! SUPPORT. What answers on the section line and ends of timers do keeps the laws (see Keeps.lean). -/

namespace Sys2Proof.Machine

variable {a s t : State}

/-! ### Transactions -/

@[simp] theorem Keeps.send (h : Keeps a s) (n : Node) (x : Ask) : Keeps a (s.send n x) := by
  unfold State.send
  dsimp only
  have k := h.modLine (fun l => { l with
    txn := s.line.txn + 1
    inFlight := some { node := n, ask := x, txn := s.line.txn, deadline := Config.answerMs
                       frame := sectionFrameBytes (BitVec.ofNat 8 (nodeAddress n)) (BitVec.ofNat 8 (askKind x)) s.line.txn
                         (askPayload n x) } }) (Nat.le_max_right _ _)
  split
  · exact k.modNode n _
  · exact k

@[simp] theorem Keeps.nextTransaction (h : Keeps a s) : Keeps a s.nextTransaction := by
  unfold State.nextTransaction
  split
  · exact (h.modLine _ (Nat.le_max_right _ _)).send _ _
  · exact (h.modLine _ (Nat.le_max_right _ _)).send _ _
  · split
    · exact (h.send _ _).modLine _ (Nat.le_max_right _ _)
    · exact h

@[simp] theorem Keeps.endTransaction (h : Keeps a s) : Keeps a s.endTransaction := h.modLine _ (Nat.le_max_right _ _)

/-! ### Splices -/

@[simp] theorem Keeps.fireAck (h : Keeps a s) (i : Stand) : Keeps a (s.fireAck i) := by
  unfold State.fireAck
  dsimp only
  split
  · exact (((h.spendAir i).modPlan i _ id).place _).syncSplice
  · exact h

@[simp] theorem Keeps.fireUnanswered (h : Keeps a s) (i : Stand) : Keeps a (s.fireUnanswered i) := by
  unfold State.fireUnanswered
  split
  · exact ((h.spendAir i).place _).leaveFiring i
  · exact h

@[simp] theorem Keeps.spliceDone (h : Keeps a s) (i : Stand) : Keeps a (s.spliceDone i) := by
  unfold State.spliceDone
  dsimp only
  split
  · exact ((h.modStand i _).place _).leaveFiring i
  · exact h

@[simp] theorem Keeps.spliceFails (h : Keeps a s) (i : Stand) (r : FailReason) : Keeps a (s.spliceFails i r) := by
  unfold State.spliceFails
  dsimp only
  split
  · exact (((h.latch _ _).reportCause _).place _).leaveFiring i
  · exact h

/-! ### Stations -/

@[simp] theorem Keeps.setDone (h : Keeps a s) (x : Station) : Keeps a (s.setDone x) := by
  unfold State.setDone
  dsimp only
  split
  · exact ((h.modStation x _).place _).settleStations.recheck
  · exact h

@[simp] theorem Keeps.setFails (h : Keeps a s) (x : Station) (o : SetOutcome) : Keeps a (s.setFails x o) := by
  unfold State.setFails
  split
  · exact (((h.faultStation x).latch _ _).place _).syncSetWait
  · exact h

@[simp] theorem Keeps.engageDone (h : Keeps a s) (x : Station) : Keeps a (s.engageDone x) := by
  unfold State.engageDone
  dsimp only
  split
  · have k : Keeps a (s.parkOutgoing x) := by
      unfold State.parkOutgoing
      dsimp only
      split
      · exact h.modStation _ _
      · exact h
    exact ((k.modStation x _).place _).checkStations
  · exact h

@[simp] theorem Keeps.engageFails (h : Keeps a s) (x : Station) (o : SetOutcome) : Keeps a (s.engageFails x o) := by
  unfold State.engageFails
  dsimp only
  split
  · exact ((((h.faultStation x).latch _ _).place _).syncSetWait).reportCause _
  · exact h

/-! ### What answers carry -/

@[simp] theorem Keeps.nodeOnline (h : Keeps a s) (n : Node) : Keeps a (s.nodeOnline n) := by
  unfold State.nodeOnline
  dsimp only
  have k := ((h.setService n .online).modNode n fun r => { r with missed := 0 }).withdrawInit n
  cases n with
  | stand i => exact k.pass.settleSplice.recheck
  | conditioning => exact k.placeSetpoints.releaseSection.recheck
  | station x => exact k.checkStations.recheck
  | stacker => exact k.releaseSection.recheck

@[simp] theorem Keeps.takeInit (h : Keeps a s) (n : Node) (b : InitBody) : Keeps a (s.takeInit n b) := by
  unfold State.takeInit
  split
  · exact (h.initArms _ _).nodeOnline _
  · exact h.nodeOnline _
  · exact Keeps.nodeOnline (by unfold State.stationFromInit; exact h.modStation _ _) _
  · exact ((h.loseStacker .offline).modRouter _).nodeOnline _
  · exact h.latch _ _

theorem Keeps.handResult (h : Keeps a s) (n : Node) (r : Option NodeResult) (f : Bool → State → State)
    (hf : ∀ b t, Keeps a t → Keeps a (f b t)) : Keeps a (s.handResult n r f) := by
  unfold State.handResult
  repeat' split
  · exact hf _ _ (h.modNode n _)
  · exact h
  · exact h

@[simp] theorem Keeps.takePoll (h : Keeps a s) (n : Node) (b : PollBody) : Keeps a (s.takePoll n b) := by
  unfold State.takePoll
  split
  · refine (h.standReport _ _ _).handResult _ _ _ fun b t k => ?_
    split
    · exact k.spliceDone _
    · exact k.spliceFails _ _
  · exact h.temperatureReport _
  · refine h.handResult _ _ _ fun b t k => ?_
    unfold State.stationResult
    repeat' split
    all_goals first
      | exact k.setDone _
      | exact k.setFails _ _
      | exact k.engageDone _
      | exact k.engageFails _ _
      | exact k
  · refine Keeps.handResult (h.modLine _ ?_) _ _ _ fun b t k => ?_
    · refine Nat.le_trans ?_ (Nat.le_max_right _ _)
      unfold acceptRoutes
      split
      · simp only [List.length_drop]
        have : ∀ p : Route → Bool, (s.line.routes.dropWhile p).length ≤ s.line.routes.length := fun p => by
          have := congrArg List.length (List.takeWhile_append_dropWhile (p := p) (l := s.line.routes))
          simp only [List.length_append] at this
          omega
        exact Nat.le_trans (Nat.sub_le _ _) (this _)
      · exact Nat.le_refl _
    · split
      · exact k.changeDone
      · exact k.changeFailed
  · exact h

@[simp] theorem Keeps.takeCommandAnswer (h : Keeps a s) (n : Node) (x : Ask) : Keeps a (s.takeCommandAnswer n x) := by
  unfold State.takeCommandAnswer
  split
  · exact h.fireAck _
  · split
    · exact h.modStation _ _
    · exact h
  · split
    · exact h.modStation _ _
    · exact h
  · split
    · exact h.modRouter _
    · exact h
  · exact h

@[simp] theorem Keeps.missPoll (h : Keeps a s) (n : Node) : Keeps a (s.missPoll n) := by
  unfold State.missPoll
  dsimp only
  split
  · exact (h.modNode n _).latch _ _
  · exact h.modNode n _

@[simp] theorem Keeps.missed (h : Keeps a s) (f : InFlight) : Keeps a (s.missed f) := by
  unfold State.missed
  dsimp only
  have k := h.endTransaction
  have m : Keeps a (if s.endTransaction.misses f.node = true then s.endTransaction.latch f.node .noAnswer else s.endTransaction) := by
    split
    · exact k.latch _ _
    · exact k
  split
  · split
    · exact k.missPoll _
    · exact k
  · split
    · exact m.fireUnanswered _
    · exact m

@[simp] theorem Keeps.handOn (h : Keeps a s) (f : InFlight) (c : Content) : Keeps a (s.handOn f c) := by
  unfold State.handOn
  dsimp only
  have k := h.takeCommandAnswer f.node f.ask
  repeat' split
  · exact h.latch _ _
  · exact h.takeInit _ _
  · exact h.latch _ _
  · exact h.takePoll _ _
  · exact h
  · exact k.latch _ _
  · exact k

@[simp] theorem Keeps.taken (h : Keeps a s) (f : InFlight) (c : Content) : Keeps a (s.taken f c) := by
  unfold State.taken
  dsimp only
  have k := h.endTransaction.modNode f.node fun r => { r with missed := 0 }
  split
  · exact k.handOn _ _
  · split
    · exact k.latch _ _
    · exact k

/-- Whatever frame arrives on the section line. -/
@[simp] theorem Keeps.frameArrives (h : Keeps a s) (k : Byte) (x : Answer) : Keeps a (s.frameArrives k x) := by
  unfold State.frameArrives
  repeat' split
  · exact h
  · exact h
  · exact h.missed _
  · exact h.taken _ _
  · exact h.missed _

end Sys2Proof.Machine
end

