-- ==== Sys2Proof/Laws/KeepsSteps.lean ====
section
/-! SUPPORT. What the lemmas `Keeps` of the other files come to for whole commands. `Lawful a s` says that `s` keeps every law of Safety.lean
that `a` has; here are the operations outside `Keeps`: the resets, the receiver, taking a request, the store and WRITE PROFILE ITEM. -/

namespace Sys2Proof.Machine
variable {a s t : State}

/-- Every law that the first state has, the second has. -/
structure Lawful (a s : State) : Prop where
  bounded   : a.Bounded → s.Bounded
  holds     : a.HoldsAgree → s.HoldsAgree
  firing    : a.OneFiring → s.OneFiring
  reference : a.ReferenceSafe → s.ReferenceSafe
  zones     : a.ZonesSized → a.QueueEndStands → s.ZonesSized
  queueEnd  : a.ZonesSized → a.QueueEndStands → s.QueueEndStands

theorem Keeps.lawful (h : Keeps a s) : Lawful a s := ⟨h.bounded, h.holds, h.firing, h.reference, fun x _ => h.zones x, fun _ => h.queueEnd⟩
theorem Lawful.refl (s : State) : Lawful s s := (Keeps.refl s).lawful
theorem Lawful.trans {u} (h : Lawful a s) (k : Lawful s u) : Lawful a u :=
  ⟨k.1 ∘ h.1, k.2 ∘ h.2, k.3 ∘ h.3, k.4 ∘ h.4, fun x y => k.5 (h.5 x y) (h.6 x y), fun x y => k.6 (h.5 x y) (h.6 x y)⟩

theorem Lawful.alike (hr : t.pins.resetLow = s.pins.resetLow) (hv : t.profile.vMax = s.profile.vMax ∨ s.sup.line.atRest = true)
    (hs : t.sup.lawful = s.sup.lawful)
    (hf : ∀ i, (t.plan i).state = (s.plan i).state) (hm : t.map = s.map)
    (hb : s.Bounded → t.Bounded) : Lawful s t := by
  simp only [Supervisor.lawful, Prod.mk.injEq] at hs
  obtain ⟨h1, h2, h3, h4, h5, h6, h7, h8⟩ := hs
  refine ⟨hb, fun x => ?_, fun x => ?_, fun x => ?_, fun x _ => ?_, fun _ x => ?_⟩
  · obtain ⟨q1, q2, q3, q4, q5, q6, q7⟩ := x
    constructor <;> simp_all [State.HeldInStartUp]
  · intro i j; rw [hf, hf]; exact x i j
  · obtain ⟨q1, q2, q3, q4⟩ := x
    constructor
    · simp_all [State.HeldInStartUp]
    · rw [h5]; rcases hv with e | e
      · rw [e]; exact q2
      · rw [q3 e]; exact Nat.zero_le _
    · simp_all
    · simp_all
  · obtain ⟨q1, q2, q3, q4⟩ := x
    constructor <;> simp_all [State.HeldInStartUp]
  · intro hq
    rw [h2] at hq
    obtain ⟨y, z⟩ := x hq
    refine ⟨by rw [hm]; exact y, by simpa [State.runOrHold, h1] using z⟩

theorem Lawful.modWeb (f) : Lawful s (s.modWeb f) := Lawful.alike rfl (.inl rfl) rfl (fun _ => rfl) rfl fun b => ⟨b.1,b.2,b.3,b.4,b.5⟩
theorem Lawful.withPending (l) : Lawful s (s.withPending l) := Lawful.alike rfl (.inl rfl) rfl (fun _ => rfl) rfl fun b => ⟨b.1,b.2,b.3,b.4,b.5⟩
theorem Lawful.modStore (f) : Lawful s (s.modStore f) := Lawful.alike rfl (.inl rfl) rfl (fun _ => rfl) rfl fun b => ⟨b.1,b.2,b.3,b.4,b.5⟩
theorem Lawful.modPins (f) (h : (f s.pins).resetLow = s.pins.resetLow) : Lawful s (s.modPins f) :=
  Lawful.alike h (.inl rfl) rfl (fun _ => rfl) rfl fun b => ⟨b.1,b.2,b.3,b.4,b.5⟩
theorem Lawful.modHost (f) (h1 : (f s.host).events.length ≤ max 128 s.host.events.length) (h2 : (f s.host).holding.length ≤ max 4 s.host.holding.length) :
    Lawful s (s.modHost f) := by
  refine Lawful.alike rfl (.inl rfl) rfl (fun _ => rfl) rfl fun b => ?_
  obtain ⟨b1,b2,b3,b4,b5⟩ := b
  exact ⟨by show (f s.host).events.length ≤ _; omega, by show (f s.host).holding.length ≤ _; omega,b3,b4,b5⟩

theorem Lawful.foldl {β} (f : State → β → State) (hf : ∀ s x, Lawful s (f s x)) (l : List β) (s) : Lawful s (l.foldl f s) := by
  induction l generalizing s with
  | nil => exact .refl s
  | cons x l ih => exact (hf s x).trans (ih _)

theorem Lawful.elapse (n) : Lawful s (s.elapse n) := by
  refine Lawful.alike rfl (.inl rfl) rfl (fun i => ?_) rfl fun b => ⟨b.1,b.2,b.3,b.4,b.5⟩
  cases i <;> rfl
theorem Lawful.tick : Lawful s s.tick := by
  unfold State.tick; split
  · exact Lawful.elapse 1 |>.trans (Lawful.modPins _ rfl)
  · exact .refl s

theorem Lawful.takeRequest (p r) (f : List Byte → State → Taken) (hf : ∀ p u, Lawful u (f p u).state) : Lawful s (s.takeRequest p r f) := by
  unfold State.takeRequest
  split
  · split
    · dsimp only
      refine (Lawful.modHost (s := s) _ (Nat.le_max_right _ _) (by simp only [List.length_drop]; omega)).trans ((hf _ _).trans (Lawful.modHost _ (Nat.le_max_right _ _) (Nat.le_max_right _ _)))
    · exact .refl s
  · exact .refl s

theorem Lawful.ifLength (u : Taken) (b) (h : Lawful s u.state) : Lawful s (u.ifLength s b).state := by
  unfold Taken.ifLength; split
  · exact h
  · exact .refl s

theorem Lawful.acceptFrame (f) : Lawful s (s.acceptFrame f) := by
  unfold State.acceptFrame
  refine Lawful.trans (Lawful.modHost _ (Nat.le_max_right _ _) ?_) (Keeps.refl _).linkAlive.lawful
  dsimp only
  split
  · next c => simp [Config.holdingCapacity] at *; omega
  · omega
theorem Lawful.receiveByte (b) : Lawful s (s.receiveByte b) := by
  have g : ∀ s x, Lawful s (State.gather s x) := fun s x => Lawful.modHost _ (Nat.le_max_right _ _) (Nat.le_max_right _ _)
  unfold State.receiveByte State.hunt State.inFrame
  dsimp only
  repeat' split
  all_goals first
    | exact g _ _
    | exact (g _ _).trans (Lawful.acceptFrame _)

theorem Lawful.writeTripRecord : Lawful s s.writeTripRecord := (Keeps.refl s).writeTripRecord.lawful
theorem Lawful.writeDeferredTrip : Lawful s s.writeDeferredTrip := by
  unfold State.writeDeferredTrip; split
  · exact (Lawful.modStore _).trans Lawful.writeTripRecord
  · exact .refl s
theorem Lawful.endImageWrite (g) : Lawful s (s.endImageWrite g) := by
  unfold State.endImageWrite; split
  · exact (Lawful.modStore _).trans (((Keeps.refl _).place _).lawful.trans Lawful.writeDeferredTrip)
  · exact .refl s
theorem Lawful.endTripWrite : Lawful s s.endTripWrite := by
  unfold State.endTripWrite; split
  · dsimp only; split
    · exact (Lawful.modStore _).trans (Lawful.modStore _)
    · exact (Lawful.modStore _).trans Lawful.writeDeferredTrip
  · exact .refl s
theorem Lawful.startSave (o) : Lawful s (s.startSave o) := by
  unfold State.startSave; dsimp only; split <;> exact Lawful.modStore _

theorem State.resetPart_lawAbiding (c l) : (s.resetPart c l).Bounded ∧ (s.resetPart c l).HoldsAgree ∧ (s.resetPart c l).OneFiring
  ∧ (s.resetPart c l).ReferenceSafe ∧ (s.resetPart c l).ZonesSized ∧ (s.resetPart c l).QueueEndStands := by
  have n : ∀ i, ((s.resetPart c l).plan i).state ≠ .firing := by intro i; cases i <;> (simp [State.plan, State.resetPart, State.reset, Splicer.reset, PerStand.same, PerStand.get, Plan.reset])
  refine ⟨⟨Nat.zero_le _, Nat.zero_le _, Nat.zero_le _, Nat.zero_le _, Nat.zero_le _⟩, ⟨fun _ => rfl, fun _ => rfl, fun p => (nomatch (show LineState.startUp = .hold from p)), fun _ _ => rfl, rfl, rfl, rfl⟩, fun i _ p => absurd p (n i), ⟨fun _ => rfl, Nat.zero_le _, fun _ => rfl, fun _ _ => rfl⟩,
   ⟨fun _ => rfl, Nat.zero_le _, fun _ => ⟨rfl, rfl⟩, fun p => (nomatch (show false = true from p))⟩, fun p => (nomatch (show false = true from p))⟩

theorem SameLine.setService (s : State) (n : Node) (x) : SameLine s (s.setService n x) := by
  unfold State.setService; dsimp only; split
  · exact .refl s
  · exact ⟨State.place_map _ _, congrArg Supervisor.line (State.place_sup _ _)⟩
theorem SameLine.queueCommand (s : State) (n : Node) (x) : SameLine s (s.queueCommand n x) := by
  unfold State.queueCommand; split <;> exact ⟨rfl, rfl⟩
theorem SameLine.loseRun (s : State) r : SameLine s (s.loseRun r) := by unfold State.loseRun; split <;> exact ⟨rfl, rfl⟩
theorem SameLine.loseStacker (s : State) x : SameLine s (s.loseStacker x) := by
  unfold State.loseStacker; dsimp only
  have : ∀ u : State, SameLine s u → SameLine s ((s.router.buffer.foldl State.loseRun u).modRouter fun r => { r with stacker := x, stack := none, buffer := [], reason := none, timer := none }) := fun u k => k.trans (SameLine.trans (SameLine.foldl _ SameLine.loseRun _ _) ⟨rfl, rfl⟩)
  repeat' split
  all_goals first
    | exact ⟨rfl,rfl⟩
    | exact this _ ⟨rfl, rfl⟩
theorem SameLine.initialise (s : State) n : SameLine s (s.initialise n) := by
  unfold State.initialise; dsimp only
  have k := ((SameLine.setService s n .initialising).trans (t := s.setService n .initialising) ⟨rfl, rfl⟩ : SameLine s ((s.setService n .initialising).modNode n fun r => { r with missed := 0 })).trans (SameLine.queueCommand _ n .init)
  split
  · exact k.trans (SameLine.loseStacker _ _)
  · exact k

theorem Keeps.bringUp (n : Node) (h : Keeps a s) : Keeps a (s.bringUp n) := by
  unfold State.bringUp; split
  · exact h
  · exact h.initialise n
theorem SameLine.bringUp (s : State) (n : Node) : SameLine s (s.bringUp n) := by
  unfold State.bringUp; split
  · exact .refl s
  · exact SameLine.initialise s n

/-- Every law of Safety.lean but the one on the remainder. -/
def LawAbiding (s : State) : Prop := s.Bounded ∧ s.HoldsAgree ∧ s.OneFiring ∧ s.ReferenceSafe ∧ s.ZonesSized ∧ s.QueueEndStands
theorem Lawful.lawAbiding (h : Lawful a s) (x : LawAbiding a) : LawAbiding s := ⟨h.1 x.1, h.2 x.2.1, h.3 x.2.2.1, h.4 x.2.2.2.1, h.5 x.2.2.2.2.1 x.2.2.2.2.2, h.6 x.2.2.2.2.1 x.2.2.2.2.2⟩


theorem Lawful.loadStore (h : s.sup.line = .startUp) : Lawful s s.loadStore := by
  unfold State.loadStore
  split
  · refine Lawful.alike rfl (.inr ?_) rfl (fun i => rfl) rfl fun b => ⟨b.1,b.2,b.3,b.4,b.5⟩; rw [h]; rfl
  · refine Lawful.alike rfl (.inr ?_) rfl (fun i => rfl) rfl fun b => ⟨b.1,b.2,b.3,b.4,b.5⟩; rw [h]; rfl

theorem SameLine.loadStore (s : State) : SameLine s s.loadStore := by unfold State.loadStore; split <;> exact ⟨rfl, rfl⟩
theorem State.loadStore_resetLow (s : State) : s.loadStore.pins.resetLow = s.pins.resetLow := by unfold State.loadStore; split <;> rfl
/-- The first part of a start: the load, and the nodes placed by the mask. -/
def State.loadedAndPlaced (s : State) := s.loadStore.placeNodes.modPins fun p => { p with loaded := true }
/-- The second part: PART_STARTED placed and every configured node initialised. -/
def State.broughtUp (s1 : State) : State := allNodes.foldl State.bringUp (s1.place (.partStarted s1.host.cause s1.store.checkPassed s1.store.valid s1.store.frozen))
theorem State.broughtUp_keeps (s1) : Keeps s1 (State.broughtUp s1) := Keeps.foldl _ (fun _ n k => Keeps.bringUp n k) allNodes ((Keeps.refl s1).place _)
theorem State.broughtUp_sameLine (s1) : SameLine s1 (State.broughtUp s1) := SameLine.trans (s := s1) (t := s1.place (.partStarted s1.host.cause s1.store.checkPassed s1.store.valid s1.store.frozen)) ⟨State.place_map _ _, congrArg Supervisor.line (State.place_sup _ _)⟩ (SameLine.foldl _ SameLine.bringUp allNodes _)
theorem State.startUp_eq (s : State) : s.startUp = (State.broughtUp (State.loadedAndPlaced s)).goTo (if (State.broughtUp (State.loadedAndPlaced s)).sup.lockFlag then .lockout else .standby) := by
  unfold State.startUp State.broughtUp State.loadedAndPlaced
  rfl
theorem State.goTo_sizes (s : State) (l) : (s.Bounded → (s.goTo l).Bounded) ∧ (s.OneFiring → (s.goTo l).OneFiring) := by
  unfold State.goTo
  exact ⟨fun b => ((Keeps.refl _).placeLineState _).bounded ⟨b.1,b.2,b.3,b.4,b.5⟩, fun b => ((Keeps.refl _).placeLineState _).firing b⟩
theorem State.loadedAndPlaced_sizes (s : State) : (s.Bounded → (State.loadedAndPlaced s).Bounded) ∧ (s.OneFiring → (State.loadedAndPlaced s).OneFiring) := by
  unfold State.loadedAndPlaced State.loadStore
  split <;> exact ⟨fun b => ⟨b.1,b.2,b.3,b.4,b.5⟩, fun b => b⟩
theorem State.startUp_sizes (s : State) : (s.Bounded → s.startUp.Bounded) ∧ (s.OneFiring → s.startUp.OneFiring) := by
  rw [State.startUp_eq]
  exact ⟨fun b => (State.goTo_sizes _ _).1 ((State.broughtUp_keeps _).bounded ((State.loadedAndPlaced_sizes s).1 b)), fun b => (State.goTo_sizes _ _).2 ((State.broughtUp_keeps _).firing ((State.loadedAndPlaced_sizes s).2 b))⟩
theorem Lawful.startUp (hl : s.pins.resetLow = false) (hs : s.sup.line = .startUp) : Lawful s s.startUp := by
  have e1 : Lawful s (State.loadedAndPlaced s) :=
    (Lawful.loadStore hs).trans (Lawful.trans (s := s.loadStore.placeNodes) (Lawful.alike rfl (.inl rfl) rfl (fun i => rfl) rfl fun b => ⟨b.1,b.2,b.3,b.4,b.5⟩) (Lawful.modPins _ rfl))
  have l1 : SameLine s (State.loadedAndPlaced s) := (SameLine.loadStore s).trans ⟨rfl, rfl⟩
  have r1 : (State.loadedAndPlaced s).pins.resetLow = false := (show s.loadStore.pins.resetLow = _ from (State.loadStore_resetLow s).trans hl)
  have k := State.broughtUp_keeps (State.loadedAndPlaced s)
  have l := State.broughtUp_sameLine (State.loadedAndPlaced s)
  have big : Lawful (State.broughtUp (State.loadedAndPlaced s)) ((State.broughtUp (State.loadedAndPlaced s)).goTo (if (State.broughtUp (State.loadedAndPlaced s)).sup.lockFlag then .lockout else .standby)) := by
    generalize State.broughtUp (State.loadedAndPlaced s) = s3 at *
    have r3 : s3.pins.resetLow = false := (congrArg Core.resetLow k.core).trans r1
    have line : s3.sup.line = .startUp := (l1.trans l).2.trans hs
    unfold State.goTo
    refine Lawful.trans ?_ ((Keeps.refl _).placeLineState _).lawful
    generalize hg : (if s3.sup.lockFlag = true then LineState.lockout else .standby) = g
    have hg' : g = .lockout ∨ g = .standby := by rw [← hg]; split <;> simp
    refine ⟨fun b => ⟨b.1,b.2,b.3,b.4,b.5⟩, fun h => ?_, fun f => f, fun r => ⟨?_, r.2, ?_, ?_⟩, fun z _ => ⟨?_, z.2, ?_, z.4⟩, fun _ q => ?_⟩
    · have ho : s3.sup.holds = .empty := h.other (by simp [line]) (by simp [line])
      refine ⟨?_, ?_, ?_, fun _ _ => ho, h.5, h.6, h.7⟩
      · intro p; exact absurd (show s3.pins.resetLow = true from p) (by simp [r3])
      · intro p; rcases hg' with e | e <;> (rw [e] at p; simp at p)
      · intro p; rcases hg' with e | e <;> (rw [e] at p; simp at p)
    · intro p; exact absurd (show s3.pins.resetLow = true from p) (by simp [r3])
    · exact fun _ => r.rest (by simp [line, LineState.atRest])
    · exact fun _ _ => r.rest (by simp [line, LineState.atRest])
    · intro p; exact absurd (show s3.pins.resetLow = true from p) (by simp [r3])
    · intro _; exact z.standing (.inl line)
    · intro p
      have := (q p).2
      simp [State.runOrHold, line] at this
  rw [State.startUp_eq]
  exact (e1.trans k.lawful).trans big

theorem State.resetPart_startUp_lawAbiding (c) : LawAbiding (s.resetPart c false).startUp := (Lawful.startUp rfl rfl).lawAbiding (State.resetPart_lawAbiding c false)

theorem LawAbiding.lawful (h : LawAbiding t) : Lawful s t := ⟨fun _ => h.1, fun _ => h.2.1, fun _ => h.2.2.1, fun _ => h.2.2.2.1, fun _ _ => h.2.2.2.2.1, fun _ _ => h.2.2.2.2.2⟩


theorem Lawful.resumeWith (o : Order) (q : ¬ s.QueueEndStands) (hh : s.sup.holds.queueEnd = true) : Lawful s (s.resumeWith o) := by
  have k := (Keeps.refl s).clearResumed
  have hh' : s.clearResumed.sup.holds.queueEnd = true := by
    unfold State.clearResumed State.setHolds; split
    · exact hh
    · unfold State.placeLineState; rw [State.place_sup]; exact hh
  have k0 : Keeps s.clearResumed.offMap s.clearResumed.unbounded := by
      refine ⟨rfl, fun b => ⟨b.1, b.2, b.3, b.4, b.5⟩, fun q => ⟨q.1, q.2, q.3, q.4, q.5, q.6, q.7⟩, id,
        fun q => ⟨q.1, q.2, q.3, q.4⟩, fun x => absurd x (State.offMap_not_sized _), fun x p => ?_⟩
      have := (x p).1
      simp [State.offMap, WebMap.reset] at this
  have kk := ((k0.scheduleBehindRunout o fun x => absurd x (State.offMap_not_sized _)).clearHold .queueEnd (.inr rfl)).afterScheduling
  exact ⟨fun b => kk.bounded ⟨(k.bounded b).1, (k.bounded b).2, (k.bounded b).3, (k.bounded b).4, (k.bounded b).5⟩,
   fun x => kk.holds ⟨(k.holds x).1, (k.holds x).2, (k.holds x).3, (k.holds x).4, (k.holds x).5, (k.holds x).6, (k.holds x).7⟩, fun f => kk.firing (k.firing f),
   fun x => kk.reference ⟨(k.reference x).1, (k.reference x).2, (k.reference x).3, (k.reference x).4⟩, fun _ x => absurd x q, fun _ x => absurd x q⟩

theorem Lawful.writeItem (u : State) (n x : Nat) : Lawful u (u.writeItem n x).state := by
  unfold State.writeItem
  dsimp only
  repeat' split
  · exact .refl _
  · exact .refl _
  · exact .refl _
  · exact .refl _
  · exact .refl _
  · next c _ _ _ =>
    have hl : u.sup.line = .standby ∨ u.sup.line = .tripped ∨ u.sup.line = .lockout := by
      by_cases e : (u.sup.line = .standby ∨ u.sup.line = .tripped ∨ u.sup.line = .lockout)
      · exact e
      · exact absurd e c
    have w : Lawful u (u.withProfile (u.profile.write n x)) :=
      Lawful.alike rfl (.inr (by rcases hl with e | e | e <;> rw [e] <;> rfl)) rfl (fun _ => rfl) rfl fun b => ⟨b.1,b.2,b.3,b.4,b.5⟩
    refine w.trans ?_
    generalize u.withProfile (u.profile.write n x) = v
    generalize u.profile = q
    show Lawful v (v.afterWrite q n)
    have kk := Keeps.refl v
    unfold State.afterWrite
    repeat' split
    · refine (kk.eachStand _ fun i t h => ?_).lawful
      unfold State.remaskStand State.removeStand
      dsimp only
      repeat' split
      · exact h
      · exact (h.modStand _ _).initialise _
      · exact ((h.modStand _ _).leaveService _ _).modNode _ _
    · exact kk.applyGlue.lawful
    · exact kk.gateDecisions.sweepMarks.lawful
    · exact kk.clampAndCheck.lawful
    · exact Lawful.modWeb _
    · exact kk.recomputeHeat.lawful
    · exact kk.recomputeHeat.lawful
    · exact kk.recomputeHeat.lawful
    · exact kk.lockOnLimit.lawful
    · exact .refl _

end Sys2Proof.Machine
end

