-- ==== Sys2Proof/Laws/Stations.lean ====
section
/-! SUPPORT. What the checks on the stations come to: `State.settleStations_spec` says all that follows a change of the
swap list (R29, R135, R137, R139). -/

namespace Sys2Proof.Machine

variable (s : State)

@[simp] theorem State.queueCommand_cut (n : Node) (x : Ask) : (s.queueCommand n x).cut = s.cut := (s.queueCommand_only n x).cut
@[simp] theorem State.queueCommand_station (n : Node) (x : Ask) (y : Station) : (s.queueCommand n x).station y = s.station y := by
  simp [State.station]

/-- Queueing a command changes no node's service. -/
@[simp] theorem State.queueCommand_online (n m : Node) (x : Ask) : (s.queueCommand n x).online m = s.online m := by
  unfold State.queueCommand State.online State.node
  cases x <;> simp [Ask.resulting] <;> split <;> simp_all

theorem State.queueCommand_normal (n : Node) (x : Ask) (hx : x ≠ .fire) (hy : x ≠ .engage) :
    (s.queueCommand n x).line.normal = s.line.normal ++ [⟨n, x⟩] := by
  unfold State.queueCommand
  cases x <;> simp_all [Ask.resulting]

theorem State.queueCommand_urgent_normal (n : Node) : (s.queueCommand n .engage).line.normal = s.line.normal := by
  unfold State.queueCommand; simp [Ask.resulting]

@[simp] theorem State.queueCommand_web (n : Node) (x : Ask) : (s.queueCommand n x).web = s.web := (s.queueCommand_only n x).web

/-- Withdrawing an INIT leaves every node's record. -/
@[simp] theorem State.withdrawInit_node (n m : Node) : (s.withdrawInit n).node m = s.node m := rfl

/-- After a withdrawal no INIT is queued for the node. -/
theorem State.withdrawInit_gone (n : Node) : ⟨n, .init⟩ ∉ (s.withdrawInit n).line.normal := by
  simp [State.withdrawInit, State.modLine]

/-- A withdrawal leaves every other queued command, in its order. -/
theorem State.mem_withdrawInit (n : Node) (c : Command) (hc : c ≠ ⟨n, .init⟩) :
    c ∈ (s.withdrawInit n).line.normal ↔ c ∈ s.line.normal := by
  simp [State.withdrawInit, State.modLine, hc]

/-- What the checks of R135 and R137 come to for one station. -/
theorem State.examine_spec (x : Station) :
    let need := (s.firstEntry x).map (·.tools)
    let r := s.station x
    let t := s.examine x
    t.cut.swaps = s.cut.swaps ∧ (∀ y, y ≠ x → t.station y = s.station y) ∧ (∀ m, t.online m = s.online m) ∧
    t.line.urgent = s.line.urgent ∧
    ((r.state = .parked ∧ need.isSome ∧ r.retained = need → t.station x = { r with state := .set } ∧ t.line.normal = s.line.normal)) ∧
    (∀ u, need = some u → s.online (.station x) = true → (r.state = .parked ∨ r.state = .set) → r.retained ≠ some u →
      t.station x = { r with state := .setting, retained := some u, timer := none } ∧
      t.line.normal = s.line.normal ++ [⟨.station x, .set u⟩]) ∧
    (¬ (r.state = .parked ∧ need.isSome ∧ r.retained = need) →
      (∀ u, need = some u → ¬ (s.online (.station x) = true ∧ (r.state = .parked ∨ r.state = .set) ∧ r.retained ≠ some u)) →
      t.station x = r ∧ t.line.normal = s.line.normal) := by
  intro need r t
  cases hf : s.firstEntry x with
  | none =>
    have : t = s := by show s.examine x = s; simp [State.examine, State.matches, State.issueSet, hf]
    rw [this]; simp [need, hf]; simp [r]
  | some e =>
    by_cases hm : r.state = .parked ∧ r.retained = some e.tools
    · have : t = s.modStation x fun r => { r with state := .set } := by
        show s.examine x = _; simp [State.examine, State.matches, hf]; simp [r] at hm; simp [hm]
      rw [this]
      refine ⟨rfl, fun y hy => by simp [hy], fun m => rfl, rfl, fun _ => ⟨by simp [r], rfl⟩, ?_, fun h => ?_⟩
      · intro u hu; simp [need, hf] at hu; subst hu; intro _ _ h; exact absurd hm.2 h
      · exact absurd ⟨hm.1, by simp [need, hf], by simp [need, hf, hm.2]⟩ h
    · have hx : t = s.issueSet x := by
        show s.examine x = _
        simp only [State.examine, State.matches, hf]
        rw [if_neg]; simpa [r] using hm
      by_cases hi : s.online (.station x) = true ∧ (r.state = .parked ∨ r.state = .set) ∧ r.retained ≠ some e.tools
      · have : t = (s.modStation x fun r => { r with state := .setting, retained := some e.tools, timer := none }).queueCommand
            (.station x) (.set e.tools) := by
          rw [hx]; simp only [State.issueSet, hf]; rw [if_pos hi]
        rw [this]
        refine ⟨by simp, fun y hy => by simp [hy], fun m => by simp; rfl, ?_, fun h => ?_, ?_, fun _ h => ?_⟩
        · unfold State.queueCommand; simp [Ask.resulting]
        · exact absurd ⟨h.1, by simpa [need, hf] using h.2.2⟩ hm
        · intro u hu; simp [need, hf] at hu; subst hu; intro _ _ _
          refine ⟨by simp [r], ?_⟩
          rw [State.queueCommand_normal _ _ _ (by simp) (by simp)]; rfl
        · exact absurd hi (h _ (by simp [need, hf]))
      · have : t = s := by
          rw [hx]; simp only [State.issueSet, hf]; rw [if_neg hi]
        rw [this]
        refine ⟨rfl, fun _ _ => rfl, fun _ => rfl, rfl, fun h => ?_, ?_, fun _ _ => ⟨rfl, rfl⟩⟩
        · exact absurd ⟨h.1, by simpa [need, hf] using h.2.2⟩ hm
        · intro u hu; simp [need, hf] at hu; subst hu; intro h1 h2 h3; exact absurd ⟨h1, h2, h3⟩ hi

/-- What taking one swap does (R139). -/
theorem State.takeSwap_facts (e : SwapEntry) :
    (s.takeSwap e).cut.swaps = s.cut.swaps.drop 1 ∧ (∀ y, y ≠ e.incoming → (s.takeSwap e).station y = s.station y) ∧
    ((s.takeSwap e).station e.incoming).state = .swapping ∧ (s.takeSwap e).line.normal = s.line.normal ∧
    (s.takeSwap e).line.urgent = s.line.urgent ++ [⟨.station e.incoming, .engage⟩] ∧ (∀ m, (s.takeSwap e).online m = s.online m) := by
  unfold State.takeSwap
  refine ⟨by simp, ?_, ?_, ?_, ?_, ?_⟩
  · intro y hy; simp; simp [State.station, State.modStation,
      State.modCut]; cases y <;> cases h : e.incoming <;> simp_all [PerStation.get]
  · simp; simp [State.station, State.modStation, State.modCut]
  · rw [State.queueCommand_urgent_normal]; rfl
  · unfold State.queueCommand; simp [Ask.resulting]
  · intro m; simp; rfl

/-- What taking the due swaps does (R139). -/
structure Swapped (v t : State) : Prop where
  taken : ∃ l, v.cut.swaps = l ++ t.cut.swaps ∧ ∀ e ∈ l, e.point ≤ v.web.w ∧ (t.station e.incoming).state = .swapping ∧
    ⟨.station e.incoming, .engage⟩ ∈ t.line.urgent
  waiting : ∀ e l, t.cut.swaps = e :: l → ¬ (e.point ≤ v.web.w ∧ t.swapReady e = true)
  keep : ∀ x, (v.station x).state ≠ .set → t.station x = v.station x
  same : t.cut.swaps = v.cut.swaps → ∀ x, t.station x = v.station x
  normal : t.line.normal = v.line.normal
  urgent : ∀ c ∈ v.line.urgent, c ∈ t.line.urgent
  online : ∀ m, t.online m = v.online m
  web : t.web = v.web

theorem State.takeSwaps_spec (n : Nat) (v : State) (hn : v.cut.swaps.length ≤ n) : Swapped v (State.takeSwaps n v) := by
  induction n generalizing v with
  | zero =>
    have : v.cut.swaps = [] := List.length_eq_zero_iff.mp (Nat.le_zero.mp hn)
    exact ⟨⟨[], rfl, by simp⟩, by simp [State.takeSwaps, this], fun _ _ => rfl, fun _ _ => rfl, rfl, fun _ h => h, fun _ => rfl, rfl⟩
  | succ n ih =>
    have base : (∀ e l, v.cut.swaps = e :: l → ¬ (e.point ≤ v.web.w ∧ v.swapReady e = true)) → Swapped v v := fun h =>
      ⟨⟨[], rfl, by simp⟩, h, fun _ _ => rfl, fun _ _ => rfl, rfl, fun _ h => h, fun _ => rfl, rfl⟩
    unfold State.takeSwaps
    cases hs : v.cut.swaps with
    | nil => exact base (by simp [hs])
    | cons e l =>
      simp only []
      split
      · next h =>
        obtain ⟨f1, f2, f3, f4, f5, f6⟩ := v.takeSwap_facts e
        have wb : (v.takeSwap e).web = v.web := (v.takeSwap_only e).web
        have hl : (v.takeSwap e).cut.swaps.length ≤ n := by rw [f1, hs]; rw [hs] at hn; simpa using hn
        have k := ih (v.takeSwap e) hl
        have rdy := h.2
        simp [State.swapReady] at rdy
        have f1' : (v.takeSwap e).cut.swaps = l := by rw [f1, hs]; rfl
        refine ⟨?_, ?_, ?_, ?_, k.normal.trans f4, ?_, fun m => (k.online m).trans (f6 m), k.web.trans wb⟩
        · obtain ⟨m, hm, hm'⟩ := k.taken
          refine ⟨e :: m, ?_, ?_⟩
          · rw [hs, List.cons_append, ← hm, f1']
          · intro x hx
            rcases List.mem_cons.mp hx with rfl | hx
            · refine ⟨h.1, ?_, k.urgent _ (by rw [f5]; simp)⟩
              rw [k.keep _ (by rw [f3]; simp), f3]
            · rw [wb] at hm'; exact hm' x hx
        · intro x y hxy; have := k.waiting x y hxy; rwa [wb] at this
        · intro x hx
          have : x ≠ e.incoming := by rintro rfl; exact hx rdy.1.1
          rw [k.keep x (by rw [f2 x this]; exact hx), f2 x this]
        · intro h'
          obtain ⟨m, hm, _⟩ := k.taken
          rw [f1', h', hs] at hm
          have := congrArg List.length hm; simp at this; omega
        · intro c hc; exact k.urgent c (by rw [f5]; simp [hc])
      · next h =>
        exact base (by intro x y hxy; rw [hs] at hxy; cases hxy; exact h)

theorem PerStation.get_mk (a b : Bool) (x : Station) (f : Station → Bool) (ha : a = f .a) (hb : b = f .b)
    : (PerStation.mk a b).get x = f x := by
  cases x <;> simp [PerStation.get, ha, hb]

theorem State.setHolds_setWait (h : Holds) : (s.setHolds h).sup.setWait = s.sup.setWait := by
  unfold State.setHolds; split <;> rfl
theorem State.putHold_setWait (r : HoldReason) (b : Bool) : (s.putHold r b).sup.setWait = s.sup.setWait := by
  unfold State.putHold State.raiseHold State.clearHold
  repeat' split
  all_goals first | rfl | exact s.setHolds_setWait _

/-- In Run or Hold the line state stays one of the two. -/
def Moving (s : State) : Prop := s.sup.line = .run ∨ s.sup.line = .hold
theorem moving_iff : s.runOrHold = true ↔ Moving s := by unfold State.runOrHold Moving; cases s.sup.line <;> simp

theorem lineFor_moving (l : LineState) (h : Holds) : (lineFor l h = .run ∨ lineFor l h = .hold) ↔ (l = .run ∨ l = .hold) := by
  cases l <;> simp [lineFor]
theorem State.setHolds_moving (h : Holds) : Moving (s.setHolds h) ↔ Moving s := by
  unfold State.setHolds Moving; split
  · rfl
  · exact lineFor_moving _ _
theorem State.putHold_moving (r : HoldReason) (b : Bool) : Moving (s.putHold r b) ↔ Moving s := by
  unfold State.putHold State.raiseHold State.clearHold
  repeat' split
  all_goals first | rfl | exact s.setHolds_moving _

/-- A station holds SET_WAIT (R29, R139). -/
theorem State.setWaits_iff (x : Station) : s.setWaits x = true ↔ ∃ e ∈ s.cut.swaps, e.incoming = x ∧ e.lastCall = true ∧
    ¬ ((s.station x).state = .set ∧ (s.station x).retained = some e.tools ∧ s.online (.station x) = true) := by
  unfold State.setWaits
  rw [List.any_eq_true]
  refine exists_congr fun e => and_congr_right fun _ => ?_
  by_cases h : e.incoming = x
  · subst h
    unfold State.swapReady
    cases e.lastCall <;> cases s.online (.station e.incoming) <;> simp [Decidable.imp_iff_not_or]
  · simp [h]

/-- What the checks on both stations and the due swaps come to (R29, R135, R137, R139). -/
theorem State.settleStations_spec (s : State) : StationsSettled s s.settleStations s.cut.swaps := by
  have a := s.examine_spec .a
  have b := (s.examine .a).examine_spec .b
  dsimp only at a b
  obtain ⟨a1, a2, a3, a4, a5, a6, a7⟩ := a
  obtain ⟨b1, b2, b3, b4, b5, b6, b7⟩ := b
  have fe : (s.examine .a).firstEntry .b = s.firstEntry .b := by unfold State.firstEntry; rw [a1]
  have sb : (s.examine .a).station .b = s.station .b := a2 .b (by decide)
  rw [fe, sb] at b5 b6 b7
  simp only [a3] at b6 b7
  generalize hv : (s.examine .a).examine .b = v at *
  have va : v.station .a = (s.examine .a).station .a := b2 .a (by decide)
  have vsw : v.cut.swaps = s.cut.swaps := b1.trans a1
  have von : ∀ m, v.online m = s.online m := fun m => (b3 m).trans (a3 m)
  have k := State.takeSwaps_spec v.cut.swaps.length v (Nat.le_refl _)
  have vw : v.web = s.web := by rw [← hv]; exact (State.examine_only _ _).web.trans (State.examine_only _ _).web
  have vsup : v.sup = s.sup := by rw [← hv]; exact (State.examine_only _ _).sup.trans (State.examine_only _ _).sup
  have ht : s.settleStations = v.dueSwaps := by rw [← hv]; rfl
  have tcut : v.dueSwaps.cut = (State.takeSwaps v.cut.swaps.length v).cut := (State.syncSetWait_only _).cut
  have tline : v.dueSwaps.line = (State.takeSwaps v.cut.swaps.length v).line := (State.syncSetWait_only _).line
  have tst : ∀ x, v.dueSwaps.station x = (State.takeSwaps v.cut.swaps.length v).station x :=
      fun x => by unfold State.station; rw [tcut]
  have ton : ∀ m, v.dueSwaps.online m = (State.takeSwaps v.cut.swaps.length v).online m := fun m => by
    unfold State.online State.node; rw [tline]
  have tw : v.dueSwaps.web = (State.takeSwaps v.cut.swaps.length v).web := (State.syncSetWait_only _).web
  -- what v is
  have need : ∀ x, (s.firstEntry x).map (·.tools) = setNeeded s.cut.swaps x := fun x => rfl
  rw [need] at a5 a6 a7 b5 b6 b7
  have must : ∀ x u, s.MustSet s.cut.swaps x u →
      v.station x = { s.station x with state := .setting, retained := some u, timer := none } := by
    rintro x u ⟨h1, h2, h3, h4⟩
    cases x
    · rw [va]; exact (a6 u h1 h2 h3 h4).1
    · exact (b6 u h1 h2 h3 h4).1
  have hold : ∀ x, s.HoldsNeeded s.cut.swaps x → v.station x = { s.station x with state := .set } := by
    rintro x ⟨h1, h2, h3⟩
    cases x
    · rw [va]; exact (a5 ⟨h1, by rw [h3]; exact h2, h3.symm⟩).1
    · exact (b5 ⟨h1, by rw [h3]; exact h2, h3.symm⟩).1
  have hn : ∀ x, ¬ s.HoldsNeeded s.cut.swaps x → ¬ ((s.station x).state = .parked ∧ (setNeeded s.cut.swaps x).isSome ∧
      (s.station x).retained = setNeeded s.cut.swaps x) := by
    rintro x h ⟨h1, h2, h3⟩; exact h ⟨h1, by rw [h3]; exact h2, h3.symm⟩
  have mn : ∀ x, (∀ u, ¬ s.MustSet s.cut.swaps x u) → ∀ u, setNeeded s.cut.swaps x = some u →
      ¬ (s.online (.station x) = true ∧ ((s.station x).state = .parked ∨ (s.station x).state = .set) ∧
          (s.station x).retained ≠ some u) := by
    rintro x h u h1 ⟨h2, h3, h4⟩; exact h u ⟨h1, h2, h3, h4⟩
  have oth : ∀ x, ¬ s.HoldsNeeded s.cut.swaps x → (∀ u, ¬ s.MustSet s.cut.swaps x u) → v.station x = s.station x := by
    intro x h1 h2
    cases x
    · rw [va]; exact (a7 (hn _ h1) (mn _ h2)).1
    · exact (b7 (hn _ h1) (mn _ h2)).1
  have uniq : ∀ x u u', s.MustSet s.cut.swaps x u → s.MustSet s.cut.swaps x u' → u = u' := by
    rintro x u u' ⟨h, _⟩ ⟨h', _⟩; rw [h] at h'; exact Option.some.inj h'
  have nhm : ∀ x u, s.MustSet s.cut.swaps x u → ¬ s.HoldsNeeded s.cut.swaps x := by
    rintro x u ⟨h1, _, _, h4⟩ ⟨_, _, h3⟩; rw [h3] at h1; exact h4 h1
  have na : ∀ x u, ⟨.station x, .set u⟩ ∈ (s.examine .a).line.normal ↔ ⟨.station x, .set u⟩ ∈ s.line.normal ∨ (x = .a ∧
      s.MustSet s.cut.swaps x u) := by
    intro x u
    by_cases hm : ∃ u', s.MustSet s.cut.swaps .a u'
    · obtain ⟨u', h⟩ := hm
      have ⟨h1, h2, h3, h4⟩ := h
      rw [(a6 u' h1 h2 h3 h4).2]
      simp
      refine or_congr Iff.rfl ⟨?_, ?_⟩
      · rintro ⟨rfl, rfl⟩; exact ⟨rfl, h⟩
      · rintro ⟨rfl, h'⟩; exact ⟨rfl, uniq _ _ _ h' h⟩
    · have : (s.examine .a).line.normal = s.line.normal := by
        by_cases hh : s.HoldsNeeded s.cut.swaps .a
        · exact (a5 ⟨hh.1, by rw [hh.2.2]; exact hh.2.1, hh.2.2.symm⟩).2
        · exact (a7 (hn _ hh) (mn _ fun u h => hm ⟨u, h⟩)).2
      rw [this]
      refine ⟨.inl, ?_⟩
      rintro (h | ⟨rfl, h⟩)
      · exact h
      · exact absurd ⟨u, h⟩ hm
  have nb : ∀ x u, ⟨.station x, .set u⟩ ∈ v.line.normal ↔ ⟨.station x, .set u⟩ ∈ (s.examine .a).line.normal ∨ (x = .b ∧
      s.MustSet s.cut.swaps x u) := by
    intro x u
    by_cases hm : ∃ u', s.MustSet s.cut.swaps .b u'
    · obtain ⟨u', h⟩ := hm
      have ⟨h1, h2, h3, h4⟩ := h
      rw [(b6 u' h1 h2 h3 h4).2]
      simp
      refine or_congr Iff.rfl ⟨?_, ?_⟩
      · rintro ⟨rfl, rfl⟩; exact ⟨rfl, h⟩
      · rintro ⟨rfl, h'⟩; exact ⟨rfl, uniq _ _ _ h' h⟩
    · have : v.line.normal = (s.examine .a).line.normal := by
        by_cases hh : s.HoldsNeeded s.cut.swaps .b
        · exact (b5 ⟨hh.1, by rw [hh.2.2]; exact hh.2.1, hh.2.2.symm⟩).2
        · exact (b7 (hn _ hh) (mn _ fun u h => hm ⟨u, h⟩)).2
      rw [this]
      refine ⟨.inl, ?_⟩
      rintro (h | ⟨rfl, h⟩)
      · exact h
      · exact absurd ⟨u, h⟩ hm
  rw [ht]
  refine ⟨?_, ?_, ?_, ?_, ?_, ?_, ?_⟩
  · obtain ⟨l, h1, h2⟩ := k.taken
    refine ⟨l, by rw [tcut, ← h1, vsw], fun e he => ?_⟩
    rw [tst, tline, ← vw]; exact h2 e he
  · intro e l he h
    rw [tcut] at he
    refine k.waiting e l he ⟨?_, ?_⟩
    · have := h.1; rwa [tw, k.web] at this
    · have ⟨_, h2, h3, h4⟩ := h
      rw [tst] at h2 h3; rw [ton] at h4
      simp [State.swapReady, h2, h3, h4]
  · intro x u h
    rw [tst, k.keep x (by rw [must x u h]; simp), must x u h]
  · intro x u
    rw [tline, k.normal, nb, na]
    cases x <;> simp
  · intro h x hx
    rw [tcut, ← vsw] at h
    rw [tst, k.same h, hold x hx]
  · intro h x h1 h2
    rw [tcut, ← vsw] at h
    rw [tst, k.same h, oth x h1 h2]
  · intro hmov x
    generalize hy : State.takeSwaps v.cut.swaps.length v = y at *
    have hr : y.runOrHold = true := by
      rw [moving_iff]
      have : v.dueSwaps = y.syncSetWait := by rw [← hy]; rfl
      rw [this] at hmov
      unfold State.syncSetWait State.setSetWait at hmov
      split at hmov
      · next h => exact (moving_iff y).mp h
      · exact hmov
    have : v.dueSwaps.sup.setWait = ⟨y.setWaits .a, y.setWaits .b⟩ := by
      have : v.dueSwaps = y.syncSetWait := by rw [← hy]; rfl
      rw [this]; unfold State.syncSetWait State.setSetWait; rw [if_pos hr, State.putHold_setWait]; rfl
    rw [this, PerStation.get_mk _ _ x (y.setWaits ·) rfl rfl, tcut, tst, ton]
    exact y.setWaits_iff x

end Sys2Proof.Machine
end

