-- ==== Sys2Proof/Laws/Passes.lean ====
section
/-! SUPPORT. What a planning pass comes to for each stand: `State.pass_spec` (R101, R104 to R106), and what an offered grade
target leaves before it, `State.offerGrade_plan`. -/

namespace Sys2Proof.Machine

variable (s : State)

/-! ### What follows a change of plans -/

/-- A plan keeps its aim, its window and its held target, and is Idle exactly if it was. -/
structure Plan.Sticks (p q : Plan) : Prop where
  kind : q.kind = p.kind
  target : q.target = p.target
  zone : q.targetZone = p.targetZone
  held : q.held = p.held
  earliest : q.earliest = p.earliest
  latest : q.latest = p.latest
  idle : q.state = .idle ↔ p.state = .idle

theorem Plan.Sticks.refl (p : Plan) : p.Sticks p := ⟨rfl, rfl, rfl, rfl, rfl, rfl, .rfl⟩
theorem Plan.Sticks.trans {p q r : Plan} (h : p.Sticks q) (k : q.Sticks r) : p.Sticks r :=
  ⟨k.kind.trans h.kind, k.target.trans h.target, k.zone.trans h.zone, k.held.trans h.held, k.earliest.trans h.earliest,
    k.latest.trans h.latest, k.idle.trans h.idle⟩

/-- The approach of a plan's target has not passed. -/
def State.Short (s : State) (p : Plan) : Prop := s.web.w + s.dApp s.spliceLimit + s.profile.guard < p.target.getD 0

/-- What the splice planner, the conditioning unit and the ceilings leave of the stations' matter. -/
structure Beside (s t : State) : Prop where
  cut : t.cut = s.cut
  web : t.web = s.web
  online : ∀ m, t.online m = s.online m
  sets : SameSets s t
  urgent : ∀ c ∈ s.line.urgent, c ∈ t.line.urgent
  setWait : t.sup.setWait = s.sup.setWait
  moving : Moving t ↔ Moving s

theorem Beside.refl : Beside s s := ⟨rfl, rfl, fun _ => rfl, fun _ _ => .rfl, fun _ h => h, rfl, .rfl⟩
theorem Beside.trans {a s t : State} (h : Beside a s) (k : Beside s t) : Beside a t :=
  ⟨k.cut.trans h.cut, k.web.trans h.web, fun m => (k.online m).trans (h.online m), fun x u => (k.sets x u).trans (h.sets x u),
    fun c hc => k.urgent c (h.urgent c hc), k.setWait.trans h.setWait, k.moving.trans h.moving⟩
theorem Beside.of_only {s t : State} {l : List Block} (h : OnlyChanges l s t)
    (hl : Block.cut ∉ l ∧ Block.web ∉ l ∧ Block.line ∉ l ∧ Block.sup ∉ l := by decide) : Beside s t := by
  have hline := h.line hl.2.2.1
  have hsup := h.sup hl.2.2.2
  refine ⟨h.cut hl.1, h.web hl.2.1, fun m => by unfold State.online State.node; rw [hline], fun x u => by rw [hline],
      fun c hc => by rw [hline]; exact hc,
    by rw [hsup], by unfold Moving; rw [hsup]⟩
theorem Beside.modSup {s : State} (f : Supervisor → Supervisor) (h : (f s.sup).setWait = s.sup.setWait)
    (k : (f s.sup).line = s.sup.line) : Beside s (s.modSup f) :=
  ⟨rfl, rfl, fun _ => rfl, fun _ _ => .rfl, fun _ h => h, h, by unfold Moving; rw [State.modSup_sup, k]⟩
theorem Beside.putHold (r : HoldReason) (b : Bool) : Beside s (s.putHold r b) := by
  have o := s.putHold_only r b
  refine ⟨o.cut, o.web, fun m => by unfold State.online State.node; rw [o.line], fun x u => by rw [o.line],
      fun c hc => by rw [o.line]; exact hc,
    s.putHold_setWait r b, s.putHold_moving r b⟩
theorem Beside.queueFire (i : Stand) : Beside s (s.queueCommand (.stand i) .fire) := by
  refine ⟨s.queueCommand_cut _ _, s.queueCommand_web _ _, fun m => s.queueCommand_online _ m _, fun x u => ?_, fun c hc => ?_, ?_, ?_⟩
  · unfold State.queueCommand; simp [Ask.resulting]
  · unfold State.queueCommand; simp [Ask.resulting, hc]
  · rw [(s.queueCommand_only (.stand i) .fire).sup]
  · unfold Moving; rw [(s.queueCommand_only (.stand i) .fire).sup]

/-- Arming, falling due and granting. -/
structure Settles (s t : State) : Prop where
  only : OnlyChanges [.sup, .splice, .line, .host] s t
  sticks : ∀ i, (s.plan i).Sticks (t.plan i)
  stays : ∀ i, (s.plan i).state = .planned ∨ (s.plan i).state = .blocked → s.Short (s.plan i) → (t.plan i).state = (s.plan i).state
  beside : Beside s t

theorem grade?_congr {s t : State} (h : t.cond = s.cond) (g : Nat) : t.grade? g = s.grade? g := by
  unfold State.grade? State.slot; rw [h]

theorem Short_congr {s t : State} (h : OnlyChanges [.sup, .splice, .line, .host] s t) {p q : Plan} (k : q.target = p.target) :
    t.Short q ↔ s.Short p := by
  unfold State.Short State.dApp State.spliceLimit
  have := funext (grade?_congr (s := s) (t := t) h.cond)
  rw [h.web, h.profile, h.reels, this, k]

theorem Settles.refl : Settles s s := ⟨.refl _ s, fun _ => .refl _, fun _ _ _ => rfl, .refl s⟩
theorem Settles.trans {a s t : State} (h : Settles a s) (k : Settles s t) : Settles a t := by
  refine ⟨h.only.andThen k.only, fun i => (h.sticks i).trans (k.sticks i), fun i p q => ?_, h.beside.trans k.beside⟩
  have e := h.stays i p q
  rw [← e] at p ⊢
  exact k.stays i p ((Short_congr h.only (h.sticks i).target).mpr q)

theorem Settles.foldl {β : Type} (f : State → β → State) (hf : ∀ s x, Settles s (f s x)) (xs : List β) (s : State) :
    Settles s (xs.foldl f s) := by
  induction xs generalizing s with
  | nil => exact .refl s
  | cons x xs ih => exact (hf s x).trans (ih _)

theorem Settles.ite {a b : State} {c : Prop} [Decidable c] (h : Settles s a) (k : Settles s b) : Settles s (if c then a else b) := by
  split <;> assumption

/-- An update of one plan that keeps its aim. -/
theorem Settles.modPlan (i : Stand) (f : Plan → Plan) (h : (s.plan i).Sticks (f (s.plan i)))
    (k : (s.plan i).state = .planned ∨ (s.plan i).state = .blocked → s.Short (s.plan i) → (f (s.plan i)).state = (s.plan i).state) :
    Settles s (s.modPlan i f) := by
  refine ⟨(OnlyChanges.refl _ s).andThen (s.modPlan_only i f), fun j => ?_, fun j p q => ?_, .of_only (s.modPlan_only i f)⟩
  · rw [State.modPlan_plan]; split
    · next e => subst e; exact h
    · exact .refl _
  · rw [State.modPlan_plan]; split
    · next e => subst e; exact k p q
    · rfl

theorem plan_of_splice {s t : State} (h : t.splice = s.splice) (i : Stand) : t.plan i = s.plan i := by unfold State.plan; rw [h]

theorem Settles.of_only {s t : State} {l : List Block} (h : OnlyChanges l s t) (b : Beside s t)
    (hl : ∀ b ∈ l, b ∈ [Block.sup, .line, .host] := by decide) : Settles s t := by
  have hs : t.splice = s.splice := h.2 .splice (fun x => by have := hl _ x; simp at this)
  refine ⟨(OnlyChanges.refl _ s).andThen h fun b hb => ?_, fun i => ?_, fun i _ _ => ?_, b⟩
  · have := hl b hb; simp at this ⊢; rcases this with h | h | h <;> simp [h]
  · rw [plan_of_splice hs]; exact .refl _
  · rw [plan_of_splice hs]

theorem State.armPlan_settles (i : Stand) : Settles s (s.armPlan i) := by
  unfold State.armPlan
  dsimp only
  split
  · next h =>
    refine .modPlan s i _ ⟨rfl, rfl, rfl, rfl, rfl, rfl, ?_⟩ fun _ q => ?_
    · simp [h.1]
    · have := h.2; unfold State.approachPasses at this; unfold State.Short at q; simp at this; omega
  · exact .refl s

theorem foldl_some {β : Type} (p : β → Prop) (f : Option β → β → Option β) (hf : ∀ m x, (∀ y, m = some y → p y) → p x → ∀ y,
    f m x = some y → p y)
    (xs : List β) (m : Option β) (hm : ∀ y, m = some y → p y) (h : ∀ x ∈ xs, p x) : ∀ y, xs.foldl f m = some y → p y := by
  induction xs generalizing m with
  | nil => exact hm
  | cons x xs ih => exact ih (f m x) (hf m x hm (h x (by simp))) (fun y hy => h y (by simp [hy]))

theorem State.chosen_due (i : Stand) (h : s.chosen = some i) : (s.plan i).state = .due := by
  unfold State.chosen at h
  refine foldl_some (fun i => (s.plan i).state = .due) _ ?_ _ none (by simp) ?_ i h
  · intro m x hm hx y hy
    cases m with
    | none => simp at hy; subst hy; exact hx
    | some z => simp only at hy; split at hy <;> simp at hy <;> subst hy; exact hx; exact hm _ rfl
  · intro x hx
    simp at hx
    have := hx.2
    unfold State.grantable at this; simp at this; exact this.1.1

theorem State.arbiter_settles : Settles s s.arbiter := by
  unfold State.arbiter
  repeat' split
  · next i h =>
    have d := s.chosen_due i h
    unfold State.grant
    refine Settles.trans (Settles.modPlan s i _ ⟨rfl, rfl, rfl, rfl, rfl, rfl, ?_⟩ ?_)
        (Settles.of_only (State.queueCommand_only _ _ _) (.queueFire _ _))
    · simp [d]
    · intro p; simp [d] at p
  · exact .refl s
  · exact .refl s

theorem State.duePlan_settles (i : Stand) : Settles s (s.duePlan i) := by
  unfold State.duePlan
  dsimp only
  split
  · next h =>
    have key : ∀ f : Plan → Plan, (s.plan i).Sticks (f (s.plan i)) → Settles s (s.modPlan i f) := fun f hf =>
      .modPlan s i f hf fun _ q => by unfold State.Short at q; omega
    split
    · next e => exact (key _ ⟨rfl, rfl, rfl, rfl, rfl, rfl, by simp [e]⟩).trans (State.arbiter_settles _)
    · next e => exact (key _ ⟨rfl, rfl, rfl, rfl, rfl, rfl, by simp [e]⟩).trans (State.arbiter_settles _)
    · exact .refl s
  · exact .refl s

theorem State.testSpliceCall_settles (i : Stand) : Settles s (s.testSpliceCall i) := by
  unfold State.testSpliceCall
  refine .modPlan s i _ ?_ ?_ <;> (repeat' split)
  all_goals first | exact .refl _ | exact ⟨rfl, rfl, rfl, rfl, rfl, rfl, .rfl⟩ | exact fun _ _ => rfl

theorem setSpliceWait_beside (h : PerStand Bool) : Beside s (s.setSpliceWait h) := by
  unfold State.setSpliceWait
  split
  · exact (Beside.modSup (s := s) (fun p => { p with spliceWait := h }) rfl rfl).trans (.putHold _ _ _)
  · exact .refl s

theorem State.syncSplice_settles : Settles s s.syncSplice := by
  unfold State.syncSplice
  exact ((Settles.foldl _ (fun s i => s.testSpliceCall_settles i) _ s).trans (.of_only (State.setSpliceWait_only _ _)
      (setSpliceWait_beside _ _))).trans
    (.of_only (State.syncSpliceCeiling_only _) (.modSup _ rfl rfl))

/-- Nothing that follows a change of plans at once gives a plan another aim, or arms one whose approach has not passed. -/
theorem State.settleSplice_settles : Settles s s.settleSplice :=
  (((Settles.foldl _ (fun s i => s.armPlan_settles i) _ s).trans (Settles.foldl _ (fun s i => s.duePlan_settles i) _ _)).trans
    (State.arbiter_settles _)).trans (State.syncSplice_settles _)

/-! ### One stand among all -/

theorem eachStand_at (l : List Block) (f : Stand → State → State) (ho : ∀ j s, OnlyChanges l s (f j s))
    (hp : ∀ i j s, i ≠ j → (f j s).plan i = s.plan i) (i : Stand) (s : State) :
    ∃ u, OnlyChanges l s u ∧ u.plan i = s.plan i ∧ OnlyChanges l (f i u) (s.eachStand f) ∧
        (s.eachStand f).plan i = (f i u).plan i := by
  have r := OnlyChanges.refl l s
  have go : ∀ {a t : State}, OnlyChanges l a t → ∀ j, OnlyChanges l a (f j t) := fun h j => h.andThen (ho j _) fun _ => id
  unfold State.eachStand stands
  simp only [List.foldl]
  cases i
  · exact ⟨s, r, rfl, go (go (go (go (.refl l _) _) _) _) _, by repeat rw [hp _ _ _ (by decide)]⟩
  · exact ⟨_, go r .s1, by repeat rw [hp _ _ _ (by decide)], go (go (go (.refl l _) _) _) _, by repeat rw [hp _ _ _ (by decide)]⟩
  · exact ⟨_, go (go r .s1) .s2, by repeat rw [hp _ _ _ (by decide)], go (go (.refl l _) _) _, by repeat rw [hp _ _ _ (by decide)]⟩
  · exact ⟨_, go (go (go r .s1) .s2) .s3, by repeat rw [hp _ _ _ (by decide)], go (.refl l _) _, by repeat rw [hp _ _ _ (by decide)]⟩
  · exact ⟨_, go (go (go (go r .s1) .s2) .s3) .s4, by repeat rw [hp _ _ _ (by decide)], .refl l _, rfl⟩

/-! ### A planning pass -/

theorem window_congr {s t : State} (h : OnlyChanges [.splice, .host] s t) (i : Stand) : t.window i = s.window i := by
  have hg := funext (grade?_congr (s := s) (t := t) h.cond)
  unfold State.window State.estimate State.takeUp State.standRecord State.configured
  rw [h.reels, h.profile, h.web, hg]

theorem usable_congr {s t : State} (h : OnlyChanges [.splice, .host] s t) (i : Stand) (k : Option PlanKind) (z : Option Nat) :
    t.usable i k z = s.usable i k z := by
  have hg := funext (grade?_congr (s := s) (t := t) h.cond)
  unfold State.usable State.neededCode State.orderZoneAfter State.gradeOfZone State.codeOf State.standRecord State.order?
  rw [h.reels, h.map, h.orders, hg]

theorem online_congr {s t : State} (h : t.line.nodes = s.line.nodes) (n : Node) : t.online n = s.online n := by
  unfold State.online State.node; rw [h]

theorem judged_congr {s t : State} (h : OnlyChanges [.splice, .host] s t) (i : Stand) (k : Option PlanKind) (z : Option Nat) :
    t.judged i k z = s.judged i k z := by
  unfold State.judged
  rw [usable_congr h, online_congr (s := s) (t := t) (by rw [h.line])]

theorem plan_place (b : EventBody) (i : Stand) : (s.place b).plan i = s.plan i := plan_of_splice (s.place_only b).splice i
theorem plan_placePlanned (i j : Stand) : (s.placePlanned j).plan i = s.plan i := plan_of_splice (s.placePlanned_only j).splice i
theorem plan_reportPlan (i j : Stand) (p : Plan) : (s.reportPlan j p).plan i = s.plan i :=
    plan_of_splice (s.reportPlan_only j p).splice i

theorem plan_takeGrade (i j : Stand) (g : GradeTarget) (h : i ≠ j) : (s.takeGrade j g).plan i = s.plan i := by
  unfold State.takeGrade; rw [plan_placePlanned, State.modPlan_plan, if_neg h]

theorem plan_takeUpHeld (i j : Stand) (h : i ≠ j) : (s.takeUpHeld j).plan i = s.plan i := by
  unfold State.takeUpHeld State.writeWindow
  dsimp only
  repeat' split
  all_goals first | rfl | (rw [plan_takeGrade _ _ _ _ h]; simp [h]) | simp [h]

theorem plan_passFixed (i j : Stand) (s : State) (h : i ≠ j) : (s.passFixed j).plan i = s.plan i := by
  unfold State.passFixed State.writeWindow
  dsimp only
  repeat' split
  all_goals first | rfl | (rw [plan_takeUpHeld _ _ _ h, plan_reportPlan]; simp [h]) | (rw [plan_reportPlan]; simp [h]) | simp [h]

theorem plan_offerGrade (i j : Stand) (g : GradeTarget) (h : i ≠ j) : (s.offerGrade j g).plan i = s.plan i := by
  unfold State.offerGrade State.holdGrade
  dsimp only
  repeat' split
  all_goals first | rfl | exact plan_takeGrade _ _ _ _ h | simp [h]

theorem takeGrade_plan (i : Stand) (g : GradeTarget) : (s.takeGrade i g).plan i =
    (s.plan i).aim (s.judged i (some .grade) (some g.transition)) .grade g.target (some g.transition) := by
  unfold State.takeGrade; rw [plan_placePlanned, State.modPlan_plan, if_pos rfl]

theorem judged_cases (i : Stand) (k : Option PlanKind) (z : Option Nat) : s.judged i k z = .planned ∨ s.judged i k z = .blocked := by
  unfold State.judged; split <;> simp

theorem normal_iff (p : Plan) : p.movable = true ↔ p.state = .idle ∨ p.Normal := by
  unfold Plan.movable Plan.Normal; cases p.state <;> simp

theorem windowed (i : Stand) (w : Window) (h : s.window i = some w) : s.configured i = true ∧ w.earliest ≤ w.latest := by
  unfold State.window at h
  split at h
  · simp only at h
    split at h
    · next c => cases h; exact ⟨c.1, Nat.min_le_right _ _⟩
    · simp at h
  · simp at h

theorem window_writeWindow (i j : Stand) : (s.writeWindow i).window j = s.window j :=
  window_congr ((OnlyChanges.refl [.splice, .host] s).andThen (s.writeWindow_only i)) j

/-- A held target of a stand without a window is taken up. -/
theorem takeUpHeld_none (i : Stand) (g : GradeTarget) (hr : s.runOrHold = true) (hi : (s.plan i).state = .idle)
    (hh : (s.plan i).held = some g) (hw : s.window i = none) :
    ((s.takeUpHeld i).plan i).AimsAt (some .grade) (some g.target) (some g.transition) ∧ ((s.takeUpHeld i).plan i).held = none ∧
      ((s.takeUpHeld i).plan i).movable = false := by
  unfold State.takeUpHeld
  simp only [hh, hr, hi, window_writeWindow, hw, and_self, if_true]
  rw [takeGrade_plan, State.modPlan_plan, if_pos rfl]
  refine ⟨⟨?_, rfl, rfl, rfl⟩, rfl, ?_⟩
  · rcases judged_cases ((s.writeWindow i).modPlan i fun p => { p with held := none }) i (some .grade) (some g.transition)
      with h | h <;>
      simp [Plan.aim, h]
  · rcases judged_cases ((s.writeWindow i).modPlan i fun p => { p with held := none }) i (some .grade) (some g.transition)
      with h | h <;>
      simp [Plan.aim, h, Plan.movable]

/-- A pass's first part on the stand's own plan. -/
theorem passFixed_plan (i : Stand) (c : s.configured i = true) :
    ((s.plan i).movable = false → (s.plan i).Sticks { (s.passFixed i).plan i with
        earliest := (s.plan i).earliest, latest := (s.plan i).latest } ∧
      ((s.plan i).state = .planned ∨ (s.plan i).state = .blocked →
        ((s.passFixed i).plan i).state = s.judged i (s.plan i).kind (s.plan i).targetZone) ∧
      ((s.passFixed i).plan i).movable = false) ∧
    (∀ w, (s.plan i).movable = true → s.window i = some w →
      (s.passFixed i).plan i = { s.plan i with earliest := some w.earliest, latest := some w.latest }) ∧
    (∀ g, (s.plan i).Normal → s.runOrHold = true → s.window i = none → (s.plan i).held = some g →
      ((s.passFixed i).plan i).AimsAt (some .grade) (some g.target) (some g.transition) ∧ ((s.passFixed i).plan i).held = none ∧
      ((s.passFixed i).plan i).movable = false) := by
  have wo := s.writeWindow_only i
  have ww : (s.writeWindow i).window i = s.window i := by
    have := wo; unfold State.window State.estimate State.takeUp State.standRecord State.configured
    have hg := funext (grade?_congr (s := s) (t := s.writeWindow i) wo.cond)
    rw [wo.reels, wo.profile, wo.web, hg]
  have wp : (s.writeWindow i).plan i = { s.plan i with
      earliest := (s.window i).map (·.earliest), latest := (s.window i).map (·.latest) } := by
    unfold State.writeWindow; rw [State.modPlan_plan, if_pos rfl]
  have wj : ∀ k z, (s.writeWindow i).judged i k z = s.judged i k z := fun k z =>
    judged_congr ((OnlyChanges.refl _ s).andThen wo) i k z
  unfold State.passFixed
  simp only [c, if_true]
  refine ⟨fun hm => ?_, fun w hm hw => ?_, fun g hn hr hw hh => ?_⟩
  · rw [if_neg (by simp [hm])]
    have ni : (s.plan i).state ≠ .idle := fun h => by simp [Plan.movable, h] at hm
    split
    · next e => rw [plan_reportPlan, State.modPlan_plan, if_pos rfl, wp]
                refine ⟨⟨rfl, rfl, rfl, rfl, rfl, rfl, ?_⟩, fun _ => wj _ _, ?_⟩
                · rcases judged_cases (s.writeWindow i) i (s.plan i).kind (s.plan i).targetZone with h | h <;> simp [h, ni]
                · rcases judged_cases (s.writeWindow i) i (s.plan i).kind (s.plan i).targetZone with h | h <;>
                    simpa [Plan.movable, h, e] using hm
    · next e => rw [plan_reportPlan, State.modPlan_plan, if_pos rfl, wp]
                refine ⟨⟨rfl, rfl, rfl, rfl, rfl, rfl, ?_⟩, fun _ => wj _ _, ?_⟩
                · rcases judged_cases (s.writeWindow i) i (s.plan i).kind (s.plan i).targetZone with h | h <;> simp [h, ni]
                · rcases judged_cases (s.writeWindow i) i (s.plan i).kind (s.plan i).targetZone with h | h <;>
                    simpa [Plan.movable, h, e] using hm
    · next e1 e2 => rw [wp]; exact ⟨⟨rfl, rfl, rfl, rfl, rfl, rfl, .rfl⟩,
        fun h => h.elim (absurd · e1) (absurd · e2), hm⟩
  · rw [if_pos hm, ww, hw]
    simp only [Option.isSome_some, if_true]
    have : (s.writeWindow i).plan i = { s.plan i with earliest := some w.earliest, latest := some w.latest } := by rw [wp, hw]; rfl
    split <;> exact this
  · have hm : (s.plan i).movable = true := (normal_iff _).mpr (.inr hn)
    rw [if_pos hm, ww, hw]
    have st := hn.1
    have yo : OnlyChanges [.splice, .host] s (((s.writeWindow i).modPlan i Plan.toIdle).reportPlan i (s.plan i)) :=
      (((OnlyChanges.refl _ s).andThen wo).andThen (State.modPlan_only _ _ _)).andThen (State.reportPlan_only _ _ _)
    have yp : (((s.writeWindow i).modPlan i Plan.toIdle).reportPlan i (s.plan i)).plan i = ((s.writeWindow i).plan i).toIdle := by
      rw [plan_reportPlan, State.modPlan_plan, if_pos rfl]
    have fin := takeUpHeld_none _ i g (by unfold State.runOrHold at hr ⊢; rw [yo.sup]; exact hr) (by rw [yp]; rfl)
      (by rw [yp, wp]; exact hh) (by rw [window_congr yo, hw])
    rcases st with e | e <;> simp only [e] <;> exact fin

theorem greatestKeeping_within (sep : Nat) (refs : List Nat) (w : Window) (c : Nat) (h : greatestKeeping sep refs w = some c) :
    w.earliest ≤ c ∧ c ≤ w.latest := by
  unfold greatestKeeping at h
  refine foldl_some (fun c => w.earliest ≤ c ∧ c ≤ w.latest) _ ?_ _ none (by simp) ?_ c h
  · intro m x hm hx y hy
    cases m with
    | none => simp at hy; subst hy; exact hx
    | some z => simp at hy; subst hy; have := hm z rfl; exact ⟨by omega, by omega⟩
  · intro x hx
    have := (List.mem_filter.mp hx).2
    simp at this; exact this.1

theorem fits_within (i : Stand) (w : Window) (f : Nat × Nat) (h : f ∈ s.fits i w) : w.earliest ≤ f.1 ∧ f.1 ≤ w.latest := by
  unfold State.fits at h
  obtain ⟨z, _, hz⟩ := List.mem_filterMap.mp h
  simp only at hz
  split at hz
  · next c => cases hz; exact ⟨c.2.2.1, c.2.2.2.1⟩
  · cases hz

theorem choose_within (i : Stand) (w : Window) (refs : List Nat) (hw : w.earliest ≤ w.latest) :
    ((s.choose i w refs).kind = .planned ∨ (s.choose i w refs).kind = .latest) ∧ w.earliest ≤ (s.choose i w refs).target ∧
      (s.choose i w refs).target ≤ w.latest := by
  unfold State.choose
  dsimp only
  split
  · next f h => exact ⟨.inl rfl, fits_within s i w f (List.mem_of_find?_eq_some h)⟩
  · split
    · next c h => exact ⟨.inr rfl, greatestKeeping_within _ _ _ _ h⟩
    · split
      · next f l h => exact ⟨.inl rfl, fits_within s i w f (by rw [h]; simp)⟩
      · exact ⟨.inr rfl, hw, Nat.le_refl _⟩

theorem placeMovable_plan (xs : List Stand) (refs : List Nat) (s : State) (i : Stand) (hn : xs.Nodup) :
    (i ∉ xs → (State.placeMovable xs refs s).plan i = s.plan i) ∧
    (∀ w, i ∈ xs → s.window i = some w → ∃ k f z, ((State.placeMovable xs refs s).plan i).AimsAt (some k) (some f) z ∧
      (k = .planned ∨ k = .latest) ∧ w.earliest ≤ f ∧ f ≤ w.latest ∧ ((State.placeMovable xs refs s).plan i).held = (s.plan i).held ∧
      ((State.placeMovable xs refs s).plan i).earliest = (s.plan i).earliest ∧
      ((State.placeMovable xs refs s).plan i).latest = (s.plan i).latest) := by
  induction xs generalizing s refs with
  | nil => exact ⟨fun _ => rfl, fun w h => by simp at h⟩
  | cons j xs ih =>
    obtain ⟨hj, hn⟩ := List.nodup_cons.mp hn
    have other : ∀ (p : Plan → Plan) (b : Plan), i ≠ j → ((s.modPlan j p).reportPlan j b).plan i = s.plan i := fun p b h => by
      rw [plan_reportPlan, State.modPlan_plan, if_neg h]
    have oo : ∀ (p : Plan → Plan) (b : Plan), OnlyChanges [.splice, .host] s ((s.modPlan j p).reportPlan j b) := fun p b =>
      ((OnlyChanges.refl _ s).andThen (s.modPlan_only _ _)).andThen (State.reportPlan_only _ _ _)
    unfold State.placeMovable
    split
    · next w' hw' =>
      dsimp only
      refine ⟨fun hi => ?_, fun w hi hw => ?_⟩
      · simp at hi
        rw [(ih _ _ hn).1 hi.2, other _ _ hi.1]
      · by_cases e : i = j
        · subst e
          rw [hw] at hw'; cases hw'
          rw [(ih _ _ (List.nodup_cons.mp ‹(i :: xs).Nodup›).2).1 hj, plan_reportPlan, State.modPlan_plan, if_pos rfl]
          obtain ⟨c1, c2, c3⟩ := choose_within s i w' refs (windowed s i w' hw).2
          refine ⟨_, _, _, ⟨?_, rfl, rfl, rfl⟩, c1, c2, c3, rfl, rfl, rfl⟩
          simp only [Plan.aim]
          split
          · simp
          · rcases judged_cases s i (some (s.choose i w' refs).kind) (s.choose i w' refs).zone with h | h <;> simp [h]
        · have hi' : i ∈ xs := by rcases List.mem_cons.mp hi with h | h; exact absurd h e; exact h
          have h := fun p b r => (ih r ((s.modPlan j p).reportPlan j b) hn).2 w hi' (by rw [window_congr (oo _ _), hw])
          simp only [other _ _ e] at h
          exact h _ _ _
    · next hw' =>
      refine ⟨fun hi => ?_, fun w hi hw => ?_⟩
      · simp at hi; exact (ih _ _ hn).1 hi.2
      · by_cases e : i = j
        · subst e; rw [hw] at hw'; cases hw'
        · have hi' : i ∈ xs := by rcases List.mem_cons.mp hi with h | h; exact absurd h e; exact h
          exact (ih _ _ hn).2 w hi' hw

theorem insertByLatest_mem (i j : Stand) (l : List Stand) : j ∈ insertByLatest s i l ↔ j = i ∨ j ∈ l := by
  induction l with
  | nil => simp [insertByLatest]
  | cons x l ih =>
    unfold insertByLatest; split
    · simp only [List.mem_cons, ih]; constructor
      · rintro (h | h | h) <;> simp [h]
      · rintro (h | h | h) <;> simp [h]
    · simp

theorem insertByLatest_nodup (i : Stand) (l : List Stand) (h : l.Nodup) (hi : i ∉ l) : (insertByLatest s i l).Nodup := by
  induction l with
  | nil => simp [insertByLatest]
  | cons x l ih =>
    obtain ⟨hx, hl⟩ := List.nodup_cons.mp h
    simp at hi
    unfold insertByLatest; split
    · refine List.nodup_cons.mpr ⟨fun m => ?_, ih hl hi.2⟩
      rcases (insertByLatest_mem s i x l).mp m with e | e
      · exact hi.1 e.symm
      · exact hx e
    · exact List.nodup_cons.mpr ⟨by simp [hi], h⟩

theorem inserted (xs l : List Stand) (hx : xs.Nodup) (hl : l.Nodup) (hd : ∀ x ∈ xs, x ∉ l) :
    (xs.foldl (fun l i => insertByLatest s i l) l).Nodup ∧
      ∀ j, j ∈ xs.foldl (fun l i => insertByLatest s i l) l ↔ j ∈ xs ∨ j ∈ l := by
  induction xs generalizing l with
  | nil => exact ⟨hl, by simp⟩
  | cons x xs ih =>
    obtain ⟨h1, h2⟩ := List.nodup_cons.mp hx
    have k := ih (insertByLatest s x l) h2 (insertByLatest_nodup s x l hl (hd x (by simp))) (fun y hy m => by
      rcases (insertByLatest_mem s x y l).mp m with e | e
      · subst e; exact h1 hy
      · exact hd y (by simp [hy]) e)
    refine ⟨k.1, fun j => ?_⟩
    simp only [List.foldl_cons]
    rw [k.2 j, insertByLatest_mem]
    simp only [List.mem_cons]
    constructor
    · rintro (h | h | h) <;> simp [h]
    · rintro ((h | h) | h) <;> simp [h]

theorem movableStands_spec : s.movableStands.Nodup ∧
    ∀ i, i ∈ s.movableStands ↔ (s.plan i).movable = true ∧ (s.window i).isSome = true := by
  unfold State.movableStands
  have nd : (stands.filter fun i => (s.plan i).movable && (s.window i).isSome).Nodup := List.Pairwise.filter _ (by decide)
  obtain ⟨h1, h2⟩ := inserted s _ [] nd (by simp) (by simp)
  refine ⟨h1, fun i => ?_⟩
  rw [h2 i]
  have : i ∈ stands := by cases i <;> decide
  simp [List.mem_filter, this]

/-- What a planning pass in Run or Hold does to each stand's plan. -/
structure Passed (s t : State) (i : Stand) : Prop where
  fixed : (s.plan i).movable = false →
    (t.plan i).AimsAt (s.plan i).kind (s.plan i).target (s.plan i).targetZone ∧ (t.plan i).held = (s.plan i).held ∧
      (s.configured i = true → (s.plan i).state = .planned ∨ (s.plan i).state = .blocked → s.Short (s.plan i) →
        (t.plan i).state = s.judged i (s.plan i).kind (s.plan i).targetZone)
  placed : ∀ w, (s.plan i).movable = true → s.window i = some w →
    (t.plan i).held = (s.plan i).held ∧ (t.plan i).earliest = some w.earliest ∧ (t.plan i).latest = some w.latest ∧
      ∃ k f z, (t.plan i).AimsAt (some k) (some f) z ∧ (k = .planned ∨ k = .latest) ∧ w.earliest ≤ f ∧ f ≤ w.latest
  withdrawn : ∀ g, s.configured i = true → (s.plan i).Normal → s.window i = none → (s.plan i).held = some g →
    (t.plan i).AimsAt (some .grade) (some g.target) (some g.transition) ∧ (t.plan i).held = none

theorem AimsAt_sticks {p q : Plan} (h : p.Sticks q) {k : Option PlanKind} {f z : Option Nat} (a : p.AimsAt k f z) : q.AimsAt k f z :=
  ⟨fun e => a.1 (h.idle.mp e), h.kind.trans a.2.1, h.target.trans a.2.2.1, h.zone.trans a.2.2.2⟩

/-- A planning pass in Run or Hold (R101, R104 to R106). -/
theorem State.pass_spec (hr : s.runOrHold = true) (i : Stand) : Passed s s.pass i := by
  obtain ⟨u, uo, up, vo, vp⟩ := eachStand_at [.splice, .host] State.passFixed (fun j s => s.passFixed_only j) plan_passFixed i s
  unfold State.pass
  rw [if_pos hr]
  dsimp only
  generalize s.eachStand State.passFixed = v at *
  have pf := passFixed_plan u i
  have uc : u.configured i = s.configured i := by unfold State.configured; rw [uo.profile]
  have so : OnlyChanges [.splice, .host] s v := (uo.andThen (u.passFixed_only i)).andThen vo
  have vw : v.window i = s.window i := window_congr so i
  obtain ⟨nd, mem⟩ := movableStands_spec v
  obtain ⟨p1, p2⟩ := placeMovable_plan v.movableStands v.fixedReferences v i nd
  have wo := State.placeMovable_only v v.movableStands v.fixedReferences
  generalize State.placeMovable v.movableStands v.fixedReferences v = w at *
  have se := w.settleSplice_settles
  have sw : OnlyChanges [.splice, .host] s w := so.andThen wo
  rw [uc, up] at pf
  have mis : ¬ ((v.plan i).movable = true ∧ (v.window i).isSome = true) → w.plan i = v.plan i := fun h => p1 fun m => h ((mem i).mp m)
  refine ⟨fun hm => ?_, fun x hm hx => ?_, fun g hc hn hx hh => ?_⟩
  · have ni : (s.plan i).state ≠ .idle := fun h => by simp [Plan.movable, h] at hm
    by_cases c : s.configured i = true
    · obtain ⟨q1, q2, q3⟩ := (pf c).1 hm
      rw [← vp] at q1 q2 q3
      have e := mis (by simp [q3])
      have q : (s.plan i).Sticks { w.settleSplice.plan i with earliest := (s.plan i).earliest, latest := (s.plan i).latest } := by
        have k := se.sticks i
        rw [e] at k
        exact ⟨k.kind.trans q1.kind, k.target.trans q1.target, k.zone.trans q1.zone, k.held.trans q1.held, rfl, rfl,
            k.idle.trans q1.idle⟩
      refine ⟨⟨fun h => ni (q.idle.mp h), q.kind, q.target, q.zone⟩, q.held, fun _ hs hsh => ?_⟩
      have hj := q2 hs
      rw [judged_congr uo] at hj
      rw [← hj, ← e]
      refine se.stays i ?_ ?_
      · rw [e, hj]; exact judged_cases _ _ _ _
      · rw [Short_congr ((OnlyChanges.refl _ s).andThen sw) (p := s.plan i) (by rw [e]; exact q1.target)]; exact hsh
    · have pfe : State.passFixed i u = u := by unfold State.passFixed; rw [if_neg (by rw [uc]; exact c)]
      have ve : v.plan i = s.plan i := by rw [vp, pfe, up]
      have e := mis (by simp [ve, hm])
      have k := se.sticks i
      rw [e, ve] at k
      exact ⟨⟨fun h => ni (k.idle.mp h), k.kind, k.target, k.zone⟩, k.held, fun h => absurd h c⟩
  · have c := (windowed s i x hx).1
    have q := (pf c).2.1 x hm (by rw [window_congr uo, hx])
    rw [← vp] at q
    have vm : (v.plan i).movable = true := by rw [q]; exact hm
    obtain ⟨k, f, z, h1, h2, h3, h4, h5, h6, h7⟩ := p2 x ((mem i).mpr ⟨vm, by rw [vw, hx]; rfl⟩) (by rw [vw, hx])
    have st := se.sticks i
    rw [q] at h5 h6 h7
    exact ⟨st.held.trans h5, st.earliest.trans h6, st.latest.trans h7, k, f, z, AimsAt_sticks st h1, h2, h3, h4⟩
  · obtain ⟨q1, q2, q3⟩ := (pf hc).2.2 g hn (by unfold State.runOrHold at hr ⊢; rw [uo.sup]; exact hr) (by rw [window_congr uo,
      hx]) hh
    rw [← vp] at q1 q2 q3
    have e := mis (by simp [q3])
    have st := se.sticks i
    rw [e] at st
    exact ⟨AimsAt_sticks st q1, st.held.trans q2⟩

/-- What a grade target does to its stand's plan when it arrives in Run or Hold (R105, R106). -/
theorem State.offerGrade_plan (i : Stand) (g : GradeTarget) (hr : s.runOrHold = true) :
    ((s.plan i).Takes g → (s.offerGrade i g).plan i =
      (s.plan i).aim (s.judged i (some .grade) (some g.transition)) .grade g.target (some g.transition)) ∧
    (¬ (s.plan i).Takes g → (s.offerGrade i g).plan i = { s.plan i with held := some g }) := by
  have hh : (s.holdGrade i g).plan i = { s.plan i with held := some g } := by unfold State.holdGrade; simp
  have ht := takeGrade_plan s i g
  have nm := normal_iff (s.plan i)
  have ni : ∀ st, (s.plan i).state = st → st ≠ .idle → ((s.plan i).movable = true ↔ (s.plan i).Normal) := fun st e h => by
    rw [nm]; simp [e, h]
  unfold State.offerGrade
  simp only [hr, if_true]
  unfold Plan.Takes
  split
  · next e => exact ⟨fun _ => ht, fun h => absurd (.inl e) h⟩
  · next e =>
    split
    · next m =>
      have n := (ni _ e (by simp)).mp m
      split
      · next l hl =>
        split
        · next c => exact ⟨fun _ => ht, fun h => absurd (.inr ⟨n, fun x hx => by rw [hl] at hx; cases hx; exact c⟩) h⟩
        · next c => exact ⟨fun h => by rcases h with h | h; simp [e] at h; exact absurd (h.2 l hl) c, fun _ => hh⟩
      · next hl => exact ⟨fun _ => ht, fun h => absurd (.inr ⟨n, fun x hx => by rw [hl] at hx; cases hx⟩) h⟩
    · next m => exact ⟨fun h => by rcases h with h | h; simp [e] at h; exact absurd ((ni _ e (by simp)).mpr h.1) m, fun _ => hh⟩
  · next e =>
    split
    · next m =>
      have n := (ni _ e (by simp)).mp m
      split
      · next l hl =>
        split
        · next c => exact ⟨fun _ => ht, fun h => absurd (.inr ⟨n, fun x hx => by rw [hl] at hx; cases hx; exact c⟩) h⟩
        · next c => exact ⟨fun h => by rcases h with h | h; simp [e] at h; exact absurd (h.2 l hl) c, fun _ => hh⟩
      · next hl => exact ⟨fun _ => ht, fun h => absurd (.inr ⟨n, fun x hx => by rw [hl] at hx; cases hx⟩) h⟩
    · next m => exact ⟨fun h => by rcases h with h | h; simp [e] at h; exact absurd ((ni _ e (by simp)).mpr h.1) m, fun _ => hh⟩
  all_goals
    next e =>
    exact ⟨fun h => by rcases h with h | h; simp [e] at h; have := h.1.1; simp [e] at this, fun _ => hh⟩

end Sys2Proof.Machine
end

