-- ==== Sys2Proof/Laws/Requests.lean ====
section
/-! SUPPORT. What taking a request comes to: with a frame to take the request's own function runs on the state without that frame and
its outcome is answered, and with none the state stays as it is. -/

namespace Sys2Proof.Machine

/-- The request that asks is taken: its frame leaves the holding area and its function is answered. -/
theorem State.takeRequest_of_asks {s : State} {k : Nat} {f : HostFrame} (h : s.Asks k f) (r : Bool)
    (g : List Byte → State → Taken) :
    s.takeRequest (· = k) r g =
      (let t := g f.payload (s.modHost fun h => { h with holding := h.holding.drop 1 })
       t.state.answer (replyTo f t.result t.fields (r && t.result = .ok))) := by
  unfold State.takeRequest
  rw [h.1]
  simp [h.2]

/-- The same for a request command. -/
theorem State.request_of_asks {s : State} {k : Nat} {f : HostFrame} (h : s.Asks k f) (g : List Byte → State → Taken) :
    request k g s = .next
      (let t := g f.payload (s.modHost fun h => { h with holding := h.holding.drop 1 })
       t.state.answer (replyTo f t.result t.fields false)) := by
  unfold request
  rw [State.takeRequest_of_asks h]
  simp

/-- Without a frame of its kind to take, a request command leaves the state as it is. -/
theorem State.takeRequest_of_none {s : State} {k : Nat} {r : Bool} (g : List Byte → State → Taken)
    (h : s.host.holding = [] ∨ s.host.answering.isSome = true ∨ s.pins.resetLow = true
      ∨ (∃ f, s.offered = some f ∧ f.kind.toNat ≠ k)) :
    s.takeRequest (· = k) r g = s := by
  unfold State.takeRequest
  rcases h with h | h | h | ⟨f, h, other⟩
  · have : s.offered = none := by unfold State.offered; rw [h]; simp
    rw [this]
  · have : s.offered = none := by unfold State.offered; simp [h]
    rw [this]
  · have : s.offered = none := by unfold State.offered; simp [h]
    rw [this]
  · rw [h]; simp [other]

end Sys2Proof.Machine
end

