-- ==== Sys2Proof/WellFormed.lean ====
section
/-! DEFINITION. When a command's operands are ones the part's lines can carry. Meanings are total and do not rest on this. -/

namespace Sys2Proof

/-- A section frame's payload has at most 240 bytes (section frame envelope). -/
def Answer.wellFormed (a : Answer) : Bool := a.payload.length ≤ 240

/-- The operands of a command as the lines can carry them: an order of actions names none twice; what ends a host frame is at
least one byte and at most a whole frame, 5 + 1,000 + 2 bytes; a section frame's payload is within its envelope. -/
def Instr.wellFormed : Instr → Bool
  | .encoderPulse _ order => order.Nodup
  | .gatePeriodEnd order => order.Nodup
  | .hostFrameReceived bytes => 1 ≤ bytes.length && bytes.length ≤ 1007
  | .sectionFrameIgnored _ a | .initReply a | .pollAnswer a | .fireAcknowledged a | .setAnswer a | .engageAnswer a
  | .changeStackAnswer a | .setpointsAnswer a => a.wellFormed
  | .powerOn _ | .resetPin | .hostByteGapTimeout _ | .replySent | .unknownKind | .identify | .status _ _ | .readEvents
  | .start | .hold | .resume | .emergencyStop | .clearTrip | .releaseLockout | .setSpeed | .addOrder | .amendOrder
  | .cancelOrder | .queryOrder | .listOrders | .queryWebMap | .defineGrade | .defineTable | .queryGrade | .queryTable
  | .assignReel | .clearReel | .spliceNow | .queryStand | .sectionOffline | .sectionOnline | .ackFaults | .readProfile
  | .writeProfileItem | .saveProfile | .freezeGeometry | .unfreezeGeometry _ | .restartPart | .storeWriteDone _
  | .tripRecordWriteDone | .linkSilent | .airRechargeEnd | .spliceResultTimeout | .setTimeout _ | .engageTimeout _
  | .stackChangeTimeout | .temperatureStale | .sectionTransactionStart | .answerDeadline | .resetRelease
  | .hostByteReceived _ => true

end Sys2Proof
end

