-- ==== Sys2Proof/Tests/Slice0.lean ====
section
/-! SUPPORT. Tests: what WellFormed refuses; the manual's worked examples, each a formula or one step with the expected value taken
from the rule named; and, for the statements of Certificates/Slice0/Obligations.lean, small states that meet their hypotheses. -/

namespace Sys2Proof.Tests

set_option Elab.async false

open Sys2Proof Sys2Proof.Machine

/-! ### WellFormed refuses -/

theorem test_wf_pulse_twice : (Instr.encoderPulse true [.cut, .glue, .cut]).wellFormed = false := by decide
theorem test_wf_gate_twice : (Instr.gatePeriodEnd [.ramp, .ramp]).wellFormed = false := by decide
theorem test_wf_frame_empty : (Instr.hostFrameReceived []).wellFormed = false := by decide
theorem test_wf_frame_long : (Instr.hostFrameReceived (List.replicate 1008 0#8)).wellFormed = false := by
  simp only [Instr.wellFormed, List.length_replicate]; decide
theorem test_wf_payload_long : (Answer.mk 1#8 0#8 (List.replicate 241 0#8) 0#16).wellFormed = false := by
  simp only [Answer.wellFormed, List.length_replicate]; decide
theorem test_wf_poll_long : (Instr.pollAnswer ⟨1#8, 0#8, List.replicate 241 0#8, 0#16⟩).wellFormed = false := by
  simp only [Instr.wellFormed, Answer.wellFormed, List.length_replicate]; decide
theorem test_wf_good : (Instr.encoderPulse true [.cut, .glue]).wellFormed = true := by decide

/-! ### States to test on -/

def grade0 : Grade := { codes := .same 7, factors := .same 1400, table := 0, limit := 900 }
def grade1 : Grade := { grade0 with codes := { PerStand.same 7 with s1 := 8 } }

/-- The table of R128's example range: speeds 1,000 to 3,000, glue gap as in R124. -/
def table0 : List Breakpoint :=
  [⟨1000, 400, 180, 1600⟩, ⟨2000, 400, 150, 1700⟩, ⟨3000, 380, 130, 1800⟩]

def tools0 : ToolSet := { slits := [-3000, 3000], scores := [0] }
def tools1 : ToolSet := { slits := [-2000, 2000], scores := [] }

/-- R37's example order: pattern 1,200 and 900, quantity 10,000, ups 3, overrun 20. -/
def order (n : Nat) : Order :=
  { orderOf [] with
    number := n, grade := 0, ups := 3, pattern := [1200, 900], tools := tools0, quantity := 10000, overrun := 20, height := 100
    needed := 3334, planned := 3354 }

def reel (n code : Nat) : ReelData := { reel := n, code := code, caliper := 250, core := 100 }

/-- A stand with arm A running and arm B prepared. -/
def stand0 : StandRecord :=
  { StandRecord.reset with
    arms := ⟨⟨.running, some (reel 1 7), some .running, 1000⟩, ⟨.prepared, some (reel 2 7), some .prepared, 1000⟩⟩
    basis := some ⟨900000, 0⟩ }

def nodeOn : NodeRecord := { NodeRecord.reset with service := .online }

/-- Standby, every node Online, the profile valid, a grade and a table defined, order 1 Queued. -/
def live : State :=
  { State.reset with
    pins := { Pins.reset with loaded := true }
    sup := { Supervisor.reset with line := .standby, hostSpeed := 2000 }
    store := { Store.blank with valid := true, checkPassed := true }
    cond := { Conditioning.reset with
      grades := [.defined grade0, .defined grade1], tables := [some table0, none] }
    orders := { list := [order 1], recent := [] }
    reels := { stand := .same stand0, grade := none }
    router := { Router.reset with stacker := .stacking }
    line := { SectionLine.reset with
      nodes := { stand := .same nodeOn, conditioning := nodeOn, station := ⟨nodeOn, nodeOn⟩, stacker := nodeOn } } }

/-- Order 1 as it runs from 0 to its planned end. -/
def order1 : Order := { order 1 with state := .running, zoneStart := some 0, plannedEnd := some 3521700 }

def zone1 : Zone := newZone .order 0 (some 1) false (.same false)

/-- Run, order 1 at the knife in an open zone, station A engaged with its set, order 2 Queued. -/
def running : State :=
  { live with
    sup := { live.sup with line := .run, linkTimer := some 0 }
    web := { Web.reset with w := 1200 }
    cond := { live.cond with grades := [.inUse grade0, .defined grade1], inForce := some table0, glueGrade := some 0 }
    orders := { list := [order1, order 2], recent := [] }
    map := { WebMap.reset with zones := [zone1], openOrder := some 1 }
    reels := { stand := .same stand0, grade := some 0 }
    cut := { CutControl.reset with
      station := ⟨⟨.engaged, some tools0, none, none⟩, StationRecord.reset⟩
      schedule := some { pieceStart := 0, nextCut := 1200, zone := 0, index := 0, plan := none } } }

/-- The state in another line state. -/
def inLine (s : State) (l : LineState) : State := { s with sup := { s.sup with line := l } }

/-- The frame of a request, and the state in which it is the only one held. -/
def frame (k : Nat) (p : List Byte) : HostFrame := { tag := 0x11#8, kind := BitVec.ofNat 8 k, payload := p }
def asking (s : State) (k : Nat) (p : List Byte) : State := { s with host := { s.host with holding := [frame k p] } }

theorem asks {s : State} {k : Nat} {p : List Byte} (h1 : s.pins.resetLow = false) (h2 : s.host.answering = none) (h3 : k < 256) :
    (asking s k p).Asks k (frame k p) := by
  refine ⟨?_, ?_⟩
  · simp [State.offered, asking, h1, h2]
  · simp [frame]; omega

/-- A plan of stand 1 replaced. -/
def withPlan (s : State) (p : Plan) : State := s.modPlan .s1 fun _ => p
def plan (st : PlanState) : Plan :=
  { Plan.reset with state := st, kind := some .latest, target := some 1000, latest := some 500000, earliest := some 0 }

/-- The state with a request in flight, and an answer that matches it. -/
def flight (s : State) (n : Node) (a : Ask) : State :=
  { s with line := { s.line with inFlight := some { node := n, ask := a, txn := 5#8, deadline := 25, frame := [] } } }
def answer (n : Node) (kind : Byte) (p : List Byte) : Answer :=
  let at_ := BitVec.ofNat 8 (nodeAddress n)
  { address := at_, txn := 5#8, payload := p, check := crc (sectionCovered at_ kind 5#8 p) }

/-- The request that `flight` puts on the line. -/
def asked (n : Node) (a : Ask) : InFlight := { node := n, ask := a, txn := 5#8, deadline := 25, frame := [] }

/-! ### Worked examples of the manual -/

/-- Chapter 1's example: K = 4,096, the fourth and the fifth pulse after reset. -/
def counting (r w : Nat) : State :=
  { live with profile := { live.profile with encoderK := 4096 }, web := { Web.reset with w := w, r := r } }

/-- A property of the next state. -/
def after (o : Host.Outcome State Fault Refusal) (p : State → Bool) : Bool := match o with | .next t => p t | _ => false

theorem test_pulse_4 : after (exec (.encoderPulse true []) (counting 3000 0)) (fun t => t.web.r = 4000 && t.web.w = 0) = true := by
  decide +kernel
theorem test_pulse_5 : after (exec (.encoderPulse true []) (counting 4000 0)) (fun t => t.web.r = 904 && t.web.w = 1) = true := by
  decide +kernel
/-- R6: 50 mm in a gate period are 300; R9: the count of losses at 3 stops the line. -/
theorem test_gate_speed :
    after (exec (.gatePeriodEnd []) { live with web := { Web.reset with w := 1050, snapshot := 1000 } })
      (fun t => t.web.v = 300 && t.web.snapshot = 1050) = true := by decide +kernel
theorem test_gate_loss :
    after (exec (.gatePeriodEnd []) { running with
      sup := { running.sup with reference := 300 }, web := { running.web with loss := 2, snapshot := 1200 } })
      (fun t => t.web.loss = 3 && t.sup.line = .safeStop && t.sup.cause = .encoder) = true := by decide +kernel

/-- R28's example distances at v = 3,000, s_down = 30. -/
def fast : State := { live with web := { live.web with v := 3000 } }
theorem test_stop : fast.dStop = 25000 ∧ fast.dApp 2000 = 13889 := by decide +kernel
theorem test_approach_slow : { live with web := { live.web with v := 1800 } : State }.dApp 1600 = 1889 := by decide +kernel

/-- Chapter 3's example: planned length of 3,357 and 143 cuts, spoiled cuts of the mark, the clamp to 150,300. -/
theorem test_needed : cutsNeeded 10000 3 = 3334 := by decide +kernel
theorem test_planned : plannedLength [1200, 900] 3357 = 3525000 := by decide +kernel
theorem test_clamp : cutsToBoundary 10000000 [1200, 900] 10150000 = 143 ∧ plannedLength [1200, 900] 143 = 150300 := by decide +kernel
theorem test_spoiled :
    spoiledFrom [1200, 900] [⟨10005000, 10006500, .s1, .planned, none⟩] 10006500 10 3354 0 10000000 = 3 := by decide +kernel

/-- Chapter 5's example readings, with core 100 and caliper 200. -/
theorem test_length : remainingLength 900 100 200 = 3141592 ∧ remainingLength 879 100 200 = 2994883
    ∧ remainingLength 845 100 200 = 2764699 ∧ remainingLength 100 100 200 = 0 := by decide +kernel

/-- Chapter 7's example table and its values at 2,376 and 2,430. -/
def table3 : List Breakpoint := [⟨1000, 600, 180, 1600⟩, ⟨2000, 450, 150, 1700⟩, ⟨3000, 300, 130, 1800⟩]
theorem test_setpoints_2376 : setpointsAt table3 2376 = ⟨394, 142, 1738, 2376⟩ := by decide +kernel
theorem test_setpoints_2430 : setpointsAt table3 2430 = ⟨385, 141, 1743, 2430⟩ := by decide +kernel
theorem test_half_away : interpolate (·.gap) 2375 table3 = 142 := by decide +kernel
theorem test_ceilings : inverseSpeed 1735 table3 = some 2350 ∧ inverseSpeed 1790 table3 = some 2900 ∧ inverseSpeed 1805 table3 = none := by
  decide +kernel
/-- The flat stretch of chapter 7's second table. -/
def table5 : List Breakpoint := [⟨1000, 0, 50, 1600⟩, ⟨2000, 0, 50, 1700⟩, ⟨2500, 0, 50, 1700⟩, ⟨3000, 0, 50, 1800⟩]
theorem test_flat : inverseSpeed 1650 table5 = some 1500 ∧ inverseSpeed 1700 table5 = some 2500 ∧ inverseSpeed 1760 table5 = some 2800 := by
  decide +kernel

/-- Chapter 8's example: ratios with C = 1,500, and the transition of 5,000 mm with Lmax 2,200. -/
theorem test_ratios : [1200, 900, 1667, 1666, 800].map (fun l => ratioOf l 1500) = [819, 614, 1138, 1137, 546] := by decide +kernel
theorem test_pieces : (List.range 3).map (dividedInto 5000 2200).piece = [1667, 1667, 1666] ∧ (dividedInto 5000 2200).count = 3 := by
  decide +kernel

/-- Chapter 6's example: the windows of S1 and S3 at W = 6,760,000. -/
def twoStands : State :=
  { live with
    web := { live.web with w := 6760000 }
    cond := { live.cond with grades := [.defined { grade0 with factors := { PerStand.same 1430 with s3 := 1250 } }] }
    reels := { grade := some 0, stand :=
      { PerStand.same stand0 with
        s1 := { stand0 with basis := some ⟨653451, 6760000⟩ }, s3 := { stand0 with basis := some ⟨618972, 6760000⟩ } } } }
theorem test_windows : twoStands.window .s1 = some ⟨6937238, 7195979⟩ ∧ twoStands.window .s3 = some ⟨6935177, 7231177⟩ := by decide +kernel

/-- The check of "123456789" with these parameters is 29B1h: the published check value of this CRC, from outside the manual. -/
theorem test_crc : crc [0x31#8, 0x32#8, 0x33#8, 0x34#8, 0x35#8, 0x36#8, 0x37#8, 0x38#8, 0x39#8] = 0x29B1#16 := by decide +kernel

/-- The layout of chapter 11: an IDENTIFY request of tag 7 is A5h, length 0, tag, kind and the check. -/
theorem test_frame : (hostFrameBytes 7#8 1#8 []).take 5 = [0xA5#8, 0#8, 0#8, 7#8, 1#8] := by decide +kernel
theorem test_frame_received :
    after (exec (.hostFrameReceived (hostFrameBytes 7#8 1#8 [9#8])) live) (fun t => t.host.holding = [⟨7#8, 1#8, [9#8]⟩]) = true := by
  decide +kernel

/-- The rows of R167 on the acceptance of routes. -/
theorem test_routes : acceptRoutes 8 [⟨true, 7⟩, ⟨false, 8⟩, ⟨true, 9⟩] = [⟨true, 9⟩] ∧ acceptRoutes 5 [⟨true, 7⟩] = [⟨true, 7⟩] := by
  decide +kernel

/-! ### States that meet the hypotheses of the statements

One theorem a statement, one conjunct a clause, in the order of its clauses; the request clauses are met by `asks`. -/

theorem wit_TicksAndAdvances :
    (live.pending = [] ∧ live.pins.loaded = true ∧ live.pins.resetLow = false) ∧
    (flight live .stacker .init).line.inFlight.isSome = true ∧ ([AdvancePhase.cut, .glue].Nodup ∧ [GatePhase.ramp].Nodup) ∧
    (counting 3096 0).profile.encoderK ≤ (counting 3096 0).web.r + 1000 := by decide +kernel
theorem test_every_block :
    (inOrder [AdvancePhase.glue, .cut] allAdvancePhases).Perm allAdvancePhases ∧ allGatePhases.Nodup := by decide
theorem wit_StepKeeps : step running = .next running.tick ∧ running.Bounded ∧ running.HoldsAgree ∧ running.OneFiring
    ∧ running.ReferenceSafe ∧ running.ZonesSized ∧ running.QueueEndStands ∧ running.RemainderGood := by
  refine ⟨rfl, ⟨by decide, by decide, by decide, by decide, by decide⟩,
    ⟨fun h => (nomatch h), fun _ => rfl, fun h => (nomatch h), fun h => absurd rfl h, rfl, rfl, rfl⟩, fun i j h => ?_,
    ⟨fun h => (nomatch h), by decide, fun h => (nomatch h), fun h => (nomatch h)⟩,
    ⟨fun h => (nomatch h), by decide, fun h => (by rcases h with h | h <;> cases h), fun h => (nomatch h)⟩, fun h => (nomatch h),
    ⟨fun h => (nomatch h), ⟨fun _ h => (nomatch h), fun _ h => (nomatch h), fun _ h => (nomatch h)⟩, by decide, by decide⟩⟩
  cases i <;> cases h

/-- The receiver part way through a frame. -/
def inFrame (g : List Byte) : State := { live with host := { live.host with gathered := some g } }
def low : State := { live with pins := { live.pins with resetLow := true } }

theorem wit_FramesAndCheck :
    (live.pins.resetLow = false ∧ live.host.gathered = none ∧ (List.replicate 2 0#8).length ≤ 1000) ∧ 65535 < 256 ^ 2 := by
  decide +kernel
theorem wit_HostBytes :
    (live.pins.resetLow = false ∧ live.host.gathered = none) ∧
    ((inFrame []).pins.resetLow = false ∧ (inFrame []).host.gathered = some []) ∧
    (1000 < fieldAt ([0x03#8] ++ [0xE9#8]) 0 2) ∧
    (fieldAt ([0x03#8] ++ [0xE8#8]) 0 2 ≤ 1000 ∧ [0x03#8].length + 1 < fieldAt ([0x03#8] ++ [0xE8#8]) 0 2 + 6) ∧
    (let g : List Byte := [0#8, 0#8, 7#8, 1#8, 0#8]
     fieldAt (g ++ [0#8]) 0 2 ≤ 1000 ∧ fieldAt (g ++ [0#8]) 0 2 + 6 ≤ g.length + 1 ∧ checkGood (g ++ [0#8]) = false) ∧
    low.pins.resetLow = true := by decide +kernel
theorem wit_EncoderPulse :
    (live.pins.loaded = true ∧ live.pins.resetLow = false) ∧
    (counting 3095 0).web.r + 1000 < (counting 3095 0).profile.encoderK ∧
    ((counting 3096 0).profile.encoderK ≤ (counting 3096 0).web.r + 1000 ∧ (counting 3096 281474976710654).web.w < 281474976710655) ∧
    281474976710655 ≤ (counting 3096 281474976710655).web.w ∧
    (State.reset.pins.loaded = false ∧ low.pins.resetLow = true) := by decide +kernel
theorem wit_GatePeriodEndMeasures :
    (running.pins.loaded = true ∧ running.pins.resetLow = false) ∧ (State.reset.pins.loaded = false ∧ low.pins.resetLow = true) ∧
    (running.sup.line = .run ∧ live.sup.line ≠ .run ∧ live.sup.line ≠ .hold) := by
  decide +kernel

/-- Run at a reference, with a host speed command. -/
def atSpeed (ref host : Nat) : State := { running with sup := { running.sup with reference := ref, hostSpeed := host } }
theorem wit_GateRamp :
    ((atSpeed 100 110).sup.reference < min (atSpeed 100 110).sup.hostSpeed (atSpeed 100 110).effectiveCeiling) ∧
    (min (atSpeed 100 99).sup.hostSpeed (atSpeed 100 99).effectiveCeiling < (atSpeed 100 99).sup.reference) ∧
    ((atSpeed 100 100).sup.reference = min (atSpeed 100 100).sup.hostSpeed (atSpeed 100 100).effectiveCeiling) ∧
    ((atSpeed 3001 0).effectiveCeiling < (atSpeed 3001 0).sup.reference) := by decide +kernel

theorem wit_QueriesAnswer :
    (asking live 0x01 []).Asks 0x01 (frame 0x01 []) ∧ (asking live 0x02 []).Asks 0x02 (frame 0x02 []) ∧
    (asking live 0x23 [0, 0, 0, 1]).Asks 0x23 (frame 0x23 [0, 0, 0, 1]) ∧ (asking live 0x24 []).Asks 0x24 (frame 0x24 []) ∧
    (asking live 0x25 [0, 0]).Asks 0x25 (frame 0x25 [0, 0]) ∧ (asking live 0x32 [15]).Asks 0x32 (frame 0x32 [15]) ∧
    (asking live 0x33 [7]).Asks 0x33 (frame 0x33 [7]) ∧ (asking live 0x43 [0]).Asks 0x43 (frame 0x43 [0]) ∧
    (asking live 0x60 []).Asks 0x60 (frame 0x60 []) ∧ running.map.zones.length ≤ 48 :=
  ⟨asks rfl rfl (by decide), asks rfl rfl (by decide), asks rfl rfl (by decide), asks rfl rfl (by decide), asks rfl rfl (by decide),
   asks rfl rfl (by decide), asks rfl rfl (by decide), asks rfl rfl (by decide), asks rfl rfl (by decide), by decide⟩

theorem wit_RequestsJudged :
    (Instr.requestKind .hold = some 0x11 ∧ payloadLength 0x11 = some 0 ∧ (asking running 0x11 [0]).Asks 0x11 (frame 0x11 [0])) ∧
    (orderWellFormed [] = false ∧ (asking live 0x20 []).Asks 0x20 (frame 0x20 [])) ∧
    (amendmentOf [0x02, 0] = none ∧ (asking live 0x21 [0, 0, 0, 1, 0x02, 0]).Asks 0x21 (frame 0x21 [0, 0, 0, 1, 0x02, 0])) ∧
    (asking live 0x30 [0, 0]).Asks 0x30 (frame 0x30 [0, 0]) ∧ (asking live 0x31 [0, 1]).Asks 0x31 (frame 0x31 [0, 1]) ∧
    live.host.holding = [] ∧ low.pins.resetLow = true ∧
    ((asking live 0x12 []).offered = some (frame 0x12 []) ∧ (frame 0x12 []).kind.toNat ≠ 0x11) ∧
    ((asking live 0x17 []).offered = some (frame 0x17 []) ∧ (frame 0x17 []).kind.toNat ∉ requestKinds) ∧
    ((frame 0x11 []).kind.toNat ∈ requestKinds) ∧ live.offered = none :=
  ⟨⟨rfl, rfl, asks rfl rfl (by decide)⟩, ⟨by decide, asks rfl rfl (by decide)⟩, ⟨by decide +kernel, asks rfl rfl (by decide)⟩,
   asks rfl rfl (by decide), asks rfl rfl (by decide), rfl, rfl, ⟨rfl, by decide⟩, ⟨rfl, by decide⟩, by decide, rfl⟩

def manyEvents (n : Nat) : State :=
  { live with host := { live.host with events := List.replicate n ⟨0, 0, .linkSilent⟩, overflow := true } }
theorem wit_ReadEvents :
    (asking (manyEvents 3) 0x03 [1]).Asks 0x03 (frame 0x03 [1]) ∧ (1 ≤ byteAt [1] 0 ∧ byteAt [16] 0 ≤ 16) ∧
    (byteAt [0] 0 = 0 ∧ 16 < byteAt [17] 0) ∧ (manyEvents 128).host.events.length = 128 :=
  ⟨asks rfl rfl (by decide), by decide, by decide, by simp [manyEvents]⟩

/-- The live state without what START asks for, one condition at a time. -/
def notValid : State := { live with store := { live.store with valid := false } }
def notOnline : State := live.modNode .stacker fun r => { r with service := .initialising }
def noOrder : State := { live with orders := { live.orders with list := [] } }
def wrongPaper : State := { live with orders := { live.orders with list := [{ order 1 with grade := 1 }] } }

theorem wit_LineRequestsRefused :
    ((asking live 0x11 []).Asks 0x11 (frame 0x11 []) ∧ live.sup.line ≠ .run ∧ live.sup.line ≠ .hold) ∧
    ((asking live 0x12 []).Asks 0x12 (frame 0x12 []) ∧ live.sup.line ≠ .tripped ∧ live.sup.line ≠ .lockout) ∧
    ((asking live 0x14 []).Asks 0x14 (frame 0x14 []) ∧ (asking live 0x15 []).Asks 0x15 (frame 0x15 [])) ∧
    ((asking (inLine live .tripped) 0x16 [0, 0]).Asks 0x16 (frame 0x16 [0, 0]) ∧ (inLine live .tripped).sup.line = .tripped) ∧
    (asking live 0x10 []).Asks 0x10 (frame 0x10 []) ∧ running.sup.line ≠ .standby ∧
    (notValid.sup.line = .standby ∧ notValid.store.valid = false) ∧
    (notOnline.store.valid = true ∧ notOnline.allOnline = false) ∧
    (noOrder.allOnline = true ∧ noOrder.firstQueued = none) ∧
    (wrongPaper.firstQueued = some { order 1 with grade := 1 } ∧ wrongPaper.papersMatch 1 = false) :=
  ⟨⟨asks rfl rfl (by decide), by decide, by decide⟩, ⟨asks rfl rfl (by decide), by decide, by decide⟩,
   ⟨asks rfl rfl (by decide), asks rfl rfl (by decide)⟩, ⟨asks rfl rfl (by decide), rfl⟩, asks rfl rfl (by decide), by decide,
   by decide, by decide, by decide, by decide +kernel⟩

theorem wit_StartRuns : (asking live 0x10 []).Asks 0x10 (frame 0x10 []) ∧ live.sup.line = .standby ∧ live.store.valid = true ∧
    live.allOnline = true ∧ live.firstQueued = some (order 1) ∧ live.papersMatch 0 = true ∧ live.map.zones = [] ∧
    (live.order? 1 = some (order 1) ∧ live.horizon < live.profile.dThread + plannedLength (order 1).pattern 3354) := by
  refine ⟨asks rfl rfl (by decide), ?_⟩
  decide +kernel
/-- The live state with the first order's set on the Engaged station A. -/
def setOnA : State := { live with cut := { live.cut with station := ⟨⟨.engaged, some tools0, none, none⟩, StationRecord.reset⟩ } }
/-- R142 with no station Engaged: the swap is to station A, and A must take SET. -/
theorem wit_StartRuns_station :
    (setOnA.AtHand (order 1).tools ∧ setOnA.sup.line = .standby ∧ setOnA.allOnline = true ∧ setOnA.order? 1 = some (order 1)) ∧
    (¬ live.AtHand (order 1).tools ∧ live.web.w < (live.swapTo (live.web.w + live.profile.dThread) (order 1).tools).point) ∧
    live.MustSet (live.cut.swaps ++ [live.swapTo (live.web.w + live.profile.dThread) (order 1).tools]) .a tools0 ∧
    (live.swapTo (live.web.w + live.profile.dThread) (order 1).tools).outgoing = none :=
  ⟨⟨⟨rfl, .a, rfl, rfl, rfl⟩, rfl, by decide, rfl⟩, ⟨fun ⟨_, x, h, _⟩ => absurd h (by cases x <;> decide), by decide +kernel⟩,
   ⟨by decide +kernel, by decide, by decide, by decide⟩, rfl⟩
/-- R142: without the set at hand station A is Setting with SET queued, and with the swap point 1,000 mm ahead its last call passes at once
and SET_WAIT is raised; with the set at hand nothing is appended. -/
theorem test_start_station :
    after (exec .start (asking { live with profile := live.profile.write 11 11000 } 0x10 [])) (fun t =>
      (t.station .a).state = .setting && t.line.normal.contains ⟨.station .a, .set tools0⟩ && t.cut.swaps.length = 1 && t.sup.setWait.a &&
      t.sup.line = .hold) = true ∧
    after (exec .start (asking setOnA 0x10 [])) (fun t => t.cut.swaps = [] && t.cut.station = setOnA.cut.station) = true := by decide +kernel

/-- Hold with some reasons. -/
def held (h : Holds) : State := { running with sup := { running.sup with line := .hold, holds := h } }
def hostHold : State := held { Holds.empty with host := true }
theorem wit_HoldAndResume :
    ((asking running 0x11 []).Asks 0x11 (frame 0x11 []) ∧ running.sup.line = .run ∧ running.sup.holds.host = false) ∧
    (hostHold.sup.line = .hold ∧ hostHold.sup.holds.host = true) ∧
    ((asking hostHold 0x12 []).Asks 0x12 (frame 0x12 []) ∧ hostHold.sup.holds.queueEnd = false) ∧
    (running.sup.holds.queueEnd = false ∧ running.sup.holds.host = false ∧ running.sup.holds.order = false) :=
  ⟨⟨asks rfl rfl (by decide), rfl, rfl⟩, ⟨rfl, rfl⟩, ⟨asks rfl rfl (by decide), rfl⟩, rfl, rfl, rfl⟩

/-- Hold at a terminal boundary, an open runout at the knife, order 2 Queued. -/
def atEnd : State :=
  { held { Holds.empty with queueEnd := true, host := true } with
    web := { Web.reset with w := 3521800 }
    orders := { list := [{ order1 with state := .ending, zoneEnd := some 3521700 }, order 2], recent := [] }
    map := { WebMap.reset with
      zones := [{ zone1 with stop := some 3521700 }, newZone .runout 3521700 none false (.same false)]
      terminal := some 3521700, queueEndCall := true }
    cut := { running.cut with
      schedule := some { pieceStart := 3521700, nextCut := 3524700, zone := 3521700, index := 0, plan := none } } }
/-- The same with the closing coordinate not beyond the terminal boundary, and with a short order 2 at a deferral limit of 1. -/
def beforeEnd : State := { atEnd with web := { Web.reset with w := 3501700 } }
def shortEnd : State :=
  { atEnd with
    orders := { list := [{ order 2 with quantity := 3, overrun := 0, needed := 1, planned := 1 }], recent := [] }
    profile := { atEnd.profile with deferLimit := 1 } }
theorem wit_ResumeBehindRunout :
    (asking atEnd 0x12 []).Asks 0x12 (frame 0x12 []) ∧ (atEnd.sup.line = .hold ∧ atEnd.sup.holds.queueEnd = true) ∧
    atEnd.firstQueued = some (order 2) ∧ (atEnd.store.valid = true ∧ atEnd.allOnline = true ∧ atEnd.papersMatch 0 = true) ∧
    ({ atEnd with store := Store.blank } : State).store.valid = false ∧
    (atEnd.modNode .stacker fun r => { r with service := .faulted }).allOnline = false ∧ atEnd.papersMatch 1 = false ∧
    (atEnd.map.terminal = some 3521700 ∧ atEnd.map.zones.getLast? = some (newZone .runout 3521700 none false (.same false)) ∧
      3521700 < atEnd.web.w + atEnd.profile.dThread ∧ ¬ 3521700 < beforeEnd.web.w + beforeEnd.profile.dThread) ∧
    (atEnd.order? 2 = some (order 2) ∧ atEnd.horizon < 3541800 + plannedLength (order 2).pattern 3354) :=
  ⟨asks rfl rfl (by decide), ⟨rfl, rfl⟩, by decide, ⟨rfl, by decide, by decide⟩, rfl, by decide, by decide, by decide +kernel,
   by decide +kernel⟩
/-- The next cut of the open runout beyond its new end 3,541,800: its present piece becomes 20,100 mm, of ratio 13,722 (R144, R146). -/
def longPiece : State :=
  { atEnd with cut := { atEnd.cut with
      schedule := some { pieceStart := 3521700, nextCut := 3551700, zone := 3521700, index := 0, plan := none } } }
theorem wit_ResumeBehindRunout_ratio :
    after (exec .resume (asking longPiece 0x12 [])) (fun t =>
      t.cut.schedule.map (fun k => k.nextCut - k.pieceStart) = some 20100 && t.cut.ratio = 13722 && t.pins.ratioStrobes = 1) = true ∧
    after (exec .resume (asking atEnd 0x12 [])) (fun t => t.cut.ratio = atEnd.cut.ratio && t.pins.ratioStrobes = 0) = true := by
  decide +kernel
theorem wit_ResumeBehindRunout_ends :
    after (exec .resume (asking atEnd 0x12 [])) (fun t => t.map.terminal.isNone) = true ∧
    after (exec .resume (asking shortEnd 0x12 [])) (fun t => t.map.terminal.isSome) = true := by decide +kernel
/-- The same runout with order 2 of another set: the swap is to station B. -/
def otherSetEnd : State :=
  { atEnd with orders := { atEnd.orders with list := [{ order1 with state := .ending, zoneEnd := some 3521700 }, { order 2 with tools := tools1 }] } }
theorem wit_ResumeBehindRunout_station :
    (atEnd.AtHand (order 2).tools ∧ otherSetEnd.firstQueued = some { order 2 with tools := tools1 }) ∧
    (¬ otherSetEnd.AtHand tools1 ∧ otherSetEnd.web.w < (otherSetEnd.swapTo 3541800 tools1).point ∧
      otherSetEnd.MustSet (otherSetEnd.cut.swaps ++ [otherSetEnd.swapTo 3541800 tools1]) .b tools1) :=
  ⟨⟨⟨rfl, .a, rfl, rfl, rfl⟩, by decide⟩, fun ⟨_, x, h, _, k⟩ => by cases x; exact absurd k (by decide); exact absurd h (by decide),
   by decide +kernel, by decide +kernel, by decide, by decide, by decide⟩

def armed : State := withPlan { running with sup := { running.sup with trips := 5 } } (plan .armed)
theorem wit_EmergencyStop :
    (asking armed 0x13 []).Asks 0x13 (frame 0x13 []) ∧ armed.sup.line = .run ∧ (live.sup.line ≠ .run ∧ live.sup.line ≠ .hold) :=
  ⟨asks rfl rfl (by decide), rfl, by decide, by decide⟩

/-- Tripped, with order 1 running, a sheet in the queue and a plan still Firing. -/
def tripped : State :=
  { withPlan (inLine running .tripped) (plan .firing) with
    sup := { running.sup with line := .tripped, cause := .knife, trips := 2, linkTimer := none }
    router := { running.router with
      sheets := [⟨0, 1200, .order, some 1, false⟩], stack := some ⟨1, 1, 40⟩ } }
/-- Tripped with an order of every state: 1 Running with enough good sheets and 2 Ending without, 3 Queued, 4 Scheduled, 5 Fixed and
cancelled. -/
def many (st : StackerState) (buffer : List BufferRun) : State :=
  let o (n : Nat) (x : OrderState) : Order := { order n with state := x, zoneStart := some 0 }
  { tripped with
    orders := { tripped.orders with list :=
      [{ o 1 .running with good := 3334 }, o 2 .ending, o 3 .queued, o 4 .scheduled, { o 5 .fixed with cancelled := true }] }
    router := { tripped.router with stacker := st, buffer := buffer } }
theorem wit_TeardownSettles_orders :
    ((asking (many .stacking []) 0x14 []).Asks 0x14 (frame 0x14 []) ∧ (many .stacking []).sup.line = .tripped ∧
      (many .stacking []).router.stack = some ⟨1, 1, 40⟩) ∧
    ((many .stacking []).orders.list.length ≤ 24 ∧ ((many .stacking []).orders.list.map (·.number)).Nodup ∧
      (many .stacking []).orders.list.map (·.state) = [.running, .ending, .queued, .scheduled, .fixed] ∧
      (many .stacking []).orders.list.map (·.cancelled) = [false, false, false, false, true] ∧
      (10000 ≤ 3334 * 3 ∧ 0 * 3 < 10000)) ∧
    ((asking (inLine (many .changing [⟨2, 300, none⟩]) .lockout) 0x15 []).Asks 0x15 (frame 0x15 []) ∧
      (inLine (many .changing [⟨2, 300, none⟩]) .lockout).sup.line = .lockout ∧
      (many .changing [⟨2, 300, none⟩]).router.buffer = [⟨2, 300, none⟩]) :=
  ⟨⟨asks rfl rfl (by decide), by decide, by decide⟩, by decide +kernel, asks rfl rfl (by decide), by decide, by decide⟩
theorem wit_TeardownSettles :
    ((asking tripped 0x14 []).Asks 0x14 (frame 0x14 []) ∧ tripped.sup.line = .tripped) ∧
    ((asking (inLine tripped .lockout) 0x15 []).Asks 0x15 (frame 0x15 []) ∧ (inLine tripped .lockout).sup.line = .lockout ∧
      tripped.store.writing = none ∧ tripped.store.tripWriting = none) :=
  ⟨⟨asks rfl rfl (by decide), rfl⟩, asks rfl rfl (by decide), rfl, rfl, rfl⟩

theorem wit_SetSpeed : (asking live 0x16 [0x0B, 0xB9]).Asks 0x16 (frame 0x16 [0x0B, 0xB9]) ∧ live.sup.line = .standby :=
  ⟨asks rfl rfl (by decide), rfl⟩

/-- An ADD ORDER payload: number, target, grade, ups 3, one length of 1,200, quantity 300, overrun 0, height 100, cap 0, no hold. -/
def addPayload (n target grade ups : Byte) : List Byte :=
  [0, 0, 0, n, 0, 0, 0, target, grade, ups, 1, 0, 0, 0, 0, 1, 0x2C, 0, 0, 0, 100, 0, 0, 0, 0x04, 0xB0]
def full : State := { live with orders := { live.orders with list := List.replicate 24 (order 1) } }
theorem wit_AddOrder :
    (asking live 0x20 (addPayload 3 0 0 3)).Asks 0x20 (frame 0x20 (addPayload 3 0 0 3)) ∧ orderWellFormed (addPayload 3 0 0 3) = true ∧
    State.reset.sup.line = .startUp ∧ live.sup.line ≠ .startUp ∧
    orderInRange live.profile (addPayload 3 0 0 9) (orderOf (addPayload 3 0 0 9)) = false ∧
    orderInRange live.profile (addPayload 3 0 0 8) (orderOf (addPayload 3 0 0 8)) = true ∧
    ((live.grade? 2).isSome = false ∧ orderInRange live.profile (addPayload 3 0 2 8) (orderOf (addPayload 3 0 2 8)) = true) ∧
    (live.grade? 1).isSome = true ∧ live.order? 1 ≠ none ∧ live.order? 3 = none ∧
    ((live.order? 9).isSome = false ∧ fieldAt (addPayload 3 9 0 8) 4 4 = 9) ∧
    ((running.order? 1).isSome = true ∧ (running.order? 1).any (fun x => x.state = .queued) = false) ∧
    (running.order? 2).any (fun x => x.state = .queued) = true ∧ (24 ≤ full.orders.list.length ∧ full.order? 3 = none) ∧
    (live.orders.list.length < 24 ∧ live.map.deferrals = 0) := by
  refine ⟨asks rfl rfl (by decide), ?_⟩
  decide +kernel

/-- An AMEND ORDER payload for order `n` that gives the height alone, or the grade alone. -/
def amendHeight (n h : Byte) : List Byte := [0, 0, 0, n, 0, 64, 0, h]
def amendGrade (n g : Byte) : List Byte := [0, 0, 0, n, 0, 1, g]
def amendCap (n c : Byte) : List Byte := [0, 0, 0, n, 0, 128, 0, c]
def amendOverrun (n x : Byte) : List Byte := [0, 0, 0, n, 0, 32, 0, x]
theorem wit_AmendOrder :
    (asking live 0x21 (amendHeight 1 50)).Asks 0x21 (frame 0x21 (amendHeight 1 50)) ∧
    (amendmentOf ((amendHeight 1 50).drop 4)).isSome = true ∧ State.reset.sup.line = .startUp ∧ live.order? 9 = none ∧
    ((amendmentOf ((amendGrade 1 1).drop 4)).all (fun m => !m.allowed order1) = true ∧ running.order? 1 = some order1) ∧
    (amendmentOf ((amendHeight 1 0).drop 4)).all (fun m => !m.inRange live.profile) = true ∧
    ((amendmentOf ((amendGrade 1 5).drop 4)).all (fun m => m.inRange live.profile && m.grade = some 5) = true ∧
      (live.grade? 5).isNone = true) ∧
    ((amendmentOf ((amendHeight 1 50).drop 4)).all (fun m => m.inRange live.profile && m.allowed (order 1) && m.allowed order1
        && m.quantity.isNone && m.overrun.isNone && m.cap.isNone && m.grade.isNone) = true ∧
      live.order? 1 = some (order 1) ∧ (order 1).state = .queued ∧ (order 1).cancelled = false ∧ order1.state ≠ .queued ∧
      live.map.deferrals = 0) ∧
    (amendmentOf ((amendCap 1 250).drop 4)).all (fun m => m.inRange running.profile && m.cap.isSome && m.allowed order1) = true ∧
    ((amendmentOf ((amendOverrun 1 30).drop 4)).all (fun m => m.inRange running.profile && m.resizes && m.allowed order1) = true ∧
      (∀ x ∈ running.orders.list, x.number = 1 → x.zoneStart.isSome = true) ∧ running.map.openOrder = some 1 ∧
      running.horizon < plannedLength order1.pattern 3364 ∧
      plannedLength order1.pattern 3364 ≤ ({ running with web := { Web.reset with w := 3332200 } } : State).horizon) := by
  refine ⟨asks rfl rfl (by decide), ?_⟩
  decide +kernel

def scheduled : State :=
  { running with orders := { running.orders with list := [{ order1 with state := .scheduled }, order 2] } }
def cancelled : State :=
  { live with orders := { live.orders with list := [{ order 1 with cancelled := true }] } }
theorem wit_CancelOrder :
    (asking live 0x22 [0, 0, 0, 1]).Asks 0x22 (frame 0x22 [0, 0, 0, 1]) ∧ fieldAt [0, 0, 0, 1] 0 4 = 1 ∧ live.order? 9 = none ∧
    (live.order? 1 = some (order 1) ∧ (order 1).state = .queued) ∧ scheduled.order? 1 = some { order1 with state := .scheduled } ∧
    (order1.zoneStart = some 0 ∧ order1.pattern ≠ [] ∧ (∀ l ∈ order1.pattern, 1 ≤ l) ∧
      ∀ x ∈ scheduled.orders.list, x.number = 1 → x = { order1 with state := .scheduled }) := by
  refine ⟨asks rfl rfl (by decide), ?_⟩
  decide +kernel
theorem wit_CancelLocked :
    ((asking running 0x22 [0, 0, 0, 1]).Asks 0x22 (frame 0x22 [0, 0, 0, 1]) ∧ running.order? 1 = some order1 ∧ order1.state = .running) ∧
    (asking cancelled 0x21 (amendHeight 1 50)).Asks 0x21 (frame 0x21 (amendHeight 1 50)) ∧
    cancelled.order? 1 = some { order 1 with cancelled := true } :=
  ⟨⟨asks rfl rfl (by decide), by decide +kernel, rfl⟩, asks rfl rfl (by decide), by decide +kernel⟩

/-- A DEFINE GRADE payload: five codes of 7, five factors of 1,400, a table, a limit of 900. -/
def gradePayload (slot table : Byte) : List Byte :=
  [slot, 0, 7, 0, 7, 0, 7, 0, 7, 0, 7, 5, 0x78, 5, 0x78, 5, 0x78, 5, 0x78, 5, 0x78, table, 3, 0x84]
/-- A DEFINE TABLE payload of two breakpoints. -/
def tablePayload (i : Byte) : List Byte := [i, 2, 3, 0xE8, 0, 10, 0, 180, 6, 0x40, 7, 0xD0, 0, 10, 0, 150, 6, 0xA4]
def image0 : Image := { profile := .default, grades := [], tables := [], frozen := false }
def record0 : TripRecord := { trips := 2, flag := false }
def writing : State :=
  { live with store := { live.store with writing := some { op := .save, image := image0, begun := some record0 } } }
theorem wit_GradesAndTables :
    (asking live 0x30 [15]).Asks 0x30 (frame 0x30 [15]) ∧ (15 < byteAt [16] 0 ∧ byteAt [15] 0 ≤ 15) ∧
    (running.gradeLocked 0 = true ∧ live.gradeLocked 0 = false) ∧ (writing.store.writing.isSome = true ∧ live.store.writing = none) ∧
    (asking live 0x30 (gradePayload 1 0)).Asks 0x30 (frame 0x30 (gradePayload 1 0)) ∧ (gradePayload 1 0).length = 24 ∧
    (gradeGood (gradeOf (gradePayload 1 0)) = true ∧ gradeGood (gradeOf (gradePayload 1 8)) = false) ∧
    ((live.cond.tables.getD 0 none).isSome = true ∧ (live.cond.tables.getD 1 none).isSome = false) ∧
    (asking live 0x31 (tablePayload 7)).Asks 0x31 (frame 0x31 (tablePayload 7)) ∧
    (tablePayload 7).length = 2 + 8 * byteAt (tablePayload 7) 1 ∧
    tableGood (breakpointsAt (tablePayload 7) 2 2) = true ∧ tableGood (breakpointsAt (tablePayload 7) 2 1) = false ∧
    (running.tableLocked 0 = true ∧ live.tableLocked 0 = false) := by
  refine ⟨asks rfl rfl (by decide), by decide +kernel, by decide +kernel, by decide +kernel, asks rfl rfl (by decide), ?_, ?_, ?_,
    asks rfl rfl (by decide), ?_⟩ <;> decide +kernel

/-- An ASSIGN REEL payload for an arm of stand 1. -/
def reelPayload (arm code : Byte) : List Byte := [0, arm, 0, 0, 0, 9, 0, code, 0, 250, 0, 100]
def firing1 : State := withPlan running { plan .firing with resultTimer := some 0 }
def spentArm : State := live.modStand .s1 fun r => r.modArm .b fun a => { a with state := .spent }
theorem wit_ReelData_refused :
    ((asking State.reset 0x40 (reelPayload 1 8)).Asks 0x40 (frame 0x40 (reelPayload 1 8)) ∧ State.reset.sup.line = .startUp) ∧
    (asking live 0x41 [5, 1]).Asks 0x41 (frame 0x41 [5, 1]) ∧ (live.sup.line ≠ .startUp ∧ live.maskedStand 5 = none) ∧
    armOfCode (byteAt [0, 2] 1) = none :=
  ⟨⟨asks rfl rfl (by decide), rfl⟩, asks rfl rfl (by decide), by decide, by decide⟩
theorem wit_ReelData :
    live.sup.line ≠ .startUp ∧ live.maskedStand (byteAt (reelPayload 1 8) 0) = some .s1 ∧
    armOfCode (byteAt (reelPayload 1 8) 1) = some .b ∧
    (asking live 0x40 (reelPayload 1 8)).Asks 0x40 (frame 0x40 (reelPayload 1 8)) ∧
    reelGood (reelOf (reelPayload 1 0)) = false ∧ reelGood (reelOf (reelPayload 1 1)) = true ∧
    ((spentArm.standRecord .s1).arms.get .b).state = .spent ∧
    (((live.standRecord .s1).arms.get .a).state = .running ∧ ((live.standRecord .s1).arms.get .a).data.isSome = true) ∧
    ((firing1.plan .s1).state = .firing ∧ ((firing1.standRecord .s1).arms.get .b).state = .prepared) ∧
    ((live.plan .s1).state ≠ .firing ∧ ((live.standRecord .s1).arms.get .b).state = .prepared) ∧
    (asking live 0x41 [0, 1]).Asks 0x41 (frame 0x41 [0, 1]) := by
  refine ⟨by decide, by decide, by decide, asks rfl rfl (by decide), ?_, ?_, ?_, ?_, ?_, ?_, asks rfl rfl (by decide)⟩ <;>
    decide +kernel

def gradePlanned : State := withPlan running { plan .planned with kind := some .grade }
def notPrepared : State := running.modStand .s1 fun r => r.modArm .b fun a => { a with state := .loaded }
theorem wit_SpliceNow :
    (asking running 0x42 [0]).Asks 0x42 (frame 0x42 [0]) ∧ live.maskedStand 5 = none ∧ running.maskedStand 0 = some .s1 ∧
    ((inLine live .tripped).sup.line ≠ .startUp ∧ (inLine live .tripped).sup.line ≠ .run) ∧ (armed.plan .s1).state = .armed ∧
    ((gradePlanned.plan .s1).kind = some .grade ∧ (gradePlanned.plan .s1).state = .planned) ∧
    (notPrepared.standRecord .s1).standbyPrepared = false ∧
    ((running.standRecord .s1).runningArm.isSome = true ∧ (running.standRecord .s1).standbyPrepared = true ∧
      running.online (.stand .s1) = true ∧ (running.plan .s1).state = .idle ∧ (running.plan .s1).kind ≠ some .grade) := by
  refine ⟨asks rfl rfl (by decide), ?_⟩
  decide +kernel

/-- The live state with the stacker in a service state. -/
def stacker (x : Service) (l : Latches) : State := live.modNode .stacker fun r => { r with service := x, latches := l }
def latched : Latches := { Latches.clear with stackFault := true }
theorem wit_Nodes_startUp :
    (asking State.reset 0x50 [12]).Asks 0x50 (frame 0x50 [12]) ∧ (asking State.reset 0x51 [12]).Asks 0x51 (frame 0x51 [12]) ∧
    (asking State.reset 0x52 [12]).Asks 0x52 (frame 0x52 [12]) ∧ State.reset.sup.line = .startUp ∧ live.namedNode (byteAt [13] 0) = none :=
  ⟨asks rfl rfl (by decide), asks rfl rfl (by decide), asks rfl rfl (by decide), rfl, by decide⟩
theorem wit_NodeOffline :
    (asking live 0x50 [12]).Asks 0x50 (frame 0x50 [12]) ∧ live.sup.line ≠ .startUp ∧ live.namedNode 0 = none ∧
    live.namedNode 12 = some .stacker ∧ running.sup.line = .run ∧
    ((withPlan live (plan .firing)).plan .s1).state = .firing ∧ ((stacker .offline .clear).node .stacker).service = .offline ∧
    (live.node .stacker).service ≠ .offline := by
  refine ⟨asks rfl rfl (by decide), ?_⟩
  decide +kernel
theorem wit_NodeOnline :
    (asking live 0x51 [12]).Asks 0x51 (frame 0x51 [12]) ∧ live.namedNode 12 = some .stacker ∧ (live.node .stacker).service = .online ∧
    ((stacker .faulted latched).node .stacker).service = .faulted ∧
    (((stacker .offline .clear).node .stacker).latches.faulting = false ∧ (stacker .offline .clear).namedNode 12 = some .stacker) ∧
    ((stacker .offline latched).node .stacker).latches.faulting = true := by
  refine ⟨asks rfl rfl (by decide), ?_⟩
  decide +kernel
theorem wit_AckFaults :
    (asking (stacker .faulted latched) 0x52 [12]).Asks 0x52 (frame 0x52 [12]) ∧ (stacker .faulted latched).sup.line ≠ .startUp ∧
    (stacker .faulted latched).namedNode (byteAt [12] 0) = some .stacker ∧
    (asking (stacker .faulted latched) 0x52 [0]).Asks 0x52 (frame 0x52 [0]) ∧ live.namedNode (byteAt [6] 0) = none :=
  ⟨asks rfl rfl (by decide), by decide +kernel, by decide +kernel, asks rfl rfl (by decide), by decide +kernel⟩

/-- A WRITE PROFILE ITEM payload. -/
def itemPayload (n : Byte) (x : Nat) : List Byte := n :: count x
def frozen : State := { live with store := { live.store with frozen := true } }
def withTrips (n : Nat) : State := { live with sup := { live.sup with trips := n } }
def twoInMask : State := { live with profile := live.profile.write 1 3 }
theorem wit_ProfileItemWritten :
    (asking live 0x61 (itemPayload 13 1000)).Asks 0x61 (frame 0x61 (itemPayload 13 1000)) ∧ (itemPayload 13 1000).length = 5 ∧
    itemInRange 13 999 = false ∧ itemInRange 42 0 = false ∧ itemInRange 13 1000 = true ∧
    running.sup.line = .run ∧ live.sup.line = .standby ∧ writing.store.writing.isSome = true ∧
    (withPlan live (plan .due)).removesBusyStand 1 (live.profile.write 1 2) = true ∧
    (geometryItem 13 = true ∧ frozen.store.frozen = true) ∧
    (live.removesBusyStand 15 (live.profile.write 15 1300) = false ∧ (live.profile.write 15 1300).consistent live.orders.list = false) ∧
    (live.store.frozen = false ∧ (live.profile.write 13 1000).consistent live.orders.list = true) := by
  refine ⟨asks rfl rfl (by decide), ?_⟩
  decide +kernel
theorem wit_ProfileItemWritten_tripLimit :
    ((asking (withTrips 3) 0x61 (itemPayload 39 2)).Asks 0x61 (frame 0x61 (itemPayload 39 2)) ∧ itemInRange 39 2 = true ∧
      (live.profile.write 39 2).consistent live.orders.list = true ∧ (live.profile.write 39 2).tripLimit < (withTrips 3).sup.trips ∧
      (withTrips 3).sup.lockFlag = false ∧ (withTrips 2).sup.trips ≤ (live.profile.write 39 2).tripLimit) := by
  refine ⟨asks rfl rfl (by decide), ?_⟩
  decide +kernel
theorem wit_ProfileItemWritten_mask :
    ((asking twoInMask 0x61 (itemPayload 1 5)).Asks 0x61 (frame 0x61 (itemPayload 1 5)) ∧ itemInRange 1 5 = true ∧
      twoInMask.removesBusyStand 1 (twoInMask.profile.write 1 5) = false ∧
      (twoInMask.profile.write 1 5).consistent twoInMask.orders.list = true ∧
      (twoInMask.profile.mask.get .s1 = true ∧ (twoInMask.profile.write 1 5).mask.get .s1 = true) ∧
      (twoInMask.profile.mask.get .s2 = true ∧ (twoInMask.profile.write 1 5).mask.get .s2 = false) ∧
      (twoInMask.profile.mask.get .s3 = false ∧ (twoInMask.profile.write 1 5).mask.get .s3 = true)) := by
  refine ⟨asks rfl rfl (by decide), ?_⟩
  decide +kernel
/-- Tripped with order 1 open to 3,521,700, at 3,321,700: the horizon of item 10 at 200,000 is its end. -/
def nearEnd : State := { inLine running .tripped with web := { Web.reset with w := 3321700 } }
theorem wit_ProfileItemWritten_atOnce :
    (∀ n ∈ [7, 9, 10, 12, 13, 28, 29, 37], (asking live 0x61 (itemPayload (BitVec.ofNat 8 n) 0)).Asks 0x61
      (frame 0x61 (itemPayload (BitVec.ofNat 8 n) 0))) ∧
    (∀ q ∈ [(7, 30000), (9, 2000), (10, 200000), (12, 1000), (13, 1000), (28, 2000), (29, 200), (37, 1)],
      itemInRange q.1 q.2 = true ∧ live.removesBusyStand q.1 (live.profile.write q.1 q.2) = false ∧
      (live.profile.write q.1 q.2).consistent live.orders.list = true) ∧
    (live.openOrder? = none ∧ nearEnd.openOrder? = some order1 ∧ order1.zoneStart = some 0 ∧ order1.plannedEnd = some 3521700 ∧
      nearEnd.web.w + (nearEnd.profile.write 10 199999).dCommit < 3521700 ∧
      3521700 ≤ nearEnd.web.w + (nearEnd.profile.write 10 200000).dCommit ∧
      (nearEnd.profile.write 10 200000).consistent nearEnd.orders.list = true ∧ nearEnd.sup.line = .tripped ∧
      ∀ x ∈ nearEnd.orders.list, x.number = order1.number → x = order1) := by
  refine ⟨fun n _ => asks rfl rfl (by decide), ?_⟩
  decide +kernel

def tripWriting (deferred : Bool) : State :=
  { live with store := { live.store with tripWriting := some record0, tripDeferred := deferred } }
theorem wit_SavesBegin :
    (asking live 0x62 []).Asks 0x62 (frame 0x62 []) ∧ (asking live 0x63 []).Asks 0x63 (frame 0x63 []) ∧
    (asking live 0x64 []).Asks 0x64 (frame 0x64 []) ∧ (asking live 0x65 []).Asks 0x65 (frame 0x65 []) ∧
    (State.reset.sup.line = .startUp ∧ live.sup.line = .standby ∧ running.sup.line = .run) ∧
    (writing.store.writing.isSome = true ∧ live.store.writing = none ∧ live.store.tripWriting = none) ∧
    (notValid.store.valid = false ∧ live.store.valid = true ∧ live.store.frozen = false ∧ frozen.store.frozen = true) ∧
    (tripWriting false).store.tripWriting.isSome = true :=
  ⟨asks rfl rfl (by decide), asks rfl rfl (by decide), asks rfl rfl (by decide), asks rfl rfl (by decide), by decide, by decide,
   by decide, by decide⟩

def replying (restart : Bool) : State := live.answer (replyTo (frame 0x65 []) .ok [] restart)
theorem wit_ResetsAndReplies :
    live.pins.resetLow = false ∧ low.pins.resetLow = true ∧ (live.resetPart .pin true).pins.resetLow = true ∧
    ((replying true).host.answering.map (·.restart) = some true ∧ (replying false).host.answering.map (·.restart) = some false) ∧
    live.host.answering = none := by decide +kernel
/-- The save in progress, with a changed trip record waiting. -/
def waitingTrip : State := { writing with store := { writing.store with tripDeferred := true } }
theorem wit_StoreWritesEnd :
    (writing.store.writing = some { op := .save, image := image0, begun := some record0 } ∧ writing.store.tripDeferred = false) ∧
    live.store.writing = none ∧
    ((tripWriting false).store.tripWriting = some record0 ∧ (tripWriting false).store.writing = none ∧
      (tripWriting false).store.tripDeferred = false ∧ (tripWriting true).store.tripDeferred = true) ∧
    ((waitingTrip.store.writing.bind (·.begun)) = some record0 ∧ waitingTrip.store.tripDeferred = true ∧
      waitingTrip.store.tripWriting = none) ∧
    ({ tripWriting true with store := { (tripWriting true).store with
      writing := some { op := .save, image := image0, begun := none } } } : State).store.writing.isSome = true ∧
    live.store.tripWriting = none := by decide +kernel

def quiet : State := { running with sup := { running.sup with linkTimer := some 4999 } }
/-- The running state with nothing at the glue roll yet, and with setpoints sent at a speed. -/
def unglued : State := { running with cond := { running.cond with glueGrade := none, inForce := none } }
def sentAt (v : Nat) : State := { running with cond := { running.cond with lastSent := some ⟨394, 142, 1738, v⟩ } }
theorem wit_SilenceStalenessAndSetpoints :
    (quiet.sup.linkTimer.isSome = true ∧ quiet.sup.silent = false) ∧ live.sup.linkTimer = none ∧
    (running.pins.loaded = true ∧ running.pins.resetLow = false ∧ running.cond.age ≤ 10000) ∧
    10000 < ({ running with cond := { running.cond with age := 10001 } } : State).cond.age ∧ running.profile.heatAction = .derate ∧
    (running.zoneAt (running.web.w + running.profile.pGlue) = some zone1 ∧ zone1.kind = .order ∧ running.gradeOfZone zone1 = some 0 ∧
      running.cond.glueGrade = some 0 ∧ unglued.cond.glueGrade = none) ∧
    ((unglued.grade? 0).bind (fun d => unglued.cond.tables.getD d.table none) = some table0 ∧ unglued.online .conditioning = true ∧
      (unglued.modNode .conditioning fun r => { r with service := .faulted }).online .conditioning = false) ∧
    (running.cond.lastSent = none ∧ running.cond.inForce = some table0 ∧ running.online .conditioning = true) ∧
    ((sentAt 100).cond.lastSent = some ⟨394, 142, 1738, 100⟩ ∧ (sentAt 100).web.v + (sentAt 100).profile.deadband ≤ 100 ∧
      (sentAt 0).cond.lastSent = some ⟨394, 142, 1738, 0⟩ ∧ (sentAt 0).web.v < 0 + (sentAt 0).profile.deadband) ∧
    unglued.cond.inForce = none := by
  decide +kernel

/-- A plan Due while the supply recharges, and the same with the air ready. -/
def dueOne : State :=
  { withPlan running (plan .due) with
    splice := { (withPlan running (plan .due)).splice with recharging := true, remaining := 1, lastAck := some 0 } }
def dueReady : State := withPlan running (plan .due)
theorem wit_ReadinessAndGrant :
    (((withPlan running (plan .planned)).plan .s1).target.getD 0 ≤ running.web.w ∧ (plan .planned).state = .planned) ∧
    ((armed.plan .s1).target = some 1000 ∧ 1000 ≤ armed.web.w ∧ (armed.plan .s1).state = .armed) ∧
    ((withPlan live (plan .blocked)).web.w < 1000 ∧ ((withPlan running (plan .blocked)).plan .s1).state = .blocked) ∧
    (armed.sup.line = .run ∧ (armed.plan .s1).state ≠ .idle ∧ (armed.plan .s1).state ≠ .firing) ∧
    (dueReady.splice.recharging = false ∧ dueReady.anyFiring = false ∧ dueReady.map.marks.length < 12 ∧
      dueReady.grantable .s1 = true) ∧ firing1.anyFiring = true ∧
    live.splice.recharging = false ∧ (dueOne.splice.recharging = true ∧ dueOne.grantable .s1 = true ∧ dueOne.anyFiring = false ∧
      dueOne.map.marks.length < 12) := by decide +kernel

/-- A transition whose fit for stand 1 lies in its window, and the state that holds it. -/
def change1 : Zone := newZone .transition 121700 (some 130000) false (.same false)
def planned1 : State := { running with map := { running.map with zones := [zone1, change1] } }
theorem wit_PlanningPass :
    (running.estimate .s1 = some (900000 - 1200 * 1400 / 1000) ∧ running.configured .s1 = true ∧ running.takeUp .s1 = 1400) ∧
    live.takeUp .s1 = 1000 ∧ State.reset.estimate .s1 = none ∧
    (planned1.fits .s1 ⟨0, 500000⟩ = [(62200, 121700)] ∧ planned1.separation = 0) ∧
    (planned1.fits .s1 ⟨0, 500000⟩ = [] ++ (62200, 121700) :: [] ∧ planned1.fits .s1 ⟨0, 10⟩ = []) ∧
    ((fast.choose .s1 ⟨5, 9⟩ [7]).blocked = true ∧ (fast.choose .s1 ⟨5, 9⟩ []).blocked = false) ∧
    (live.sup.line ≠ .run ∧ live.sup.line ≠ .hold ∧ running.sup.line = .run) ∧
    ((running.plan .s1).movable = true ∧ (running.window .s1).isSome = true ∧ (running.plan .s1).held = none) ∧
    (firing1.plan .s1).movable = false ∧ ({ running with reels := Reels.reset } : State).window .s1 = none ∧
    (dueOne.splice.recharging = true ∧ dueOne.splice.lastAck = some 0) := by decide +kernel

/-- Station A in a state with its timer running. -/
def station (x : StationState) : State :=
  running.modStation .a fun _ => { state := x, retained := some tools0, timer := some 9999, outgoing := none }
def changing : State :=
  { running with router := { running.router with
    stacker := .changing, stack := some ⟨1, 1, 100⟩, reason := some .height, timer := some 4999, buffer := [⟨1, 3, none⟩] } }
/-- The state with a node's result awaited on transaction 9 and its poll in flight. -/
def awaiting (s : State) (n : Node) : State := (flight s n (.poll [])).modNode n fun r => { r with awaited := some 9#8 }
def credited : State :=
  { changing with router := { changing.router with buffer := [⟨1, 300, some ⟨100, 2⟩⟩] } }
/-- A swap waiting for station A at a point. -/
def swapAt (x : Nat) (s : State) : State :=
  { s with cut := { s.cut with swaps := [⟨x, .a, tools0, some .b, 1200, false⟩] } }
theorem wit_StationAndStackResults :
    (running.station .a).timer = none ∧
    (((station .setting).station .a).timer.isSome = true ∧ ((station .setting).station .a).state = .setting) ∧
    (((station .swapping).station .a).state = .swapping ∧ (station .swapping).sup.line = .run) ∧
    running.router.timer = none ∧ (changing.router.timer.isSome = true ∧ changing.router.stacker = .changing) ∧
    ((awaiting (station .setting) (.station .a)).line.inFlight = some (asked (.station .a) (.poll [])) ∧
      (awaiting (station .setting) (.station .a)).online (.station .a) = true ∧
      ((awaiting (station .setting) (.station .a)).node (.station .a)).awaited = some 9#8 ∧
      (awaiting (station .setting) (.station .a)).map.deferrals = 0 ∧ (station .setting).cut.swaps = []) ∧
    ((awaiting running (.station .a)).station .a).state = .engaged ∧
    (((swapAt 1200 (station .setting)).station .a).retained = some tools0 ∧ (swapAt 1200 (station .setting)).web.w = 1200) ∧
    ((station .swapping).station .a).outgoing ≠ some .a ∧
    ((awaiting changing .stacker).line.nodes.stacker.awaited = some 9#8 ∧ (awaiting changing .stacker).online .stacker = true) ∧
    (changing.router.stack = some ⟨1, 1, 100⟩ ∧ changing.router.reason = some .height) ∧
    (changing.heightOf 1 = 100 ∧ changing.router.buffer = [⟨1, 3, none⟩] ∧ min 3 100 < 100 ∧ 100 ≤ min 100 100) ∧
    credited.router.buffer = [⟨1, 300, some ⟨100, 2⟩⟩] := by decide +kernel
theorem wit_StationAndStackResults_answers :
    (asked (.station .a) (.poll [])).TakenWith (answer (.station .a) 0x82#8 [0, 1, 0, 9])
      { fault := false, body := .poll (.station .set (some ⟨true, 9#8⟩)) } ∧
    (asked (.station .a) (.poll [])).TakenWith (answer (.station .a) 0x82#8 [0, 0, 1, 9])
      { fault := false, body := .poll (.station .parked (some ⟨false, 9#8⟩)) } ∧
    (asked .stacker (.poll [])).TakenWith (answer .stacker 0x82#8 [0, 0, 7, 0, 9])
      { fault := false, body := .poll (.stacker 7 (some ⟨true, 9#8⟩)) } ∧
    (asked .stacker (.poll [])).TakenWith (answer .stacker 0x82#8 [0, 0, 7, 1, 9])
      { fault := false, body := .poll (.stacker 7 (some ⟨false, 9#8⟩)) } := by
  unfold InFlight.TakenWith
  decide +kernel

def queued (urgent normal : List Command) (pointer : Nat) : State :=
  { live with line := { live.line with urgent := urgent, normal := normal, pointer := pointer } }
theorem node_le (k : Node) : nodeAddress k ≤ 12 := by
  cases k with
  | stand i => cases i <;> decide
  | station x => cases x <;> decide
  | conditioning => decide
  | stacker => decide
theorem wit_TransactionChoice :
    (flight live .stacker .init).line.inFlight.isSome = true ∧
    ((queued [⟨.stand .s1, .fire⟩] [] 0).line.inFlight = none ∧ (queued [⟨.stand .s1, .fire⟩] [] 0).line.urgent ≠ []) ∧
    ((queued [] [⟨.stacker, .init⟩] 0).line.urgent = [] ∧ (queued [] [⟨.stacker, .init⟩] 0).line.normal ≠ []) ∧
    ((queued [] [] 12).online (.stand .s1) = true ∧ (∀ k, (queued [] [] 12).online k = true → nodeAddress k ≤ 12) ∧
      ∀ k, (queued [] [] 12).online k = true → ¬ nodeAddress k < nodeAddress (.stand .s1)) ∧
    (∀ k, State.reset.online k = false) := by
  refine ⟨by decide, by decide, by decide, ⟨by decide, fun k _ => node_le k, fun k _ => ?_⟩, fun k => ?_⟩
  · cases k with
    | stand i => cases i <;> decide
    | station x => cases x <;> decide
    | conditioning => decide
    | stacker => decide
  · cases k with
    | stand i => cases i <;> decide
    | station x => cases x <;> decide
    | conditioning => decide
    | stacker => decide

def missedTwo : State := (flight live (.stand .s2) (.poll [])).modNode (.stand .s2) fun r => { r with missed := 2 }
def missedFaulted : State := flight (stacker .faulted latched) .stacker (.poll [])
theorem wit_MissedAnswers :
    live.line.inFlight = none ∧
    (((flight (stacker .offline .clear) .stacker .init).node .stacker).service = .offline ∧
      (flight (stacker .offline .clear) .stacker .init).line.inFlight.isSome = true) ∧
    ((flight live (.stand .s2) (.poll [])).node (.stand .s2)).missed < 2 ∧
    (2 ≤ (missedTwo.node (.stand .s2)).missed ∧ (missedTwo.node (.stand .s2)).service = .online) ∧
    ((flight live .stacker (.changeStack .height)).node .stacker).service = .online ∧
    (((flight firing1 (.stand .s1) .fire).plan .s1).state = .firing ∧ (flight firing1 (.stand .s1) .fire).line.urgent = []) ∧
    ((missedFaulted.node .stacker).service = .faulted ∧ missedFaulted.line.inFlight = some (asked .stacker (.poll [])) ∧
      (missedFaulted.node .stacker).latches.nodeFault = false) ∧
    ((flight (stacker .offline .clear) .stacker (.poll [])).node .stacker).service = .offline ∧
    ((missedTwo.node (.stand .s2)).latches.noAnswer = false ∧
      ((flight running .conditioning (.setpoints ⟨0, 50, 0, 0⟩)).node .conditioning).latches.noAnswer = false ∧ running.sup.line = .run ∧
      running.sup.holds.section_ = false ∧ live.sup.line ≠ .run ∧ live.sup.line ≠ .hold) ∧
    ((running.standRecord .s1).runningArm = some .a ∧ running.reels.grade = some 0 ∧ running.codeOf 0 .s1 = some 7 ∧
      (State.reset.standRecord .s1).runningArm = none ∧ (firing1.plan .s1).state = .firing ∧ (running.plan .s1).state ≠ .firing) ∧
    ((running.station .a).state = .engaged ∧ (running.station .b).state ≠ .engaged ∧ (running.station .b).state ≠ .swapping) ∧
    (asked .stacker .init).TakenWith (answer .stacker 0x81#8 [0, 1]) { fault := false, body := .init .conditioning } ∧
    InitBody.conditioning.suits .stacker = false ∧
    (asked .stacker .init).TakenWith (answer .stacker 0x81#8 [0, 3]) { fault := false, body := .init .stacker } ∧
    (asked .stacker (.poll [])).TakenWith (answer .stacker 0x82#8 [1, 0, 7, 255, 0]) { fault := true, body := .poll (.stacker 7 none) } := by
  unfold InFlight.TakenWith
  decide +kernel
theorem wit_FramesIgnored :
    (answer .stacker 0x82#8 [0, 0, 0, 255, 0]).txn ≠ 6#8 ∧ live.line.inFlight = none ∧
    (∃ f, (flight live .stacker .init).line.inFlight = some f ∧ f.answeredBy 0x82#8 (answer .stacker 0x82#8 []) = true ∧
      (0x82#8 : Byte) ≠ BitVec.ofNat 8 (askKind f.ask + 0x80)) :=
  ⟨by decide, rfl, _, rfl, by decide +kernel, by decide⟩

/-- The live state with a node Initialising and its INIT in flight. -/
def initialising (n : Node) : State := flight (live.modNode n fun r => { r with service := .initialising }) n .init
def armsEmpty : PerArm ArmReport := ⟨⟨.empty, 0⟩, ⟨.empty, 0⟩⟩
def armsAre (a b : NodeCondition) : PerArm ArmReport := ⟨⟨a, 1000⟩, ⟨b, 1000⟩⟩
/-- One reply for every pair of reported conditions. -/
theorem wit_InitReply_arms (a b : NodeCondition) :
    (asked (.stand .s1) .init).TakenWith
      (answer (.stand .s1) 0x81#8
        [0, 0, BitVec.ofNat 8 (conditionCode a), 0x03, 0xE8, BitVec.ofNat 8 (conditionCode b), 0x03, 0xE8])
      { fault := false, body := .init (.stand (armsAre a b)) } := by
  unfold InFlight.TakenWith
  cases a <;> cases b <;> decide +kernel
theorem wit_InitReply :
    ((initialising .conditioning).line.inFlight = some (asked .conditioning .init) ∧
      ((initialising .conditioning).node .conditioning).service = .initialising) ∧
    (asked .conditioning .init).TakenWith (answer .conditioning 0x81#8 [0, 1]) { fault := false, body := .init .conditioning } ∧
    (asked .stacker .init).TakenWith (answer .stacker 0x81#8 [0, 3]) { fault := false, body := .init .stacker } ∧
    (asked (.stand .s1) .init).TakenWith (answer (.stand .s1) 0x81#8 [0, 0, 0, 0, 0, 0, 0, 0])
      { fault := false, body := .init (.stand armsEmpty) } ∧
    (asked (.station .a) .init).TakenWith (answer (.station .a) 0x81#8 [0, 2, 2]) { fault := false, body := .init (.station .engaged) } ∧
    (asked (.stand .s1) .init).TakenWith (answer (.stand .s1) 0x81#8 [0, 3]) { fault := false, body := .init .stacker } ∧
    (InitBody.stacker.suits (.stand .s1) = false ∧ ((initialising .stacker).node .stacker).service = .initialising) ∧
    (asked .stacker .init).TakenWith (answer .stacker 0x81#8 [1, 3]) { fault := true, body := .init .stacker } ∧
    ((firing1.plan .s1).state = .firing ∧ (live.plan .s1).state ≠ .firing) ∧
    (((live.standRecord .s1).arms.get .a).state = .running ∧ ((live.standRecord .s1).arms.get .b).state ≠ .running ∧
      ((live.standRecord .s1).arms.get .b).data.isSome = true ∧ ((spentArm.standRecord .s1).arms.get .b).state = .spent ∧
      (State.reset.standRecord .s1).runningArm = none) ∧
    ((live.line.acked = false ∧ live.online .conditioning = true) ∧
      ({ live with line := { live.line with acked := true } } : State).line.acked = true) ∧
    ((live.station .b).state ≠ .engaged ∧ (running.station .a).state = .engaged) ∧
    (live.map.deferrals = 0 ∧ live.cut.swaps = [] ∧ ((swapAt 1200 live).firstEntry .a).isSome = true) := by
  unfold InFlight.TakenWith
  decide +kernel
/-- The conditioning node's INIT in flight in Run, with a table in force and SETPOINTS queued or not. -/
def initialisingRun (queued : List Command) : State :=
  let s := flight (running.modNode .conditioning fun r => { r with service := .initialising }) .conditioning .init
  { s with line := { s.line with normal := queued } }
/-- Log entry 69: an INIT queued behind the one in flight leaves the queue when the reply makes the node Online. -/
theorem test_second_init_withdrawn :
    after (exec (.initReply (answer .conditioning 0x81#8 [0, 1])) (initialisingRun [⟨.conditioning, .init⟩]))
      (fun t => t.online .conditioning ∧ ⟨.conditioning, .init⟩ ∉ t.line.normal) = true := by decide +kernel
/-- R153: a buffered sheet that the reply finds is lost to its order. -/
theorem test_init_loses_buffer :
    let s := (initialising .stacker).modRouter fun r =>
      { r with stacker := .changing, buffer := [{ order := 1, count := 3, credit := none }] }
    (s.stackerFromInit.router.buffer = [] ∧ s.stackerFromInit.orders = (s.modOrder 1 fun o => { o with lost := o.lost + 3 }).orders) := by
  decide +kernel
theorem wit_InitReply_setpoints :
    ((initialisingRun []).line.inFlight = some (asked .conditioning .init) ∧
      ((initialisingRun []).node .conditioning).service = .initialising ∧ (initialisingRun []).map.deferrals = 0 ∧
      (initialisingRun []).cond.inForce = some table0 ∧ (initialising .conditioning).cond.inForce = none) ∧
    ({ initialisingRun [] with map := { running.map with deferrals := 1 } } : State).map.deferrals ≠ 0 ∧
    (initialisingRun [⟨.conditioning, .setpoints ⟨0, 0, 0, 0⟩⟩]).line.normal.any Command.isSetpoints = true := by decide +kernel
theorem wit_PollAnswer :
    ((flight live .stacker (.poll [])).line.inFlight = some (asked .stacker (.poll [])) ∧
      (flight live .stacker (.poll [])).online .stacker = true) ∧
    (asked .conditioning (.poll [])).TakenWith (answer .conditioning 0x82#8 [0, 0x0F, 0xA0])
      { fault := false, body := .poll (.conditioning 4000) } ∧
    (asked .stacker (.poll [])).TakenWith (answer .stacker 0x82#8 [0, 0, 7, 255, 0]) { fault := false, body := .poll (.stacker 7 none) } ∧
    (asked (.station .b) (.poll [])).TakenWith (answer (.station .b) 0x82#8 [0, 0, 255, 0])
      { fault := false, body := .poll (.station .parked none) } ∧
    (asked .stacker (.poll [])).TakenWith (answer .stacker 0x82#8 [0, 0, 7, 0, 9])
      { fault := false, body := .poll (.stacker 7 (some ⟨true, 9#8⟩)) } ∧
    (asked (.station .b) (.poll [])).TakenWith (answer (.station .b) 0x82#8 [0, 0, 1, 9])
      { fault := false, body := .poll (.station .parked (some ⟨false, 9#8⟩)) } ∧
    (live.line.nodes.stacker.awaited ≠ some 9#8 ∧ (live.node (.station .b)).awaited ≠ some 9#8) ∧
    (asked .conditioning (.poll [])).TakenWith (answer .conditioning 0x82#8 [1, 0, 0]) { fault := true, body := .poll (.conditioning 0) } := by
  unfold InFlight.TakenWith
  decide +kernel
/-- A plate temperature of order 1 at the glue point and of none, under both heat actions. -/
theorem wit_PollAnswer_temperature :
    ((flight running .conditioning (.poll [])).line.inFlight = some (asked .conditioning (.poll [])) ∧
      (flight running .conditioning (.poll [])).online .conditioning = true) ∧
    (running.orderHere = some 1 ∧ live.orderHere = none) ∧
    (running.profile.heatAction = .derate ∧ ({ running with profile := running.profile.write 37 1 } : State).profile.heatAction = .hold) := by
  decide +kernel
/-- R127 to R129 by the table: 1,750 is served up to 2,500, below v_max, and counted for order 1, whose first temperature it is. -/
theorem test_temperature :
    after (exec (.pollAnswer (answer .conditioning 0x82#8 [0, 0x06, 0xD6])) (flight running .conditioning (.poll []))) (fun t =>
      t.cond.heatCeiling = some 2500 && t.sup.ceilings.heat = some 2500 &&
      (t.order? 1).any fun o => o.tempMin = some 1750 && o.tempMax = some 1750 && o.derates = 1) = true := by decide +kernel
theorem wit_SpliceAnswers :
    ((flight firing1 (.stand .s1) .fire).line.inFlight = some (asked (.stand .s1) .fire) ∧ firing1.online (.stand .s1) = true ∧
      (firing1.plan .s1).state = .firing) ∧
    (asked (.stand .s1) .fire).TakenWith (answer (.stand .s1) 0x83#8 [0]) { fault := false, body := .command } ∧
    ((awaiting firing1 (.stand .s1)).line.inFlight = some (asked (.stand .s1) (.poll [])) ∧
      ((awaiting firing1 (.stand .s1)).node (.stand .s1)).awaited = some 9#8 ∧ (live.node (.stand .s1)).awaited = none) ∧
    ((firing1.standRecord .s1).runningArm = some .a ∧ firing1.sup.line = .run) ∧
    ((inLine firing1 .safeStop).sup.line = .safeStop ∧
      ({ firing1 with sup := { firing1.sup with standstill := 5 } } : State).sup.standstill = 5) ∧
    (asked (.stand .s1) (.poll [])).TakenWith (answer (.stand .s1) 0x82#8 [0, 0, 0, 0, 0, 0, 0, 0, 9])
      { fault := false, body := .poll (.stand armsEmpty (some ⟨true, 9#8⟩)) } ∧
    (asked (.stand .s1) (.poll [])).TakenWith (answer (.stand .s1) 0x82#8 [0, 0, 0, 0, 0, 0, 0, 1, 9])
      { fault := false, body := .poll (.stand armsEmpty (some ⟨false, 9#8⟩)) } := by
  unfold InFlight.TakenWith
  decide +kernel
theorem wit_SpliceAnswers_timeout :
    firing1.resultAwaited = some .s1 ∧ firing1.sup.line = .run ∧ ∀ i, (live.plan i).state = .firing → (live.plan i).resultTimer = none := by
  refine ⟨by decide, rfl, fun i h => ?_⟩
  cases i <;> cases h

/-- A stand poll answer, of a diameter of 1,002 for arm A and of 1,003 for arm B. -/
def report (a b : NodeCondition) : PerArm ArmReport := ⟨⟨a, 1002⟩, ⟨b, 1003⟩⟩
def reportBytes (a b : NodeCondition) : List Byte :=
  [0, BitVec.ofNat 8 (conditionCode a), 0x03, 0xEA, BitVec.ofNat 8 (conditionCode b), 0x03, 0xEB, 255, 0]
theorem wit_StandReports_answer (a b : NodeCondition) :
    (asked (.stand .s1) (.poll [])).TakenWith (answer (.stand .s1) 0x82#8 (reportBytes a b))
      { fault := false, body := .poll (.stand (report a b) none) } := by
  unfold InFlight.TakenWith
  cases a <;> cases b <;> decide +kernel
theorem wit_StandReports_repeated :
    (asked (.stand .s1) (.poll [])).TakenWith (answer (.stand .s1) 0x82#8 [0, 0, 0, 0, 0, 0, 0, 0, 9])
      { fault := false, body := .poll (.stand armsEmpty (some ⟨true, 9#8⟩)) } ∧ (live.node (.stand .s1)).awaited ≠ some 9#8 := by
  unfold InFlight.TakenWith
  decide +kernel
/-- The live state with the arms of stand 1 in two states and its poll in flight. -/
def arms (s : State) (a b : ArmState) : State :=
  flight (s.modStand .s1 fun r => { r with arms := ⟨{ r.arms.a with state := a }, { r.arms.b with state := b }⟩ }) (.stand .s1) (.poll [])
def reelOut : State := arms ({ running with web := { running.web with v := 300 } }) .running .prepared
def suspect : State := (arms running .prepared .running).modStand .s1 fun r => { r with implausible := 2, lowCount := 2 }
theorem wit_StandReports :
    ((arms live .empty .loaded).line.inFlight = some (asked (.stand .s1) (.poll [])) ∧ live.online (.stand .s1) = true ∧
      (live.plan .s1).state ≠ .firing) ∧
    (((arms live .empty .spent).standRecord .s1).arms.a.state = .empty ∧ ((arms live .empty .spent).standRecord .s1).arms.b.state = .spent) ∧
    (((arms live .loaded .prepared).standRecord .s1).arms.a.state = .loaded ∧
      ((arms live .loaded .prepared).standRecord .s1).arms.b.state = .prepared) ∧
    ((arms live .running .prepared).standRecord .s1).arms.a.state = .running ∧
    (live.sup.line = .standby ∧ live.sup.reference = 0 ∧ live.web.v = 0) ∧ (hostHold.sup.line = .hold ∧ hostHold.atRest = true) ∧
    (running.sup.line = .run ∧ (inLine live .lockout).sup.line = .lockout) ∧
    (((arms running .running .loaded).standRecord .s1).arms.b.state ≠ .prepared ∧ (arms running .running .loaded).runOrHold = true ∧
      ((arms running .running .loaded).standRecord .s1).arms.a.state = .running) := by decide +kernel
theorem wit_StandReports_gauge :
    (reelOut.line.inFlight = some (asked (.stand .s1) (.poll [])) ∧ reelOut.online (.stand .s1) = true ∧
      (reelOut.plan .s1).state ≠ .firing) ∧
    (((reelOut.standRecord .s1).arms.get .a).state = .running ∧ ((reelOut.standRecord .s1).arms.get .b).state ≠ .running ∧
      ((report .running .prepared).get .a).diameter = ((reelOut.standRecord .s1).arms.get .a).diameter + 2) ∧
    (remainingLength 1002 1002 250 = 0 ∧ 0 < reelOut.web.v ∧ reelOut.configured .s1 = true ∧
      (reelOut.standRecord .s1).outReported = false ∧ reelOut.sup.line = .run) ∧
    (((suspect.standRecord .s1).arms.get .b).diameter + 2 < ((report .prepared .running).get .b).diameter ∧
      (suspect.standRecord .s1).implausible = 2 ∧ (reelOut.standRecord .s1).implausible ≠ 2) ∧
    (suspect.estimate .s1 = some 898320 ∧ 898320 < suspect.profile.lWarn ∧ suspect.profile.lowFilter = 3 ∧
      (suspect.standRecord .s1).lowCount = 2 ∧ (suspect.standRecord .s1).lowReported = false ∧ suspect.map.deferrals = 0) := by
  decide +kernel
theorem wit_CommandAnswers :
    ((flight (station .setting) (.station .a) (.set tools0)).line.inFlight = some (asked (.station .a) (.set tools0)) ∧
      ((station .setting).station .a).state = .setting ∧ ((station .swapping).station .a).state = .swapping) ∧
    (asked (.station .a) (.set tools0)).TakenWith (answer (.station .a) 0x85#8 [0]) { fault := false, body := .command } ∧
    (asked (.station .a) .engage).TakenWith (answer (.station .a) 0x84#8 [0]) { fault := false, body := .command } ∧
    (asked .stacker (.changeStack .height)).TakenWith (answer .stacker 0x87#8 [0]) { fault := false, body := .command } ∧
    (asked .conditioning (.setpoints ⟨0, 50, 0, 0⟩)).TakenWith (answer .conditioning 0x86#8 [0]) { fault := false, body := .command } := by
  unfold InFlight.TakenWith
  decide +kernel

/-- The running state with order 2 of another set. -/
def otherSet : State := { running with orders := { running.orders with list := [order1, { order 2 with tools := tools1 }] } }
theorem wit_BoundaryCommit :
    (running.openOrder? = some order1 ∧ order1.plannedEnd = some 3521700 ∧ running.firstQueued = some (order 2) ∧
      running.deferReason order1 (order 2) = none ∧ running.setChange order1 (order 2) = false) ∧
    (otherSet.firstQueued = some { order 2 with tools := tools1 } ∧ otherSet.deferReason order1 { order 2 with tools := tools1 } = none ∧
      otherSet.setChange order1 { order 2 with tools := tools1 } = true) := by decide +kernel
/-- The running state with order 2 of grade 1, its paper on stand 1's standby, and a plan of stand 1. -/
def otherPaper (p : Plan) : State :=
  let s := withPlan { running with orders := { running.orders with list := [order1, { order 2 with grade := 1 }] } } p
  s.modStand .s1 fun r => { r with arms := { r.arms with b := ⟨.prepared, some (reel 2 8), some .prepared, 1000⟩ } }
/-- The grade target of stand 1 at the end of order 1. -/
def target1 : GradeTarget := ⟨3521700 + running.profile.margin - running.profile.path.s1, 3521700⟩
def longReel (st : PlanState) : Plan := { plan st with latest := some 4000000, held := some ⟨1, 1⟩ }
/-- Stand 1 without an estimate, hence without a window. -/
def noWindow : State := (otherPaper (plan .planned)).modStand .s1 fun r => { r with basis := none }
theorem wit_BoundaryCommit_handedOn :
    (∀ p ∈ [Plan.reset, plan .planned, plan .armed, longReel .planned],
      (otherPaper p).deferReason order1 { order 2 with grade := 1 } = none ∧ (otherPaper p).openOrder? = some order1 ∧
      (otherPaper p).firstQueued = some { order 2 with grade := 1 } ∧ (otherPaper p).setChange order1 { order 2 with grade := 1 } = false ∧
      (otherPaper p).gradeChange order1 { order 2 with grade := 1 } .s1 = true ∧ ((otherPaper p).window .s1).isSome = true ∧
      (∀ z ∈ (otherPaper p).map.zones, z.start ≤ 3521700) ∧ 0 < (otherPaper p).profile.markLength ∧
      (otherPaper p).online (.stand .s1) = true ∧
      (otherPaper p).web.w + (otherPaper p).dApp (otherPaper p).spliceLimit + (otherPaper p).profile.guard < target1.target) ∧
    (noWindow.window .s1 = none ∧ noWindow.deferReason order1 { order 2 with grade := 1 } = none ∧ (noWindow.plan .s1) = plan .planned) ∧
    ((inLine (otherPaper Plan.reset) .safeStop).sup.line = .safeStop ∧ running.gradeChange order1 (order 2) .s1 = false) := by
  decide +kernel
theorem wit_BoundaryCommit_takes :
    Plan.reset.Takes target1 ∧ (longReel .planned).Takes target1 ∧ (plan .planned).Normal ∧ ¬ (plan .planned).Takes target1 ∧
    ¬ (plan .armed).Takes target1 ∧ ¬ (plan .armed).Normal :=
  ⟨.inl rfl, .inr ⟨⟨.inl rfl, .inr rfl⟩, fun l h => by cases h; decide +kernel⟩, ⟨.inl rfl, .inr rfl⟩,
   (fun h => (by rcases h with h | ⟨_, h⟩; cases h; exact absurd (h 500000 rfl) (by decide +kernel))),
   (fun h => (by rcases h with h | ⟨⟨h | h, _⟩, _⟩ <;> cases h)), fun h => (by rcases h with ⟨h | h, _⟩ <;> cases h)⟩
/-- The stations at a commit with a set change: B must take SET of the successor's set, or holds it. -/
def setOnB : State := otherSet.modStation .b fun r => { r with retained := some tools1 }
theorem wit_BoundaryCommit_stations :
    otherSet.MustSet (otherSet.cut.swaps ++ [otherSet.swapTo 3521700 tools1]) .b tools1 ∧
    setOnB.HoldsNeeded (setOnB.cut.swaps ++ [setOnB.swapTo 3521700 tools1]) .b ∧ otherSet.carrying = some .a :=
  ⟨⟨by decide +kernel, by decide, by decide, by decide⟩, ⟨by decide, by decide, by decide +kernel⟩, by decide⟩
/-- R70, R105: the set is sent to station B; the grade plan of an Idle stand is Planned at its target, and behind an Armed plan it is held. -/
theorem test_handed_on :
    (let t := otherSet.commit order1 { order 2 with tools := tools1 }
     (t.station .b).state = .setting && t.line.normal.contains ⟨.station .b, .set tools1⟩ &&
       t.cut.swaps.map (fun e => (e.point, e.outgoing)) = [(3521700 - running.profile.pSlit, some .a)]) = true ∧
    (let t := (otherPaper Plan.reset).commit order1 { order 2 with grade := 1 }
     (t.plan .s1).state = .planned && (t.plan .s1).kind = some .grade && (t.plan .s1).target = some target1.target) = true ∧
    (((otherPaper (plan .armed)).commit order1 { order 2 with grade := 1 }).plan .s1).held = some target1 ∧
    ((noWindow.commit order1 { order 2 with grade := 1 }).plan .s1).targetZone = some 3521700 := by decide +kernel
/-- An order whose zone has not reached the slitter-scorer, and the running state with the Engaged station's set unknown, with a station
Parked, with a full map, and with no paper of grade 1 ready. -/
def far : Order := { order1 with zoneStart := some 20000 }
def unsetStation : State := running.modStation .a fun r => { r with retained := none }
def noStation : State := running.modStation .a fun r => { r with state := .parked }
def idleFaulted : State := otherSet.modStation .b fun r => { r with state := .faulted }
def fullMap (n : Nat) : State := { running with map := { running.map with zones := List.replicate n zone1 } }
theorem wit_BoundaryCommit_readiness :
    (running.profile.mask.get .s1 = true ∧ running.gradeChange order1 { order 2 with grade := 1 } .s1 = true ∧
      running.gradeChange order1 (order 2) .s1 = false) ∧
    (order1.zoneStart.getD 0 ≤ running.web.w + running.profile.pSlit ∧ ¬ far.zoneStart.getD 0 ≤ running.web.w + running.profile.pSlit) ∧
    ((running.station .a).state = .engaged ∧ (running.station .b).state ≠ .engaged ∧ (noStation.station .a).state ≠ .engaged) ∧
    (running.cut.swaps = [] ∧ (swapAt 1200 running).cut.swaps ≠ [] ∧ (unsetStation.station .a).retained = none) ∧
    (running.paperFails order1 { order 2 with grade := 1 } = some .s1 ∧ running.paperFails order1 (order 2) = none) ∧
    (idleFaulted.setChange order1 { order 2 with tools := tools1 } = true ∧ (idleFaulted.station idleFaulted.idleStation).state = .faulted) ∧
    (48 < (fullMap 47).map.zones.length + 2 ∧ (fullMap 46).map.zones.length + 2 ≤ 48) ∧
    (running.slot 3 = .free ∧ running.slot 0 ≠ .free) := by decide +kernel
def schedule0 : KnifeSchedule := { pieceStart := 0, nextCut := 1200, zone := 0, index := 0, plan := none }
theorem wit_CutTaken :
    (running.cut.schedule = some schedule0 ∧ running.zoneFrom 0 = some zone1 ∧ schedule0.nextCut ≤ running.web.w ∧
      zone1.kind = .order ∧ zone1.stop ≠ some 1200 ∧ running.web.v < running.profile.vCrawl ∧ running.sup.line = .run) ∧
    ({ running with web := { running.web with w := 1199 } } : State).web.w < schedule0.nextCut ∧
    running.profile.vCrawl ≤ ({ running with web := { running.web with v := 200 } } : State).web.v := by decide +kernel
/-- The knife at the end of zone 1, with a closed TRANSITION zone, an open RUNOUT zone or no zone behind it. -/
def crossing (behind : List Zone) : State :=
  { running with map := { running.map with zones := { zone1 with stop := some 1200 } :: behind } }
/-- The knife in a TRANSITION zone, divided or not. -/
def dividing (p : Option PiecePlan) : State :=
  { running with
    map := { running.map with zones := [newZone .transition 0 none false (.same false)] }
    cut := { running.cut with schedule := some { schedule0 with plan := p } } }
theorem wit_CutTaken_pieces :
    ((dividing (some ⟨3, 1000, 1, 1⟩)).zoneFrom 0 = some (newZone .transition 0 none false (.same false)) ∧
      (dividing none).cut.schedule = some schedule0) ∧
    ((crossing [newZone .runout 1200 none false (.same false)]).zoneFrom 1200 = some (newZone .runout 1200 none false (.same false)) ∧
      (crossing [{ newZone .transition 1200 none false (.same false) with stop := some 4201 }]).zoneFrom 1200
        = some { newZone .transition 1200 none false (.same false) with stop := some 4201 } ∧
      ((crossing [newZone .order 1200 (some 2) false (.same false)]).zoneFrom 1200).map (·.kind) = some .order ∧
      (crossing []).zoneFrom 1200 = none ∧ ((crossing []).zoneFrom 0).bind (·.stop) = some 1200) := by decide +kernel
/-- R146's example word for 1,200 mm: after the cut at 1,200 the piece of 900 mm is presented, 614. -/
theorem test_ratio_presented : (running.advancePhase true .cut).cut.ratio = 614 := by decide +kernel

/-- The running state with one sheet in the queue, of order 1 or of no order. -/
def sheet1 (defect : Bool) : Sheet := ⟨0, 1200, .order, some 1, defect⟩
def scrap : Sheet := ⟨0, 1200, .thread, none, false⟩
def sheets (sh : Sheet) : State := { running with router := { running.router with sheets := [sh] } }
/-- The same with the sheet at the gate, and with 64 routes held and the stacker's latches. -/
def due (sh : Sheet) : State := { sheets sh with web := { running.web with w := sh.stop + running.profile.dGate } }
def allRoutes (l : Latches) : State :=
  { (sheets scrap).modNode .stacker (fun r => { r with latches := l }) with
    line := { ((sheets scrap).modNode .stacker fun r => { r with latches := l }).line with routes := List.replicate 64 ⟨false, 0⟩ } }
theorem wit_GateDecision :
    ((sheets scrap).router.sheets = [scrap] ∧ (sheets scrap).map.deferrals = 0 ∧ (sheets scrap).line.routes.length < 64 ∧
      (sheets scrap).endsOrder scrap = none ∧ scrap.kind ≠ .order ∧ (sheets scrap).router.nonOrder < 4294967295) ∧
    ((sheets (sheet1 true)).endsOrder (sheet1 true) = none ∧ (sheet1 true).defect = true) ∧
    ((sheets (sheet1 false)).cancelledOrder 1 = false ∧ (sheets (sheet1 false)).marked 0 1200 = false ∧
      (sheets (sheet1 false)).router.stacker = .stacking ∧ (sheets (sheet1 false)).router.stack = none) ∧
    (changing.router.stacker = .changing ∧ changing.router.occupancy < changing.profile.buffer) ∧
    ((sheets scrap).web.w < scrap.stop + (sheets scrap).profile.dGate ∧
      scrap.stop + (due scrap).profile.dGate ≤ (due scrap).web.w ∧ (due scrap).router.sheets = [scrap]) ∧
    (64 ≤ (allRoutes .clear).line.routes.length ∧ (allRoutes .clear).online .stacker = true ∧
      (allRoutes .clear).line.nodes.stacker.latches.noAnswer = false ∧
      (allRoutes { Latches.clear with noAnswer := true }).line.nodes.stacker.latches.noAnswer = true ∧
      (allRoutes .clear).router.sheets = [scrap] ∧ (allRoutes .clear).map.deferrals = 0 ∧
      (allRoutes .clear).router.stacker = .stacking ∧ (allRoutes .clear).sup.line = .run) ∧
    (running.modNode .stacker fun r => { r with service := .offline }).online .stacker = false ∧
    ({ running with router := { running.router with stacker := .faulted } } : State).router.stacker = .faulted := by decide +kernel

/-- The running state with a swap at the knife's coordinate and its station Set. -/
def swapReady : State := swapAt 1200 (station .set)
def clearing (x : Nat) : State := { running with sup := { running.sup with clearing := x, trips := 1 } }
def orderAt (st : OrderState) (hold : Bool) : Order :=
  { order1 with state := st, zoneStart := some 1200, zoneEnd := some 1200, holdAfter := hold }
def atKnife (st : OrderState) (hold : Bool) : State := { running with orders := { running.orders with list := [orderAt st hold, order 2] } }
theorem wit_KnifeActions :
    (live.sup.line ≠ .run ∧ running.sup.line = .run ∧ (clearing 0).sup.clearing + 1 < running.profile.dClear * 1000 ∧
      running.profile.dClear * 1000 ≤ (clearing (running.profile.dClear * 1000 - 1)).sup.clearing + 1 ∧ (clearing 0).sup.trips = 1 ∧
      running.sup.trips = 0 ∧ running.store.writing = none ∧ running.store.tripWriting = none) ∧
    ((atKnife .fixed false).orders.list = [] ++ orderAt .fixed false :: [order 2] ∧ (orderAt .fixed false).state = .fixed ∧
      1200 ≤ (atKnife .fixed false).web.w ∧ ∀ x ∈ [order 2], x.number ≠ (orderAt .fixed false).number) ∧
    ((atKnife .running true).orders.list = [] ++ orderAt .running true :: [order 2] ∧ (orderAt .running true).state = .running ∧
      (orderAt .running true).holdAfter = true ∧ (orderAt .running false).holdAfter = false) ∧
    (swapReady.cut.swaps.length = 1 ∧ 1200 ≤ swapReady.web.w ∧ (swapReady.station .a).state = .set ∧
      (swapReady.station .a).retained = some tools0 ∧ swapReady.online (.station .a) = true) ∧
    (¬ (1201 ≤ (swapAt 1201 (station .set)).web.w) ∧ running.sup.line = .run) ∧
    ((∃ z ∈ (swapAt 0 { running with web := Web.reset }).map.zones, z.start = 0) ∧ (∀ z ∈ running.map.zones, z.start ≠ running.web.w) ∧
      ∃ z ∈ running.map.zones, z.covers 0 = true) := by decide +kernel

/-- The open order's planned end at the horizon, with and without a successor, below and at the deferral limit. -/
def due1 (list : List Order) (limit : Nat) : State :=
  { running with
    orders := { list := { order1 with planned := 1, plannedEnd := some 201200 } :: list, recent := [] }
    profile := { running.profile with deferLimit := limit }
    map := { running.map with zones := [zone1] } }
def order3 : Order := { order 2 with grade := 3 }
def lastSheet : Sheet := ⟨0, 1200, .order, some 1, false⟩
/-- Order 1 Ending at the end of the only sheet in the queue. -/
def atGate (st : StackerState) (stack : Option Stack) (buffer : List BufferRun) : State :=
  { running with
    orders := { list := [{ order1 with state := .ending, zoneEnd := some 1200 }], recent := [] }
    router := { running.router with sheets := [lastSheet], stacker := st, stack := stack, buffer := buffer } }
def stopping (n : Nat) (flag : Bool) : State :=
  { running with sup := { running.sup with line := .safeStop, standstill := n, lockFlag := flag } }
/-- A deferral pending at a limit, with the open order's end beyond the horizon. -/
def rechecked (list : List Order) (n limit : Nat) : State :=
  { due1 list limit with web := { running.web with w := 0 }, map := { (due1 list limit).map with deferrals := n } }
theorem wit_HorizonGateAndStandstill_recheck :
    (running.map.deferrals = 0 ∧ live.openOrder? = none) ∧
    ((rechecked [order3] 2 2).openOrder?.bind (·.plannedEnd) = some 201200 ∧ (rechecked [order3] 2 2).firstQueued = some order3 ∧
      (rechecked [order3] 2 2).profile.deferLimit = 2 ∧ (rechecked [order3] 2 2).map.deferrals = 2 ∧
      (rechecked [order3] 2 2).sup.line = .run ∧ (rechecked [order3] 1 2).map.deferrals < 2) ∧
    ((rechecked [] 2 2).firstQueued = none ∧ 2 ≤ (rechecked [] 2 2).freeSlots ∧
      ({ rechecked [] 2 2 with map := { (rechecked [] 2 2).map with zones := List.replicate 47 zone1 } } : State).freeSlots < 2) := by
  decide +kernel
/-- The running state, its board one gate distance along, with a terminal boundary. -/
def lastCall (e : Nat) : State :=
  { running with web := { running.web with w := running.profile.dGate }, map := { running.map with terminal := some e } }
def mark1 : Mark := ⟨500, 1000, .s1, .planned, none⟩
def swept : State :=
  { running with
    web := { running.web with w := 1000 + running.profile.dGate }, map := { WebMap.reset with zones := [], marks := [mark1] } }
def usedUp : State := { running with reels := { running.reels with stand := .same { stand0 with basis := some ⟨0, 0⟩ } } }
theorem wit_HorizonGateAndStandstill :
    (running.overdue = false ∧ (due1 [] 2).overdue = true ∧ (due1 [] 2).firstQueued = none ∧
      (due1 [order3] 1).deferReason order1 order3 ≠ none ∧ (due1 [order3] 1).firstQueued = some order3) ∧
    ((due1 [] 2).openOrder?.bind (·.plannedEnd) = some 201200 ∧ 201200 ≤ (due1 [] 2).web.w + (due1 [] 2).profile.dCommit ∧
      (due1 [] 2).map.deferrals + 1 < (due1 [] 2).profile.deferLimit ∧ (due1 [] 1).profile.deferLimit = 1 ∧
      2 ≤ (due1 [] 1).freeSlots ∧ (due1 [] 1).sup.line = .run) ∧
    ((atGate .stacking none []).router.sheets = [lastSheet] ∧ (atGate .stacking none []).map.deferrals = 0 ∧
      ((atGate .stacking none []).order? 1).map (·.state) = some .ending ∧
      ((atGate .stacking none []).order? 1).bind (·.zoneEnd) = some 1200 ∧ (atGate .stacking none []).marked 0 1200 = false) ∧
    ((atGate .stacking (some ⟨1, 1, 40⟩) []).router.stack = some ⟨1, 1, 40⟩ ∧
      (atGate .changing none [⟨1, 3, none⟩]).router.buffer = [] ++ [⟨1, 3, none⟩] ∧
      (atGate .changing none [⟨1, 3, none⟩]).router.occupancy < running.profile.buffer ∧
      ¬ (atGate .changing none [⟨1, 10, none⟩]).router.occupancy < running.profile.buffer ∧
      ({ lastSheet with defect := true } : Sheet).defect = true) ∧
    ((stopping 3 false).sup.line = .safeStop ∧ (stopping 3 false).sup.standstill < 4 ∧ 4 ≤ (stopping 4 true).sup.standstill ∧
      (stopping 4 true).anyFiring = false ∧ (stopping 4 true).sup.reference = 0 ∧ (stopping 4 true).web.v = 0) ∧
    (atGate .stacking none []).line.routes.length < 64 ∧
    (running.map.terminal = none ∧ atEnd.map.queueEndCall = true ∧
      (lastCall 3521700).map.terminal = some 3521700 ∧ (lastCall 3521700).map.queueEndCall = false ∧
      (let s := lastCall 3521700; ¬ (3521700 + s.profile.dGate ≤ s.web.w + s.dStop + s.profile.guard)) ∧
      (lastCall 0).map.terminal = some 0 ∧ (let s := lastCall 0; 0 + s.profile.dGate ≤ s.web.w + s.dStop + s.profile.guard) ∧
      (lastCall 0).sup.line = .run) ∧
    (swept.map.marks = [mark1] ∧ mark1.stop + swept.profile.dGate ≤ swept.web.w ∧ swept.zoneAt (mark1.stop - 1) = none ∧
      (running.zoneAt (mark1.stop - 1)).isSome = true) ∧
    (usedUp.configured .s1 = true ∧ usedUp.estimate .s1 = some 0 ∧ (usedUp.standRecord .s1).outReported = false ∧
      usedUp.sup.line = .run ∧ (inLine usedUp .standby).sup.line = .standby ∧ running.estimate .s1 ≠ some 0) := by
  decide +kernel

theorem wit_Interpolation :
    breakpointsRise ([] ++ ⟨1000, 600, 180, 1600⟩ :: ⟨2000, 450, 150, 1700⟩ :: [⟨3000, 300, 130, 1800⟩]) = true ∧
    (1000 ≤ 1000 ∧ (⟨1000, 600, 180, 1600⟩ : Breakpoint).speed ≤ 1999) ∧
    breakpointsRise ([⟨1000, 600, 180, 1600⟩] ++ ⟨2000, 450, 150, 1700⟩ :: ⟨3000, 300, 130, 1800⟩ :: []) = true ∧
    (⟨3000, 300, 130, 1800⟩ : Breakpoint).speed ≤ 3000 := by decide
/-- The running state with a plate temperature. -/
def warm (t : Nat) : State := { running with cond := { running.cond with lastTemp := some t } }
theorem wit_HeatCeiling :
    live.cond.inForce = none ∧ (running.cond.inForce = some table0 ∧ running.stale = true) ∧
    ((warm 1599).cond.age ≤ 10000 ∧ breakpointsRise table0 = true ∧ table0.head?.map (·.temp) = some 1600) ∧
    (table0.getLast?.map (·.temp) = some 1800 ∧ 2 ≤ table0.length) ∧
    (table0 = [⟨1000, 400, 180, 1600⟩] ++ ⟨2000, 400, 150, 1700⟩ :: ⟨3000, 380, 130, 1800⟩ :: [] ∧ 1700 ≤ 1700 ∧ 1700 < 1800) := by
  decide +kernel
theorem wit_Pieces : 1 ≤ 5000 ∧ 1 ≤ 2200 := by decide
theorem wit_CutBoundaries : 1 ≤ 3 ∧ [1200, 900] ≠ [] ∧ ∀ l ∈ [1200, 900], 1 ≤ l := by decide
theorem wit_StoppingDistances : 1 ≤ fast.profile.sDown ∧ 2999 < fast.web.v ∧ fast.web.v ≤ 3000 ∧ fast.web.v = 3000 ∧ fast.profile.sDown = 30 := by
  decide

end Sys2Proof.Tests
end

section
/-! The two distances of R28. Each is a quotient rounded up, so it is characterised by the order: the least whole number whose
multiple reaches the dividend. -/

namespace Sys2Proof.Machine

/-- The rounded-up quotient is the least `n` whose multiple of the divisor reaches the dividend. -/
theorem ceilDiv_le_iff {a b n : Nat} (hb : 0 < b) : ceilDiv a b ≤ n ↔ a ≤ n * b := by
  rw [ceilDiv, Nat.div_le_iff_le_mul hb]
  omega

namespace State

variable {s : State}

theorem dStop_le_iff (hd : 1 ≤ s.profile.sDown) (n : Nat) :
    s.dStop ≤ n ↔ s.web.v * s.web.v ≤ n * (12 * s.profile.sDown) :=
  ceilDiv_le_iff (by omega)

theorem dApp_le_iff (hd : 1 ≤ s.profile.sDown) (u n : Nat) :
    s.dApp u ≤ n ↔ s.web.v * s.web.v - u * u ≤ n * (12 * s.profile.sDown) :=
  ceilDiv_le_iff (by omega)

/-- From a speed at or below `u` the difference of the squares is cut off at 0, and 0 is already reached by the multiple 0. -/
theorem dApp_eq_zero (hd : 1 ≤ s.profile.sDown) {u : Nat} (hu : s.web.v ≤ u) : s.dApp u = 0 := by
  have hsq : s.web.v * s.web.v - u * u = 0 := Nat.sub_eq_zero_of_le (Nat.mul_self_le_mul_self hu)
  have hle : s.dApp u ≤ 0 := (dApp_le_iff hd u 0).mpr (by omega)
  exact Nat.le_zero.mp hle

/-- The worked example of R28. -/
theorem dStop_dApp_example (hv : s.web.v = 3000) (hd : s.profile.sDown = 30) :
    s.dStop = 25000 ∧ s.dApp 2000 = 13889 := by
  simp [dStop, dApp, ceilDiv, hv, hd]

end State

/-- Settles O60: the order characterisation of the rounded quotient gives both distances, and the cut-off difference the zero. -/
theorem stoppingDistances : Obligations.StoppingDistances := by
  intro s hd
  exact ⟨State.dStop_le_iff hd, fun u _ => State.dApp_le_iff hd u, fun _ => State.dApp_eq_zero hd, State.dStop_dApp_example⟩

end Sys2Proof.Machine
end

section
/-! Orders that a request can no longer touch (R50). A refusal is judged on the state whose oldest frame is already taken, so the
reply is all it leaves behind; what remains is that the checks of CANCEL ORDER and AMEND ORDER end in LOCKED. -/

namespace Sys2Proof.Machine

namespace State

variable {s : State} {f : HostFrame} {n : Nat} {o : Order}

/-- A request whose function refuses it, whatever the holding area is left as, comes to a bare reply. -/
theorem request_of_refuse {k : Nat} {g : List Byte → State → Taken} {r : Result} (asks : s.Asks k f)
    (refused : ∀ h : HostLine → HostLine, g f.payload (s.modHost h) = (s.modHost h).refuse r) :
    request k g s = .next (s.reply f r []) := by
  rw [request_of_asks asks, refused]
  rfl

/-- R50: past the Scheduled state, or cut short already, an order cannot be cancelled. -/
theorem cancelOrder_eq_locked (up : s.sup.line ≠ .startUp) (found : s.order? n = some o)
    (late : o.state = .fixed ∨ o.state = .running ∨ o.state = .ending ∨ o.cancelled = true) :
    s.cancelOrder n = s.refuse .locked := by
  simp only [cancelOrder, if_neg up, found]
  rcases late with fixed | running | ending | marked
  · simp [fixed]
  · simp [running]
  · simp [ending]
  · simp [marked]

/-- R50: the cancelled mark is looked at before any field of the amendment. -/
theorem amendOrder_eq_locked (m : Amendment) (up : s.sup.line ≠ .startUp) (found : s.order? n = some o)
    (marked : o.cancelled = true) : s.amendOrder n m = s.refuse .locked := by
  simp [amendOrder, up, found, marked]

end State

/-- Settles O28: the two LOCKED checks hold in every state with this order, so in the one whose frame is taken, and refuse the
request there. -/
theorem cancelLocked : Obligations.CancelLocked := by
  refine ⟨fun s f o asks len up found late => ?cancel, fun s f o m asks len given up found marked => ?amend⟩
  case cancel =>
    refine State.request_of_refuse asks fun h => ?_
    simp only [len, decide_true, Taken.ifLength, if_true]
    exact State.cancelOrder_eq_locked up found late
  case amend =>
    refine State.request_of_refuse asks fun h => ?_
    simp only [given, if_neg (Nat.not_lt.mpr len)]
    exact State.amendOrder_eq_locked m up found marked

end Sys2Proof.Machine
end

section
/-! The interpolation of R124. Rounding is characterised by what its remainder may be (`RoundsAway`), from which it follows that it is
monotone against whole multiples; a table is walked by dropping the breakpoints that the speed has passed. -/

namespace Sys2Proof.Machine

/-- `q` is the integer nearest to `a / b`, halves away from zero: the doubled remainder stays within `b` either way, and meets `b` only
on the side that moves `q` away from zero. -/
def RoundsAway (a b q : Int) : Prop :=
  2 * (a - q * b) ≤ b ∧ -b ≤ 2 * (a - q * b) ∧ (0 ≤ a → 2 * (a - q * b) < b) ∧ (a ≤ 0 → -b < 2 * (a - q * b))

namespace RoundsAway

variable {a b q : Int}

theorem neg (h : RoundsAway (-a) b q) : RoundsAway a b (-q) := by
  obtain ⟨upper, lower, strict_upper, strict_lower⟩ := h
  have flip : a - -q * b = -(-a - q * b) := by rw [Int.neg_mul]; omega
  rw [RoundsAway, flip]
  omega

theorem le_of_le_mul (h : RoundsAway a b q) (hb : 0 < b) {n : Int} (hn : a ≤ n * b) : q ≤ n := by
  obtain ⟨-, lower, -, -⟩ := h
  refine Int.not_lt.mp fun past => ?_
  have : (n + 1) * b ≤ q * b := Int.mul_le_mul_of_nonneg_right past (Int.le_of_lt hb)
  rw [Int.add_mul] at this
  omega

theorem le_of_mul_le (h : RoundsAway a b q) (hb : 0 < b) {n : Int} (hn : n * b ≤ a) : n ≤ q := by
  obtain ⟨upper, -, -, -⟩ := h
  refine Int.not_lt.mp fun short => ?_
  have : (q + 1) * b ≤ n * b := Int.mul_le_mul_of_nonneg_right short (Int.le_of_lt hb)
  rw [Int.add_mul] at this
  omega

/-- A part `k / b` of a difference `d` rounds to a value between 0 and `d`. -/
theorem between {d k : Int} (h : RoundsAway (d * k) b q) (hb : 0 < b) (hk : 0 ≤ k) (hkb : k ≤ b) :
    min 0 d ≤ q ∧ q ≤ max 0 d := by
  rcases Int.le_total 0 d with rising | falling
  · rw [Int.min_eq_left rising, Int.max_eq_right rising]
    have low : 0 * b ≤ d * k := by rw [Int.zero_mul]; exact Int.mul_nonneg rising hk
    exact ⟨h.le_of_mul_le hb low, h.le_of_le_mul hb (Int.mul_le_mul_of_nonneg_left hkb rising)⟩
  · rw [Int.min_eq_right falling, Int.max_eq_left falling]
    have high : d * k ≤ 0 * b := by rw [Int.zero_mul]; exact Int.mul_nonpos_of_nonpos_of_nonneg falling hk
    exact ⟨h.le_of_mul_le hb (Int.mul_le_mul_of_nonpos_left falling hkb), h.le_of_le_mul hb high⟩

end RoundsAway

theorem roundsAway_zero {b : Int} (hb : 0 < b) : RoundsAway 0 b 0 := by
  rw [RoundsAway]
  omega

/-- From 0 on, halves are rounded up. -/
theorem roundsAway_halfUp {a b : Int} (ha : 0 ≤ a) (hb : 0 < b) : RoundsAway a b ((2 * a + b) / (2 * b)) := by
  by_cases zero : a = 0
  case pos =>
    rw [zero, Int.ediv_eq_zero_of_lt (by omega) (by omega)]
    exact roundsAway_zero hb
  case neg =>
    have reached := Int.ediv_mul_le (2 * a + b) (b := 2 * b) (by omega)
    have next := Int.lt_ediv_add_one_mul_self (2 * a + b) (b := 2 * b) (by omega)
    rw [Int.add_mul, Int.mul_left_comm] at next
    rw [Int.mul_left_comm] at reached
    rw [RoundsAway]
    omega

/-- Below 0 the model rounds the opposite number and takes the sign back. -/
theorem roundDiv_roundsAway (a : Int) {b : Nat} (hb : 0 < b) : RoundsAway a b (roundDiv a b) := by
  have run : (0 : Int) < b := Int.natCast_pos.mpr hb
  rw [roundDiv]
  split
  case isTrue nonneg => exact roundsAway_halfUp nonneg run
  case isFalse below =>
    rw [← Int.mul_neg]
    exact (roundsAway_halfUp (by omega) run).neg

/-! ### Walking a table -/

theorem speed_pairwise_of_breakpointsRise {t : List Breakpoint} (h : breakpointsRise t = true) :
    t.Pairwise (·.speed < ·.speed) := by
  induction t using breakpointsRise.induct with
  | case1 => exact .nil
  | case2 b => exact List.pairwise_singleton _ b
  | case3 b c rest ih =>
    simp only [breakpointsRise, Bool.and_eq_true, decide_eq_true_eq] at h
    obtain ⟨⟨faster, -⟩, rises⟩ := h
    have later := ih rises
    have beyond := (List.pairwise_cons.mp later).1
    exact .cons (List.forall_mem_cons.mpr ⟨faster, fun z hz => Nat.lt_trans faster (beyond z hz)⟩) later

section

variable {y : Breakpoint → Nat} {v : Nat} {b c : Breakpoint} {l r : List Breakpoint}

theorem interpolate_of_le_first (hv : v ≤ b.speed) : interpolate y v (b :: r) = y b := by
  cases r with
  | nil => rfl
  | cons c rest => rw [interpolate, if_pos hv]

theorem interpolate_cons_of_passed (hb : b.speed < v) (hc : c.speed ≤ v) :
    interpolate y v (b :: c :: r) = interpolate y v (c :: r) := by
  rw [interpolate, if_neg (by omega), if_neg (by omega)]

/-- Breakpoints the speed has passed play no part. -/
theorem interpolate_append_of_passed (rises : breakpointsRise (l ++ b :: r) = true) (hv : b.speed ≤ v) :
    interpolate y v (l ++ b :: r) = interpolate y v (b :: r) := by
  obtain ⟨-, -, ordered⟩ := List.pairwise_append.mp (speed_pairwise_of_breakpointsRise rises)
  have passed : ∀ x ∈ l, x.speed < v := fun x hx => Nat.lt_of_lt_of_le (ordered x hx b List.mem_cons_self) hv
  clear ordered rises
  induction l with
  | nil => rfl
  | cons x l ih =>
    obtain ⟨hx, hl⟩ := List.forall_mem_cons.mp passed
    rw [← ih hl]
    cases l with
    | nil => exact interpolate_cons_of_passed hx hv
    | cons z l => exact interpolate_cons_of_passed hx (Nat.le_of_lt (hl z List.mem_cons_self))

/-- The value in a segment stands above or below its first breakpoint by the rounded part of the segment's rise. -/
theorem interpolate_segment (hv : b.speed ≤ v) (hc : v < c.speed) :
    RoundsAway (((y c : Int) - y b) * ((v : Int) - b.speed)) ((c.speed : Int) - b.speed)
      ((interpolate y v (b :: c :: r) : Int) - y b) := by
  have run : (0 : Int) < (c.speed : Int) - b.speed := by omega
  rcases Nat.eq_or_lt_of_le hv with at_b | beyond
  · rw [interpolate_of_le_first (Nat.le_of_eq at_b.symm), ← at_b, Int.sub_self, Int.sub_self, Int.mul_zero]
    exact roundsAway_zero run
  · have rounded := roundDiv_roundsAway (((y c : Int) - y b) * ((v : Int) - b.speed)) (Nat.sub_pos_of_lt (Nat.lt_of_le_of_lt hv hc))
    rw [Int.natCast_sub (Nat.le_trans hv (Nat.le_of_lt hc))] at rounded
    have inside := rounded.between run (by omega) (by omega)
    rw [interpolate, if_neg (by omega), if_pos hc, Int.toNat_of_nonneg (by omega), Int.add_comm, Int.add_sub_cancel]
    exact rounded

theorem interpolate_between (hv : b.speed ≤ v) (hc : v < c.speed) :
    min (y b) (y c) ≤ interpolate y v (b :: c :: r) ∧ interpolate y v (b :: c :: r) ≤ max (y b) (y c) := by
  have inside := (interpolate_segment (y := y) (r := r) hv hc).between (by omega) (by omega) (by omega)
  omega

theorem interpolate_of_last_le (rises : breakpointsRise (l ++ [b, c]) = true) (hv : c.speed ≤ v) :
    interpolate y v (l ++ [b, c]) = y c := by
  rw [List.append_cons] at rises ⊢
  exact interpolate_append_of_passed rises hv

end

/-- Settles O56: the breakpoints before the segment drop out, and in the segment the rounding's remainder bounds are the claim. -/
theorem interpolation : Obligations.Interpolation := by
  refine ⟨fun _ _ => rfl, fun y l r b c v rises => ⟨?first, ?last, ?segment⟩⟩
  case first =>
    rintro rfl
    exact interpolate_of_le_first
  case last =>
    rintro rfl
    exact interpolate_of_last_le rises
  case segment =>
    intro hv hc
    dsimp only
    rw [interpolate_append_of_passed rises hv]
    obtain ⟨upper, lower, strict_upper, strict_lower⟩ := interpolate_segment (y := y) (r := r) hv hc
    exact ⟨fun at_b => interpolate_of_le_first (Nat.le_of_eq at_b), upper, lower, strict_upper, strict_lower, interpolate_between hv hc⟩

end Sys2Proof.Machine
end
